-- ==== Sys2Proof/Word.lean ====
section
/-! DEFINITION. The word types of the block, the number type, complex pairs and the ceiling division of 00_scope.md R13. -/

namespace Sys2Proof

/-- A word of the CMD, RSP and EVQ streams: 32 bits (R13, R90). -/
abbrev Word := BitVec 32

/-- A byte of a byte string (R62). -/
abbrev Byte := BitVec 8

/-- The number type `Num` of R14. The spec takes `Num` as a parameter of the model (R9, D2: OPEN parameter `NUM`); this model
takes the exact rationals: `+ - * /`, the order and `floor` are exact. DESIGN CHOICE, log 1, unsafe. -/
abbrev Num := Rat

/-- A complex value: a pair `(re, im)` of `Num` (R14). -/
structure Cpx where
  re : Num
  im : Num
  deriving DecidableEq, Repr, Inhabited

/-- `ceil_div(a, b)`: the least integer not below `a / b`, for `b > 0` (R13). -/
def ceilDiv (a b : Nat) : Nat := (a + b - 1) / b

end Sys2Proof
end

