-- ==== Sys2Proof/Config.lean ====
section
/-! DEFINITION. What an implementation fixes and what the spec leaves free (00_scope.md R9, R10, R38): build parameters, seeds,
and the free values as opaque constants. Nothing can be proved of an opaque constant beyond its type; the laws the spec
states are built in where they are used (Machine/Collab.lean). -/

namespace Sys2Proof.Config

/-- `M_MAX`, the largest `M` the buffers hold: this spec's value (R9). DESIGN CHOICE, log 10. -/
def mMax : Nat := 65534

/-- `H_DESC`, the length of the header descriptor in bytes (R9, R194). -/
def hDesc : Nat := 5

/-- `SEED_S0`, the short preamble's seed (R141). -/
def seedShort : BitVec 16 := 0xACE1#16

/-- `SEED_S1`, the long preamble's seed (R141). -/
def seedLong : BitVec 16 := 0x3C5A#16

/-- `SEED_PILOT`, the pilots' seed (R141). -/
def seedPilot : BitVec 16 := 0x7A5B#16

/-- Free value: the four bytes of the `CRC32` collaborator (R12, U8). Log 5. -/
opaque crc32 : List Byte → Vector Byte 4

/-- Free value: whether the `CRC32` collaborator accepts a string that is not the checksum it computes (R10, U8). Log 5. -/
opaque crc32Accepts : List Byte → List Byte → Bool

/-- Free value: a bound on the expansion ratio of `H128` (R10, R12, U8). Log 6. -/
opaque h128Ratio : Nat

/-- Free value: how many bytes `H128` would add to a message of `n` bytes, before the bound (R10, R12, U8). Log 6. -/
opaque h128Extra : Nat → Nat

/-- How many bytes `H128` adds to a message of `n` bytes: free, with a bounded expansion ratio, as R10 says; so none to an empty
message, as R193 says. Log 6. -/
def h128Added (n : Nat) : Nat := min (h128Extra n) (h128Ratio * n)

/-- Free value: the `H128` code for messages of `n` bytes, as a bijection of the encoded strings: the code word of `b` is the
image of `b` followed by zeros (R10, U8). Log 6. -/
opaque h128Code (n : Nat) : Vector Byte (n + h128Added n) ≃ Vector Byte (n + h128Added n)

/-- Free value: what the `H128` decoder returns for a string that is no code word, and whether it reports success
(R10, U8, U12). Log 6. -/
opaque h128Repair (n : Nat) : List Byte → Vector Byte n × Bool

/-- Free value: the sixteen points of the `QAM16` collaborator (R12, U8). Log 7. -/
opaque qam16Points : Vector Cpx 16

/-- Free value: the bits the `QAM16` demapper answers for a value that is none of the sixteen points (R12, U8). Log 7. -/
opaque qam16Nearest : Cpx → BitVec 4

/-- Free value: the soft metric of a demodulated value, by modulation id (R10, R11). Log 18. -/
opaque softMetric : Byte → Cpx → Num

/-- Free value: the number a NaN or infinity word stands for (U6). Log 8. -/
opaque numOfNonFinite : Word → Num

/-- Free value: the word of a number that binary32 cannot hold exactly (R63, U13). Log 9. -/
opaque wordOfInexact : Num → Word

end Sys2Proof.Config
end

