-- ==== Sys2Proof/Syntax.lean ====
section
/-! DEFINITION. The eleven commands of OFFC-1 (30_encoding.md R92) with their decoded operands (R95 to R106), and the finite
sets of names the operands and the state use: allocation tags, scheme ids, CSRs. -/

namespace Sys2Proof

/-- An allocation tag (R16, R120). -/
inductive Tag where
  | null | pilot | data
  deriving DecidableEq, Repr

/-- A tag as it crosses the command stream: two bits, of which code 3 is reserved (R16, R95 (e)). -/
abbrev TagCode := BitVec 2

/-- The checksum ids of R12. -/
inductive CheckId where
  | none | sum8 | crc32
  deriving DecidableEq, Repr

/-- The FEC ids of R12. -/
inductive FecId where
  | none | h128 | rep3
  deriving DecidableEq, Repr

/-- The modulation ids of R12. -/
inductive ModId where
  | bpsk | qpsk | qam16
  deriving DecidableEq, Repr

/-- The control and status registers of 10_state.md R35, in the order of its table. -/
inductive Csr where
  | txState | txM | txCptp | txProps | txHdrfmt | txMaxpay | txCursor | txNtot | txNhdr | txNpay | txCounts
  | rxState | rxM | rxCptp | rxHdrfmt | rxMaxsyms | rxDetT2 | rxLongT2 | rxAlpha | rxKappa | rxEvmask
  | rxTimer | rxNsym | rxSymidx | rxNu | rxTau | rxPhi | rxCounts | rxNhdr | rxNpay | rxEvcount
  deriving DecidableEq, Repr

/-- The operand words of a command, decoded: either they fit the layout rule of its opcode, or they do not (R107 (b), (c), (d)),
and the words are kept as they came. The distinction is made at decoding, and answered by the meaning, because R111 puts
the "unit is configured" check before it. -/
inductive Operands (α : Type) where
  | fits (o : α)
  | misfit (ws : List Word)
  deriving DecidableEq, Repr

/-- The properties bundle: payload checksum, header FEC, payload FEC and payload modulation ids (R96 word 2, R97). -/
structure PropsOps where
  check : Byte
  fec0 : Byte
  fec1 : Byte
  mod : Byte
  deriving DecidableEq, Repr

/-- `TXCFG` operands (R96). `L` is the length of `table`. -/
structure TxCfgOps where
  m : BitVec 16
  cpLen : BitVec 16
  taperLen : BitVec 16
  props : PropsOps
  hdrMod : Byte
  hUser : Byte
  maxPaySyms : Word
  table : List TagCode
  deriving DecidableEq, Repr

/-- `ASSEMBLE` operands (R98): `payload_len`, and the words after it, whose split into user header and payload needs
`tx.H_USER` and so is made by the meaning. -/
structure AssembleOps where
  payloadLen : Word
  body : List Word
  deriving DecidableEq, Repr

/-- `RXCFG` operands (R100); the four `Num` operands are still words here (R95 (b)). `L` is the length of `table`. -/
structure RxCfgOps where
  m : BitVec 16
  cpLen : BitVec 16
  taperLen : BitVec 16
  hdrCheck : Byte
  hdrFec : Byte
  hdrMod : Byte
  hUser : Byte
  maxSyms : Word
  detT2 : Word
  longT2 : Word
  alpha : Word
  kappa : Word
  table : List TagCode
  deriving DecidableEq, Repr

/-- A complex sample as two words, real part first (R95 (c)). -/
structure SampleWords where
  re : Word
  im : Word
  deriving DecidableEq, Repr

/-- `ALLOCCHK` operands (R106). `L` is the length of `table`. -/
structure AllocChkOps where
  m : Word
  table : List TagCode
  deriving DecidableEq, Repr

/-- The eleven host commands of R92, one constructor per row of the opcode table. -/
inductive Instr where
  /-- 0x01, R96: configure the TXU. -/
  | txcfg (o : Operands TxCfgOps)
  /-- 0x02, R97: replace the TXU's properties. -/
  | txprops (o : Operands PropsOps)
  /-- 0x03, R98: precompute a frame. -/
  | assemble (o : Operands AssembleOps)
  /-- 0x04, R99: write the next symbol; no operands. -/
  | wrsym (o : Operands Unit)
  /-- 0x11, R100: configure the RXU. -/
  | rxcfg (o : Operands RxCfgOps)
  /-- 0x12, R101: consume samples; `N` is the length of the list. -/
  | execute (o : Operands (List SampleWords))
  /-- 0x13, R102: reset the RXU; no operands. -/
  | rxreset (o : Operands Unit)
  /-- 0x14, R103: enable or disable the two event kinds, bit 0 `HEADER` and bit 1 `FRAME`. -/
  | rxsetcb (o : Operands (BitVec 2))
  /-- 0x20, R104: read a CSR; a number that is no CSR does not fit. -/
  | rdcsr (o : Operands Csr)
  /-- 0x21, R105: the default table for `M`. -/
  | defalloc (o : Operands Word)
  /-- 0x22, R106: validate a table. -/
  | allocchk (o : Operands AllocChkOps)
  deriving DecidableEq, Repr

end Sys2Proof
end

