-- ==== Sys2Proof/Machine/Operands.lean ====
section
/-! DEFINITION. The operand forms of 30_encoding.md R95 and 20_memory.md R62 to R65: byte strings, tables, numbers and bit
streams in words, and the ids and CSR numbers in fields. -/

namespace Sys2Proof.Machine

/-- The first `k` consecutive groups of `n` elements. -/
def chunks {α : Type} (n : Nat) : Nat → List α → List (List α)
  | 0, _ => []
  | k + 1, l => l.take n :: chunks n k (l.drop n)

/-! ### Byte strings (R62) -/

/-- Up to four bytes in one word, the first in the lowest lane, unused lanes 0 (R62). -/
def packWord (bs : List Byte) : Word := bs.foldr (fun b w => (w <<< 8) ||| b.setWidth 32) 0#32

/-- A byte string in words (R62). -/
def packBytes (bs : List Byte) : List Word := (chunks 4 (ceilDiv bs.length 4) bs).map packWord

/-- The four lanes of a word, lowest first. -/
def bytesOfWord (w : Word) : List Byte := (List.range 4).map fun i => w.extractLsb' (8 * i) 8

/-- The byte string of `n` bytes in words; the unused lanes of the last word are ignored (R62). -/
def unpackBytes (n : Nat) (ws : List Word) : List Byte := (ws.flatMap bytesOfWord).take n

/-! ### Tables (R95 (e)) -/

/-- Up to sixteen tag codes in one word, entry 0 lowest, unused fields 0 (R95 (e)). -/
def packTagWord (ts : List TagCode) : Word := ts.foldr (fun t w => (w <<< 2) ||| t.setWidth 32) 0#32

/-- A table in words (R95 (e)). -/
def packTable (ts : List TagCode) : List Word := (chunks 16 (ceilDiv ts.length 16) ts).map packTagWord

/-- The sixteen tag fields of a word, lowest first. -/
def tagsOfWord (w : Word) : List TagCode := (List.range 16).map fun i => w.extractLsb' (2 * i) 2

/-- The table of `n` entries in words; entries beyond `n` are ignored (R95 (e)). -/
def unpackTable (n : Nat) (ws : List Word) : List TagCode := (ws.flatMap tagsOfWord).take n

/-- The code of a tag (R16). -/
def tagCode : Tag → TagCode
  | .null => 0#2
  | .pilot => 1#2
  | .data => 2#2

/-- The tag of a code; code 3 has none (R16). -/
def tagOfCode (c : TagCode) : Option Tag :=
  if c = 0#2 then some .null else if c = 1#2 then some .pilot else if c = 2#2 then some .data else none

/-! ### Scheme ids (R12) and CSR numbers (10_state.md R35) -/

/-- The 8-bit id of a checksum scheme. -/
def checkCode : CheckId → Byte
  | .none => 0#8
  | .sum8 => 1#8
  | .crc32 => 2#8

/-- The checksum scheme of an id; an id outside R12's table is unsupported. -/
def checkOfCode (c : Byte) : Option CheckId :=
  if c = 0#8 then some .none else if c = 1#8 then some .sum8 else if c = 2#8 then some .crc32 else none

/-- The 8-bit id of a FEC scheme. -/
def fecCode : FecId → Byte
  | .none => 0#8
  | .h128 => 1#8
  | .rep3 => 2#8

/-- The FEC scheme of an id; an id outside R12's table is unsupported. -/
def fecOfCode (c : Byte) : Option FecId :=
  if c = 0#8 then some .none else if c = 1#8 then some .h128 else if c = 2#8 then some .rep3 else none

/-- The 8-bit id of a modulation. -/
def modCode : ModId → Byte
  | .bpsk => 0#8
  | .qpsk => 1#8
  | .qam16 => 2#8

/-- The modulation of an id; an id outside R12's table is unsupported. -/
def modOfCode (c : Byte) : Option ModId :=
  if c = 0#8 then some .bpsk else if c = 1#8 then some .qpsk else if c = 2#8 then some .qam16 else none

/-- The number of a CSR (10_state.md R35). -/
def csrNumber : Csr → Word
  | .txState => 0x00#32
  | .txM => 0x01#32
  | .txCptp => 0x02#32
  | .txProps => 0x03#32
  | .txHdrfmt => 0x04#32
  | .txMaxpay => 0x05#32
  | .txCursor => 0x06#32
  | .txNtot => 0x07#32
  | .txNhdr => 0x08#32
  | .txNpay => 0x09#32
  | .txCounts => 0x0A#32
  | .rxState => 0x10#32
  | .rxM => 0x11#32
  | .rxCptp => 0x12#32
  | .rxHdrfmt => 0x13#32
  | .rxMaxsyms => 0x14#32
  | .rxDetT2 => 0x15#32
  | .rxLongT2 => 0x16#32
  | .rxAlpha => 0x17#32
  | .rxKappa => 0x18#32
  | .rxEvmask => 0x19#32
  | .rxTimer => 0x1A#32
  | .rxNsym => 0x1B#32
  | .rxSymidx => 0x1C#32
  | .rxNu => 0x1D#32
  | .rxTau => 0x1E#32
  | .rxPhi => 0x1F#32
  | .rxCounts => 0x20#32
  | .rxNhdr => 0x21#32
  | .rxNpay => 0x22#32
  | .rxEvcount => 0x23#32

/-- Every CSR, in the order of the table of 10_state.md R35. -/
def allCsrs : List Csr :=
  [.txState, .txM, .txCptp, .txProps, .txHdrfmt, .txMaxpay, .txCursor, .txNtot, .txNhdr, .txNpay, .txCounts,
   .rxState, .rxM, .rxCptp, .rxHdrfmt, .rxMaxsyms, .rxDetT2, .rxLongT2, .rxAlpha, .rxKappa, .rxEvmask,
   .rxTimer, .rxNsym, .rxSymidx, .rxNu, .rxTau, .rxPhi, .rxCounts, .rxNhdr, .rxNpay, .rxEvcount]

/-- The CSR of a number, if the number is in the table (10_state.md R35). -/
def csrOfNumber (n : Word) : Option Csr := allCsrs.find? fun c => csrNumber c == n

/-! ### Numbers (R63) -/

/-- The magnitude of a finite binary32 word, in units of `2 ^ -149` (R63, G4). -/
def magnitudeUnits (w : Word) : Nat :=
  let e := (w.extractLsb' 23 8).toNat
  let f := (w.extractLsb' 0 23).toNat
  if e = 0 then f else (2 ^ 23 + f) * 2 ^ (e - 1)

/-- `num_of_word` (R63): the number a binary32 word encodes. A NaN or an infinity stands for a free value (U6; log 8). -/
def numOfWord (w : Word) : Num :=
  if w.extractLsb' 23 8 = 255#8 then Config.numOfNonFinite w
  else
    let a : Num := (magnitudeUnits w : Num) / 2 ^ 149
    if w.msb then -a else a

/-- The exponent and fraction fields of the binary32 number of `u` units of `2 ^ -149`, where there is one (R63, G4). -/
def fieldsOfUnits (u : Nat) : Option (BitVec 31) :=
  if u < 2 ^ 23 then some (BitVec.ofNat 31 u)
  else
    let k := Nat.log2 u - 23
    if u % 2 ^ k = 0 ∧ k + 1 ≤ 254 then some (BitVec.ofNat 8 (k + 1) ++ BitVec.ofNat 23 (u / 2 ^ k - 2 ^ 23)) else none

/-- `word_of_num` (R63): the binary32 word that encodes the number. A number binary32 cannot hold exactly reads as a free
value (U13; log 9). The number zero reads as the word 0 (10_state.md R35; log 9). -/
def wordOfNum (q : Num) : Word :=
  if 2 ^ 149 % q.den = 0 then
    match fieldsOfUnits (q.num.natAbs * (2 ^ 149 / q.den)) with
    | some f => BitVec.ofBool (decide (q < 0)) ++ f
    | none => Config.wordOfInexact q
  else Config.wordOfInexact q

/-- The complex value of a pair of words, real part first (R63, R95 (c)). -/
def cpxOfWords (w : SampleWords) : Cpx := ⟨numOfWord w.re, numOfWord w.im⟩

/-- The two words of a complex value, real part first (R63). -/
def wordsOfCpx (z : Cpx) : List Word := [wordOfNum z.re, wordOfNum z.im]

/-! ### Bit streams (R64) -/

/-- The bits of a byte, most significant first (R64). -/
def bitsOfByte (b : Byte) : List Bool := (List.range 8).map fun i => b.getMsbD i

/-- The bit stream of a byte string (R64). -/
def bitsOfBytes (bs : List Byte) : List Bool := bs.flatMap bitsOfByte

/-- Eight bits, most significant first, as a byte (R64). -/
def byteOfBits (bits : List Bool) : Byte := bits.foldl (fun b x => (b <<< 1) ||| (BitVec.ofBool x).setWidth 8) 0#8

/-- The bytes of a bit stream; a last group of fewer than eight bits is dropped (R64, R240). -/
def bytesOfBits (bits : List Bool) : List Byte := (chunks 8 (bits.length / 8) bits).map byteOfBits

end Sys2Proof.Machine
end

