-- ==== Sys2Proof/WellFormed.lean ====
section
/-! DEFINITION. Which terms of `Instr` a command on CMD can carry and its layout rule describes (30_encoding.md R91, R95 to R107).
A well-formed command has operands that fit its layout, an operand count that the 24-bit field `NW` can hold, and, for
`ASSEMBLE`, a word count that some `H_USER` of 0 to 255 explains (R98). -/

namespace Sys2Proof

/-- The words of a table of `n` entries (R95 (e)). -/
def tableWordCount (n : Nat) : Nat := ceilDiv n 16

/-- The number of operand words `NW` (R96 to R106); for operands that do not fit, the words they came in. -/
def operandWords : Instr → Nat
  | .txcfg (.fits o) => 6 + tableWordCount o.table.length
  | .txprops (.fits _) => 1
  | .assemble (.fits o) => 1 + o.body.length
  | .wrsym (.fits _) => 0
  | .rxcfg (.fits o) => 9 + tableWordCount o.table.length
  | .execute (.fits o) => 1 + 2 * o.length
  | .rxreset (.fits _) => 0
  | .rxsetcb (.fits _) => 1
  | .rdcsr (.fits _) => 1
  | .defalloc (.fits _) => 1
  | .allocchk (.fits o) => 2 + tableWordCount o.table.length
  | .txcfg (.misfit ws) => ws.length
  | .txprops (.misfit ws) => ws.length
  | .assemble (.misfit ws) => ws.length
  | .wrsym (.misfit ws) => ws.length
  | .rxcfg (.misfit ws) => ws.length
  | .execute (.misfit ws) => ws.length
  | .rxreset (.misfit ws) => ws.length
  | .rxsetcb (.misfit ws) => ws.length
  | .rdcsr (.misfit ws) => ws.length
  | .defalloc (.misfit ws) => ws.length
  | .allocchk (.misfit ws) => ws.length

/-- The operands fit their layout rule (R107 (b) to (d)). -/
def Operands.fitsLayout {α : Type} : Operands α → Bool
  | .fits _ => true
  | .misfit _ => false

/-- The operands of the command fit its layout rule. -/
def operandsFit : Instr → Bool
  | .txcfg o => o.fitsLayout
  | .txprops o => o.fitsLayout
  | .assemble o => o.fitsLayout
  | .wrsym o => o.fitsLayout
  | .rxcfg o => o.fitsLayout
  | .execute o => o.fitsLayout
  | .rxreset o => o.fitsLayout
  | .rxsetcb o => o.fitsLayout
  | .rdcsr o => o.fitsLayout
  | .defalloc o => o.fitsLayout
  | .allocchk o => o.fitsLayout

/-- `NW` is a 24-bit field (R91). -/
def countFits (i : Instr) : Bool := operandWords i < 2 ^ 24

/-- The words after `payload_len` are those of the payload and of a user header of at most 255 bytes (R8, R98). -/
def bodySplits : Instr → Bool
  | .assemble (.fits o) =>
      ceilDiv o.payloadLen.toNat 4 ≤ o.body.length && o.body.length ≤ ceilDiv o.payloadLen.toNat 4 + 64
  | _ => true

/-- A well-formed command. -/
def WellFormed (i : Instr) : Bool := operandsFit i && countFits i && bodySplits i

end Sys2Proof
end

