-- ==== Sys2Proof/Decode.lean ====
section
/-! DEFINITION. Decoding of the command stream (30_encoding.md R91, R92, R95 to R107), total on any words: a reserved opcode is
rejected by name; operands that do not fit their layout decode to the opcode's own command with its words kept, because the
status such a command answers depends on the unit's state (R111). After it, the encoder. -/

namespace Sys2Proof

open Machine

/-- The field `op` of a header word (R91). -/
def headerOpcode (h : Word) : Byte := h.extractLsb' 24 8

/-- The field `NW` of a header word (R91). -/
def headerCount (h : Word) : Nat := (h.extractLsb' 0 24).toNat

/-- The first `n` words of a stream and the rest, if it holds as many. -/
def splitWords : Nat → List Word → Option (List Word × List Word)
  | 0, ws => some ([], ws)
  | _ + 1, [] => none
  | n + 1, w :: ws =>
    match splitWords n ws with
    | some (a, rest) => some (w :: a, rest)
    | none => none

/-- The first command of a stream: its header word, its operand words and the rest of the stream. Its length is `1 + NW` from the
header word alone, whatever the opcode (R91, R108). `none` while the stream holds no complete command. -/
def takeCommand : List Word → Option (Word × List Word × List Word)
  | [] => none
  | h :: ws =>
    match splitWords (headerCount h) ws with
    | some (ops, rest) => some (h, ops, rest)
    | none => none

/-- Why a header word is no command. -/
inductive Reject where
  /-- The opcode is reserved (R92, R107 (a)); the block answers `IllegalCommand`. Safe: the spec says so. -/
  | reservedOpcode (op : Byte)
  deriving DecidableEq, Repr

/-- What the decoder makes of a header word and its operand words. -/
inductive Decoded where
  | command (i : Instr)
  | rejected (r : Reject)
  deriving DecidableEq, Repr

/-- The properties word (R96 word 2, R97). -/
def decodeProps (w : Word) : PropsOps :=
  { check := w.extractLsb' 0 8, fec0 := w.extractLsb' 8 8, fec1 := w.extractLsb' 16 8, mod := w.extractLsb' 24 8 }

/-- `TXCFG` operands (R96). -/
def decodeTxCfg : List Word → Operands TxCfgOps
  | w0 :: w1 :: w2 :: w3 :: w4 :: w5 :: tab =>
    if w0.extractLsb' 16 16 = 0#16 ∧ w3.extractLsb' 16 16 = 0#16 ∧ tab.length = tableWordCount w5.toNat then
      .fits { m := w0.extractLsb' 0 16, cpLen := w1.extractLsb' 0 16, taperLen := w1.extractLsb' 16 16, props := decodeProps w2,
              hdrMod := w3.extractLsb' 0 8, hUser := w3.extractLsb' 8 8, maxPaySyms := w4, table := unpackTable w5.toNat tab }
    else .misfit (w0 :: w1 :: w2 :: w3 :: w4 :: w5 :: tab)
  | ws => .misfit ws

/-- `TXPROPS` operands (R97). -/
def decodeTxProps : List Word → Operands PropsOps
  | [w] => .fits (decodeProps w)
  | ws => .misfit ws

/-- `ASSEMBLE` operands (R98), as far as they can be told apart without `tx.H_USER`. -/
def decodeAssemble : List Word → Operands AssembleOps
  | w0 :: body => .fits { payloadLen := w0, body := body }
  | ws => .misfit ws

/-- The operands of a command that has none (R99, R102). -/
def decodeNone : List Word → Operands Unit
  | [] => .fits ()
  | ws => .misfit ws

/-- `RXCFG` operands (R100). -/
def decodeRxCfg : List Word → Operands RxCfgOps
  | w0 :: w1 :: w2 :: w3 :: w4 :: w5 :: w6 :: w7 :: w8 :: tab =>
    if w0.extractLsb' 16 16 = 0#16 ∧ tab.length = tableWordCount w8.toNat then
      .fits { m := w0.extractLsb' 0 16, cpLen := w1.extractLsb' 0 16, taperLen := w1.extractLsb' 16 16,
              hdrCheck := w2.extractLsb' 0 8, hdrFec := w2.extractLsb' 8 8, hdrMod := w2.extractLsb' 16 8,
              hUser := w2.extractLsb' 24 8, maxSyms := w3, detT2 := w4, longT2 := w5, alpha := w6, kappa := w7,
              table := unpackTable w8.toNat tab }
    else .misfit (w0 :: w1 :: w2 :: w3 :: w4 :: w5 :: w6 :: w7 :: w8 :: tab)
  | ws => .misfit ws

/-- Pairs of words as samples (R95 (c)); a last odd word is left out. -/
def pairSamples : List Word → List SampleWords
  | re :: im :: ws => ⟨re, im⟩ :: pairSamples ws
  | _ => []

/-- `EXECUTE` operands (R101). -/
def decodeExecute : List Word → Operands (List SampleWords)
  | w0 :: ws => if ws.length = 2 * w0.toNat then .fits (pairSamples ws) else .misfit (w0 :: ws)
  | ws => .misfit ws

/-- `RXSETCB` operands (R103). -/
def decodeRxSetCb : List Word → Operands (BitVec 2)
  | [w] => if w.extractLsb' 2 30 = 0#30 then .fits (w.extractLsb' 0 2) else .misfit [w]
  | ws => .misfit ws

/-- `RDCSR` operands (R104, R107 (d)). -/
def decodeRdCsr : List Word → Operands Csr
  | [w] =>
    match csrOfNumber w with
    | some c => .fits c
    | none => .misfit [w]
  | ws => .misfit ws

/-- `DEFALLOC` operands (R105). -/
def decodeDefAlloc : List Word → Operands Word
  | [w] => .fits w
  | ws => .misfit ws

/-- `ALLOCCHK` operands (R106). -/
def decodeAllocChk : List Word → Operands AllocChkOps
  | w0 :: w1 :: tab =>
    if tab.length = tableWordCount w1.toNat then .fits { m := w0, table := unpackTable w1.toNat tab }
    else .misfit (w0 :: w1 :: tab)
  | ws => .misfit ws

/-- The opcode map (R92). -/
def decode (h : Word) (ops : List Word) : Decoded :=
  match headerOpcode h with
  | 0x01#8 => .command (.txcfg (decodeTxCfg ops))
  | 0x02#8 => .command (.txprops (decodeTxProps ops))
  | 0x03#8 => .command (.assemble (decodeAssemble ops))
  | 0x04#8 => .command (.wrsym (decodeNone ops))
  | 0x11#8 => .command (.rxcfg (decodeRxCfg ops))
  | 0x12#8 => .command (.execute (decodeExecute ops))
  | 0x13#8 => .command (.rxreset (decodeNone ops))
  | 0x14#8 => .command (.rxsetcb (decodeRxSetCb ops))
  | 0x20#8 => .command (.rdcsr (decodeRdCsr ops))
  | 0x21#8 => .command (.defalloc (decodeDefAlloc ops))
  | 0x22#8 => .command (.allocchk (decodeAllocChk ops))
  | op => .rejected (.reservedOpcode op)

/-! ### The encoder -/

/-- A header word (R91). -/
def headerWord (op : Byte) (nw : Nat) : Word := op ++ BitVec.ofNat 24 nw

/-- The opcode of a command (R92). -/
def opcodeOf : Instr → Byte
  | .txcfg _ => 0x01#8
  | .txprops _ => 0x02#8
  | .assemble _ => 0x03#8
  | .wrsym _ => 0x04#8
  | .rxcfg _ => 0x11#8
  | .execute _ => 0x12#8
  | .rxreset _ => 0x13#8
  | .rxsetcb _ => 0x14#8
  | .rdcsr _ => 0x20#8
  | .defalloc _ => 0x21#8
  | .allocchk _ => 0x22#8

/-- The properties word (R97). -/
def encodeProps (p : PropsOps) : Word := p.mod ++ p.fec1 ++ p.fec0 ++ p.check

/-- The operand words of operands that fit, by the layout `f`; of operands that do not, the words they came in. -/
def encodeOperands {α : Type} (f : α → List Word) : Operands α → List Word
  | .fits o => f o
  | .misfit ws => ws

/-- The operand words of a command (R96 to R106). -/
def operandsOf : Instr → List Word
  | .txcfg o => encodeOperands (fun c =>
      c.m.setWidth 32 :: (c.taperLen ++ c.cpLen) :: encodeProps c.props :: (0#16 ++ c.hUser ++ c.hdrMod) :: c.maxPaySyms ::
        BitVec.ofNat 32 c.table.length :: packTable c.table) o
  | .txprops o => encodeOperands (fun p => [encodeProps p]) o
  | .assemble o => encodeOperands (fun a => a.payloadLen :: a.body) o
  | .wrsym o => encodeOperands (fun _ => []) o
  | .rxcfg o => encodeOperands (fun c =>
      c.m.setWidth 32 :: (c.taperLen ++ c.cpLen) :: (c.hUser ++ c.hdrMod ++ c.hdrFec ++ c.hdrCheck) :: c.maxSyms ::
        c.detT2 :: c.longT2 :: c.alpha :: c.kappa :: BitVec.ofNat 32 c.table.length :: packTable c.table) o
  | .execute o => encodeOperands (fun xs => BitVec.ofNat 32 xs.length :: xs.flatMap fun x => [x.re, x.im]) o
  | .rxreset o => encodeOperands (fun _ => []) o
  | .rxsetcb o => encodeOperands (fun b => [b.setWidth 32]) o
  | .rdcsr o => encodeOperands (fun c => [csrNumber c]) o
  | .defalloc o => encodeOperands (fun m => [m]) o
  | .allocchk o => encodeOperands (fun a => a.m :: BitVec.ofNat 32 a.table.length :: packTable a.table) o

/-- The words of a command on CMD (R91). -/
def encode (i : Instr) : List Word := headerWord (opcodeOf i) (operandWords i) :: operandsOf i

/-! ### Words as the opcode table numbers their bits -/

/-- The first `n` words of the number `w`, bit 0 of `w` being bit 0 of the first word. -/
def wordsOfNat : Nat → Nat → List Word
  | 0, _ => []
  | n + 1, w => BitVec.ofNat 32 w :: wordsOfNat n (w / 2 ^ 32)

/-- The command whose first bits are the `nbits` low bits of `w`, every later operand bit being 0. -/
def tableWords (nbits w : Nat) : List Word :=
  match wordsOfNat (ceilDiv nbits 32) (w % 2 ^ nbits) with
  | [] => [0#32]
  | h :: given =>
    let ops := given.take (headerCount h)
    h :: (ops ++ List.replicate (headerCount h - ops.length) 0#32)

/-- The instruction the decoder reads from a command given as a number of `nbits` bits. -/
def decodeTableWord (nbits w : Nat) : Option Instr :=
  match takeCommand (tableWords nbits w) with
  | some (h, ops, _) =>
    match decode h ops with
    | .command i => some i
    | .rejected _ => none
  | none => none

end Sys2Proof
end

