-- ==== Sys2Proof/Machine/Num.lean ====
section
/-! DEFINITION. Real and complex arithmetic (00_scope.md R14). `+ - * /`, the order and `floor` are those of the rationals, exact.
`pi`, `cos`, `sin`, `cis` and `arg` are the approximating instance that R14 lets a model make: power series to 80 binary places,
within `10^-18` of the real functions (proved in Laws/Num.lean), with the modulus of `cis`, the period, the mirror symmetries, and
the values on the axes exact (log 2, log 3). -/

namespace Sys2Proof

/-! ### Complex pairs -/

/-- The complex value 0. -/
def Cpx.zero : Cpx := ⟨0, 0⟩

/-- A real number as a complex value. -/
def Cpx.ofNum (r : Num) : Cpx := ⟨r, 0⟩

/-- Sum. -/
def Cpx.add (a b : Cpx) : Cpx := ⟨a.re + b.re, a.im + b.im⟩

/-- Difference. -/
def Cpx.sub (a b : Cpx) : Cpx := ⟨a.re - b.re, a.im - b.im⟩

/-- Product. -/
def Cpx.mul (a b : Cpx) : Cpx := ⟨a.re * b.re - a.im * b.im, a.re * b.im + a.im * b.re⟩

/-- Product with a real number. -/
def Cpx.scale (r : Num) (a : Cpx) : Cpx := ⟨r * a.re, r * a.im⟩

/-- `conj(z)` (R14). -/
def Cpx.conj (a : Cpx) : Cpx := ⟨a.re, -a.im⟩

/-- `|z|^2` (R14). -/
def Cpx.normSq (a : Cpx) : Num := a.re * a.re + a.im * a.im

/-- Quotient, exact: `Z * conj(G) / |G|^2` (R177); used only for `G ≠ 0`. -/
def Cpx.div (a b : Cpx) : Cpx := Cpx.scale (1 / b.normSq) (a.mul b.conj)

/-- The sum of a list. -/
def Cpx.sum (zs : List Cpx) : Cpx := zs.foldr Cpx.add Cpx.zero

/-- The sum of a list of numbers. -/
def numSum (xs : List Num) : Num := xs.foldr (· + ·) 0

/-! ### pi, cos, sin, cis, arg -/

/-- `pi` (R14), to twenty decimals. DESIGN CHOICE, log 2. -/
def numPi : Num := 314159265358979323846 / 10 ^ 20

/-- `1 - y / ((k+1)(k+2)) * (1 - y / ((k+3)(k+4)) * ...)`, `n` factors deep: for `y = x^2` the power series of `cos x` at `k = 0`, and
that of `sin x / x` at `k = 1`. -/
def circularSeries (y : Num) : Nat → Nat → Num
  | _, 0 => 1
  | k, n + 1 => 1 - y / (((k + 1) * (k + 2) : Nat) : Num) * circularSeries y (k + 2) n

/-- The cosine of `x` radians by its power series, for `0 <= x < 1`. -/
def cosSeries (x : Num) : Num := circularSeries (x * x) 0 12

/-- The sine of `x` radians by its power series, for `0 <= x < 1`. -/
def sinSeries (x : Num) : Num := x * circularSeries (x * x) 1 12

/-- The greatest multiple of `2^-80` not above `x`. -/
def roundDown (x : Num) : Num := ((x * 2 ^ 80).floor : Num) / 2 ^ 80

/-- The least multiple of `2^-80` not below `x`. -/
def roundUp (x : Num) : Num := -roundDown (-x)

/-- The tangent of half the angle of `t` turns, for `0 <= t < 1/4`, to 80 binary places. -/
def halfTangent (t : Num) : Num := roundDown (sinSeries (numPi * t) / cosSeries (numPi * t))

/-- `cis` of `t` turns for `0 <= t < 1/4`, from the tangent `u` of half the angle: `(1 + j u)^2 / |1 + j u|^2`, whose modulus is 1
whatever the series and the rounding leave out. -/
def cisQuarter (t : Num) : Cpx :=
  let h : Cpx := ⟨1, halfTangent t⟩
  Cpx.scale (1 / h.normSq) (h.mul h)

/-- `cis` of `t` turns for `0 <= t <= 1/2`: the second quarter turn mirrors the first. -/
def cisHalf (t : Num) : Cpx :=
  if t < 1 / 4 then cisQuarter t
  else if t = 1 / 4 then ⟨0, 1⟩
  else ⟨-(cisQuarter (1 / 2 - t)).re, (cisQuarter (1 / 2 - t)).im⟩

/-- `cis (2 pi t)`: the complex value of modulus 1 at `t` turns, of period 1; the second half turn is the conjugate of the first
(R14). -/
def cisTurn (t : Num) : Cpx :=
  let f := t - t.floor
  if f ≤ 1 / 2 then cisHalf f else (cisHalf (1 - f)).conj

/-- The cosine of `t` turns, that is `cos (2 pi t)` (R14). -/
def cosTurn (t : Num) : Num := (cisTurn t).re

/-- The sine of `t` turns, that is `sin (2 pi t)` (R14). -/
def sinTurn (t : Num) : Num := (cisTurn t).im

/-- `cis x` for `x` in radians (R14). -/
def cis (x : Num) : Cpx := cisTurn (x / (2 * numPi))

/-- `1/k - y (1/(k+2) - y (1/(k+4) - ...))`, `n` terms: for `y = r^2` and `k = 1` the power series of `arctan r / r`. -/
def arctanSeries (y : Num) : Nat → Nat → Num
  | _, 0 => 0
  | k, n + 1 => 1 / (k : Num) - y * arctanSeries y (k + 2) n

/-- The angle of the point `(1, r)` for `0 < r <= 1`, in radians: its power series up to `r = 1/2`, and above it the complement to
an eighth of a turn, so that it is exact at `r = 1`; to 80 binary places. -/
def slopeAngle (r : Num) : Num :=
  if r ≤ 1 / 2 then roundUp (r * arctanSeries (r * r) 1 32)
  else
    let q := (1 - r) / (1 + r)
    numPi / 4 - roundDown (q * arctanSeries (q * q) 1 32)

/-- The angle of the point `(x, y)` for positive `x`, `y`; it depends on their ratio only. -/
def quadrantAngle (x y : Num) : Num := if y ≤ x then slopeAngle (y / x) else numPi / 2 - slopeAngle (x / y)

/-- `arg(z)`: the angle of `z` in radians, in `(-pi, pi]`, 0 for `z = 0` (R14). -/
def arg (z : Cpx) : Num :=
  if z.im = 0 then (if z.re < 0 then numPi else 0)
  else if z.re = 0 then (if z.im > 0 then numPi / 2 else -(numPi / 2))
  else
    let a := quadrantAngle |z.re| |z.im|
    let b := if z.re > 0 then a else numPi - a
    if z.im > 0 then b else -b

end Sys2Proof
end

