-- ==== Sys2Proof/Machine/State.lean ====
section
/-! DEFINITION. The state of the block as plain data (10_state.md), the reasons a step could stop (none), and the state after
hardware reset (10_state.md R40, 70_reset_and_hazards.md R320). -/

namespace Sys2Proof.Machine

/-- `tx_state` (R24). -/
inductive TxState where
  | unconfigured | idle | assembled | preamble | header | payload | tail
  deriving DecidableEq, Repr

/-- `rx_state` (R27). -/
inductive RxState where
  | unconfigured | detect | syncShort | syncLong | rxHeader | rxPayload
  deriving DecidableEq, Repr

/-- An event record (R94). -/
inductive EventRecord where
  /-- code 1: `valid`, and the user header bytes (none when invalid). -/
  | header (valid : Bool) (user : List Byte)
  /-- code 2: `valid`, `payload_len`, the user header bytes, the payload bytes. -/
  | frame (valid : Bool) (plen : Nat) (user payload : List Byte)
  deriving DecidableEq, Repr

/-- The TXU's derived constants (R22): the counts and index lists of R121, the taper `w` of R140 and the preamble vectors
`S0`, `S1` of R142, R143. -/
structure TxDerived where
  nNull : Nat
  nPilot : Nat
  nData : Nat
  pil : List Nat
  dat : List Nat
  taper : List Num
  short : List Cpx
  long : List Cpx
  deriving DecidableEq, Repr

/-- The transmit unit: configuration registers (R21), derived constants (R22), per-frame state (R23) and control state
(R24). -/
structure TxUnit where
  state : TxState
  m : Nat
  cpLen : Nat
  taperLen : Nat
  table : List Tag
  check : CheckId
  fec0 : FecId
  fec1 : FecId
  mod : ModId
  hdrMod : ModId
  hUser : Nat
  maxPaySyms : Nat
  derived : TxDerived
  fd : List (List Cpx)
  cursor : Nat
  nHdr : Nat
  nPay : Nat
  nTot : Nat
  ovl : List Cpx
  deriving DecidableEq, Repr

/-- The RXU's derived constants (R26): the counts and lists of R121, `S0`, `S1`, the time-domain short symbol `s0` and its
energy `E0` (R144), and the header counts (R193). -/
structure RxDerived where
  nNull : Nat
  nPilot : Nat
  nData : Nat
  pil : List Nat
  dat : List Nat
  nn : List Nat
  pils : List Nat
  short : List Cpx
  long : List Cpx
  shortTime : List Cpx
  shortEnergy : Num
  hdrEncLen : Nat
  hdrNmod : Nat
  nHdr : Nat
  deriving DecidableEq, Repr

/-- The receive unit: configuration registers (R25), derived constants (R26), control state (R27), window (R28), counters
(R29), best correlation (R30), estimates (R31), decode state (R32) and the event queue (R34). -/
structure RxUnit where
  state : RxState
  m : Nat
  cpLen : Nat
  taperLen : Nat
  table : List Tag
  hdrCheck : CheckId
  hdrFec : FecId
  hdrMod : ModId
  hUser : Nat
  maxSyms : Nat
  detT2 : Num
  longT2 : Num
  alpha : Num
  kappa : Num
  evmask : BitVec 2
  derived : RxDerived
  win : List Cpx
  timer : Nat
  age : Nat
  cnt : Nat
  nsym : Nat
  symIdx : Nat
  bestNum : Num
  bestDen : Num
  bestP : Cpx
  nu : Num
  phi : Num
  tau : Num
  g : List Cpx
  rxbits : List Bool
  pl : BitVec 16
  curMod : ModId
  hdrUser : List Byte
  plen : Nat
  pcheck : CheckId
  pfec : FecId
  pmod : ModId
  payEncLen : Nat
  payNmod : Nat
  nPay : Nat
  evq : List EventRecord
  deriving DecidableEq, Repr

/-- The block: the words of CMD not yet taken, the words of RSP not yet read by the host, and the two units (R60, R72, R90). -/
structure State where
  cmd : List Word
  rsp : List Word
  tx : TxUnit
  rx : RxUnit
  deriving DecidableEq, Repr

/-- Why a step stops with a fault. Nothing does: every failure of the spec is a response and every protocol error an event
(R286, R294), so the type has no constructor. -/
inductive Fault where
  deriving DecidableEq, Repr

/-- Why an instruction has no meaning. -/
inductive Refusal where
  /-- Raised by `exec` for an instruction that has no meaning yet; no arm of this model raises it. Safe: the run stops. -/
  | notModelled (mnemonic : String)
  deriving DecidableEq, Repr

/-- The TXU after hardware reset (R40). -/
def TxUnit.reset : TxUnit where
  state := .unconfigured
  m := 0
  cpLen := 0
  taperLen := 0
  table := []
  check := .none
  fec0 := .none
  fec1 := .none
  mod := .bpsk
  hdrMod := .bpsk
  hUser := 0
  maxPaySyms := 0
  derived := { nNull := 0, nPilot := 0, nData := 0, pil := [], dat := [], taper := [], short := [], long := [] }
  fd := []
  cursor := 0
  nHdr := 0
  nPay := 0
  nTot := 0
  ovl := []

/-- The RXU after hardware reset (R40): all zero but the event mask. -/
def RxUnit.reset : RxUnit where
  state := .unconfigured
  m := 0
  cpLen := 0
  taperLen := 0
  table := []
  hdrCheck := .none
  hdrFec := .none
  hdrMod := .bpsk
  hUser := 0
  maxSyms := 0
  detT2 := 0
  longT2 := 0
  alpha := 0
  kappa := 0
  evmask := 3#2
  derived :=
    { nNull := 0, nPilot := 0, nData := 0, pil := [], dat := [], nn := [], pils := [], short := [], long := [],
      shortTime := [], shortEnergy := 0, hdrEncLen := 0, hdrNmod := 0, nHdr := 0 }
  win := []
  timer := 0
  age := 0
  cnt := 0
  nsym := 0
  symIdx := 0
  bestNum := 0
  bestDen := 0
  bestP := ⟨0, 0⟩
  nu := 0
  phi := 0
  tau := 0
  g := []
  rxbits := []
  pl := 0#16
  curMod := .bpsk
  hdrUser := []
  plen := 0
  pcheck := .none
  pfec := .none
  pmod := .bpsk
  payEncLen := 0
  payNmod := 0
  nPay := 0
  evq := []

/-- The block after hardware reset (R40, R320): both units unconfigured, and it waits for a command. CMD and RSP are empty
(DESIGN CHOICE, log 11). -/
def State.reset : State where
  cmd := []
  rsp := []
  tx := TxUnit.reset
  rx := RxUnit.reset

end Sys2Proof.Machine
end

