-- ==== Sys2Proof/Machine/Flags.lean ====
section
/-! DEFINITION. The block has no condition-code register; this file holds the values that play the part of flags (10_state.md R33):
the status of a response (60_exceptions.md R280), `is_last`, the `valid` bit of a record and the event mask; and the codes of
the two control states (R24, R27). -/

namespace Sys2Proof.Machine

/-- What a command ends with (R280). -/
inductive Status where
  | ok | invalidConfiguration | invalidAllocation | payloadTooLarge | notAssembled | notConfigured | illegalCommand
  deriving DecidableEq, Repr

/-- The status code (R280). -/
def statusCode : Status → Byte
  | .ok => 0#8
  | .invalidConfiguration => 1#8
  | .invalidAllocation => 2#8
  | .payloadTooLarge => 3#8
  | .notAssembled => 4#8
  | .notConfigured => 5#8
  | .illegalCommand => 0xFF#8

/-- The status word of a response with `nr` payload words (R93). -/
def statusWord (st : Status) (nr : Nat) : Word := BitVec.ofNat 24 nr ++ statusCode st

/-- The word that carries `is_last`: bit 0, other bits 0 (R33, R99). -/
def isLastWord (last : Bool) : Word := (BitVec.ofBool last).setWidth 32

/-- Word 0 of an event record: `valid` in bit 8 and the code in bits [7:0] (R33, R94). -/
def eventWord (valid : Bool) (code : Byte) : Word := (BitVec.ofBool valid ++ code).setWidth 32

/-- `HEADER` events are enabled: bit 0 of the mask (R33, R291). -/
def headerEnabled (mask : BitVec 2) : Bool := mask.getLsbD 0

/-- `FRAME` events are enabled: bit 1 of the mask (R33, R291). -/
def frameEnabled (mask : BitVec 2) : Bool := mask.getLsbD 1

/-- The code of `tx_state` (R24). -/
def txStateCode : TxState → BitVec 3
  | .unconfigured => 0#3
  | .idle => 1#3
  | .assembled => 2#3
  | .preamble => 3#3
  | .header => 4#3
  | .payload => 5#3
  | .tail => 6#3

/-- The code of `rx_state` (R27). -/
def rxStateCode : RxState → BitVec 3
  | .unconfigured => 0#3
  | .detect => 1#3
  | .syncShort => 2#3
  | .syncLong => 3#3
  | .rxHeader => 4#3
  | .rxPayload => 5#3

end Sys2Proof.Machine
end

