-- ==== Sys2Proof/Machine/Ops.lean ====
section
/-! DEFINITION. The named operations every command shares: writing a response, raising a failure (the block's exception entry,
60_exceptions.md R286, R294; there is no return and nothing to restore, R295), the checks of 30_encoding.md R111, and
appending an event (the block's interrupt, R291). -/

namespace Sys2Proof.Machine

/-- What a meaning answers. -/
abbrev Result := Host.Outcome State Fault Refusal

/-- The state with words appended to RSP (R90, R93). -/
def State.pushRsp (ws : List Word) (s : State) : State := { s with rsp := s.rsp ++ ws }

/-- The state with another TXU. -/
def State.setTx (tx : TxUnit) (s : State) : State := { s with tx := tx }

/-- The state with another RXU. -/
def State.setRx (rx : RxUnit) (s : State) : State := { s with rx := rx }

/-- The state whose CMD holds other words. -/
def State.setCmd (ws : List Word) (s : State) : State := { s with cmd := ws }

/-- `respond(words)` with status `OK` (R18, R93). -/
def respond (payload : List Word) (s : State) : Result := .next (s.pushRsp (statusWord .ok payload.length :: payload))

/-- `raise <Failure>`: the command ends with that status, `NR = 0`, and nothing else changes (R18, R286). -/
def raise (st : Status) (s : State) : Result := .next (s.pushRsp [statusWord st 0])

/-- Check 2 of R111 for a TXU command: the unit is configured, else `NotConfigured`. -/
def ifTxConfigured (s : State) (k : Result) : Result :=
  if s.tx.state = .unconfigured then raise .notConfigured s else k

/-- Check 2 of R111 for an RXU command. -/
def ifRxConfigured (s : State) (k : Result) : Result :=
  if s.rx.state = .unconfigured then raise .notConfigured s else k

/-- Check 3 of R111: the operands fit the layout, else `IllegalCommand`. -/
def ifFits {α : Type} (o : Operands α) (s : State) (k : α → Result) : Result :=
  match o with
  | .fits a => k a
  | .misfit _ => raise .illegalCommand s

/-- The words of an event record (R94). -/
def EventRecord.words : EventRecord → List Word
  | .header valid user =>
    let payload := if valid then packBytes user else []
    eventWord valid 1#8 :: BitVec.ofNat 32 payload.length :: payload
  | .frame valid plen user payload =>
    let body := BitVec.ofNat 32 plen :: (packBytes user ++ packBytes payload)
    eventWord valid 2#8 :: BitVec.ofNat 32 body.length :: body

/-- The event kind is enabled in the mask (R291). -/
def eventEnabled (mask : BitVec 2) : EventRecord → Bool
  | .header _ _ => headerEnabled mask
  | .frame _ _ _ _ => frameEnabled mask

/-- `emit`: append the record to the queue if its kind is enabled; a disabled event is lost (R291, R292). -/
def emit (e : EventRecord) (rx : RxUnit) : RxUnit :=
  if eventEnabled rx.evmask e then { rx with evq := rx.evq ++ [e] } else rx

end Sys2Proof.Machine
end

