-- ==== Sys2Proof/Machine/Allocation.lean ====
section
/-! DEFINITION. The subcarrier allocation table (40_allocation.md): derived lists (R121), `validate` (R122), `default_allocation`
(R123), and the commands `DEFALLOC` (R124) and `ALLOCCHK` (R125). -/

namespace Sys2Proof.Machine

/-! ### Derived lists (R121) -/

/-- The number of entries of a table with a tag. -/
def countTag (t : Tag) (p : List Tag) : Nat := p.countP (· == t)

/-- The tag of bin `k`; beyond the table, `NULL`. -/
def tagAt (p : List Tag) (k : Nat) : Tag := p.getD k .null

/-- The bins with a tag, in ascending `k`: `PIL` for `PILOT`, `DAT` for `DATA`. -/
def binsOf (t : Tag) (p : List Tag) : List Nat := (List.range p.length).filter fun k => tagAt p k == t

/-- The signed index of bin `k` (R15). -/
def sidx (m k : Nat) : Int := if 2 * k < m then (k : Int) else (k : Int) - (m : Int)

/-- All bins in ascending signed index (R15): the negative ones, then the others. -/
def freqOrder (m : Nat) : List Nat :=
  ((List.range m).filter fun k => m ≤ 2 * k) ++ ((List.range m).filter fun k => 2 * k < m)

/-- `NN`: the non-`NULL` bins in ascending signed index. -/
def nonNullFreq (p : List Tag) : List Nat := (freqOrder p.length).filter fun k => tagAt p k != .null

/-- `PILs`: the `PILOT` bins in ascending signed index. -/
def pilotsFreq (p : List Tag) : List Nat := (freqOrder p.length).filter fun k => tagAt p k == .pilot

/-! ### `validate` and `default_allocation` -/

/-- `validate(p, L, M)`, `L` being the length of the table (R122). -/
def validate (p : List TagCode) (m : Nat) : Status :=
  if p.length = m ∧ 3#2 ∉ p ∧ tagCode .data ∈ p ∧ tagCode .pilot ∈ p then .ok else .invalidAllocation

/-- The tags of a table without code 3 (R16); an entry with code 3 reads as `NULL`, and no such table is ever stored. -/
def tagsOf (p : List TagCode) : List Tag := p.map fun c => (tagOfCode c).getD .null

/-- The guard `G` of R123. -/
def guardBins (m : Nat) : Nat := max 1 (m / 10)

/-- The pilot spacing `P` of R123. -/
def pilotSpacing (m : Nat) : Nat := if m > 34 then 8 else 4

/-- The tag R123 gives to bins `i` and `M - i`. -/
def latticeTag (m i : Nat) : Tag := if (i + pilotSpacing m / 2) % pilotSpacing m = 0 then .pilot else .data

/-- `default_allocation(M)` (R123): from all `NULL`, the loop over `i = 1 .. M2 - G - 1`. -/
def defaultAllocation (m : Nat) : List Tag :=
  (List.range' 1 (m / 2 - guardBins m - 1)).foldl
    (fun p i => (p.set i (latticeTag m i)).set (m - i) (latticeTag m i)) (List.replicate m .null)

/-! ### Commands -/

/-- `DEFALLOC M` (R124). -/
def execDefalloc (o : Operands Word) (s : State) : Result :=
  ifFits o s fun m =>
    if m.toNat < 8 ∨ 65535 < m.toNat then raise .invalidConfiguration s
    else respond (packTable ((defaultAllocation m.toNat).map tagCode)) s

/-- `ALLOCCHK M L table` (R125). -/
def execAllocchk (o : Operands AllocChkOps) (s : State) : Result :=
  ifFits o s fun a =>
    match validate a.table a.m.toNat with
    | .ok => respond [] s
    | st => raise st s

end Sys2Proof.Machine
end

