-- ==== Sys2Proof/Machine/Transform.lean ====
section
/-! DEFINITION. The transform engine (00_scope.md R10, R17): the pair of sums of R17, halved while the length is even. The inverse of
an odd length is corrected so that the two laws of R10 hold exactly over the rational numbers (log 4). -/

namespace Sys2Proof.Machine

/-! ### The sums of R17 -/

/-- `x[0] y[0] + x[1] y[1] + ...` -/
def dot (xs ys : List Cpx) : Cpx := Cpx.sum (List.zipWith Cpx.mul xs ys)

/-- `dft_fwd(x)` as R17 writes it. -/
def dftRefFwd (m : Nat) (xs : List Cpx) : List Cpx :=
  (List.range m).map fun k : Nat =>
    Cpx.sum ((List.range m).map fun n : Nat => (xs.getD n Cpx.zero).mul (cisTurn (-((k : Num) * n / m))))

/-- `dft_inv(X)` as R17 writes it. -/
def dftRefInv (m : Nat) (xs : List Cpx) : List Cpx :=
  (List.range m).map fun n : Nat =>
    Cpx.scale (1 / (m : Num)) (Cpx.sum ((List.range m).map fun k : Nat => (xs.getD k Cpx.zero).mul (cisTurn ((k : Num) * n / m))))

/-! ### Linear systems -/

/-- A linear equation: the coefficients of the unknowns, and the value. -/
abbrev Equation := List Cpx × Cpx

/-- The equation without its first unknown, by means of the equation with coefficients `a :: as` and value `b`. -/
def eliminate (a : Cpx) (as : List Cpx) (b : Cpx) (e : Equation) : Equation :=
  let f := (e.1.headD Cpx.zero).div a
  (List.zipWith (fun x y => x.sub (f.mul y)) e.1.tail as, e.2.sub (f.mul b))

/-- The solution of `n` equations in `n` unknowns by elimination in the order given; `none` where a pivot is 0. -/
def solve : Nat → List Equation → Option (List Cpx)
  | 0, _ => some []
  | n + 1, (a :: as, b) :: es =>
    if a = Cpx.zero then none
    else (solve n (es.map (eliminate a as b))).map fun xs => (b.sub (dot as xs)).div a :: xs
  | _ + 1, _ => none

/-! ### Odd lengths -/

/-- Row `n` of the sum of R17's inverse after the sum of its forward transform. Over the real numbers it is row `n` of the
identity; over the rational numbers the digits that the phases leave out remain (log 2). -/
def roundTripRow (m n : Nat) : List Cpx :=
  (List.range m).map fun l : Nat =>
    Cpx.scale (1 / (m : Num))
      (Cpx.sum ((List.range m).map fun k : Nat => (cisTurn ((k : Num) * n / m)).mul (cisTurn (-((k : Num) * l / m)))))

/-- The vector that the two sums of R17, one after the other, take to `xs`. There is one for every length of a legal unit
(Laws/Transform.lean, `undo_isSome`). -/
def undoRoundTrip (m : Nat) (xs : List Cpx) : Option (List Cpx) :=
  solve m ((List.range m).map fun n => (roundTripRow m n, xs.getD n Cpx.zero))

/-- The forward transform of an odd length: the sum of R17. (Where the two sums could not be undone, for no legal length, both
transforms are the identity, so that R10 holds of every length.) -/
def oddFwd (m : Nat) (xs : List Cpx) : List Cpx :=
  if m = 1 then xs else if (undoRoundTrip m []).isSome then dftRefFwd m xs else xs

/-- The inverse transform of an odd length: the sum of R17, less what it leaves of the round trip. -/
def oddInv (m : Nat) (xs : List Cpx) : List Cpx :=
  if m = 1 then xs else (undoRoundTrip m (dftRefInv m xs)).getD xs

/-! ### Even lengths -/

/-- The first `m` entries of a list; missing entries are 0. -/
def padTo (m : Nat) (xs : List Cpx) : List Cpx := (List.range m).map fun i => xs.getD i Cpx.zero

/-- `cis(-2 pi n / M)` for `n < M/2`. -/
def twiddles (m : Nat) : List Cpx := (List.range (m / 2)).map fun n : Nat => cisTurn (-((n : Num) / m))

/-- The entries of even and of odd index. -/
def unzipBins : List Cpx → List Cpx × List Cpx
  | a :: b :: xs => (a :: (unzipBins xs).1, b :: (unzipBins xs).2)
  | xs => (xs, [])

/-- The list with the given entries of even and of odd index. -/
def zipBins (a b : List Cpx) : List Cpx := (a.zip b).flatMap fun x => [x.1, x.2]

/-- The forward transform of length `m = 2^l q`: the even bins are the transform of the sum of the two halves, the odd bins that of
their difference, turned by `cis(-2 pi n / M)` (R17). -/
def fwdLevels : Nat → Nat → List Cpx → List Cpx
  | 0, m, xs => oddFwd m xs
  | l + 1, m, xs =>
    let u := xs.take (m / 2)
    let v := xs.drop (m / 2)
    zipBins (fwdLevels l (m / 2) (List.zipWith Cpx.add u v))
      (fwdLevels l (m / 2) (List.zipWith Cpx.mul (List.zipWith Cpx.sub u v) (twiddles m)))

/-- The inverse transform of length `m = 2^l q`, step by step the inverse of `fwdLevels` (R17). -/
def invLevels : Nat → Nat → List Cpx → List Cpx
  | 0, m, xs => oddInv m xs
  | l + 1, m, xs =>
    let s := invLevels l (m / 2) (unzipBins xs).1
    let d := List.zipWith (fun z w => z.mul w.conj) (invLevels l (m / 2) (unzipBins xs).2) (twiddles m)
    List.zipWith (fun a b => Cpx.scale (1 / 2) (a.add b)) s d ++ List.zipWith (fun a b => Cpx.scale (1 / 2) (a.sub b)) s d

/-- How often 2 divides `m`, counted up to `fuel`; 0 for `m = 0`. -/
def halvings : Nat → Nat → Nat
  | 0, _ => 0
  | fuel + 1, m => if m ≠ 0 ∧ m % 2 = 0 then halvings fuel (m / 2) + 1 else 0

/-- `dft_fwd(x)` (R10, R17). -/
def dftFwd (m : Nat) (xs : List Cpx) : List Cpx := fwdLevels (halvings m m) m (padTo m xs)

/-- `dft_inv(X)` (R10, R17). -/
def dftInv (m : Nat) (xs : List Cpx) : List Cpx := invLevels (halvings m m) m (padTo m xs)

end Sys2Proof.Machine
end

