-- ==== Sys2Proof/Machine/Collab.lean ====
section
/-! DEFINITION. The collaborators (00_scope.md R10, R12, R38), the transform engine apart (Machine/Transform.lean): the checksum and
FEC codecs and the modem. The stand-ins R12 defines are computed; `CRC32`, `H128` and `QAM16` are free (Config), and the laws of
R10 hold of them by the way they are put together. -/

namespace Sys2Proof.Machine

/-! ### Checksums -/

/-- `check_len(c)` (R12). -/
def checkLen : CheckId → Nat
  | .none => 0
  | .sum8 => 1
  | .crc32 => 4

/-- The sum of all bytes modulo 256. -/
def byteSum (bs : List Byte) : Byte := bs.foldr (· + ·) 0#8

/-- `check_compute(c, b)` (R10, R12). -/
def checkCompute : CheckId → List Byte → List Byte
  | .none, _ => []
  | .sum8, b => [byteSum b]
  | .crc32, b => (Config.crc32 b).toList

/-- `check_verify(c, b, s)` (R10, R12). -/
def checkVerify : CheckId → List Byte → List Byte → Bool
  | .none, _, _ => true
  | .sum8, b, s => checkCompute .sum8 b == s
  | .crc32, b, s => checkCompute .crc32 b == s || Config.crc32Accepts b s

/-! ### FEC -/

/-- `fec_enc_len(f, n)` (R10, R12). -/
def fecEncLen : FecId → Nat → Nat
  | .none, n => n
  | .h128, n => n + Config.h128Added n
  | .rep3, n => 3 * n

/-- The first `n` bytes of a list as a vector; missing bytes are 0. -/
def toBytes (n : Nat) (bs : List Byte) : Vector Byte n := Vector.ofFn fun i : Fin n => bs.getD i 0#8

/-- The `H128` code word of a message: the image of the message followed by zeros. -/
def h128Encode (b : List Byte) : List Byte := (Config.h128Code b.length (toBytes _ b)).toList

/-- The `H128` decoder: a code word gives back its message with success; any other string gives free values (R10, U8). -/
def h128Decode (n : Nat) (e : List Byte) : List Byte × Bool :=
  let d := ((Config.h128Code n).symm (toBytes _ e)).toList
  if (d.drop n).all (· == 0#8) then (d.take n, true)
  else ((Config.h128Repair n e).1.toList, (Config.h128Repair n e).2)

/-- The bitwise majority of three bytes. -/
def majority (a b c : Byte) : Byte := (a &&& b) ||| (b &&& c) ||| (a &&& c)

/-- `fec_encode(f, b)` (R10, R12). -/
def fecEncode : FecId → List Byte → List Byte
  | .none, b => b
  | .h128, b => h128Encode b
  | .rep3, b => b ++ b ++ b

/-- `fec_decode(f, n, e)` (R10, R12). -/
def fecDecode : FecId → Nat → List Byte → List Byte × Bool
  | .none, _, e => (e, true)
  | .h128, n, e => h128Decode n e
  | .rep3, n, e => ((List.range n).map fun i => majority (e.getD i 0#8) (e.getD (n + i) 0#8) (e.getD (2 * n + i) 0#8), true)

/-! ### Modem -/

/-- `mod_bps(m)` (R10, R12). -/
def modBps : ModId → Nat
  | .bpsk => 1
  | .qpsk => 2
  | .qam16 => 4

/-- The value of a bit on an axis: `1 - 2 b`. -/
def signOf (b : Bool) : Num := if b then -1 else 1

/-- Sixteen distinct points on a square grid, for a configuration whose points are not distinct. -/
def gridPoints : Vector Cpx 16 := Vector.ofFn fun i : Fin 16 => ⟨2 * ((i.val % 4 : Nat) : Num) - 3, 2 * ((i.val / 4 : Nat) : Num) - 3⟩

/-- The sixteen points of `QAM16`: any sixteen distinct points, as the law of R10 asks (log 7). -/
def qam16Table : Vector Cpx 16 := if Config.qam16Points.toList.Nodup then Config.qam16Points else gridPoints

/-- Four bits, the first the most significant, as an index. -/
def indexOfBits (bits : List Bool) : BitVec 4 := bits.foldl (fun b x => (b <<< 1) ||| (BitVec.ofBool x).setWidth 4) 0#4

/-- The four bits of an index, most significant first. -/
def bitsOfIndex (i : BitVec 4) : List Bool := (List.range 4).map fun j => i.getMsbD j

/-- The index of a point of `QAM16`, or the free demapping of any other value. -/
def qam16Demap (z : Cpx) : BitVec 4 :=
  match (List.range 16).find? fun i => qam16Table.toList.getD i Cpx.zero == z with
  | some i => BitVec.ofNat 4 i
  | none => Config.qam16Nearest z

/-- `modulate(m, bits)` (R10, R12). -/
def modulate : ModId → List Bool → Cpx
  | .bpsk, bits => ⟨signOf (bits.getD 0 false), 0⟩
  | .qpsk, bits => ⟨signOf (bits.getD 0 false), signOf (bits.getD 1 false)⟩
  | .qam16, bits => qam16Table.toList.getD (indexOfBits bits).toNat Cpx.zero

/-- The bits of `demodulate(m, z)` (R10, R12): the hard decision, which is all the block uses (R11). -/
def demodulate : ModId → Cpx → List Bool
  | .bpsk, z => [decide (z.re < 0)]
  | .qpsk, z => [decide (z.re < 0), decide (z.im < 0)]
  | .qam16, z => bitsOfIndex (qam16Demap z)

/-- The soft metric of `demodulate(m, z)` (R10): a free value, which no rule reads (R11). -/
def demodulateSoft (md : ModId) (z : Cpx) : Num := Config.softMetric (modCode md) z

end Sys2Proof.Machine
end

