-- ==== Sys2Proof/Machine/Assembler.lean ====
section
/-! DEFINITION. The symbol assembler and disassembler (41_symbol_assembler.md): taper (R140), register (R141), preambles (R142 to R144),
`fill` (R145, R146), `asm_time` (R147, R148), `disassemble` (R150). An element read outside a vector is 0 (log 15). -/

namespace Sys2Proof.Machine

/-- The taper window (R140): `w[i] = (1 - cos(pi (i + 1/2) / taper_len)) / 2`; the cosine's angle is `(i + 1/2) / (2 taper_len)`
turns. -/
def taperWindow (taperLen : Nat) : List Num :=
  (List.range taperLen).map fun i => (1 - cosTurn (((i : Num) + 1 / 2) / (2 * taperLen))) / 2

/-- `lfsr_step(s)`: the output bit and the next state (R141). -/
def lfsrStep (s : BitVec 16) : Bool × BitVec 16 :=
  let fb := (s.getLsbD 0 ^^ s.getLsbD 2) ^^ (s.getLsbD 3 ^^ s.getLsbD 5)
  (s.getLsbD 0, (s >>> 1) ||| ((BitVec.ofBool fb).setWidth 16 <<< 15))

/-- A preamble vector from bin `k` on: one step of the register for every bin, and `1 - 2b` in the bins kept (R142, R143). -/
def preambleFrom (keep : Nat → Tag → Bool) : Nat → BitVec 16 → List Tag → List Cpx
  | _, _, [] => []
  | k, r, t :: ts =>
    (if keep k t then Cpx.ofNum (signOf (lfsrStep r).1) else Cpx.zero) :: preambleFrom keep (k + 1) (lfsrStep r).2 ts

/-- The short-preamble vector `S0` (R142). -/
def shortPreamble (p : List Tag) : List Cpx := preambleFrom (fun k t => t != .null && k % 2 == 0) 0 Config.seedShort p

/-- The long-preamble vector `S1` (R143). -/
def longPreamble (p : List Tag) : List Cpx := preambleFrom (fun _ t => t != .null) 0 Config.seedLong p

/-- The energy of a waveform, `E0` for `s0` (R144). -/
def energy (xs : List Cpx) : Num := numSum (xs.map Cpx.normSq)

/-- `fill(d, pl)` (R146) over the bins of a table: the vector of one symbol and the pilot register after it. -/
def fill : List Tag → List Cpx → BitVec 16 → List Cpx × BitVec 16
  | [], _, pl => ([], pl)
  | .null :: ts, d, pl => (Cpx.zero :: (fill ts d pl).1, (fill ts d pl).2)
  | .pilot :: ts, d, pl =>
    (Cpx.ofNum (signOf (lfsrStep pl).1) :: (fill ts d (lfsrStep pl).2).1, (fill ts d (lfsrStep pl).2).2)
  | .data :: ts, d, pl => (d.headD Cpx.zero :: (fill ts d.tail pl).1, (fill ts d.tail pl).2)

/-- The zero vector of length `n`. -/
def zeros (n : Nat) : List Cpx := List.replicate n Cpx.zero

/-- The block of `asm_time` from the body `x` (R147): cyclic extension at the front, the first `taper_len` samples weighted and
overlapped with `ovl`. -/
def asmBlock (m cpLen taperLen : Nat) (w : List Num) (x ovl : List Cpx) : List Cpx :=
  (List.range (m + cpLen)).map fun i =>
    let y := x.getD ((m - cpLen + i) % m) Cpx.zero
    if i < taperLen then (Cpx.scale (w.getD i 0) y).add (ovl.getD i Cpx.zero) else y

/-- The overlap buffer `asm_time` leaves (R147). -/
def asmOverlap (taperLen : Nat) (w : List Num) (x : List Cpx) : List Cpx :=
  (List.range taperLen).map fun i => Cpx.scale (w.getD (taperLen - 1 - i) 0) (x.getD i Cpx.zero)

/-- `asm_time(X)` (R147): the block, and the TXU with its new overlap buffer. -/
def asmTime (tx : TxUnit) (v : List Cpx) : List Cpx × TxUnit :=
  let x := dftInv tx.m v
  (asmBlock tx.m tx.cpLen tx.taperLen tx.derived.taper x tx.ovl,
   { tx with ovl := asmOverlap tx.taperLen tx.derived.taper x })

/-- The integer part `ti` of the timing shift (R150): the nearest integer, halves up, clamped to `[-cp_len, 0]`. -/
def timingShift (cpLen : Nat) (tau : Num) : Int := min 0 (max (-(cpLen : Int)) (tau + 1 / 2).floor)

/-- `disassemble()` (R150). -/
def disassemble (rx : RxUnit) : List Cpx :=
  let ti := timingShift rx.cpLen rx.tau
  let tf : Num := rx.tau - ti
  let s : Nat := ((rx.cpLen : Int) + ti).toNat
  let v := (List.range rx.m).map fun n =>
    (rx.win.getD (s + n) Cpx.zero).mul (cis (-(rx.phi + rx.nu * ((s + n : Nat) : Num))))
  let y := dftFwd rx.m v
  (List.range rx.m).map fun k => (y.getD k Cpx.zero).mul (cisTurn ((sidx rx.m k : Num) * tf / rx.m))

end Sys2Proof.Machine
end

