-- ==== Sys2Proof/Machine/Generator.lean ====
section
/-! DEFINITION. The frame generator (43_frame_generator.md): frame arithmetic (R193 to R195, R198) and the commands `TXCFG` (R191),
`TXPROPS` (R192), `ASSEMBLE` (R196) and `WRSYM` (R197). -/

namespace Sys2Proof.Machine

/-! ### Frame arithmetic -/

/-- `enc_len`, `nmod`, `nsym` (R193). -/
structure Counts where
  encLen : Nat
  nmod : Nat
  nsym : Nat
  deriving DecidableEq, Repr

/-- `counts(c, f, m, n)` for `M_data` data bins (R193). -/
def counts (c : CheckId) (f : FecId) (md : ModId) (n nData : Nat) : Counts :=
  let encLen := fecEncLen f (n + checkLen c)
  let nmod := ceilDiv (8 * encLen) (modBps md)
  { encLen := encLen, nmod := nmod, nsym := ceilDiv nmod nData }

/-- The five descriptor bytes (R194, R65). -/
def descriptor (payloadLen : Nat) (c : CheckId) (f : FecId) (md : ModId) : List Byte :=
  [BitVec.ofNat 8 (payloadLen / 256), BitVec.ofNat 8 payloadLen, checkCode c, fecCode f, modCode md]

/-- Bits padded with zeros, or cut, to a length (R195). -/
def padBits (n : Nat) (bits : List Bool) : List Bool := (bits ++ List.replicate (n - bits.length) false).take n

/-- `map_symbols(e, m, nsym)` (R195). -/
def mapSymbols (e : List Byte) (md : ModId) (nsym nData : Nat) : List Cpx :=
  (chunks (modBps md) (nsym * nData) (padBits (nsym * nData * modBps md) (bitsOfBytes e))).map (modulate md)

/-- A message with its checksum through the FEC encoder (R196). -/
def protect (c : CheckId) (f : FecId) (msg : List Byte) : List Byte := fecEncode f (msg ++ checkCompute c msg)

/-- Symbols filled one after the other, the pilot register running through them (R145, R196). -/
def fillAll (p : List Tag) : List (List Cpx) → BitVec 16 → List (List Cpx) × BitVec 16
  | [], pl => ([], pl)
  | d :: ds, pl =>
    let x := fill p d pl
    let rest := fillAll p ds x.2
    (x.1 :: rest.1, rest.2)

/-- `state_of(c)` (R198). -/
def stateOf (nHdr nPay c : Nat) : TxState :=
  if c = 0 then .assembled
  else if c = 1 then .preamble
  else if c < 2 + nHdr then .header
  else if c < 2 + nHdr + nPay then .payload
  else .tail

/-! ### `TXCFG` -/

/-- The derived constants of a configuration (R22). -/
def txDerive (p : List Tag) (taperLen : Nat) : TxDerived :=
  { nNull := countTag .null p, nPilot := countTag .pilot p, nData := countTag .data p,
    pil := binsOf .pilot p, dat := binsOf .data p, taper := taperWindow taperLen,
    short := shortPreamble p, long := longPreamble p }

/-- The dimensions are legal: checks 2 to 4 of R191 and R221. -/
def legalDims (m cpLen taperLen : Nat) : Bool :=
  m % 2 == 0 && decide (8 ≤ m) && decide (m ≤ Config.mMax) && decide (cpLen < m) && decide (taperLen ≤ cpLen)

/-- The TXU a successful `TXCFG` leaves (R191, R42), or `none` if a check of R191 fails. -/
def txConfigure (c : TxCfgOps) (tx : TxUnit) : Option TxUnit :=
  if tx.state ≠ .unconfigured then none
  else if !legalDims c.m.toNat c.cpLen.toNat c.taperLen.toNat then none
  else if validate c.table c.m.toNat ≠ .ok then none
  else
    match checkOfCode c.props.check, fecOfCode c.props.fec0, fecOfCode c.props.fec1, modOfCode c.props.mod, modOfCode c.hdrMod with
    | some check, some fec0, some fec1, some md, some hdrMod =>
      some
        { state := .idle, m := c.m.toNat, cpLen := c.cpLen.toNat, taperLen := c.taperLen.toNat, table := tagsOf c.table,
          check := check, fec0 := fec0, fec1 := fec1, mod := md, hdrMod := hdrMod, hUser := c.hUser.toNat,
          maxPaySyms := c.maxPaySyms.toNat, derived := txDerive (tagsOf c.table) c.taperLen.toNat,
          fd := [], cursor := 0, nHdr := 0, nPay := 0, nTot := 0, ovl := zeros c.taperLen.toNat }
    | _, _, _, _, _ => none

/-- `TXCFG` (R191). -/
def execTxcfg (o : Operands TxCfgOps) (s : State) : Result :=
  ifFits o s fun c =>
    match txConfigure c s.tx with
    | some tx => respond [] (s.setTx tx)
    | none => raise .invalidConfiguration s

/-! ### `TXPROPS` -/

/-- The TXU with new properties, or `none` if an id is unsupported (R192). -/
def txSetProps (p : PropsOps) (tx : TxUnit) : Option TxUnit :=
  match checkOfCode p.check, fecOfCode p.fec0, fecOfCode p.fec1, modOfCode p.mod with
  | some check, some fec0, some fec1, some md => some { tx with check := check, fec0 := fec0, fec1 := fec1, mod := md }
  | _, _, _, _ => none

/-- `TXPROPS` (R192). -/
def execTxprops (o : Operands PropsOps) (s : State) : Result :=
  ifTxConfigured s <| ifFits o s fun p =>
    match txSetProps p s.tx with
    | some tx => respond [] (s.setTx tx)
    | none => raise .invalidConfiguration s

/-! ### `ASSEMBLE` -/

/-- The header counts of the TXU (R193). -/
def txHdrCounts (tx : TxUnit) : Counts := counts tx.check tx.fec0 tx.hdrMod (tx.hUser + Config.hDesc) tx.derived.nData

/-- The payload counts of the TXU (R193). -/
def txPayCounts (tx : TxUnit) (payloadLen : Nat) : Counts := counts tx.check tx.fec1 tx.mod payloadLen tx.derived.nData

/-- The header as sent (R194). -/
def fullHeader (tx : TxUnit) (user : List Byte) (payloadLen : Nat) : List Byte :=
  user ++ descriptor payloadLen tx.check tx.fec1 tx.mod

/-- The frequency-domain store of a frame (R196). -/
def frameVectors (tx : TxUnit) (user payload : List Byte) : List (List Cpx) :=
  let nHdr := (txHdrCounts tx).nsym
  let nPay := (txPayCounts tx payload.length).nsym
  let hs := mapSymbols (protect tx.check tx.fec0 (fullHeader tx user payload.length)) tx.hdrMod nHdr tx.derived.nData
  let ps := mapSymbols (protect tx.check tx.fec1 payload) tx.mod nPay tx.derived.nData
  let ds := chunks tx.derived.nData nHdr hs ++ chunks tx.derived.nData nPay ps
  [tx.derived.short, tx.derived.long] ++ (fillAll tx.table ds Config.seedPilot).1 ++ [zeros tx.m]

/-- The TXU a successful `ASSEMBLE` leaves (R196). -/
def txAssemble (tx : TxUnit) (user payload : List Byte) : TxUnit :=
  let nHdr := (txHdrCounts tx).nsym
  let nPay := (txPayCounts tx payload.length).nsym
  { tx with
    fd := frameVectors tx user payload
    nHdr := nHdr
    nPay := nPay
    nTot := 2 + nHdr + nPay + 1
    cursor := 0
    ovl := zeros tx.taperLen
    state := .assembled }

/-- `ASSEMBLE` (R196, R98). -/
def execAssemble (o : Operands AssembleOps) (s : State) : Result :=
  ifTxConfigured s <| ifFits o s fun a =>
    let userWords := ceilDiv s.tx.hUser 4
    let n := a.payloadLen.toNat
    if a.body.length ≠ userWords + ceilDiv n 4 then raise .illegalCommand s
    else if 65535 < n then raise .payloadTooLarge s
    else if s.tx.maxPaySyms < (txPayCounts s.tx n).nsym then raise .payloadTooLarge s
    else
      respond [] (s.setTx (txAssemble s.tx (unpackBytes s.tx.hUser (a.body.take userWords)) (unpackBytes n (a.body.drop userWords))))

/-! ### `WRSYM` -/

/-- The block of the next symbol and the TXU after it (R197). -/
def txWriteSymbol (tx : TxUnit) : List Cpx × TxUnit :=
  let r := asmTime tx (tx.fd.getD tx.cursor [])
  let next := tx.cursor + 1
  (r.1, { r.2 with
    cursor := next
    state := if next = tx.nTot then .idle else stateOf tx.nHdr tx.nPay next })

/-- `WRSYM` (R197, R99). -/
def execWrsym (o : Operands Unit) (s : State) : Result :=
  ifTxConfigured s <| ifFits o s fun _ =>
    if s.tx.state = .idle then raise .notAssembled s
    else
      let r := txWriteSymbol s.tx
      respond (isLastWord (r.2.cursor == s.tx.nTot) :: r.1.flatMap wordsOfCpx) (s.setTx r.2)

end Sys2Proof.Machine
end

