-- ==== Sys2Proof/Machine/Tracker.lean ====
section
/-! DEFINITION. The adaptive pilot tracker and the equaliser (42_pilot_tracker.md R170 to R178). -/

namespace Sys2Proof.Machine

/-- One pilot observation (R171): the bin, the observed gain `g_k` and the error `u_k` against the estimate in force. -/
structure PilotObs where
  bin : Nat
  gain : Cpx
  err : Cpx
  deriving DecidableEq, Repr

/-- The observations of the pilots of a symbol, in the order of the list, and the pilot register after them (R171). -/
def observe (z g : List Cpx) : List Nat → BitVec 16 → List PilotObs × BitVec 16
  | [], pl => ([], pl)
  | k :: ks, pl =>
    let gk := Cpx.scale (signOf (lfsrStep pl).1) (z.getD k Cpx.zero)
    let rest := observe z g ks (lfsrStep pl).2
    (⟨k, gk, gk.mul (g.getD k Cpx.zero).conj⟩ :: rest.1, rest.2)

/-- The observation of a bin. -/
def obsAt (obs : List PilotObs) (k : Nat) : PilotObs := (obs.find? fun o => o.bin == k).getD ⟨k, Cpx.zero, Cpx.zero⟩

/-- `theta0`, the common phase error (R172). -/
def commonPhase (obs : List PilotObs) : Num := arg (Cpx.sum (obs.map PilotObs.err))

/-- The neighbouring pairs of a list. -/
def pairsOf {α : Type} : List α → List (α × α)
  | a :: b :: xs => (a, b) :: pairsOf (b :: xs)
  | _ => []

/-- The mean pilot spacing `D` in bins (R172), for at least two pilots in frequency order. -/
def pilotStride (m : Nat) (pils : List Nat) : Num :=
  ((sidx m (pils.getLastD 0) - sidx m (pils.headD 0) : Int) : Num) / ((pils.length - 1 : Nat) : Num)

/-- `theta1`, the slope of the phase error along frequency, in radians per bin (R172). -/
def phaseSlope (m : Nat) (pils : List Nat) (obs : List PilotObs) : Num :=
  if 2 ≤ pils.length then
    arg (Cpx.sum ((pairsOf pils).map fun ab => (obsAt obs ab.2).err.mul (obsAt obs ab.1).err.conj)) / pilotStride m pils
  else 0

/-- The pilot with the greatest signed index below `f`, in a list in frequency order (R176). -/
def pilotBelow (m : Nat) (pils : List Nat) (f : Int) : Option Nat := (pils.filter fun k => sidx m k < f).getLast?

/-- The pilot with the least signed index above `f`, in a list in frequency order (R176). -/
def pilotAbove (m : Nat) (pils : List Nat) (f : Int) : Option Nat := pils.find? fun k => f < sidx m k

/-- The gain of `DATA` bin `k` by linear interpolation between the neighbouring pilot gains, flat outside the outermost pilots
(R176). With no pilot at all (no stored table) the gain is 0. -/
def dataGain (m : Nat) (pils : List Nat) (pilotGain : Nat → Cpx) (k : Nat) : Cpx :=
  let f := sidx m k
  match pilotBelow m pils f, pilotAbove m pils f with
  | none, none => Cpx.zero
  | none, some hi => pilotGain hi
  | some lo, none => pilotGain lo
  | some lo, some hi =>
    (pilotGain lo).add
      (Cpx.scale (((f - sidx m lo : Int) : Num) / ((sidx m hi - sidx m lo : Int) : Num)) ((pilotGain hi).sub (pilotGain lo)))

/-- The gain of pilot bin `k` after the update (R175). -/
def pilotGain (alpha : Num) (g : List Cpx) (obs : List PilotObs) (k : Nat) : Cpx :=
  (g.getD k Cpx.zero).add (Cpx.scale alpha ((obsAt obs k).gain.sub (g.getD k Cpx.zero)))

/-- The gains after the update: pilots by R175, data bins by R176, `NULL` bins as they were. -/
def updatedGains (rx : RxUnit) (obs : List PilotObs) : List Cpx :=
  let pg := pilotGain rx.alpha rx.g obs
  (List.range rx.m).map fun k =>
    match tagAt rx.table k with
    | .pilot => pg k
    | .data => dataGain rx.m rx.derived.pils pg k
    | .null => rx.g.getD k Cpx.zero

/-- `track(Z)` (R170 to R176): the observations from the old gains first, then `nu`, `tau` and the gains. -/
def track (z : List Cpx) (rx : RxUnit) : RxUnit :=
  let ob := observe z rx.g rx.derived.pil rx.pl
  { rx with
    pl := ob.2
    nu := rx.nu + rx.alpha * commonPhase ob.1 / ((rx.m + rx.cpLen : Nat) : Num)
    tau := rx.tau - rx.alpha * phaseSlope rx.m rx.derived.pils ob.1 * rx.m / (2 * numPi)
    g := updatedGains rx ob.1 }

/-- `equalise(Z, k)` (R177). -/
def equalise (z g : List Cpx) (k : Nat) : Cpx :=
  if g.getD k Cpx.zero = Cpx.zero then Cpx.zero else (z.getD k Cpx.zero).div (g.getD k Cpx.zero)

end Sys2Proof.Machine
end

