-- ==== Sys2Proof/Machine/Synchronizer.lean ====
section
/-! DEFINITION. The frame synchronizer (44_frame_synchronizer.md): leaving a frame (R246), detection (R224 to R226), the long
preamble (R227), header and payload reception (R228 to R245), `rx_step` (R223), and the commands `RXCFG` (R221), `EXECUTE`
(R222), `RXRESET` (R247) and `RXSETCB` (R248). -/

namespace Sys2Proof.Machine

/-! ### Leaving a frame, and the initial state -/

/-- `to_detect()` (R246). -/
def toDetect (rx : RxUnit) : RxUnit :=
  { rx with
    state := .detect
    nu := 0
    phi := 0
    tau := 0
    g := zeros rx.m
    timer := 0
    age := 0
    cnt := 0
    nsym := 0
    symIdx := 0
    bestNum := 0
    bestDen := 0
    bestP := Cpx.zero
    rxbits := []
    pl := 0#16
    curMod := .bpsk
    hdrUser := List.replicate rx.hUser 0#8
    plen := 0
    pcheck := .none
    pfec := .none
    pmod := .bpsk
    payEncLen := 0
    payNmod := 0
    nPay := 0 }

/-- The window all zeros (R28, R247). -/
def clearWindow (rx : RxUnit) : RxUnit := { rx with win := zeros (rx.m + rx.cpLen) }

/-- The initial state of R41, which `RXCFG` and `RXRESET` leave. -/
def initialRx (rx : RxUnit) : RxUnit := clearWindow (toDetect rx)

/-! ### `RXCFG` -/

/-- The derived constants of a configuration (R26). -/
def rxDerive (m : Nat) (p : List Tag) (hdrCheck : CheckId) (hdrFec : FecId) (hdrMod : ModId) (hUser : Nat) : RxDerived :=
  let c := counts hdrCheck hdrFec hdrMod (hUser + Config.hDesc) (countTag .data p)
  let s0 := dftInv m (shortPreamble p)
  { nNull := countTag .null p, nPilot := countTag .pilot p, nData := countTag .data p,
    pil := binsOf .pilot p, dat := binsOf .data p, nn := nonNullFreq p, pils := pilotsFreq p,
    short := shortPreamble p, long := longPreamble p, shortTime := s0, shortEnergy := energy s0,
    hdrEncLen := c.encLen, hdrNmod := c.nmod, nHdr := c.nsym }

/-- The thresholds and factors are in range: check 8 of R221. -/
def legalTuning (detT2 longT2 alpha kappa : Num) : Bool :=
  decide (0 ≤ detT2 ∧ detT2 < 1) && decide (0 ≤ longT2 ∧ longT2 < 1) && decide (0 < alpha ∧ alpha ≤ 1) &&
    decide (0 < kappa ∧ kappa ≤ 1)

/-- The RXU a successful `RXCFG` leaves (R221, R41), or `none` if a check of R221 fails. -/
def rxConfigure (c : RxCfgOps) (rx : RxUnit) : Option RxUnit :=
  if rx.state ≠ .unconfigured then none
  else if !legalDims c.m.toNat c.cpLen.toNat c.taperLen.toNat then none
  else if validate c.table c.m.toNat ≠ .ok then none
  else
    match checkOfCode c.hdrCheck, fecOfCode c.hdrFec, modOfCode c.hdrMod with
    | some hdrCheck, some hdrFec, some hdrMod =>
      if c.maxSyms.toNat < 1 then none
      else if !legalTuning (numOfWord c.detT2) (numOfWord c.longT2) (numOfWord c.alpha) (numOfWord c.kappa) then none
      else
        some (initialRx
          { rx with
            m := c.m.toNat, cpLen := c.cpLen.toNat, taperLen := c.taperLen.toNat, table := tagsOf c.table,
            hdrCheck := hdrCheck, hdrFec := hdrFec, hdrMod := hdrMod, hUser := c.hUser.toNat, maxSyms := c.maxSyms.toNat,
            detT2 := numOfWord c.detT2, longT2 := numOfWord c.longT2, alpha := numOfWord c.alpha, kappa := numOfWord c.kappa,
            derived := rxDerive c.m.toNat (tagsOf c.table) hdrCheck hdrFec hdrMod c.hUser.toNat })
    | _, _, _ => none

/-- `RXCFG` (R221). -/
def execRxcfg (o : Operands RxCfgOps) (s : State) : Result :=
  ifFits o s fun c =>
    match rxConfigure c s.rx with
    | some rx => respond [] (s.setRx rx)
    | none => raise .invalidConfiguration s

/-! ### Detection front end -/

/-- What `metric()` returns (R224). -/
structure Metric where
  num : Num
  den : Num
  p : Cpx
  deriving DecidableEq, Repr

/-- `metric()` (R224) over the newest `M` samples of the window. -/
def metric (rx : RxUnit) : Metric :=
  let v := rx.win.drop rx.cpLen
  let r := Cpx.sum ((List.range rx.m).map fun n => (v.getD n Cpx.zero).mul (rx.derived.shortTime.getD n Cpx.zero).conj)
  let e := numSum ((List.range rx.m).map fun n => (v.getD n Cpx.zero).normSq)
  let p := Cpx.sum ((List.range (rx.m / 2)).map fun n => (v.getD n Cpx.zero).conj.mul (v.getD (n + rx.m / 2) Cpx.zero))
  { num := r.normSq, den := e * rx.derived.shortEnergy, p := p }

/-- The RXU with a new best correlation, at this sample (R225, R226). -/
def takeBest (k : Metric) (rx : RxUnit) : RxUnit :=
  { rx with bestNum := k.num, bestDen := k.den, bestP := k.p, age := 0 }

/-- `DETECT`, per sample (R225). -/
def stepDetect (rx : RxUnit) : RxUnit :=
  let k := metric rx
  if k.num > rx.detT2 * k.den then { takeBest k rx with cnt := 0, state := .syncShort } else rx

/-- The decision of `SYNC_SHORT`: coarse carrier offset, and the samples left until the long block is complete (R226). -/
def beginSyncLong (rx : RxUnit) : RxUnit :=
  { rx with
    nu := arg rx.bestP / ((rx.m / 2 : Nat) : Num)
    phi := 0
    tau := 0
    timer := (rx.m + rx.cpLen) - rx.age
    nsym := 0
    state := .syncLong }

/-- The budget test of `SYNC_SHORT` (R226, R250). -/
def shortBudget (rx : RxUnit) : RxUnit :=
  if rx.maxSyms * (rx.m + rx.cpLen) ≤ rx.cnt then toDetect rx else rx

/-- `SYNC_SHORT`, per sample (R226). -/
def stepSyncShort (rx : RxUnit) : RxUnit :=
  let k := metric rx
  let rx1 := { rx with age := rx.age + 1, cnt := rx.cnt + 1 }
  if k.den > 0 ∧ k.num * rx1.bestDen ≥ rx1.kappa * rx1.bestNum * k.den then shortBudget (takeBest k rx1)
  else if rx1.age > rx1.m / 2 then beginSyncLong rx1
  else shortBudget rx1

/-! ### Long preamble -/

/-- `begin_header()` (R228). -/
def beginHeader (rx : RxUnit) : RxUnit :=
  { rx with
    state := .rxHeader
    timer := rx.m + rx.cpLen
    symIdx := 0
    nsym := 0
    rxbits := []
    pl := Config.seedPilot
    curMod := rx.hdrMod }

/-- The one-shot gain estimate `Gn` (R227). -/
def oneShotGains (rx : RxUnit) (z : List Cpx) : List Cpx :=
  (List.range rx.m).map fun k =>
    if tagAt rx.table k = .null then Cpx.zero else (z.getD k Cpx.zero).mul (rx.derived.long.getD k Cpx.zero)

/-- The coherence test of neighbouring bins in frequency order (R227). -/
def coherent (rx : RxUnit) (gn : List Cpx) : Bool :=
  let ab := pairsOf (rx.derived.nn.map fun q => gn.getD q Cpx.zero)
  let c := Cpx.sum (ab.map fun x => x.2.mul x.1.conj)
  let ea := numSum (ab.map fun x => x.1.normSq)
  let eb := numSum (ab.map fun x => x.2.normSq)
  decide (c.normSq > rx.longT2 * ea * eb)

/-- The test of `SYNC_LONG` when a block is complete (R227). -/
def testLong (rx : RxUnit) : RxUnit :=
  let gn := oneShotGains rx (disassemble rx)
  if coherent rx gn then
    beginHeader { rx with g := gn, phi := rx.phi + rx.nu * ((rx.m + rx.cpLen : Nat) : Num) }
  else
    let rx1 := { rx with nsym := rx.nsym + 1 }
    if rx1.maxSyms ≤ rx1.nsym then toDetect rx1
    else { rx1 with phi := rx1.phi + rx1.nu * ((rx1.m / 2 : Nat) : Num), timer := rx1.m / 2 }

/-- Count one sample off the timer, and run `k` when it reaches 0 (R227, R229). -/
def tick (k : RxUnit → RxUnit) (rx : RxUnit) : RxUnit :=
  let rx1 := { rx with timer := rx.timer - 1 }
  if rx1.timer = 0 then k rx1 else rx1

/-- `SYNC_LONG`, per sample (R227). -/
def stepSyncLong (rx : RxUnit) : RxUnit := tick testLong rx

/-! ### Header and payload reception -/

/-- `unmap(nmod, m, enc_len)` (R240). -/
def unmap (rxbits : List Bool) (nmod : Nat) (md : ModId) (encLen : Nat) : List Byte :=
  (bytesOfBits (rxbits.take (nmod * modBps md))).take encLen

/-- `finish_payload()` (R245). -/
def finishPayload (rx : RxUnit) : RxUnit :=
  let decLen := rx.plen + checkLen rx.pcheck
  let e := unmap rx.rxbits rx.payNmod rx.pmod rx.payEncLen
  let d := fecDecode rx.pfec decLen e
  let payload := d.1.take rx.plen
  let cs := (d.1.drop rx.plen).take (decLen - rx.plen)
  let valid := d.2 && checkVerify rx.pcheck payload cs
  toDetect (emit (.frame valid rx.plen rx.hdrUser payload) rx)

/-- The fields of a received header body that name schemes the block has (R242, R243). -/
structure HeaderFields where
  user : List Byte
  plen : Nat
  pcheck : CheckId
  pfec : FecId
  pmod : ModId
  deriving DecidableEq, Repr

/-- Parse a header body; `none` if it names an unsupported id (R242, R243). -/
def parseHeader (hUser : Nat) (body : List Byte) : Option HeaderFields :=
  let desc := body.drop hUser
  match checkOfCode (desc.getD 2 0#8), fecOfCode (desc.getD 3 0#8), modOfCode (desc.getD 4 0#8) with
  | some c, some f, some md =>
    some { user := body.take hUser, plen := (desc.getD 0 0#8).toNat * 256 + (desc.getD 1 0#8).toNat, pcheck := c, pfec := f, pmod := md }
  | _, _, _ => none

/-- The decoded header body, and whether FEC and checksum accept it (R241, R243). -/
def decodeHeader (rx : RxUnit) : List Byte × Bool :=
  let bodyLen := rx.hUser + Config.hDesc
  let decLen := bodyLen + checkLen rx.hdrCheck
  let e := unmap rx.rxbits rx.derived.hdrNmod rx.hdrMod rx.derived.hdrEncLen
  let d := fecDecode rx.hdrFec decLen e
  let body := d.1.take bodyLen
  (body, d.2 && checkVerify rx.hdrCheck body ((d.1.drop bodyLen).take (decLen - bodyLen)))

/-- The parsed fields of a valid header stored (R244). -/
def storeHeader (h : HeaderFields) (rx : RxUnit) : RxUnit :=
  { rx with hdrUser := h.user, plen := h.plen, pcheck := h.pcheck, pfec := h.pfec, pmod := h.pmod }

/-- The payload counts and the entry to `RX_PAYLOAD` (R244). -/
def enterPayload (h : HeaderFields) (rx : RxUnit) : RxUnit :=
  let c := counts h.pcheck h.pfec h.pmod h.plen rx.derived.nData
  { rx with
    payEncLen := c.encLen
    payNmod := c.nmod
    nPay := c.nsym
    state := .rxPayload
    symIdx := 0
    nsym := 0
    rxbits := []
    curMod := h.pmod }

/-- Begin the payload after a valid header (R244). -/
def beginPayload (h : HeaderFields) (rx : RxUnit) : RxUnit :=
  let rx1 := enterPayload h (emit (.header true h.user) (storeHeader h rx))
  if rx1.nPay = 0 then finishPayload rx1 else rx1

/-- `finish_header()` (R241 to R244). -/
def finishHeader (rx : RxUnit) : RxUnit :=
  let d := decodeHeader rx
  match d.2, parseHeader rx.hUser d.1 with
  | true, some h => beginPayload h rx
  | _, _ => toDetect (emit (.header false []) rx)

/-- The part of `rx_symbol()` before the tests: disassemble, advance the phase, track, demodulate, count (R229). -/
def receiveSymbol (rx : RxUnit) : RxUnit :=
  let z := disassemble rx
  let rx1 := track z { rx with phi := rx.phi + rx.nu * ((rx.m + rx.cpLen : Nat) : Num) }
  { rx1 with
    rxbits := rx1.rxbits ++ rx1.derived.dat.flatMap (fun k => demodulate rx1.curMod (equalise z rx1.g k))
    symIdx := rx1.symIdx + 1
    nsym := rx1.nsym + 1
    timer := rx1.m + rx1.cpLen }

/-- The tests of `rx_symbol()`: completion before the budget (R229). -/
def afterSymbol (rx : RxUnit) : RxUnit :=
  if rx.state = .rxHeader then
    if rx.symIdx = rx.derived.nHdr then finishHeader rx
    else if rx.maxSyms ≤ rx.nsym then toDetect rx else rx
  else
    if rx.symIdx = rx.nPay then finishPayload rx
    else if rx.maxSyms ≤ rx.nsym then toDetect rx else rx

/-- `rx_symbol()` (R229). -/
def rxSymbol (rx : RxUnit) : RxUnit := afterSymbol (receiveSymbol rx)

/-- `RX_HEADER` and `RX_PAYLOAD`, per sample (R229). -/
def stepReceive (rx : RxUnit) : RxUnit := tick rxSymbol rx

/-! ### One sample -/

/-- The window shifted by one sample (R223). -/
def shiftWindow (x : Cpx) (rx : RxUnit) : RxUnit := { rx with win := rx.win.tail ++ [x] }

/-- `rx_step(x)` (R223): shift, then the rule of the current state, once. `UNCONFIGURED` has no per-sample rule (R220). -/
def rxStep (rx : RxUnit) (x : Cpx) : RxUnit :=
  let rx1 := shiftWindow x rx
  match rx.state with
  | .unconfigured => rx
  | .detect => stepDetect rx1
  | .syncShort => stepSyncShort rx1
  | .syncLong => stepSyncLong rx1
  | .rxHeader => stepReceive rx1
  | .rxPayload => stepReceive rx1

/-! ### `EXECUTE`, `RXRESET`, `RXSETCB` -/

/-- The RXU after a block of samples (R222). -/
def rxRun (rx : RxUnit) (xs : List Cpx) : RxUnit := xs.foldl rxStep rx

/-- `EXECUTE` (R222). -/
def execExecute (o : Operands (List SampleWords)) (s : State) : Result :=
  ifRxConfigured s <| ifFits o s fun xs => respond [] (s.setRx (rxRun s.rx (xs.map cpxOfWords)))

/-- `RXRESET` (R247): exempt from the configured check, and without effect on an unconfigured unit. -/
def execRxreset (o : Operands Unit) (s : State) : Result :=
  ifFits o s fun _ =>
    if s.rx.state = .unconfigured then respond [] s else respond [] (s.setRx (initialRx s.rx))

/-- `RXSETCB` (R248). -/
def execRxsetcb (o : Operands (BitVec 2)) (s : State) : Result :=
  ifRxConfigured s <| ifFits o s fun mask => respond [] (s.setRx { s.rx with evmask := mask })

end Sys2Proof.Machine
end

