-- ==== Sys2Proof/Machine/System.lean ====
section
/-! DEFINITION. The status read (45_system.md R271): the CSR views of 10_state.md R35, and `RDCSR`. -/

namespace Sys2Proof.Machine

/-- A counter as a CSR shows it: the value modulo `2^32` (R43). -/
def counterWord (n : Nat) : Word := BitVec.ofNat 32 n

/-- Two 16-bit fields, the first in bits [15:0] (R35). -/
def halvesWord (lo hi : Nat) : Word := BitVec.ofNat 16 hi ++ BitVec.ofNat 16 lo

/-- The value of a CSR (R35); unnamed bits read 0, a `Num` reads as its wire form. -/
def csrValue (s : State) : Csr → Word
  | .txState => (txStateCode s.tx.state).setWidth 32
  | .txM => halvesWord s.tx.m 0
  | .txCptp => halvesWord s.tx.cpLen s.tx.taperLen
  | .txProps => modCode s.tx.mod ++ fecCode s.tx.fec1 ++ fecCode s.tx.fec0 ++ checkCode s.tx.check
  | .txHdrfmt => 0#16 ++ BitVec.ofNat 8 s.tx.hUser ++ modCode s.tx.hdrMod
  | .txMaxpay => counterWord s.tx.maxPaySyms
  | .txCursor => counterWord s.tx.cursor
  | .txNtot => counterWord s.tx.nTot
  | .txNhdr => counterWord s.tx.nHdr
  | .txNpay => counterWord s.tx.nPay
  | .txCounts => halvesWord s.tx.derived.nPilot s.tx.derived.nData
  | .rxState => (rxStateCode s.rx.state).setWidth 32
  | .rxM => halvesWord s.rx.m 0
  | .rxCptp => halvesWord s.rx.cpLen s.rx.taperLen
  | .rxHdrfmt => BitVec.ofNat 8 s.rx.hUser ++ modCode s.rx.hdrMod ++ fecCode s.rx.hdrFec ++ checkCode s.rx.hdrCheck
  | .rxMaxsyms => counterWord s.rx.maxSyms
  | .rxDetT2 => wordOfNum s.rx.detT2
  | .rxLongT2 => wordOfNum s.rx.longT2
  | .rxAlpha => wordOfNum s.rx.alpha
  | .rxKappa => wordOfNum s.rx.kappa
  | .rxEvmask => s.rx.evmask.setWidth 32
  | .rxTimer => counterWord s.rx.timer
  | .rxNsym => counterWord s.rx.nsym
  | .rxSymidx => counterWord s.rx.symIdx
  | .rxNu => wordOfNum s.rx.nu
  | .rxTau => wordOfNum s.rx.tau
  | .rxPhi => wordOfNum s.rx.phi
  | .rxCounts => halvesWord s.rx.derived.nPilot s.rx.derived.nData
  | .rxNhdr => counterWord s.rx.derived.nHdr
  | .rxNpay => counterWord s.rx.nPay
  | .rxEvcount => counterWord s.rx.evq.length

/-- `RDCSR n` (R271): no configured check; a number that is no CSR is an illegal command (R107 (d)). -/
def execRdcsr (o : Operands Csr) (s : State) : Result := ifFits o s fun c => respond [csrValue s c] s

end Sys2Proof.Machine
end

