-- ==== Sys2Proof/Machine/Dispatch.lean ====
section
/-! DEFINITION. The meaning of every command (30_encoding.md R92, column Semantics): one arm per constructor of `Instr`. -/

namespace Sys2Proof.Machine

def exec (i : Instr) (s : State) : Host.Outcome State Fault Refusal :=
  match i with
  | .txcfg o => Sys2Proof.Machine.execTxcfg o s
  | .txprops o => Sys2Proof.Machine.execTxprops o s
  | .assemble o => Sys2Proof.Machine.execAssemble o s
  | .wrsym o => Sys2Proof.Machine.execWrsym o s
  | .rxcfg o => Sys2Proof.Machine.execRxcfg o s
  | .execute o => Sys2Proof.Machine.execExecute o s
  | .rxreset o => Sys2Proof.Machine.execRxreset o s
  | .rxsetcb o => Sys2Proof.Machine.execRxsetcb o s
  | .rdcsr o => Sys2Proof.Machine.execRdcsr o s
  | .defalloc o => Sys2Proof.Machine.execDefalloc o s
  | .allocchk o => Sys2Proof.Machine.execAllocchk o s

end Sys2Proof.Machine
end

