-- ==== Sys2Proof/Machine/Step.lean ====
section
/-! DEFINITION. One step of the block: one command (45_system.md R270), or waiting while CMD holds no complete command (log 13). -/

namespace Sys2Proof.Machine

/-- One step: take the command at the front of CMD, and run it; a reserved opcode answers `IllegalCommand` and its words are
taken all the same (R270, R272). While CMD holds no complete command the block waits and holds its state (R270, R302). -/
def step (s : State) : Host.Outcome State Fault Refusal :=
  match takeCommand s.cmd with
  | none => .next s
  | some (h, ops, rest) =>
    match decode h ops with
    | .command i => exec i (s.setCmd rest)
    | .rejected _ => raise .illegalCommand (s.setCmd rest)

/-- The state whose next command is the instruction given as a number of `nbits` bits, later operand bits being 0. -/
def State.withFetchWord (s : State) (nbits w : Nat) : State := s.setCmd (tableWords nbits w ++ s.cmd)

end Sys2Proof.Machine
end

