-- ==== Sys2Proof/Machine/Port.lean ====
section
/-! DEFINITION. What the host does to the block between steps (20_memory.md R60, R69; 70_reset_and_hazards.md R320), and the
pseudo-commands of 30_encoding.md R110, which the host expands. -/

namespace Sys2Proof.Machine

/-- The host appends words to CMD (R90). -/
def hostSend (ws : List Word) (s : State) : State := { s with cmd := s.cmd ++ ws }

/-- The host reads the oldest word of RSP, if there is one (R90). -/
def hostReadWord (s : State) : Option (Word × State) :=
  match s.rsp with
  | [] => none
  | w :: ws => some (w, { s with rsp := ws })

/-- The host reads the oldest record of EVQ, if there is one; reading removes it (R34, R69, R292). -/
def hostTakeEvent (s : State) : Option (EventRecord × State) :=
  match s.rx.evq with
  | [] => none
  | e :: es => some (e, { s with rx := { s.rx with evq := es } })

/-- Hardware reset (R320). -/
def hardwareReset (_ : State) : State := State.reset

/-- `table=default` for the command's `M` (R110 (a)): the table that `DEFALLOC` returns for it. Where `DEFALLOC` answers no table
(`M < 8` or `M > 65535`, R124) the spec does not say what the pseudo-command stands for; here it then has no expansion.
DESIGN CHOICE, log 21. -/
def defaultTableOperand (m : Nat) : Option (List TagCode) :=
  if m < 8 ∨ 65535 < m then none else some ((defaultAllocation m).map tagCode)

/-- The words a command has added to RSP: its response (R93). -/
def responseOf (before after : State) : List Word := after.rsp.drop before.rsp.length

/-- The response has status `OK` (R93). -/
def isOkResponse (ws : List Word) : Bool := (ws.headD 0xFF#32).extractLsb' 0 8 == statusCode .ok

/-- The response of a `WRSYM` has `is_last = 1` (R99). -/
def isLastResponse (ws : List Word) : Bool := isOkResponse ws && (ws.getD 1 0#32).getLsbD 0

/-- `WRSYM` repeated until a response has `is_last = 1`, at most `fuel` times: the commands issued, and what the last one answers. -/
def pullSymbols : Nat → State → List Instr × Result
  | 0, s => ([], .next s)
  | fuel + 1, s =>
    match exec (.wrsym (.fits ())) s with
    | .next t =>
      if isLastResponse (responseOf s t) then ([.wrsym (.fits ())], .next t)
      else
        let rest := pullSymbols fuel t
        (.wrsym (.fits ()) :: rest.1, rest.2)
    | stopped => ([.wrsym (.fits ())], stopped)

/-- `TXFRAME` (R110 (b)) on a state: `ASSEMBLE`, and when it succeeds `WRSYM` until a response has `is_last = 1`; when it fails,
none. The commands issued, and what the last one answers. The fuel is more than the `N_TOT` symbols of the frame, so that
`is_last` alone ends the loop. -/
def txFrame (a : AssembleOps) (s : State) : List Instr × Result :=
  match exec (.assemble (.fits a)) s with
  | .next t =>
    if isOkResponse (responseOf s t) then
      let rest := pullSymbols (t.tx.nTot + 1) t
      (.assemble (.fits a) :: rest.1, rest.2)
    else ([.assemble (.fits a)], .next t)
  | stopped => ([.assemble (.fits a)], stopped)

/-- `EXECUTE1` (R110 (c)): one `EXECUTE` of one sample for each sample. -/
def executeEach (xs : List SampleWords) : List Instr := xs.map fun x => .execute (.fits [x])

end Sys2Proof.Machine
end

