-- ==== Sys2Proof/Safety.lean ====
section
/-! DEFINITION. The terms claims are stated in: which states the block can be in (the invariant of both units), when a command is
legal, which failure a command raises, and runs of several commands. -/

namespace Sys2Proof.Machine

/-! ### The invariant -/

/-- A stored table: `M` tags, at least one `DATA` and one `PILOT` (R120, R122). -/
abbrev LegalTable (m : Nat) (p : List Tag) : Prop := p.length = m ∧ Tag.data ∈ p ∧ Tag.pilot ∈ p

/-- The TXU after a successful `TXCFG` and any commands since (R8, R21 to R24, R43, R198). -/
structure TxConfigured (tx : TxUnit) : Prop where
  dims : legalDims tx.m tx.cpLen tx.taperLen = true
  table : LegalTable tx.m tx.table
  hUser : tx.hUser ≤ 255
  derived : tx.derived = txDerive tx.table tx.taperLen
  ovlLength : tx.ovl.length = tx.taperLen
  fdCount : tx.fd.length = tx.nTot
  fdWidth : ∀ v ∈ tx.fd, v.length = tx.m
  payLimit : tx.nPay ≤ tx.maxPaySyms
  idle : tx.state = .idle → tx.cursor = tx.nTot
  inFrame : tx.state ≠ .idle →
    tx.nTot = 2 + tx.nHdr + tx.nPay + 1 ∧ tx.cursor < tx.nTot ∧ tx.state = stateOf tx.nHdr tx.nPay tx.cursor

/-- The TXU is as hardware reset leaves it, or configured. -/
def TxInv (tx : TxUnit) : Prop := tx = TxUnit.reset ∨ (tx.state ≠ .unconfigured ∧ TxConfigured tx)

/-- The decode state of a unit that receives `n` symbols with modulation `md` (R29, R32, R70, R229, R298). -/
structure Receiving (rx : RxUnit) (n : Nat) (md : ModId) : Prop where
  timer : 1 ≤ rx.timer ∧ rx.timer ≤ rx.m + rx.cpLen
  count : rx.symIdx = rx.nsym
  budget : rx.nsym < rx.maxSyms
  open_ : rx.symIdx < n
  modulation : rx.curMod = md
  bits : rx.rxbits.length = rx.symIdx * rx.derived.nData * modBps md

/-- The RXU after a successful `RXCFG` and any commands since (R8, R25 to R32, R41, R250). -/
structure RxConfigured (rx : RxUnit) : Prop where
  dims : legalDims rx.m rx.cpLen rx.taperLen = true
  table : LegalTable rx.m rx.table
  hUser : rx.hUser ≤ 255
  budget : 1 ≤ rx.maxSyms
  tuning : legalTuning rx.detT2 rx.longT2 rx.alpha rx.kappa = true
  derived : rx.derived = rxDerive rx.m rx.table rx.hdrCheck rx.hdrFec rx.hdrMod rx.hUser
  winLength : rx.win.length = rx.m + rx.cpLen
  gainLength : rx.g.length = rx.m
  nullGains : ∀ k, tagAt rx.table k = .null → rx.g.getD k Cpx.zero = Cpx.zero
  hdrUserLength : rx.hdrUser.length = rx.hUser
  detect : rx.state = .detect → toDetect rx = rx
  syncShort : rx.state = .syncShort → rx.age ≤ rx.m / 2 ∧ rx.age ≤ rx.cnt ∧ rx.cnt < rx.maxSyms * (rx.m + rx.cpLen)
  syncLong : rx.state = .syncLong → 1 ≤ rx.timer ∧ rx.timer ≤ rx.m + rx.cpLen ∧ rx.nsym < rx.maxSyms ∧ rx.tau = 0
  header : rx.state = .rxHeader → Receiving rx rx.derived.nHdr rx.hdrMod
  payload : rx.state = .rxPayload → Receiving rx rx.nPay rx.pmod
  payloadCounts : rx.state = .rxPayload → rx.plen < 65536 ∧
    (⟨rx.payEncLen, rx.payNmod, rx.nPay⟩ : Counts) = counts rx.pcheck rx.pfec rx.pmod rx.plen rx.derived.nData

/-- The RXU is as hardware reset leaves it, or configured. -/
def RxInv (rx : RxUnit) : Prop := rx = RxUnit.reset ∨ (rx.state ≠ .unconfigured ∧ RxConfigured rx)

/-- The invariant of the block. -/
def Inv (s : State) : Prop := TxInv s.tx ∧ RxInv s.rx

/-- Per-frame state and control state are those of the initial state of R41, the window apart. -/
structure RxInitial (rx : RxUnit) : Prop where
  state : rx.state = .detect
  estimates : rx.nu = 0 ∧ rx.phi = 0 ∧ rx.tau = 0 ∧ rx.g = zeros rx.m
  counters : rx.timer = 0 ∧ rx.age = 0 ∧ rx.cnt = 0 ∧ rx.nsym = 0 ∧ rx.symIdx = 0
  best : rx.bestNum = 0 ∧ rx.bestDen = 0 ∧ rx.bestP = Cpx.zero
  decode : rx.rxbits = [] ∧ rx.pl = 0#16 ∧ rx.curMod = .bpsk
  parsed : rx.hdrUser = List.replicate rx.hUser 0#8 ∧ rx.plen = 0 ∧ rx.pcheck = .none ∧ rx.pfec = .none ∧ rx.pmod = .bpsk
  counts : rx.payEncLen = 0 ∧ rx.payNmod = 0 ∧ rx.nPay = 0

/-- The configuration registers and derived constants of two RXUs are the same, the event mask apart (R25, R26). -/
def SameRxConfig (a b : RxUnit) : Prop :=
  a.m = b.m ∧ a.cpLen = b.cpLen ∧ a.taperLen = b.taperLen ∧ a.table = b.table ∧ a.hdrCheck = b.hdrCheck ∧
    a.hdrFec = b.hdrFec ∧ a.hdrMod = b.hdrMod ∧ a.hUser = b.hUser ∧ a.maxSyms = b.maxSyms ∧ a.detT2 = b.detT2 ∧
    a.longT2 = b.longT2 ∧ a.alpha = b.alpha ∧ a.kappa = b.kappa ∧ a.derived = b.derived

/-! ### Legal operands and causes of failure -/

/-- Checks 2 to 6 of R191. -/
abbrev TxCfgLegal (c : TxCfgOps) : Prop :=
  c.m.toNat % 2 = 0 ∧ 8 ≤ c.m.toNat ∧ c.m.toNat ≤ Config.mMax ∧ c.cpLen.toNat < c.m.toNat ∧ c.taperLen.toNat ≤ c.cpLen.toNat ∧
    validate c.table c.m.toNat = .ok ∧
    (checkOfCode c.props.check).isSome ∧ (fecOfCode c.props.fec0).isSome ∧ (fecOfCode c.props.fec1).isSome ∧
    (modOfCode c.props.mod).isSome ∧ (modOfCode c.hdrMod).isSome

/-- Checks 2 to 8 of R221. -/
abbrev RxCfgLegal (c : RxCfgOps) : Prop :=
  c.m.toNat % 2 = 0 ∧ 8 ≤ c.m.toNat ∧ c.m.toNat ≤ Config.mMax ∧ c.cpLen.toNat < c.m.toNat ∧ c.taperLen.toNat ≤ c.cpLen.toNat ∧
    validate c.table c.m.toNat = .ok ∧
    (checkOfCode c.hdrCheck).isSome ∧ (fecOfCode c.hdrFec).isSome ∧ (modOfCode c.hdrMod).isSome ∧
    1 ≤ c.maxSyms.toNat ∧
    (0 ≤ numOfWord c.detT2 ∧ numOfWord c.detT2 < 1) ∧ (0 ≤ numOfWord c.longT2 ∧ numOfWord c.longT2 < 1) ∧
    (0 < numOfWord c.alpha ∧ numOfWord c.alpha ≤ 1) ∧ (0 < numOfWord c.kappa ∧ numOfWord c.kappa ≤ 1)

/-- The ids of a properties word are supported (R12, R192). -/
abbrev PropsSupported (p : PropsOps) : Prop :=
  (checkOfCode p.check).isSome ∧ (fecOfCode p.fec0).isSome ∧ (fecOfCode p.fec1).isSome ∧ (modOfCode p.mod).isSome

/-- The word count of an `ASSEMBLE` is that of R98. -/
abbrev AssembleShape (tx : TxUnit) (a : AssembleOps) : Prop :=
  a.body.length = ceilDiv tx.hUser 4 + ceilDiv a.payloadLen.toNat 4

/-- The payload of an `ASSEMBLE` is within the limits: checks 3 and 4 of R196. -/
abbrev PayloadFits (tx : TxUnit) (a : AssembleOps) : Prop :=
  a.payloadLen.toNat ≤ 65535 ∧ (txPayCounts tx a.payloadLen.toNat).nsym ≤ tx.maxPaySyms

/-- The user header bytes of an `ASSEMBLE` (R98). -/
def assembleUser (tx : TxUnit) (a : AssembleOps) : List Byte := unpackBytes tx.hUser (a.body.take (ceilDiv tx.hUser 4))

/-- The payload bytes of an `ASSEMBLE` (R98). -/
def assemblePayload (tx : TxUnit) (a : AssembleOps) : List Byte :=
  unpackBytes a.payloadLen.toNat (a.body.drop (ceilDiv tx.hUser 4))

/-- The command needs the TXU configured (R111, R285). -/
def needsTx : Instr → Bool
  | .txprops _ => true
  | .assemble _ => true
  | .wrsym _ => true
  | _ => false

/-- The command needs the RXU configured (R111, R285). -/
def needsRx : Instr → Bool
  | .execute _ => true
  | .rxsetcb _ => true
  | _ => false

/-- The unit the command needs is configured. -/
def UnitReady (i : Instr) (s : State) : Prop :=
  (needsTx i = true → s.tx.state ≠ .unconfigured) ∧ (needsRx i = true → s.rx.state ≠ .unconfigured)

/-- When a command ends with a failure status (R107, R111, R281 to R285, R287). -/
def Raises (i : Instr) (s : State) : Status → Prop
  | .ok => False
  | .notConfigured => ¬ UnitReady i s
  | .illegalCommand => UnitReady i s ∧
      (operandsFit i = false ∨ ∃ a, i = .assemble (.fits a) ∧ ¬ AssembleShape s.tx a)
  | .notAssembled => i = .wrsym (.fits ()) ∧ s.tx.state = .idle
  | .invalidAllocation => ∃ a, i = .allocchk (.fits a) ∧ validate a.table a.m.toNat = .invalidAllocation
  | .payloadTooLarge => ∃ a, i = .assemble (.fits a) ∧ s.tx.state ≠ .unconfigured ∧ AssembleShape s.tx a ∧ ¬ PayloadFits s.tx a
  | .invalidConfiguration =>
      (∃ c, i = .txcfg (.fits c) ∧ ¬ (s.tx.state = .unconfigured ∧ TxCfgLegal c)) ∨
      (∃ p, i = .txprops (.fits p) ∧ s.tx.state ≠ .unconfigured ∧ ¬ PropsSupported p) ∨
      (∃ c, i = .rxcfg (.fits c) ∧ ¬ (s.rx.state = .unconfigured ∧ RxCfgLegal c)) ∨
      (∃ m, i = .defalloc (.fits m) ∧ (m.toNat < 8 ∨ 65535 < m.toNat))

/-! ### Runs -/

/-- Run commands one after the other. -/
def execAll : List Instr → State → Result
  | [], s => .next s
  | i :: is, s =>
    match exec i s with
    | .next t => execAll is t
    | .fault f => .fault f
    | .refused r => .refused r

/-- The register after `n` steps (R141). -/
def lfsrIter : Nat → BitVec 16 → BitVec 16
  | 0, r => r
  | n + 1, r => lfsrIter n (lfsrStep r).2

/-- The value `1 - 2b` that the register gives after `n` steps (R145). -/
def lfsrSign (n : Nat) (r : BitVec 16) : Cpx := Cpx.ofNum (signOf (lfsrStep (lfsrIter n r)).1)

/-- The blocks of the next `n` symbols, joined, and the TXU after them (R197). -/
def txBlocks : Nat → TxUnit → List Cpx × TxUnit
  | 0, tx => ([], tx)
  | n + 1, tx =>
    let r := txWriteSymbol tx
    let rest := txBlocks n r.2
    (r.1 ++ rest.1, rest.2)

/-- The RXU with the window that samples leave (R28, R223). -/
def fedWindow (rx : RxUnit) (xs : List Cpx) : RxUnit := { rx with win := (rx.win ++ xs).drop xs.length }

/-- What R251 leaves to numbers: the detector locks on the frame of `blocks` blocks that follows `lead` zero samples. `before`: when
the last sample of the short block arrives the unit still searches, or still refines a peak with enough of its budget left.
`after`: up to the decision, half a symbol later, no window is a second perfect match. `tail`: no window that ends in the last
block passes the threshold. -/
structure LocksOn (rx : RxUnit) (samples : List Cpx) (lead blocks : Nat) : Prop where
  before :
    let r := rxRun rx (samples.take (lead + (rx.m + rx.cpLen) - 1))
    r.state = .detect ∨ (r.state = .syncShort ∧ r.cnt + rx.m / 2 + 1 < rx.maxSyms * (rx.m + rx.cpLen))
  after : ∀ j, lead + (rx.m + rx.cpLen) < j → j ≤ lead + (rx.m + rx.cpLen) + rx.m / 2 + 1 →
    let k := metric (fedWindow rx (samples.take j))
    ¬ (0 < k.den ∧ k.den ≤ k.num)
  tail : ∀ j, lead + (blocks - 1) * (rx.m + rx.cpLen) < j → j ≤ lead + blocks * (rx.m + rx.cpLen) →
    let k := metric (fedWindow rx (samples.take j))
    k.num ≤ rx.detT2 * k.den

/-- The RXU is configured for the frames of the TXU (R251, R323, R327). -/
structure Matched (tx : TxUnit) (rx : RxUnit) : Prop where
  m : rx.m = tx.m
  cpLen : rx.cpLen = tx.cpLen
  table : rx.table = tx.table
  hdrCheck : rx.hdrCheck = tx.check
  hdrFec : rx.hdrFec = tx.fec0
  hdrMod : rx.hdrMod = tx.hdrMod
  hUser : rx.hUser = tx.hUser

end Sys2Proof.Machine
end

