-- ==== Sys2Proof/Certificates/Slice0/Obligations.lean ====
section
/-! DEFINITION. The statements about the block, for the provers. Each docstring names the rule of spec/ it formalises. -/

open Sys2Proof Sys2Proof.Machine

/-! ### Encoding and fetching -/

/-- R91, R95 to R106: for every well-formed command, with every operand at every value its encoding admits, the words of its
encoding are taken from the stream whole and decode to it. -/
def Obligations.EncodeThenDecodeGivesTheCommand : Prop :=
  ∀ (i : Instr) (rest : List Word), WellFormed i = true →
    takeCommand (encode i ++ rest) = some (headerWord (opcodeOf i) (operandWords i), operandsOf i, rest) ∧
    decode (headerWord (opcodeOf i) (operandWords i)) (operandsOf i) = .command i

/-- R92, R107 (a), (b), R95 (e): a header word and operand words decode to the command of the opcode, whose layout counts exactly
those operand words and whose operands are those words; of a table, the tag fields beyond its `L` entries are ignored.
Operands that do not fit are kept as they came. Every other opcode is rejected by name. -/
def Obligations.DecodingKeepsOpcodeAndWordCount : Prop :=
  ∀ (h : Word) (ops : List Word),
    (∀ i, decode h ops = .command i →
      opcodeOf i = headerOpcode h ∧ operandWords i = ops.length ∧ (operandsFit i = false → operandsOf i = ops) ∧
      (headerOpcode h ∉ [0x01#8, 0x11#8, 0x22#8] → operandsOf i = ops) ∧
      (∀ n, (headerOpcode h, n) ∈ [(0x01#8, 6), (0x11#8, 9), (0x22#8, 2)] → operandsFit i = true →
        (operandsOf i).take n = ops.take n ∧
        ∀ k, k < (ops.getD (n - 1) 0#32).toNat →
          ((operandsOf i).getD (n + k / 16) 0#32).extractLsb' (2 * (k % 16)) 2 =
            (ops.getD (n + k / 16) 0#32).extractLsb' (2 * (k % 16)) 2)) ∧
    (decode h ops = .rejected (.reservedOpcode (headerOpcode h)) ↔
      headerOpcode h ∉ [0x01#8, 0x02#8, 0x03#8, 0x04#8, 0x11#8, 0x12#8, 0x13#8, 0x14#8, 0x20#8, 0x21#8, 0x22#8])

/-- R270: a step takes one command off the front of CMD, `1 + NW` words, and does what its meaning does to the state that
remains; a reserved opcode is taken too and answered `IllegalCommand`. While CMD holds no complete command the step holds
the state (the model's choice, log 13). -/
def Obligations.StepRunsTheDecodedCommand : Prop :=
  ∀ s : State,
    (takeCommand s.cmd = none → step s = .next s) ∧
    ∀ h ops rest, takeCommand s.cmd = some (h, ops, rest) →
      s.cmd = h :: (ops ++ rest) ∧ ops.length = headerCount h ∧
      (∀ i, decode h ops = .command i → step s = exec i { s with cmd := rest }) ∧
      (∀ r, decode h ops = .rejected r → step s = .next { s with cmd := rest, rsp := s.rsp ++ [0x000000FF#32] })

/-- Words of 95_test_vectors.md V5, V11, V12, V30, V34, V36, V37, V40, V45, V46, V47 and V70 decode to the commands, or the
rejection, they stand for. -/
def Obligations.SampleWordsDecode : Prop :=
  decode 0x01000007#32 [0x00000008#32, 0x00010002#32, 0x01000001#32, 0x00000101#32, 0x00000064#32, 0x00000008#32, 0x00009018#32] =
      .command (.txcfg (.fits
        { m := 8#16, cpLen := 2#16, taperLen := 1#16, props := { check := 1#8, fec0 := 0#8, fec1 := 0#8, mod := 1#8 },
          hdrMod := 1#8, hUser := 1#8, maxPaySyms := 100#32, table := [0#2, 2#2, 1#2, 0#2, 0#2, 0#2, 1#2, 2#2] })) ∧
  decode 0x02000001#32 [0x01070001#32] = .command (.txprops (.fits { check := 1#8, fec0 := 0#8, fec1 := 7#8, mod := 1#8 })) ∧
  decode 0x03000003#32 [0x00000001#32, 0x0000003C#32, 0x000000A5#32] =
      .command (.assemble (.fits { payloadLen := 1#32, body := [0x3C#32, 0xA5#32] })) ∧
  decode 0x04000000#32 [] = .command (.wrsym (.fits ())) ∧
  decode 0x12000001#32 [0x00000000#32] = .command (.execute (.fits [])) ∧
  decode 0x1100000A#32 [0x00000008#32, 0x00010002#32, 0x01010001#32, 0x00000010#32, 0x3F000000#32, 0x3F000000#32, 0x3F000000#32,
      0x3F800000#32, 0x00000008#32, 0x00009018#32] =
      .command (.rxcfg (.fits
        { m := 8#16, cpLen := 2#16, taperLen := 1#16, hdrCheck := 1#8, hdrFec := 0#8, hdrMod := 1#8, hUser := 1#8,
          maxSyms := 16#32, detT2 := 0x3F000000#32, longT2 := 0x3F000000#32, alpha := 0x3F000000#32, kappa := 0x3F800000#32,
          table := [0#2, 2#2, 1#2, 0#2, 0#2, 0#2, 1#2, 2#2] })) ∧
  decode 0x13000000#32 [] = .command (.rxreset (.fits ())) ∧
  decode 0x13000001#32 [0x00000000#32] = .command (.rxreset (.misfit [0x00000000#32])) ∧
  decode 0x14000001#32 [0x00000001#32] = .command (.rxsetcb (.fits 1#2)) ∧
  decode 0x14000001#32 [0x00000004#32] = .command (.rxsetcb (.misfit [0x00000004#32])) ∧
  decode 0x20000001#32 [0x00000019#32] = .command (.rdcsr (.fits .rxEvmask)) ∧
  decode 0x20000001#32 [0x0000000B#32] = .command (.rdcsr (.misfit [0x0000000B#32])) ∧
  decode 0x21000001#32 [0x00000008#32] = .command (.defalloc (.fits 8#32)) ∧
  decode 0x22000003#32 [0x00000008#32, 0x00000008#32, 0x00009018#32] =
      .command (.allocchk (.fits { m := 8#32, table := [0#2, 2#2, 1#2, 0#2, 0#2, 0#2, 1#2, 2#2] })) ∧
  decode 0x22000003#32 [0x00000008#32, 0x00000008#32, 0x00039018#32] =
      .command (.allocchk (.fits { m := 8#32, table := [0#2, 2#2, 1#2, 0#2, 0#2, 0#2, 1#2, 2#2] })) ∧
  decode 0x05000000#32 [] = .rejected (.reservedOpcode 0x05#8)

/-- R272: an illegal command is answered `IllegalCommand` with no payload and changes nothing, and the stream goes on `1 + NW`
words later. Illegal means a reserved opcode, or a command whose unit is ready and whose operands do not fit (R107, R111). -/
def Obligations.IllegalCommandIsAnsweredAndSkipped : Prop :=
  ∀ (s : State) (h : Word) (ops rest : List Word), takeCommand s.cmd = some (h, ops, rest) →
    ((∃ r, decode h ops = .rejected r) ∨
      (∃ i, decode h ops = .command i ∧ UnitReady i s ∧
        (operandsFit i = false ∨ ∃ a, i = .assemble (.fits a) ∧ ¬ AssembleShape s.tx a))) →
    step s = .next { s with cmd := rest, rsp := s.rsp ++ [0x000000FF#32] } ∧ rest = s.cmd.drop (1 + headerCount h)

/-- R62: byte `i` of a string is lane `i mod 4` of word `i / 4`; a string of `n` bytes takes `ceil_div(n, 4)` words; unused lanes
are written 0 and ignored when read. -/
def Obligations.BytesTravelFourToAWord : Prop :=
  (∀ bs : List Byte,
    (packBytes bs).length = ceilDiv bs.length 4 ∧
    (∀ i, i < bs.length → ((packBytes bs).getD (i / 4) 0#32).extractLsb' (8 * (i % 4)) 8 = bs.getD i 0#8) ∧
    (∀ i, bs.length ≤ i → i < 4 * ceilDiv bs.length 4 →
      ((packBytes bs).getD (i / 4) 0#32).extractLsb' (8 * (i % 4)) 8 = 0#8) ∧
    unpackBytes bs.length (packBytes bs) = bs) ∧
  (∀ (ws : List Word) (n : Nat), n ≤ 4 * ws.length →
    (unpackBytes n ws).length = n ∧
    ∀ i, i < n → (unpackBytes n ws).getD i 0#8 = (ws.getD (i / 4) 0#32).extractLsb' (8 * (i % 4)) 8)

/-- R63: every finite binary32 word but the negative zero comes back from the number it encodes; both zeros are the number 0,
whose word is 0. -/
def Obligations.NumberWordsRoundTrip : Prop :=
  (∀ w : Word, w.extractLsb' 23 8 ≠ 255#8 → w ≠ 0x80000000#32 → wordOfNum (numOfWord w) = w) ∧
  numOfWord 0x80000000#32 = 0 ∧ wordOfNum 0 = 0#32

/-- R195: the `i`-th of `nsym * M_data` symbols is `modulate` of the `i`-th group of bits, most significant first, with zero bits
appended; the bits of the groups are then all the bits of the bytes. -/
def Obligations.MapSymbolsTakesBitsInOrder : Prop :=
  ∀ (e : List Byte) (md : ModId) (nsym nData : Nat), 8 * e.length ≤ nsym * nData * modBps md →
    (mapSymbols e md nsym nData).length = nsym * nData ∧
    ∀ i, i < nsym * nData →
      (mapSymbols e md nsym nData).getD i Cpx.zero =
        modulate md ((List.range (modBps md)).map fun j =>
          let b := i * modBps md + j
          (e.getD (b / 8) 0#8).getLsbD (7 - b % 8))

/-! ### Collaborators and numbers -/

/-- R10: the laws of the collaborators, for every scheme of R12: the transforms are inverse to each other, and at every legal length
they are the sums of R17 over the real numbers, up to the digits `cis` leaves out (log 2, log 4); a computed checksum
verifies; decoding an encoded string gives it back with success; demodulating a modulated group gives it back; all
lengths are as stated, and the expansion ratio of each FEC is bounded. R12: ids 0, 1, 2 and no others name a scheme, and the
schemes R12 defines (`NONE`, `SUM8`, `REP3`, `BPSK`, `QPSK`) are as it says. R14: `arg` and `cis` belong together, up to what the
model's instance of them leaves out (log 2, 3): the argument of `cis x` is `x`, from next to `-pi` up to `pi`, and a number turned
back by its argument lies on the positive real axis. -/
def Obligations.CollaboratorLawsHold : Prop :=
  (∀ (m : Nat) (x : List Cpx), x.length = m →
    (dftFwd m x).length = m ∧ (dftInv m x).length = m ∧ dftFwd m (dftInv m x) = x ∧ dftInv m (dftFwd m x) = x) ∧
  (∀ (m : Nat) (x : List Cpx) (k : Nat), m ≤ 65534 → x.length = m → k < m →
    let value := fun (xs : List Cpx) (i : Nat) => (⟨((xs.getD i Cpx.zero).re : ℝ), ((xs.getD i Cpx.zero).im : ℝ)⟩ : ℂ)
    let phase := fun n : Nat => Complex.exp (((2 * Real.pi * ((k : ℝ) * n / m) : ℝ) : ℂ) * Complex.I)
    let size := ∑ n ∈ Finset.range m, ‖value x n‖
    ‖value (dftFwd m x) k - ∑ n ∈ Finset.range m, value x n * (phase n)⁻¹‖ ≤ 3 / 10 ^ 19 * size ∧
    ‖value (dftInv m x) k - 1 / (m : ℂ) * ∑ n ∈ Finset.range m, value x n * phase n‖ ≤ 4 / 10 ^ 19 * size) ∧
  (∀ (c : CheckId) (b : List Byte), (checkCompute c b).length = checkLen c ∧ checkVerify c b (checkCompute c b) = true) ∧
  (∀ (f : FecId) (b : List Byte),
    (fecEncode f b).length = fecEncLen f b.length ∧ fecDecode f b.length (fecEncode f b) = (b, true)) ∧
  (∀ (f : FecId) (n : Nat) (e : List Byte), e.length = fecEncLen f n → (fecDecode f n e).1.length = n) ∧
  (∀ f : FecId, ∃ r, ∀ n, 1 ≤ n → fecEncLen f n ≤ r * n) ∧
  (∀ md : ModId, 1 ≤ modBps md ∧ (∀ z, (demodulate md z).length = modBps md) ∧
    ∀ bits : List Bool, bits.length = modBps md → demodulate md (modulate md bits) = bits) ∧
  (∀ c : Byte,
    checkOfCode c = (match c.toNat with | 0 => some .none | 1 => some .sum8 | 2 => some .crc32 | _ => none) ∧
    fecOfCode c = (match c.toNat with | 0 => some .none | 1 => some .h128 | 2 => some .rep3 | _ => none) ∧
    modOfCode c = (match c.toNat with | 0 => some .bpsk | 1 => some .qpsk | 2 => some .qam16 | _ => none)) ∧
  (checkLen .none = 0 ∧ checkLen .sum8 = 1 ∧ checkLen .crc32 = 4 ∧
    ∀ b s : List Byte, checkCompute .none b = [] ∧ checkVerify .none b s = true ∧
      checkCompute .sum8 b = [BitVec.ofNat 8 (b.map BitVec.toNat).sum] ∧
      (checkVerify .sum8 b s = true ↔ s = checkCompute .sum8 b)) ∧
  (∀ (n : Nat) (b e : List Byte), fecEncLen .none n = n ∧ fecEncLen .rep3 n = 3 * n ∧
    fecEncode .none b = b ∧ fecDecode .none n e = (e, true) ∧ fecEncode .rep3 b = b ++ b ++ b ∧
    (fecDecode .rep3 n e).1.length = n ∧ (fecDecode .rep3 n e).2 = true ∧
    ∀ i j, i < n → j < 8 →
      (((fecDecode .rep3 n e).1.getD i 0#8).getLsbD j = true ↔
        2 ≤ [e.getD i 0#8, e.getD (n + i) 0#8, e.getD (2 * n + i) 0#8].countP fun c => c.getLsbD j)) ∧
  (modBps .bpsk = 1 ∧ modBps .qpsk = 2 ∧ modBps .qam16 = 4 ∧
    (∀ b0 b1 : Bool,
      modulate .bpsk [b0] = ⟨if b0 then -1 else 1, 0⟩ ∧
      modulate .qpsk [b0, b1] = ⟨if b0 then -1 else 1, if b1 then -1 else 1⟩) ∧
    ∀ z : Cpx, demodulate .bpsk z = [decide (z.re < 0)] ∧ demodulate .qpsk z = [decide (z.re < 0), decide (z.im < 0)]) ∧
  (∀ x : Sys2Proof.Num, -numPi + 1 / 10 ^ 20 ≤ x → x ≤ numPi → |arg (cis x) - x| ≤ 1 / 10 ^ 17) ∧
  (∀ z : Cpx, z ≠ Cpx.zero →
    let w := z.mul (cis (arg z)).conj
    0 < w.re ∧ |w.im| ≤ w.re / 10 ^ 17 ∧ w.normSq = z.normSq)

/-! ### The allocation table -/

/-- R122: `validate` rejects a table exactly for the four reasons. -/
def Obligations.ValidateRejectsFourReasons : Prop :=
  ∀ (p : List TagCode) (m : Nat),
    (validate p m = .invalidAllocation ↔
      (p.length ≠ m ∨ 3#2 ∈ p ∨ p.countP (· == 2#2) = 0 ∨ p.countP (· == 1#2) = 0)) ∧
    (validate p m = .ok ∨ validate p m = .invalidAllocation)

/-- R121: the derived lists: counts add up to the length; `PIL`, `DAT` are the pilot and data bins in ascending `k`; `NN`, `PILs` the
non-`NULL` and the pilot bins in ascending signed index. R15: the signed index itself, on both sides of `M/2`. -/
def Obligations.DerivedListsAreOrdered : Prop :=
  (∀ m k : Nat, (2 * k < m → sidx m k = (k : Int)) ∧ (m ≤ 2 * k → sidx m k = (k : Int) - (m : Int))) ∧
  (∀ h : Nat, 1 ≤ h →
    sidx (2 * h) 0 = 0 ∧ sidx (2 * h) (h - 1) = (h : Int) - 1 ∧ sidx (2 * h) h = -(h : Int) ∧ sidx (2 * h) (2 * h - 1) = -1 ∧
    ∀ k, k < 2 * h → -(h : Int) ≤ sidx (2 * h) k ∧ sidx (2 * h) k ≤ (h : Int) - 1) ∧
  (∀ p : List Tag,
    countTag .null p + countTag .pilot p + countTag .data p = p.length ∧
    (∀ t, (binsOf t p).Pairwise (· < ·) ∧ (∀ k, k ∈ binsOf t p ↔ k < p.length ∧ tagAt p k = t) ∧
      (binsOf t p).length = countTag t p) ∧
    (nonNullFreq p).Pairwise (fun a b => sidx p.length a < sidx p.length b) ∧
    (∀ k, k ∈ nonNullFreq p ↔ k < p.length ∧ tagAt p k ≠ .null) ∧
    (pilotsFreq p).Pairwise (fun a b => sidx p.length a < sidx p.length b) ∧
    (∀ k, k ∈ pilotsFreq p ↔ k < p.length ∧ tagAt p k = .pilot) ∧
    (nonNullFreq p).length = countTag .pilot p + countTag .data p) ∧
  (let p := tagsOf [0#2, 2#2, 1#2, 0#2, 0#2, 0#2, 1#2, 2#2]
   binsOf .pilot p = [2, 6] ∧ binsOf .data p = [1, 7] ∧ nonNullFreq p = [6, 7, 1, 2] ∧ pilotsFreq p = [6, 2])

/-- R123, R127: bin by bin, what the loop of `default_allocation` leaves: bin 0 and the bins around the edge `NULL`, and the tag of
`i` in bins `i` and `M - i` for `1 <= i <= M2 - G - 1`; the table passes `validate`, has `NULL` at bin 0, and is symmetric. -/
def Obligations.DefaultAllocationBinByBin : Prop :=
  ∀ m : Nat, 8 ≤ m →
    (defaultAllocation m).length = m ∧
    (∀ k, k < m →
      tagAt (defaultAllocation m) k =
        (let i := if 2 * k < m then k else m - k
         if 1 ≤ i ∧ i + max 1 (m / 10) + 1 ≤ m / 2 then
           (if (i + (if m > 34 then 4 else 2)) % (if m > 34 then 8 else 4) = 0 then .pilot else .data)
         else .null)) ∧
    validate ((defaultAllocation m).map tagCode) m = .ok ∧ tagAt (defaultAllocation m) 0 = .null ∧
    ∀ k, 1 ≤ k → k ≤ m - 1 → tagAt (defaultAllocation m) (m - k) = tagAt (defaultAllocation m) k

/-- R124: `DEFALLOC` answers the packed default table for `M` from 8 to 65535, configured or not, and `InvalidConfiguration`
outside; with any operand count but 1, `IllegalCommand`. It changes no state of either unit. Where `table=default` (R110 (a)) has
an expansion it is that table; so, with the failure clause, it has none for `M` outside 8 to 65535: R110 is silent there and that is the
model's choice (DESIGN CHOICE, log 21). -/
def Obligations.DefallocAnswersTheDefaultTable : Prop :=
  (∀ (s : State) (m : Word), 8 ≤ m.toNat → m.toNat ≤ 65535 →
    exec (.defalloc (.fits m)) s =
      .next { s with rsp := s.rsp ++ statusWord .ok (ceilDiv m.toNat 16) :: packTable ((defaultAllocation m.toNat).map tagCode) }) ∧
  (∀ (s : State) (m : Word) (p : List TagCode), defaultTableOperand m.toNat = some p →
    exec (.defalloc (.fits m)) s = .next { s with rsp := s.rsp ++ statusWord .ok (ceilDiv m.toNat 16) :: packTable p }) ∧
  (∀ (s : State) (m : Word), (m.toNat < 8 ∨ 65535 < m.toNat) →
    exec (.defalloc (.fits m)) s = .next { s with rsp := s.rsp ++ [0x00000001#32] }) ∧
  (∀ (s : State) (ws : List Word), exec (.defalloc (.misfit ws)) s = .next { s with rsp := s.rsp ++ [0x000000FF#32] }) ∧
  (∀ ops : List Word, ops.length = 1 ↔ ∃ m, decodeDefAlloc ops = .fits m) ∧
  (∀ s : State, s.cmd = [0x21000001#32, 0x00000008#32] →
    step s = .next { s with cmd := [], rsp := s.rsp ++ [0x00000100#32, 0x00009018#32] })

/-- R125: `ALLOCCHK` answers the verdict of `validate`, configured or not, whatever `M` is; with another operand count than the
table's, `IllegalCommand`. It changes no state of either unit. -/
def Obligations.AllocchkAnswersTheVerdict : Prop :=
  (∀ (s : State) (a : AllocChkOps), validate a.table a.m.toNat = .ok →
    exec (.allocchk (.fits a)) s = .next { s with rsp := s.rsp ++ [0x00000000#32] }) ∧
  (∀ (s : State) (a : AllocChkOps), validate a.table a.m.toNat ≠ .ok →
    exec (.allocchk (.fits a)) s = .next { s with rsp := s.rsp ++ [0x00000002#32] }) ∧
  (∀ (s : State) (ws : List Word), exec (.allocchk (.misfit ws)) s = .next { s with rsp := s.rsp ++ [0x000000FF#32] }) ∧
  (∀ (m l : Word) (tab : List Word), tab.length = ceilDiv l.toNat 16 ↔ ∃ a, decodeAllocChk (m :: l :: tab) = .fits a) ∧
  (∀ m : Nat, validate [] m = .invalidAllocation) ∧
  (validate [0#2, 2#2, 1#2, 2#2] 4 = .ok) ∧
  (∀ s : State, s.cmd = [0x22000003#32, 0x00000008#32, 0x00000008#32, 0x00009018#32] →
    step s = .next { s with cmd := [], rsp := s.rsp ++ [0x00000000#32] })

/-! ### Assembler and disassembler -/

/-- R141: one step of the register, its seeds, and its period: from a non-zero state it never reaches zero, and it comes back to
the state first after 65535 steps. -/
def Obligations.LfsrStepAndPeriod : Prop :=
  (∀ s : BitVec 16,
    (lfsrStep s).1 = s.getLsbD 0 ∧
    (∀ i, i < 15 → (lfsrStep s).2.getLsbD i = s.getLsbD (i + 1)) ∧
    (lfsrStep s).2.getLsbD 15 = Bool.xor (Bool.xor (s.getLsbD 0) (s.getLsbD 2)) (Bool.xor (s.getLsbD 3) (s.getLsbD 5))) ∧
  Config.seedShort = 0xACE1#16 ∧ Config.seedLong = 0x3C5A#16 ∧ Config.seedPilot = 0x7A5B#16 ∧
  (∀ s : BitVec 16, s ≠ 0#16 →
    (∀ n, lfsrIter n s ≠ 0#16) ∧ lfsrIter 65535 s = s ∧ ∀ n, 1 ≤ n → n < 65535 → lfsrIter n s ≠ s) ∧
  ((List.range 4).map fun n => lfsrIter (n + 1) 0xACE1#16) = [0x5670#16, 0xAB38#16, 0x559C#16, 0x2ACE#16] ∧
  ((List.range 8).map fun n => (lfsrStep (lfsrIter n 0xACE1#16)).1) = [true, false, false, false, false, true, true, true]

/-- R140: the taper has `taper_len` weights between 0 and 1; a weight is the raised cosine of its index, up to what the model's
cosine leaves out (log 2), and a weight and its mirror add up to 1; at every legal length the weights rise strictly, above 0 and
below 1; for length 0 it is empty and for length 1 it is one half. -/
def Obligations.TaperWeightsAreComplementary : Prop :=
  taperWindow 0 = [] ∧ taperWindow 1 = [1 / 2] ∧
  ∀ n : Nat, (taperWindow n).length = n ∧
    ∀ i, i < n →
      let w := (taperWindow n).getD i 0
      0 ≤ w ∧ w ≤ 1 ∧ w + (taperWindow n).getD (n - 1 - i) 0 = 1 ∧
      |(w : ℝ) - (1 - Real.cos (Real.pi * ((i : ℝ) + 1 / 2) / n)) / 2| ≤ 1 / 10 ^ 19 ∧
      (n ≤ 65533 → 0 < w ∧ w < 1 ∧ (i + 1 < n → w < (taperWindow n).getD (i + 1) 0))

/-- R142, R143: bin by bin, the preamble vectors: the register steps once per bin whatever the tag; `S0` keeps the even
non-`NULL` bins and `S1` every non-`NULL` bin, where its square is 1. For an even length `dft_inv(S0)` has two equal halves. -/
def Obligations.PreambleVectorsBinByBin : Prop :=
  ∀ p : List Tag,
    (shortPreamble p).length = p.length ∧ (longPreamble p).length = p.length ∧
    ∀ k, k < p.length →
      ((shortPreamble p).getD k Cpx.zero =
        if tagAt p k ≠ .null ∧ k % 2 = 0 then lfsrSign k 0xACE1#16 else Cpx.zero) ∧
      ((longPreamble p).getD k Cpx.zero = if tagAt p k ≠ .null then lfsrSign k 0x3C5A#16 else Cpx.zero) ∧
      (tagAt p k ≠ .null →
        ((longPreamble p).getD k Cpx.zero).mul ((longPreamble p).getD k Cpx.zero) = Cpx.ofNum 1) ∧
      (p.length % 2 = 0 → k < p.length / 2 →
        (dftInv p.length (shortPreamble p)).getD (k + p.length / 2) Cpx.zero =
          (dftInv p.length (shortPreamble p)).getD k Cpx.zero)

/-- R146: `fill` puts 0 in `NULL` bins, in the pilot bins in ascending `k` the values the register draws one after the other, and
in the data bins in ascending `k` the symbols one after the other. -/
def Obligations.FillPlacesPilotsAndData : Prop :=
  ∀ (p : List Tag) (d : List Cpx) (pl : BitVec 16),
    (fill p d pl).1.length = p.length ∧ (fill p d pl).2 = lfsrIter (countTag .pilot p) pl ∧
    ∀ k, k < p.length →
      (fill p d pl).1.getD k Cpx.zero =
        match tagAt p k with
        | .null => Cpx.zero
        | .pilot => lfsrSign (countTag .pilot (p.take k)) pl
        | .data => d.getD (countTag .data (p.take k)) Cpx.zero

/-- R149: the shape of a block, for any vector and any overlap buffer, at legal dimensions. The phases of (e) are those of the
model's instance of `cis`: (e) holds up to the digits it leaves out (log 2, log 4), at every legal `M`, and exactly at
`s = cp_len`. -/
def Obligations.AssembledBlockShape : Prop :=
  (∀ (m cp tl : Nat) (v ovl : List Cpx) (s k : Nat), m ≤ 65534 → cp < m → tl ≤ s → s ≤ cp → k < m → v.length = m →
    let x := dftInv m v
    let z := dftFwd m ((List.range m).map fun n => (asmBlock m cp tl (taperWindow tl) x ovl).getD (s + n) Cpx.zero)
    let turned := (v.getD k Cpx.zero).mul (cis (2 * numPi * k * ((s : Sys2Proof.Num) - cp) / m))
    ((z.getD k Cpx.zero).sub turned).normSq ≤ m * numSum (x.map Cpx.normSq) / 10 ^ 36 ∧ (s = cp → z = v)) ∧
  ∀ (m cp tl : Nat) (x ovl : List Cpx), cp < m → tl ≤ cp → x.length = m →
    let w := taperWindow tl
    let y := asmBlock m cp tl w x ovl
    y.length = m + cp ∧
    (∀ n, n < m → y.getD (cp + n) Cpx.zero = x.getD n Cpx.zero) ∧
    (∀ i, tl ≤ i → i < cp → y.getD i Cpx.zero = x.getD (m - cp + i) Cpx.zero) ∧
    (tl = 0 → asmOverlap tl w x = [] ∧ y = (List.range (m + cp)).map fun i => x.getD ((m - cp + i) % m) Cpx.zero) ∧
    (∀ s n, tl ≤ s → s ≤ cp → n < m → y.getD (s + n) Cpx.zero = x.getD ((n + s + (m - cp)) % m) Cpx.zero) ∧
    (∀ i, i < tl → (asmOverlap tl w x).getD i Cpx.zero = Cpx.scale (w.getD (tl - 1 - i) 0) (x.getD i Cpx.zero)) ∧
    (∀ i, i < tl → (asmBlock m cp tl w x (asmOverlap tl w x)).getD i Cpx.zero =
      (Cpx.scale (w.getD i 0) (x.getD (m - cp + i) Cpx.zero)).add (Cpx.scale (1 - w.getD i 0) (x.getD i Cpx.zero)))

/-- R148: the tail block is the overlap buffer followed by zeros, and leaves the overlap buffer all zeros. -/
def Obligations.TailFlushesTheOverlap : Prop :=
  ∀ tx : TxUnit, tx.cpLen < tx.m → tx.taperLen ≤ tx.cpLen → tx.ovl.length = tx.taperLen →
    (asmTime tx (zeros tx.m)).1 = tx.ovl ++ zeros (tx.m + tx.cpLen - tx.taperLen) ∧
    (asmTime tx (zeros tx.m)).2 = { tx with ovl := zeros tx.taperLen }

/-- R150, for every window and all estimates: the integer part of the timing estimate, halves up and clamped to `[-cp_len, 0]`, moves
the cut; the carrier phase is turned back sample by sample; the rest of the timing estimate is taken out as a phase slope. R151:
a window that holds exactly one assembled block, whatever the overlap, disassembles to its vector when the estimates are 0; and
with an integer timing estimate inside the clean prefix, at every legal `M`, to the vector turned by the phase slope, up to the
digits `cis` leaves out (log 2, log 4). -/
def Obligations.DisassembleInvertsAssemble : Prop :=
  (∀ rx : RxUnit,
    let nearest : Int := ⌊rx.tau + 1 / 2⌋
    let ti : Int := if nearest < -(rx.cpLen : Int) then -(rx.cpLen : Int) else if 0 < nearest then 0 else nearest
    let tf : Sys2Proof.Num := rx.tau - ti
    ∃ s : Nat, (s : Int) = rx.cpLen + ti ∧ s ≤ rx.cpLen ∧
      let v := (List.range rx.m).map fun n : Nat =>
        (rx.win.getD (s + n) Cpx.zero).mul (cis (-(rx.phi + rx.nu * ((s : Sys2Proof.Num) + n))))
      disassemble rx = (List.range rx.m).map fun k : Nat =>
        ((dftFwd rx.m v).getD k Cpx.zero).mul (cis (2 * numPi * (sidx rx.m k : Sys2Proof.Num) * tf / rx.m))) ∧
  (∀ (tx : TxUnit) (rx : RxUnit) (v : List Cpx), tx.cpLen < tx.m → tx.taperLen ≤ tx.cpLen →
    rx.m = tx.m → rx.cpLen = tx.cpLen → v.length = tx.m → rx.nu = 0 → rx.phi = 0 → rx.win = (asmTime tx v).1 →
    (rx.tau = 0 → disassemble rx = v) ∧
    ∀ (t : Int) (k : Nat), tx.m ≤ 65534 → rx.tau = t → -((tx.cpLen : Int) - tx.taperLen) ≤ t → t ≤ 0 → k < tx.m →
      let turned := (v.getD k Cpx.zero).mul (cis (2 * numPi * k * t / tx.m))
      (((disassemble rx).getD k Cpx.zero).sub turned).normSq ≤ tx.m * numSum ((dftInv tx.m v).map Cpx.normSq) / 10 ^ 36)

/-! ### Tracker and equaliser -/

/-- R179: the noiseless fixed point. If every non-`NULL` bin carries `H` times the transmitted vector and every pilot gain is `H`,
the update leaves offsets and pilot gains as they are, gives every data bin the gain `H`, and equalises to the
transmitted symbols. -/
def Obligations.TrackerNoiselessFixedPoint : Prop :=
  ∀ (rx : RxUnit) (z d : List Cpx) (h : Cpx), h ≠ Cpx.zero → LegalTable rx.m rx.table →
    rx.derived.pil = binsOf .pilot rx.table → rx.derived.pils = pilotsFreq rx.table →
    (∀ k, tagAt rx.table k = .pilot → rx.g.getD k Cpx.zero = h) →
    (∀ k, tagAt rx.table k ≠ .null → z.getD k Cpx.zero = h.mul ((fill rx.table d rx.pl).1.getD k Cpx.zero)) →
    let obs := (observe z rx.g rx.derived.pil rx.pl).1
    let rx' := track z rx
    (∀ o ∈ obs, o.gain = h ∧ o.err = Cpx.ofNum h.normSq) ∧ commonPhase obs = 0 ∧ phaseSlope rx.m rx.derived.pils obs = 0 ∧
    rx'.nu = rx.nu ∧ rx'.tau = rx.tau ∧
    (∀ k, tagAt rx.table k ≠ .null → rx'.g.getD k Cpx.zero = h) ∧
    (∀ k, tagAt rx.table k = .data → equalise z rx'.g k = (fill rx.table d rx.pl).1.getD k Cpx.zero)

/-- R171 to R176, whatever was received: each pilot bin in ascending `k` draws its sign from the register; `nu` and `tau` move by
`theta0` and `theta1`, the arguments of the sums over the pilots' errors against the old gains; each pilot gain moves by the
fraction `ALPHA` towards the gain observed; each data bin gets the gain interpolated between its neighbouring pilots, flat outside
the outermost; `NULL` bins and all else stay. And R181: the worked example, with the decision of `QPSK` on both data bins, and with
`ALPHA = 1`. R177: every equalised value is `Z * conj(G) / |G|^2`, and 0 where the gain is 0. -/
def Obligations.TrackerUpdatesTheEstimates : Prop :=
  (∀ (z g : List Cpx) (k : Nat),
    let gk := g.getD k Cpx.zero
    (gk ≠ Cpx.zero → equalise z g k = Cpx.scale (1 / gk.normSq) ((z.getD k Cpx.zero).mul gk.conj)) ∧
    (gk = Cpx.zero → equalise z g k = Cpx.zero)) ∧
  (∀ (rx : RxUnit) (z : List Cpx), LegalTable rx.m rx.table → rx.derived.pil = binsOf .pilot rx.table →
    rx.derived.pils = pilotsFreq rx.table →
    let pil := rx.derived.pil
    let pils := rx.derived.pils
    let f := fun k => sidx rx.m k
    let old := fun k => rx.g.getD k Cpx.zero
    let seen := fun k => (z.getD k Cpx.zero).mul (lfsrSign (countTag .pilot (rx.table.take k)) rx.pl)
    let u := fun k => (seen k).mul (old k).conj
    let theta0 := arg (Cpx.sum (pil.map u))
    let spacing : Sys2Proof.Num :=
      ((f (pils.getD (pils.length - 1) 0) - f (pils.getD 0 0) : Int) : Sys2Proof.Num) / ((pils.length - 1 : Nat) : Sys2Proof.Num)
    let theta1 :=
      if 2 ≤ pils.length then
        arg (Cpx.sum ((List.range (pils.length - 1)).map fun i => (u (pils.getD (i + 1) 0)).mul (u (pils.getD i 0)).conj)) / spacing
      else 0
    let new := fun k => (track z rx).g.getD k Cpx.zero
    track z rx = { rx with
      pl := lfsrIter pil.length rx.pl
      nu := rx.nu + rx.alpha * theta0 / ((rx.m + rx.cpLen : Nat) : Sys2Proof.Num)
      tau := rx.tau - rx.alpha * theta1 * rx.m / (2 * numPi)
      g := (track z rx).g } ∧
    (track z rx).g.length = rx.m ∧
    (∀ k, k < rx.m → tagAt rx.table k = .null → new k = old k) ∧
    (∀ k, k ∈ pil → new k = (old k).add (Cpx.scale rx.alpha ((seen k).sub (old k)))) ∧
    (∀ k lo hi, tagAt rx.table k = .data → lo ∈ pil → hi ∈ pil → f lo < f k → f k < f hi → (∀ q ∈ pil, f q ≤ f lo ∨ f hi ≤ f q) →
      new k = (new lo).add (Cpx.scale (((f k - f lo : Int) : Sys2Proof.Num) / ((f hi - f lo : Int) : Sys2Proof.Num))
        ((new hi).sub (new lo)))) ∧
    (∀ k hi, tagAt rx.table k = .data → hi ∈ pil → f k < f hi → (∀ q ∈ pil, f hi ≤ f q) → new k = new hi) ∧
    (∀ k lo, tagAt rx.table k = .data → lo ∈ pil → f lo < f k → (∀ q ∈ pil, f q ≤ f lo) → new k = new lo)) ∧
  (∀ rx : RxUnit, rx.m = 8 → rx.cpLen = 2 → rx.table = tagsOf [0#2, 2#2, 1#2, 0#2, 0#2, 0#2, 1#2, 2#2] →
      rx.derived.pil = [2, 6] → rx.derived.pils = [6, 2] → rx.nu = 0 → rx.tau = 0 → rx.pl = 0x7A5B#16 →
      rx.g = [⟨0, 0⟩, ⟨1, 0⟩, ⟨1, 0⟩, ⟨0, 0⟩, ⟨0, 0⟩, ⟨0, 0⟩, ⟨1, 0⟩, ⟨1, 0⟩] →
      let z : List Cpx := [⟨0, 0⟩, ⟨-1, 1⟩, ⟨0, -1⟩, ⟨0, 0⟩, ⟨0, 0⟩, ⟨0, 0⟩, ⟨0, -1⟩, ⟨1, -1⟩]
      let obs := (observe z rx.g rx.derived.pil rx.pl).1
      let j : Cpx := ⟨0, 1⟩
      obs = [⟨2, j, j⟩, ⟨6, j, j⟩] ∧ commonPhase obs = numPi / 2 ∧ pilotStride 8 [6, 2] = 4 ∧ phaseSlope 8 [6, 2] obs = 0 ∧
      (rx.alpha = 1 / 2 →
        (track z rx).nu = numPi / 40 ∧ (track z rx).tau = 0 ∧
        (track z rx).g = [⟨0, 0⟩, ⟨1 / 2, 1 / 2⟩, ⟨1 / 2, 1 / 2⟩, ⟨0, 0⟩, ⟨0, 0⟩, ⟨0, 0⟩, ⟨1 / 2, 1 / 2⟩, ⟨1 / 2, 1 / 2⟩] ∧
        equalise z (track z rx).g 1 = ⟨0, 2⟩ ∧ equalise z (track z rx).g 7 = ⟨0, -2⟩ ∧
        demodulate .qpsk (equalise z (track z rx).g 1) = [false, false] ∧
        demodulate .qpsk (equalise z (track z rx).g 7) = [false, true]) ∧
      (rx.alpha = 1 →
        (∀ k, k ∈ [1, 2, 6, 7] → (track z rx).g.getD k Cpx.zero = j) ∧
        equalise z (track z rx).g 1 = ⟨1, 1⟩ ∧ equalise z (track z rx).g 7 = ⟨-1, -1⟩))

/-! ### Frame generator -/

/-- R42, R191: a legal `TXCFG` on an unconfigured TXU answers `OK`; the configuration is stored, the derived constants are
computed, the unit is `IDLE` with an empty frame, and nothing else changes. R96, R107: the words that fit the layout are those of
the right count with the must-be-zero bits 0, and each field is where R96 puts it; other words are an illegal command, in every
state. -/
def Obligations.TxcfgConfiguresTheUnit : Prop :=
  (∀ (s : State) (c : TxCfgOps), s.tx.state = .unconfigured → TxCfgLegal c →
    ∃ t, exec (.txcfg (.fits c)) s = .next t ∧ t.rsp = s.rsp ++ [0x00000000#32] ∧ t.cmd = s.cmd ∧ t.rx = s.rx ∧
      t.tx.m = c.m.toNat ∧ t.tx.cpLen = c.cpLen.toNat ∧ t.tx.taperLen = c.taperLen.toNat ∧
      t.tx.table.map tagCode = c.table ∧ checkCode t.tx.check = c.props.check ∧ fecCode t.tx.fec0 = c.props.fec0 ∧
      fecCode t.tx.fec1 = c.props.fec1 ∧ modCode t.tx.mod = c.props.mod ∧ modCode t.tx.hdrMod = c.hdrMod ∧
      t.tx.hUser = c.hUser.toNat ∧ t.tx.maxPaySyms = c.maxPaySyms.toNat ∧
      t.tx.derived =
        { nNull := countTag .null t.tx.table, nPilot := countTag .pilot t.tx.table, nData := countTag .data t.tx.table,
          pil := binsOf .pilot t.tx.table, dat := binsOf .data t.tx.table, taper := taperWindow c.taperLen.toNat,
          short := shortPreamble t.tx.table, long := longPreamble t.tx.table } ∧
      t.tx.state = .idle ∧ t.tx.cursor = 0 ∧ t.tx.nHdr = 0 ∧ t.tx.nPay = 0 ∧ t.tx.nTot = 0 ∧ t.tx.fd = [] ∧
      t.tx.ovl = List.replicate c.taperLen.toNat Cpx.zero) ∧
  (∀ (s : State) (ws : List Word), exec (.txcfg (.misfit ws)) s = .next { s with rsp := s.rsp ++ [0x000000FF#32] }) ∧
  (∀ ops : List Word, (∃ c, decodeTxCfg ops = .fits c) ↔
    ops.length = 6 + ceilDiv (ops.getD 5 0#32).toNat 16 ∧ (ops.getD 0 0#32).extractLsb' 16 16 = 0#16 ∧ (ops.getD 3 0#32).extractLsb' 16 16 = 0#16) ∧
  (∀ (ops : List Word) (c : TxCfgOps), decodeTxCfg ops = .fits c →
    c.m = (ops.getD 0 0#32).extractLsb' 0 16 ∧ c.cpLen = (ops.getD 1 0#32).extractLsb' 0 16 ∧
    c.taperLen = (ops.getD 1 0#32).extractLsb' 16 16 ∧ c.props.check = (ops.getD 2 0#32).extractLsb' 0 8 ∧
    c.props.fec0 = (ops.getD 2 0#32).extractLsb' 8 8 ∧ c.props.fec1 = (ops.getD 2 0#32).extractLsb' 16 8 ∧
    c.props.mod = (ops.getD 2 0#32).extractLsb' 24 8 ∧ c.hdrMod = (ops.getD 3 0#32).extractLsb' 0 8 ∧
    c.hUser = (ops.getD 3 0#32).extractLsb' 8 8 ∧ c.maxPaySyms = ops.getD 4 0#32 ∧
    c.table.length = (ops.getD 5 0#32).toNat ∧
    ∀ k, k < c.table.length → c.table.getD k 0#2 = (ops.getD (6 + k / 16) 0#32).extractLsb' (2 * (k % 16)) 2)

/-- R192: `TXPROPS` on a configured TXU replaces the four properties and nothing else, in every configured state; unconfigured,
misshapen or with an unsupported id it fails, in that order, and changes nothing. -/
def Obligations.TxpropsReplacesTheProperties : Prop :=
  (∀ (s : State) (p : PropsOps), s.tx.state ≠ .unconfigured → PropsSupported p →
    ∃ t, exec (.txprops (.fits p)) s = .next t ∧ t.rsp = s.rsp ++ [0x00000000#32] ∧ t.cmd = s.cmd ∧ t.rx = s.rx ∧
      checkCode t.tx.check = p.check ∧ fecCode t.tx.fec0 = p.fec0 ∧ fecCode t.tx.fec1 = p.fec1 ∧ modCode t.tx.mod = p.mod ∧
      t.tx = { s.tx with check := t.tx.check, fec0 := t.tx.fec0, fec1 := t.tx.fec1, mod := t.tx.mod }) ∧
  (∀ (s : State) (o : Operands PropsOps), s.tx.state = .unconfigured →
    exec (.txprops o) s = .next { s with rsp := s.rsp ++ [0x00000005#32] }) ∧
  (∀ (s : State) (ws : List Word), s.tx.state ≠ .unconfigured →
    exec (.txprops (.misfit ws)) s = .next { s with rsp := s.rsp ++ [0x000000FF#32] }) ∧
  (∀ (s : State) (p : PropsOps), s.tx.state ≠ .unconfigured → ¬ PropsSupported p →
    exec (.txprops (.fits p)) s = .next { s with rsp := s.rsp ++ [0x00000001#32] }) ∧
  (∀ ops : List Word, ops.length = 1 ↔ ∃ p, decodeTxProps ops = .fits p) ∧
  (∀ s : State, s.tx.state ≠ .unconfigured → s.cmd = [0x02000001#32, 0x01000000#32] →
    ∃ t, step s = .next t ∧ t.rsp = s.rsp ++ [0x00000000#32] ∧ csrValue t .txProps = 0x01000000#32)

/-- R193: the counts are the least that hold the message: `enc_len` bytes after checksum and FEC, just enough modem symbols for
their bits, just enough OFDM symbols for those; no symbol exactly when no byte, which is an empty message without checksum. -/
def Obligations.CountsAreTheLeastThatHold : Prop :=
  ∀ (c : CheckId) (f : FecId) (md : ModId) (n nData : Nat), 1 ≤ nData →
    let k := counts c f md n nData
    k.encLen = fecEncLen f (n + checkLen c) ∧
    8 * k.encLen ≤ k.nmod * modBps md ∧ k.nmod * modBps md < 8 * k.encLen + modBps md ∧
    k.nmod ≤ k.nsym * nData ∧ k.nsym * nData < k.nmod + nData ∧
    (k.nsym = 0 ↔ k.encLen = 0) ∧ (k.nsym = 0 ↔ n = 0 ∧ c = .none)

/-- R194, R65: the header as sent is the user bytes followed by the five descriptor bytes, the length high byte first. -/
def Obligations.DescriptorFollowsTheUserBytes : Prop :=
  ∀ (tx : TxUnit) (user : List Byte) (n : Nat), n ≤ 65535 →
    fullHeader tx user n =
      user ++ [BitVec.extractLsb' 8 8 (BitVec.ofNat 16 n), BitVec.extractLsb' 0 8 (BitVec.ofNat 16 n),
        checkCode tx.check, fecCode tx.fec1, modCode tx.mod] ∧
    (fullHeader tx user n).length = user.length + 5 ∧
    (BitVec.extractLsb' 8 8 (BitVec.ofNat 16 n)).toNat * 256 + (BitVec.extractLsb' 0 8 (BitVec.ofNat 16 n)).toNat = n

/-- R196, the successful case: `ASSEMBLE` in any configured state with the right word count and a payload within the limits
answers `OK`; the frame is short preamble, long preamble, header symbols, payload symbols, tail, the pilot register running
from the first header symbol to the last payload symbol; cursor and overlap are cleared; nothing else changes. -/
def Obligations.AssembleBuildsTheFrame : Prop :=
  ∀ (s : State) (a : AssembleOps), s.tx.state ≠ .unconfigured → AssembleShape s.tx a → PayloadFits s.tx a →
    let tx := s.tx
    let n := a.payloadLen.toNat
    let nH := (counts tx.check tx.fec0 tx.hdrMod (tx.hUser + 5) tx.derived.nData).nsym
    let nP := (counts tx.check tx.fec1 tx.mod n tx.derived.nData).nsym
    let hdr := fullHeader tx (assembleUser tx a) n
    let hs := mapSymbols (fecEncode tx.fec0 (hdr ++ checkCompute tx.check hdr)) tx.hdrMod nH tx.derived.nData
    let ps := mapSymbols (fecEncode tx.fec1 (assemblePayload tx a ++ checkCompute tx.check (assemblePayload tx a)))
      tx.mod nP tx.derived.nData
    let slice := fun (ds : List Cpx) (i : Nat) => (ds.drop (i * tx.derived.nData)).take tx.derived.nData
    let reg := fun (i : Nat) => lfsrIter (i * countTag .pilot tx.table) 0x7A5B#16
    ∃ t, exec (.assemble (.fits a)) s = .next t ∧ t.rsp = s.rsp ++ [0x00000000#32] ∧ t.cmd = s.cmd ∧ t.rx = s.rx ∧
      t.tx = { tx with
        fd := t.tx.fd, nHdr := nH, nPay := nP, nTot := 2 + nH + nP + 1, cursor := 0,
        ovl := List.replicate tx.taperLen Cpx.zero, state := .assembled } ∧
      t.tx.fd.length = 2 + nH + nP + 1 ∧
      t.tx.fd.getD 0 [] = tx.derived.short ∧ t.tx.fd.getD 1 [] = tx.derived.long ∧
      (∀ i, i < nH → t.tx.fd.getD (2 + i) [] = (fill tx.table (slice hs i) (reg i)).1) ∧
      (∀ i, i < nP → t.tx.fd.getD (2 + nH + i) [] = (fill tx.table (slice ps i) (reg (nH + i))).1) ∧
      t.tx.fd.getD (2 + nH + nP) [] = List.replicate tx.m Cpx.zero

/-- R197, the successful case: `WRSYM` in a frame answers `OK` with `is_last` and the `M + cp_len` samples of the next block, two
words each; it advances the cursor by 1, replaces the overlap buffer, and moves the state; nothing else changes. R198: the state at
each cursor of a frame. -/
def Obligations.WrsymWritesTheNextSymbol : Prop :=
  (∀ nHdr nPay : Nat,
    stateOf nHdr nPay 0 = .assembled ∧ stateOf nHdr nPay 1 = .preamble ∧
    (∀ c, 2 ≤ c → c < 2 + nHdr → stateOf nHdr nPay c = .header) ∧
    (∀ c, 2 + nHdr ≤ c → c < 2 + nHdr + nPay → stateOf nHdr nPay c = .payload) ∧
    stateOf nHdr nPay (2 + nHdr + nPay) = .tail) ∧
  ∀ s : State, s.tx.state ≠ .unconfigured → s.tx.state ≠ .idle →
    let tx := s.tx
    let x := dftInv tx.m (tx.fd.getD tx.cursor [])
    let last := decide (tx.cursor + 1 = tx.nTot)
    let y := asmBlock tx.m tx.cpLen tx.taperLen tx.derived.taper x tx.ovl
    exec (.wrsym (.fits ())) s = .next { s with
      tx := { tx with
        cursor := tx.cursor + 1, ovl := asmOverlap tx.taperLen tx.derived.taper x,
        state := if last then .idle else stateOf tx.nHdr tx.nPay (tx.cursor + 1) }
      rsp := s.rsp ++ statusWord .ok (1 + 2 * (tx.m + tx.cpLen)) :: (if last then 1#32 else 0#32) ::
        y.flatMap fun z => [wordOfNum z.re, wordOfNum z.im] }

/-- R199: after a successful `ASSEMBLE` exactly `N_TOT` `WRSYM` commands succeed, `is_last` on the last one only, each with
`M + cp_len` samples; the next one fails with `NotAssembled`. R110 (b): `TXFRAME` is that `ASSEMBLE` and those `N_TOT` commands, ended
by `is_last`; when the `ASSEMBLE` fails it is the `ASSEMBLE` alone. -/
def Obligations.FrameIsNTotSymbolsLong : Prop :=
  (∀ (s t : State) (a : AssembleOps), exec (.assemble (.fits a)) s = .next t → t.rsp = s.rsp ++ [0x00000000#32] →
    (∀ k, k < t.tx.nTot →
      ∃ (u v : State) (samples : List Cpx), execAll (List.replicate k (.wrsym (.fits ()))) t = .next u ∧ exec (.wrsym (.fits ())) u = .next v ∧
        samples.length = t.tx.m + t.tx.cpLen ∧
        v.rsp = u.rsp ++ statusWord .ok (1 + 2 * (t.tx.m + t.tx.cpLen)) ::
          (if k + 1 = t.tx.nTot then 1#32 else 0#32) :: samples.flatMap wordsOfCpx) ∧
    ∃ u, execAll (List.replicate t.tx.nTot (.wrsym (.fits ()))) t = .next u ∧
      exec (.wrsym (.fits ())) u = .next { u with rsp := u.rsp ++ [0x00000004#32] } ∧
      txFrame a s = (.assemble (.fits a) :: List.replicate t.tx.nTot (.wrsym (.fits ())), .next u)) ∧
  (∀ (s t : State) (a : AssembleOps), exec (.assemble (.fits a)) s = .next t → t.rsp ≠ s.rsp ++ [0x00000000#32] →
    txFrame a s = ([.assemble (.fits a)], .next t))

/-! ### Frame synchronizer -/

/-- R221, R26, the successful case: a legal `RXCFG` on an unconfigured RXU answers `OK`; configuration and derived constants are
stored; the event mask and the queue are left as they are; nothing else changes but what R41 says. R100, R107: the words that fit
the layout are those of the right count with the must-be-zero bits 0, and each field is where R100 puts it; other words are an
illegal command, in every state. -/
def Obligations.RxcfgConfiguresTheUnit : Prop :=
  (∀ (s : State) (c : RxCfgOps), s.rx.state = .unconfigured → RxCfgLegal c →
    ∃ t, exec (.rxcfg (.fits c)) s = .next t ∧ t.rsp = s.rsp ++ [0x00000000#32] ∧ t.cmd = s.cmd ∧ t.tx = s.tx ∧
      t.rx.m = c.m.toNat ∧ t.rx.cpLen = c.cpLen.toNat ∧ t.rx.taperLen = c.taperLen.toNat ∧ t.rx.table.map tagCode = c.table ∧
      checkCode t.rx.hdrCheck = c.hdrCheck ∧ fecCode t.rx.hdrFec = c.hdrFec ∧ modCode t.rx.hdrMod = c.hdrMod ∧
      t.rx.hUser = c.hUser.toNat ∧ t.rx.maxSyms = c.maxSyms.toNat ∧ t.rx.detT2 = numOfWord c.detT2 ∧
      t.rx.longT2 = numOfWord c.longT2 ∧ t.rx.alpha = numOfWord c.alpha ∧ t.rx.kappa = numOfWord c.kappa ∧
      (let p := t.rx.table
       let s0 := dftInv c.m.toNat (shortPreamble p)
       let hdr := counts t.rx.hdrCheck t.rx.hdrFec t.rx.hdrMod (c.hUser.toNat + 5) (countTag .data p)
       t.rx.derived =
         { nNull := countTag .null p, nPilot := countTag .pilot p, nData := countTag .data p,
           pil := binsOf .pilot p, dat := binsOf .data p, nn := nonNullFreq p, pils := pilotsFreq p,
           short := shortPreamble p, long := longPreamble p, shortTime := s0, shortEnergy := numSum (s0.map Cpx.normSq),
           hdrEncLen := hdr.encLen, hdrNmod := hdr.nmod, nHdr := hdr.nsym }) ∧
      RxInitial t.rx ∧ t.rx.win = List.replicate (t.rx.m + t.rx.cpLen) Cpx.zero ∧
      t.rx.evmask = s.rx.evmask ∧ t.rx.evq = s.rx.evq) ∧
  (∀ (s : State) (ws : List Word), exec (.rxcfg (.misfit ws)) s = .next { s with rsp := s.rsp ++ [0x000000FF#32] }) ∧
  (∀ ops : List Word, (∃ c, decodeRxCfg ops = .fits c) ↔
    ops.length = 9 + ceilDiv (ops.getD 8 0#32).toNat 16 ∧ (ops.getD 0 0#32).extractLsb' 16 16 = 0#16) ∧
  (∀ (ops : List Word) (c : RxCfgOps), decodeRxCfg ops = .fits c →
    c.m = (ops.getD 0 0#32).extractLsb' 0 16 ∧ c.cpLen = (ops.getD 1 0#32).extractLsb' 0 16 ∧
    c.taperLen = (ops.getD 1 0#32).extractLsb' 16 16 ∧ c.hdrCheck = (ops.getD 2 0#32).extractLsb' 0 8 ∧
    c.hdrFec = (ops.getD 2 0#32).extractLsb' 8 8 ∧ c.hdrMod = (ops.getD 2 0#32).extractLsb' 16 8 ∧
    c.hUser = (ops.getD 2 0#32).extractLsb' 24 8 ∧ c.maxSyms = ops.getD 3 0#32 ∧ c.detT2 = ops.getD 4 0#32 ∧
    c.longT2 = ops.getD 5 0#32 ∧ c.alpha = ops.getD 6 0#32 ∧ c.kappa = ops.getD 7 0#32 ∧
    c.table.length = (ops.getD 8 0#32).toNat ∧
    ∀ k, k < c.table.length → c.table.getD k 0#2 = (ops.getD (9 + k / 16) 0#32).extractLsb' (2 * (k % 16)) 2)

/-- R41, R246: the initial state after a successful `RXCFG`, after every `RXRESET` of a configured unit and, the window apart, after
every return to `DETECT`, which keeps the configuration; queue and mask are untouched. -/
def Obligations.InitialStateOfTheReceiver : Prop :=
  (∀ (c : RxCfgOps) (rx rx' : RxUnit), rxConfigure c rx = some rx' →
    RxInitial rx' ∧ rx'.win = zeros (rx'.m + rx'.cpLen) ∧ rx'.evq = rx.evq ∧ rx'.evmask = rx.evmask) ∧
  (∀ s : State, s.rx.state ≠ .unconfigured →
    ∃ t, exec (.rxreset (.fits ())) s = .next t ∧ RxInitial t.rx ∧ t.rx.win = zeros (s.rx.m + s.rx.cpLen) ∧
      t.rx.evq = s.rx.evq ∧ t.rx.evmask = s.rx.evmask) ∧
  (∀ rx : RxUnit, RxInitial (toDetect rx) ∧ SameRxConfig (toDetect rx) rx ∧ (toDetect rx).win = rx.win ∧
    (toDetect rx).evq = rx.evq ∧ (toDetect rx).evmask = rx.evmask)

/-- R222: `EXECUTE` on a configured RXU answers `OK` after running `rx_step` on its samples in order, and changes nothing but
the RXU; with no samples it changes nothing; unconfigured it fails with `NotConfigured`, and then, with another operand count than
`1 + 2N`, with `IllegalCommand`. -/
def Obligations.ExecuteRunsEverySample : Prop :=
  (∀ (s : State) (xs : List SampleWords), s.rx.state ≠ .unconfigured →
    exec (.execute (.fits xs)) s = .next { s with
      rx := (xs.map fun x => (⟨numOfWord x.re, numOfWord x.im⟩ : Cpx)).foldl rxStep s.rx, rsp := s.rsp ++ [0x00000000#32] }) ∧
  (∀ s : State, s.rx.state ≠ .unconfigured → exec (.execute (.fits [])) s = .next { s with rsp := s.rsp ++ [0x00000000#32] }) ∧
  (∀ (s : State) (o : Operands (List SampleWords)), s.rx.state = .unconfigured →
    exec (.execute o) s = .next { s with rsp := s.rsp ++ [0x00000005#32] }) ∧
  (∀ (s : State) (ws : List Word), s.rx.state ≠ .unconfigured →
    exec (.execute (.misfit ws)) s = .next { s with rsp := s.rsp ++ [0x000000FF#32] }) ∧
  (∀ ops : List Word, (∃ xs, decodeExecute ops = .fits xs) ↔ ∃ n, ops.head? = some n ∧ ops.length = 1 + 2 * n.toNat)

/-- R25, R28, R72 (c), (d): whatever the samples, a configured RXU keeps its configuration and its event mask, its window holds
the newest samples as they arrived, and records are only appended to the queue. -/
def Obligations.SamplesKeepConfigurationAndQueue : Prop :=
  ∀ (rx : RxUnit) (xs : List Cpx), rx.state ≠ .unconfigured → rx.win ≠ [] →
    SameRxConfig (rxRun rx xs) rx ∧ (rxRun rx xs).evmask = rx.evmask ∧ (rxRun rx xs).state ≠ .unconfigured ∧
    (rxRun rx xs).win = (rx.win ++ xs).drop xs.length ∧ ∃ new, (rxRun rx xs).evq = rx.evq ++ new

/-- R249: any split of a sample sequence into `EXECUTE` commands leaves the same RXU, queue included, as one `EXECUTE` of all;
R110 (c): so does `EXECUTE1`, one command for each sample. -/
def Obligations.ChunkBoundariesAreInvisible : Prop :=
  (∀ (s : State) (pieces : List (List SampleWords)), s.rx.state ≠ .unconfigured →
    ∃ t u, execAll (pieces.map fun xs => .execute (.fits xs)) s = .next t ∧
      exec (.execute (.fits pieces.flatten)) s = .next u ∧ t.rx = u.rx ∧ t.tx = u.tx) ∧
  (∀ (s : State) (xs : List SampleWords), s.rx.state ≠ .unconfigured →
    ∃ t u, execAll (executeEach xs) s = .next t ∧ exec (.execute (.fits xs)) s = .next u ∧ t.rx = u.rx ∧ t.tx = u.tx)

/-- R224: the three values of `metric()`, for every RXU: the correlation of the newest `M` samples with the short symbol, their energy
times that of the short symbol, and the correlation of their two halves. And the correlation never exceeds the energy product
(Cauchy-Schwarz), so a threshold below 1 is meaningful. -/
def Obligations.CorrelationNeverExceedsEnergy : Prop :=
  (∀ rx : RxUnit,
    let v := fun n => rx.win.getD (rx.cpLen + n) Cpx.zero
    let s0 := fun n => rx.derived.shortTime.getD n Cpx.zero
    let r := Cpx.sum ((List.range rx.m).map fun n => (v n).mul (s0 n).conj)
    let e := numSum ((List.range rx.m).map fun n => (v n).normSq)
    let p := Cpx.sum ((List.range (rx.m / 2)).map fun n => (v n).conj.mul (v (n + rx.m / 2)))
    (metric rx).num = r.normSq ∧ (metric rx).den = e * rx.derived.shortEnergy ∧ (metric rx).p = p) ∧
  ∀ rx : RxUnit, rx.derived.shortTime.length = rx.m → rx.derived.shortEnergy = energy rx.derived.shortTime →
    0 ≤ (metric rx).num ∧ (metric rx).num ≤ (metric rx).den

/-- R225, R331: zero samples never trigger: a unit in its initial state stays in it, whatever their number. -/
def Obligations.SilenceNeverTriggers : Prop :=
  ∀ (rx : RxUnit) (n : Nat), RxInitial rx → rx.win = zeros (rx.m + rx.cpLen) → 1 ≤ rx.m →
    rxRun rx (List.replicate n Cpx.zero) = rx

/-- R225: `DETECT`, per sample: past the threshold, strictly, the correlation is recorded with age and count 0 and the unit goes
to `SYNC_SHORT`; else only the window changes. -/
def Obligations.DetectFiresPastTheThreshold : Prop :=
  ∀ (rx : RxUnit) (x : Cpx), rx.state = .detect →
    let rx1 := { rx with win := rx.win.drop 1 ++ [x] }
    ((metric rx1).num > rx.detT2 * (metric rx1).den →
      rxStep rx x = { rx1 with
        bestNum := (metric rx1).num, bestDen := (metric rx1).den, bestP := (metric rx1).p, age := 0, cnt := 0,
        state := .syncShort }) ∧
    ((metric rx1).num ≤ rx.detT2 * (metric rx1).den → rxStep rx x = rx1)

/-- R226: `SYNC_SHORT`, per sample: a correlation at least as good, up to `KAPPA`, is taken with age 0; otherwise, past half a
symbol, the carrier offset is estimated from the best one and the unit waits for the long block, before the budget is looked
at; otherwise the sample only counts. -/
def Obligations.SyncShortTakesTheLatestBestPeak : Prop :=
  ∀ (rx : RxUnit) (x : Cpx), rx.state = .syncShort →
    let rx1 := { rx with win := rx.win.drop 1 ++ [x] }
    let k := metric rx1
    let better := 0 < k.den ∧ rx.kappa * rx.bestNum * k.den ≤ k.num * rx.bestDen
    let inBudget := rx.cnt + 1 < rx.maxSyms * (rx.m + rx.cpLen)
    (better → inBudget →
      rxStep rx x = { rx1 with bestNum := k.num, bestDen := k.den, bestP := k.p, age := 0, cnt := rx.cnt + 1 }) ∧
    (¬ better → rx.m / 2 < rx.age + 1 →
      rxStep rx x = { rx1 with
        age := rx.age + 1, cnt := rx.cnt + 1, nu := arg rx.bestP / ((rx.m / 2 : Nat) : Sys2Proof.Num), phi := 0, tau := 0,
        timer := rx.m + rx.cpLen - (rx.age + 1), nsym := 0, state := .syncLong }) ∧
    (¬ better → rx.age + 1 ≤ rx.m / 2 → inBudget → rxStep rx x = { rx1 with age := rx.age + 1, cnt := rx.cnt + 1 }) ∧
    ((better ∨ rx.age + 1 ≤ rx.m / 2) → ¬ inBudget → rxStep rx x = toDetect rx1)

/-- R227: `SYNC_LONG`, per sample: the timer counts down; when it reaches 0 the gains `Z[k] S1[k]` are tested for coherence between
neighbours in frequency order; past the threshold they are kept, the phase advances by one block, and the header begins; else the
failed test is counted, and either the budget is spent, or the phase advances by half a symbol and the test is due again half a
symbol later. And on a clean long preamble: a unit whose next sample completes an assembled long-preamble block, with no
offsets, accepts it and begins the header with gain 1 on every non-`NULL` bin. -/
def Obligations.CleanLongPreambleIsAccepted : Prop :=
  (∀ (rx : RxUnit) (x : Cpx), rx.state = .syncLong →
    let rx1 := { rx with win := rx.win.drop 1 ++ [x] }
    let z := disassemble rx1
    let gain := fun k => if tagAt rx.table k = .null then Cpx.zero else (z.getD k Cpx.zero).mul (rx.derived.long.getD k Cpx.zero)
    let q := fun i => ((List.range rx.m).map gain).getD (rx.derived.nn.getD i 0) Cpx.zero
    let n := rx.derived.nn.length - 1
    let c := Cpx.sum ((List.range n).map fun i => (q (i + 1)).mul (q i).conj)
    let ea := numSum ((List.range n).map fun i => (q i).normSq)
    let eb := numSum ((List.range n).map fun i => (q (i + 1)).normSq)
    let accepted := rx.longT2 * ea * eb < c.normSq
    (1 < rx.timer → rxStep rx x = { rx1 with timer := rx.timer - 1 }) ∧
    (rx.timer = 1 → accepted →
      rxStep rx x = { rx1 with
        g := (List.range rx.m).map gain, phi := rx.phi + rx.nu * ((rx.m + rx.cpLen : Nat) : Sys2Proof.Num),
        state := .rxHeader, timer := rx.m + rx.cpLen, symIdx := 0, nsym := 0, rxbits := [], pl := 0x7A5B#16,
        curMod := rx.hdrMod }) ∧
    (rx.timer = 1 → ¬ accepted → rx.nsym + 1 < rx.maxSyms →
      rxStep rx x = { rx1 with
        nsym := rx.nsym + 1, phi := rx.phi + rx.nu * ((rx.m / 2 : Nat) : Sys2Proof.Num), timer := rx.m / 2 }) ∧
    (rx.timer = 1 → ¬ accepted → rx.maxSyms ≤ rx.nsym + 1 → rxStep rx x = toDetect rx1)) ∧
  (∀ (tx : TxUnit) (rx : RxUnit) (x : Cpx), RxConfigured rx → rx.state = .syncLong → rx.timer = 1 →
    tx.m = rx.m → tx.cpLen = rx.cpLen → tx.taperLen ≤ tx.cpLen → rx.nu = 0 → rx.phi = 0 → rx.tau = 0 →
    rx.win.drop 1 ++ [x] = (asmTime tx (longPreamble rx.table)).1 →
    rxStep rx x = { rx with
      win := (asmTime tx (longPreamble rx.table)).1
      g := rx.table.map fun t => if t = .null then Cpx.zero else Cpx.ofNum 1
      state := .rxHeader, timer := rx.m + rx.cpLen, symIdx := 0, nsym := 0, rxbits := [], pl := 0x7A5B#16,
      curMod := rx.hdrMod })

/-- R229, R178: `RX_HEADER` and `RX_PAYLOAD`, per sample: the timer counts down; when it reaches 0 a symbol is received: with the
estimates as they were the block is disassembled, the phase advances by one block, the tracker runs, and the data bins in
ascending `k`, equalised with the new gains, give their bits; then completion is tested before the budget (R293 (c)). And on a
clean symbol: the bits of the data symbols are appended in order, the estimates stay, and the pilot register moves as the
transmitter's. -/
def Obligations.CleanSymbolIsReceived : Prop :=
  (∀ (rx : RxUnit) (x : Cpx), (rx.state = .rxHeader ∨ rx.state = .rxPayload) →
    let rx1 := { rx with win := rx.win.drop 1 ++ [x] }
    let z := disassemble rx1
    let tracked := track z rx1
    let rx2 := { tracked with
      phi := rx.phi + rx.nu * ((rx.m + rx.cpLen : Nat) : Sys2Proof.Num)
      rxbits := rx.rxbits ++ rx.derived.dat.flatMap fun k => demodulate rx.curMod (equalise z tracked.g k)
      symIdx := rx.symIdx + 1, nsym := rx.nsym + 1, timer := rx.m + rx.cpLen }
    let n := if rx.state = .rxHeader then rx.derived.nHdr else rx.nPay
    (1 < rx.timer → rxStep rx x = { rx1 with timer := rx.timer - 1 }) ∧
    (rx.timer = 1 → rx.symIdx + 1 = n → rx.state = .rxHeader → rxStep rx x = finishHeader rx2) ∧
    (rx.timer = 1 → rx.symIdx + 1 = n → rx.state = .rxPayload → rxStep rx x = finishPayload rx2) ∧
    (rx.timer = 1 → rx.symIdx + 1 ≠ n → rx.nsym + 1 < rx.maxSyms → rxStep rx x = rx2) ∧
    (rx.timer = 1 → rx.symIdx + 1 ≠ n → rx.maxSyms ≤ rx.nsym + 1 → rxStep rx x = toDetect rx1)) ∧
  (∀ (tx : TxUnit) (rx : RxUnit) (groups : List (List Bool)), LegalTable rx.m rx.table →
    rx.derived = rxDerive rx.m rx.table rx.hdrCheck rx.hdrFec rx.hdrMod rx.hUser →
    tx.m = rx.m → tx.cpLen = rx.cpLen → tx.cpLen < tx.m → tx.taperLen ≤ tx.cpLen → rx.nu = 0 → rx.phi = 0 → rx.tau = 0 →
    rx.g = (rx.table.map fun t => if t = .null then Cpx.zero else Cpx.ofNum 1) →
    groups.length = rx.derived.nData → (∀ b ∈ groups, b.length = modBps rx.curMod) →
    rx.win = (asmTime tx (fill rx.table (groups.map (modulate rx.curMod)) rx.pl).1).1 →
    receiveSymbol rx = { rx with
      rxbits := rx.rxbits ++ groups.flatten, symIdx := rx.symIdx + 1, nsym := rx.nsym + 1, timer := rx.m + rx.cpLen,
      pl := (fill rx.table (groups.map (modulate rx.curMod)) rx.pl).2 })

/-- R195, R240 to R244: the bits of a header sent by a matched TXU decode to a valid header: the RXU emits `HEADER` with the user
bytes, if that event is enabled, and begins the payload with the fields the descriptor carries. -/
def Obligations.HeaderBitsRoundTrip : Prop :=
  ∀ (tx : TxUnit) (rx : RxUnit) (user : List Byte) (n : Nat), LegalTable rx.m rx.table →
    rx.derived = rxDerive rx.m rx.table rx.hdrCheck rx.hdrFec rx.hdrMod rx.hUser → Matched tx rx →
    user.length = tx.hUser → n ≤ 65535 →
    let hdr := fullHeader tx user n
    let e := fecEncode tx.fec0 (hdr ++ checkCompute tx.check hdr)
    rx.rxbits = (mapSymbols e tx.hdrMod rx.derived.nHdr rx.derived.nData).flatMap (demodulate tx.hdrMod) →
    decodeHeader rx = (hdr, true) ∧
    parseHeader rx.hUser hdr = some { user := user, plen := n, pcheck := tx.check, pfec := tx.fec1, pmod := tx.mod } ∧
    (0 < (counts tx.check tx.fec1 tx.mod n rx.derived.nData).nsym →
      finishHeader rx = { rx with
        evq := rx.evq ++ (if rx.evmask.getLsbD 0 then [EventRecord.header true user] else [])
        hdrUser := user, plen := n, pcheck := tx.check, pfec := tx.fec1, pmod := tx.mod,
        payEncLen := (counts tx.check tx.fec1 tx.mod n rx.derived.nData).encLen,
        payNmod := (counts tx.check tx.fec1 tx.mod n rx.derived.nData).nmod,
        nPay := (counts tx.check tx.fec1 tx.mod n rx.derived.nData).nsym,
        state := .rxPayload, symIdx := 0, nsym := 0, rxbits := [], curMod := tx.mod })

/-- R195, R240, R245: the bits of a payload decode to it: the RXU emits `FRAME` with `valid = 1`, the user bytes and the payload,
if that event is enabled, and returns to `DETECT`. -/
def Obligations.PayloadBitsRoundTrip : Prop :=
  ∀ (rx : RxUnit) (payload : List Byte), 1 ≤ rx.derived.nData → rx.plen = payload.length →
    (⟨rx.payEncLen, rx.payNmod, rx.nPay⟩ : Counts) = counts rx.pcheck rx.pfec rx.pmod rx.plen rx.derived.nData →
    rx.rxbits = (mapSymbols (fecEncode rx.pfec (payload ++ checkCompute rx.pcheck payload)) rx.pmod rx.nPay
      rx.derived.nData).flatMap (demodulate rx.pmod) →
    finishPayload rx = { toDetect rx with
      evq := rx.evq ++ (if rx.evmask.getLsbD 1 then [EventRecord.frame true rx.plen rx.hdrUser payload] else []) }

/-- R251, the identity-channel round trip. From the initial state: an RXU matched to the TXU, with `KAPPA = 1`, a table with an even
non-`NULL` bin and a budget for header and payload, is fed zeros and then all `N_TOT` blocks of a frame, in any pieces; if the
detector locks on the short preamble and on nothing in the tail (`LocksOn`: what R251 says depends on numbers), the RXU emits
`HEADER(valid = 1, user)` and then `FRAME(valid = 1, payload_len, user, payload)` with the bytes given to `ASSEMBLE`, and ends in
`DETECT`. And from the long preamble on, with no premise about detection: the TXU has written its short preamble and the RXU waits
for the long block, in step and with no offsets. -/
def Obligations.IdentityChannelRoundTrip : Prop :=
  (∀ (tx0 : TxUnit) (rx : RxUnit) (user payload : List Byte) (lead : Nat) (pieces : List (List Cpx)),
    tx0.state ≠ .unconfigured → TxConfigured tx0 → RxConfigured rx → Matched tx0 rx →
    user.length = tx0.hUser → payload.length ≤ 65535 →
    RxInitial rx → rx.win = zeros (rx.m + rx.cpLen) → rx.evmask = 3#2 → rx.kappa = 1 →
    (∃ k, k % 2 = 0 ∧ tagAt rx.table k ≠ .null) →
    let tx := txAssemble tx0 user payload
    tx.nHdr ≤ rx.maxSyms → tx.nPay ≤ rx.maxSyms →
    let samples := zeros lead ++ (txBlocks tx.nTot tx).1
    LocksOn rx samples lead tx.nTot → pieces.flatten = samples →
    let rx' := pieces.foldl rxRun rx
    rx'.evq = rx.evq ++ [.header true user, .frame true payload.length user payload] ∧ rx'.state = .detect) ∧
  (∀ (tx0 : TxUnit) (rx : RxUnit) (user payload : List Byte),
    tx0.state ≠ .unconfigured → TxConfigured tx0 → RxConfigured rx → Matched tx0 rx →
    user.length = tx0.hUser → payload.length ≤ 65535 →
    rx.state = .syncLong → rx.timer = rx.m + rx.cpLen → rx.nu = 0 → rx.phi = 0 → rx.tau = 0 → rx.evmask = 3#2 →
    let tx := (txWriteSymbol (txAssemble tx0 user payload)).2
    tx.nHdr ≤ rx.maxSyms → tx.nPay ≤ rx.maxSyms →
    let rx' := rxRun rx (txBlocks (1 + tx.nHdr + tx.nPay) tx).1
    rx'.evq = rx.evq ++ [.header true user, .frame true payload.length user payload] ∧ rx'.state = .detect)

/-- R293 (b), R291: one sample appends no record, or one `HEADER`, or one `FRAME`, or a valid `HEADER` and right after it a
`FRAME`; and only in `RX_HEADER` and `RX_PAYLOAD`. -/
def Obligations.OneSampleEmitsAtMostTwoRecords : Prop :=
  ∀ (rx : RxUnit) (x : Cpx), ∃ new, (rxStep rx x).evq = rx.evq ++ new ∧
    (new = [] ∨ (∃ v u, new = [.header v u] ∧ rx.state = .rxHeader) ∨
      (∃ v n u p, new = [.frame v n u p] ∧ (rx.state = .rxHeader ∨ rx.state = .rxPayload)) ∨
      (∃ u v n p, new = [.header true u, .frame v n u p] ∧ rx.state = .rxHeader))

/-- R241 to R245, R288, R289: what ends a reception is an event, never a failure. The header bits go through FEC and checksum and are
parsed. An invalid header gives one `HEADER` record with `valid = 0` and no payload words. A valid one gives `HEADER` with the
user bytes, its fields and counts are stored, and the payload begins, or is finished at once when it takes no symbol. A completed
payload gives one `FRAME` record whatever its validity, with the bytes the decoder returned, `valid` being what FEC and checksum
say. Each record is written only if its kind is enabled; an invalid header and a payload end in `DETECT`. -/
def Obligations.FinishedReceptionsAreEvents : Prop :=
  (∀ rx : RxUnit,
    let n := rx.hUser + 5
    let d := fecDecode rx.hdrFec (n + checkLen rx.hdrCheck) (unmap rx.rxbits rx.derived.hdrNmod rx.hdrMod rx.derived.hdrEncLen)
    (decodeHeader rx).1 = d.1.take n ∧
    ((decodeHeader rx).2 = true ↔
      d.2 = true ∧ checkVerify rx.hdrCheck (d.1.take n) ((d.1.drop n).take (checkLen rx.hdrCheck)) = true)) ∧
  (∀ (n : Nat) (body : List Byte) (h : HeaderFields), parseHeader n body = some h ↔
    h.user = body.take n ∧ h.plen = (body.getD n 0#8).toNat * 256 + (body.getD (n + 1) 0#8).toNat ∧
    checkOfCode (body.getD (n + 2) 0#8) = some h.pcheck ∧ fecOfCode (body.getD (n + 3) 0#8) = some h.pfec ∧
    modOfCode (body.getD (n + 4) 0#8) = some h.pmod) ∧
  (∀ (rx : RxUnit) (h : HeaderFields), (decodeHeader rx).2 = true → parseHeader rx.hUser (decodeHeader rx).1 = some h →
    let c := counts h.pcheck h.pfec h.pmod h.plen rx.derived.nData
    let begun := { rx with
      evq := rx.evq ++ (if rx.evmask.getLsbD 0 then [EventRecord.header true h.user] else [])
      hdrUser := h.user, plen := h.plen, pcheck := h.pcheck, pfec := h.pfec, pmod := h.pmod,
      payEncLen := c.encLen, payNmod := c.nmod, nPay := c.nsym,
      state := .rxPayload, symIdx := 0, nsym := 0, rxbits := [], curMod := h.pmod }
    (0 < c.nsym → finishHeader rx = begun) ∧ (c.nsym = 0 → finishHeader rx = finishPayload begun)) ∧
  (∀ rx : RxUnit, ((decodeHeader rx).2 = false ∨ parseHeader rx.hUser (decodeHeader rx).1 = none) →
    finishHeader rx = { toDetect rx with
      evq := rx.evq ++ (if rx.evmask.getLsbD 0 then [EventRecord.header false []] else []) }) ∧
  (∀ rx : RxUnit, ∃ valid,
    let d := (fecDecode rx.pfec (rx.plen + checkLen rx.pcheck) (unmap rx.rxbits rx.payNmod rx.pmod rx.payEncLen))
    finishPayload rx = { toDetect rx with
      evq := rx.evq ++ (if rx.evmask.getLsbD 1 then [EventRecord.frame valid rx.plen rx.hdrUser (d.1.take rx.plen)] else []) } ∧
    (valid = true ↔ d.2 = true ∧
      checkVerify rx.pcheck (d.1.take rx.plen) ((d.1.drop rx.plen).take (checkLen rx.pcheck)) = true)) ∧
  (EventRecord.header false []).words = [0x00000001#32, 0x00000000#32]

/-- R250, R329: the budget: a unit in any of the four states of R250 (`SYNC_SHORT`, `SYNC_LONG`, `RX_HEADER`, `RX_PAYLOAD`) has left
that state after at most `MAX_SYMS * (M + cp_len)` samples, whatever they are. -/
def Obligations.BudgetBoundsEveryState : Prop :=
  ∀ (rx : RxUnit) (xs : List Cpx), RxConfigured rx →
    (rx.state = .syncShort ∨ rx.state = .syncLong ∨ rx.state = .rxHeader ∨ rx.state = .rxPayload) →
    rx.maxSyms * (rx.m + rx.cpLen) ≤ xs.length →
    ∃ k, k ≤ rx.maxSyms * (rx.m + rx.cpLen) ∧ (rxRun rx (xs.take k)).state ≠ rx.state

/-- R247, the effect: a well-formed `RXRESET` answers `OK` in every state; on a configured unit it leaves the initial state with a
zero window, keeping configuration, queue and mask; on an unconfigured one it changes nothing; twice is once. -/
def Obligations.RxresetReachesTheInitialState : Prop :=
  (∀ s : State, s.rx.state ≠ .unconfigured →
    ∃ t, exec (.rxreset (.fits ())) s = .next t ∧ t.rsp = s.rsp ++ [0x00000000#32] ∧ t.cmd = s.cmd ∧ t.tx = s.tx ∧
      RxInitial t.rx ∧ SameRxConfig t.rx s.rx ∧ t.rx.win = List.replicate (s.rx.m + s.rx.cpLen) Cpx.zero ∧
      t.rx.evq = s.rx.evq ∧ t.rx.evmask = s.rx.evmask ∧
      ∃ u, exec (.rxreset (.fits ())) t = .next u ∧ u.rx = t.rx) ∧
  (∀ s : State, s.rx.state = .unconfigured →
    exec (.rxreset (.fits ())) s = .next { s with rsp := s.rsp ++ [0x00000000#32] }) ∧
  (∀ (s : State) (ws : List Word), exec (.rxreset (.misfit ws)) s = .next { s with rsp := s.rsp ++ [0x000000FF#32] }) ∧
  (∀ ops : List Word, decodeNone ops = .fits () ↔ ops.length = 0)

/-- R248, the effect: `RXSETCB` on a configured RXU answers `OK` and sets the event mask, and nothing else. -/
def Obligations.RxsetcbSetsTheMask : Prop :=
  (∀ (s : State) (mask : BitVec 2), s.rx.state ≠ .unconfigured →
    exec (.rxsetcb (.fits mask)) s = .next { s with rx := { s.rx with evmask := mask }, rsp := s.rsp ++ [0x00000000#32] }) ∧
  (∀ (s : State) (o : Operands (BitVec 2)), s.rx.state = .unconfigured →
    exec (.rxsetcb o) s = .next { s with rsp := s.rsp ++ [0x00000005#32] }) ∧
  (∀ (s : State) (ws : List Word), s.rx.state ≠ .unconfigured →
    exec (.rxsetcb (.misfit ws)) s = .next { s with rsp := s.rsp ++ [0x000000FF#32] }) ∧
  (∀ w : Word, (∃ mask, decodeRxSetCb [w] = .fits mask ∧ w = mask.setWidth 32) ↔ w.toNat < 4)

/-- R248, R291: the mask changes no transition: two units that differ only in mask and queue stay so under the same samples, and
the queue of one is that of a unit with both events enabled, less the records its mask disables. -/
def Obligations.MaskChangesNoTransition : Prop :=
  ∀ (rx : RxUnit) (mask : BitVec 2) (xs : List Cpx),
    let open_ := rxRun { rx with evmask := 3#2, evq := [] } xs
    let masked := rxRun { rx with evmask := mask, evq := [] } xs
    { masked with evmask := 3#2, evq := open_.evq } = open_ ∧ masked.evq = open_.evq.filter (eventEnabled mask)

/-- R94: the words of an event record. -/
def Obligations.EventRecordLayout : Prop :=
  (∀ user : List Byte,
    (EventRecord.header true user).words = 0x00000101#32 :: BitVec.ofNat 32 (ceilDiv user.length 4) :: packBytes user ∧
    (EventRecord.header false user).words = [0x00000001#32, 0x00000000#32]) ∧
  (∀ (valid : Bool) (plen : Nat) (user payload : List Byte),
    (EventRecord.frame valid plen user payload).words =
      (if valid then 0x00000102#32 else 0x00000002#32) ::
        BitVec.ofNat 32 (1 + ceilDiv user.length 4 + ceilDiv payload.length 4) :: BitVec.ofNat 32 plen ::
        (packBytes user ++ packBytes payload))

/-! ### Status read, failures, the whole block -/

/-- R271, R35: `RDCSR` of a CSR answers its value with status `OK`, in every state of both units, and changes nothing; any other
number, or operand count, is an illegal command; the numbers are those of R35's table. -/
def Obligations.RdcsrAnswersTheValue : Prop :=
  (∀ (s : State) (c : Csr), exec (.rdcsr (.fits c)) s = .next { s with rsp := s.rsp ++ [0x00000100#32, csrValue s c] }) ∧
  (∀ (s : State) (ws : List Word), exec (.rdcsr (.misfit ws)) s = .next { s with rsp := s.rsp ++ [0x000000FF#32] }) ∧
  (∀ ops : List Word, (∃ c, decodeRdCsr ops = .fits c) ↔
    ∃ w, ops = [w] ∧ (w.toNat ≤ 0x0A ∨ (0x10 ≤ w.toNat ∧ w.toNat ≤ 0x23))) ∧
  (∀ (w : Word) (c : Csr), decodeRdCsr [w] = .fits c ↔ csrNumber c = w) ∧
  (∀ nc ∈ [(0x00#32, Csr.txState), (0x01#32, .txM), (0x02#32, .txCptp), (0x03#32, .txProps), (0x04#32, .txHdrfmt),
      (0x05#32, .txMaxpay), (0x06#32, .txCursor), (0x07#32, .txNtot), (0x08#32, .txNhdr), (0x09#32, .txNpay),
      (0x0A#32, .txCounts), (0x10#32, .rxState), (0x11#32, .rxM), (0x12#32, .rxCptp), (0x13#32, .rxHdrfmt),
      (0x14#32, .rxMaxsyms), (0x15#32, .rxDetT2), (0x16#32, .rxLongT2), (0x17#32, .rxAlpha), (0x18#32, .rxKappa),
      (0x19#32, .rxEvmask), (0x1A#32, .rxTimer), (0x1B#32, .rxNsym), (0x1C#32, .rxSymidx), (0x1D#32, .rxNu), (0x1E#32, .rxTau),
      (0x1F#32, .rxPhi), (0x20#32, .rxCounts), (0x21#32, .rxNhdr), (0x22#32, .rxNpay), (0x23#32, .rxEvcount)],
    decodeRdCsr [nc.1] = .fits nc.2) ∧
  (∀ s : State,
    csrValue s .rxDetT2 = wordOfNum s.rx.detT2 ∧ csrValue s .rxLongT2 = wordOfNum s.rx.longT2 ∧
    csrValue s .rxAlpha = wordOfNum s.rx.alpha ∧ csrValue s .rxKappa = wordOfNum s.rx.kappa ∧
    csrValue s .rxNu = wordOfNum s.rx.nu ∧ csrValue s .rxTau = wordOfNum s.rx.tau ∧ csrValue s .rxPhi = wordOfNum s.rx.phi ∧
    csrValue s .rxEvcount = BitVec.ofNat 32 s.rx.evq.length) ∧
  step { State.reset with cmd := [0x20000001#32, 0x00000019#32] } =
    .next { State.reset with rsp := [0x00000100#32, 0x00000003#32] }

/-- R35: every CSR: each field is where the table puts it, unnamed bits read 0, a `Num` reads as its wire form; the counters read
modulo `2^32` (R43). The codes of the control states are those of R24 and R27. -/
def Obligations.CsrFieldsShowTheState : Prop :=
  [TxState.unconfigured, .idle, .assembled, .preamble, .header, .payload, .tail].map txStateCode =
    [0#3, 1#3, 2#3, 3#3, 4#3, 5#3, 6#3] ∧
  [RxState.unconfigured, .detect, .syncShort, .syncLong, .rxHeader, .rxPayload].map rxStateCode =
    [0#3, 1#3, 2#3, 3#3, 4#3, 5#3] ∧
  ∀ s : State,
    (csrValue s .txState).extractLsb' 0 3 = txStateCode s.tx.state ∧ (csrValue s .txState).extractLsb' 3 29 = 0#29 ∧
    (csrValue s .txM).extractLsb' 0 16 = BitVec.ofNat 16 s.tx.m ∧ (csrValue s .txM).extractLsb' 16 16 = 0#16 ∧
    (csrValue s .txCptp).extractLsb' 0 16 = BitVec.ofNat 16 s.tx.cpLen ∧
    (csrValue s .txCptp).extractLsb' 16 16 = BitVec.ofNat 16 s.tx.taperLen ∧
    (csrValue s .txProps).extractLsb' 0 8 = checkCode s.tx.check ∧ (csrValue s .txProps).extractLsb' 8 8 = fecCode s.tx.fec0 ∧
    (csrValue s .txProps).extractLsb' 16 8 = fecCode s.tx.fec1 ∧ (csrValue s .txProps).extractLsb' 24 8 = modCode s.tx.mod ∧
    (csrValue s .txHdrfmt).extractLsb' 0 8 = modCode s.tx.hdrMod ∧
    (csrValue s .txHdrfmt).extractLsb' 8 8 = BitVec.ofNat 8 s.tx.hUser ∧ (csrValue s .txHdrfmt).extractLsb' 16 16 = 0#16 ∧
    (csrValue s .txMaxpay).toNat = s.tx.maxPaySyms % 2 ^ 32 ∧ (csrValue s .txCursor).toNat = s.tx.cursor % 2 ^ 32 ∧
    (csrValue s .txNtot).toNat = s.tx.nTot % 2 ^ 32 ∧ (csrValue s .txNhdr).toNat = s.tx.nHdr % 2 ^ 32 ∧
    (csrValue s .txNpay).toNat = s.tx.nPay % 2 ^ 32 ∧
    (csrValue s .txCounts).extractLsb' 0 16 = BitVec.ofNat 16 s.tx.derived.nPilot ∧
    (csrValue s .txCounts).extractLsb' 16 16 = BitVec.ofNat 16 s.tx.derived.nData ∧
    (csrValue s .rxState).extractLsb' 0 3 = rxStateCode s.rx.state ∧ (csrValue s .rxState).extractLsb' 3 29 = 0#29 ∧
    (csrValue s .rxM).extractLsb' 0 16 = BitVec.ofNat 16 s.rx.m ∧ (csrValue s .rxM).extractLsb' 16 16 = 0#16 ∧
    (csrValue s .rxCptp).extractLsb' 0 16 = BitVec.ofNat 16 s.rx.cpLen ∧
    (csrValue s .rxCptp).extractLsb' 16 16 = BitVec.ofNat 16 s.rx.taperLen ∧
    (csrValue s .rxHdrfmt).extractLsb' 0 8 = checkCode s.rx.hdrCheck ∧
    (csrValue s .rxHdrfmt).extractLsb' 8 8 = fecCode s.rx.hdrFec ∧ (csrValue s .rxHdrfmt).extractLsb' 16 8 = modCode s.rx.hdrMod ∧
    (csrValue s .rxHdrfmt).extractLsb' 24 8 = BitVec.ofNat 8 s.rx.hUser ∧
    (csrValue s .rxMaxsyms).toNat = s.rx.maxSyms % 2 ^ 32 ∧
    csrValue s .rxDetT2 = wordOfNum s.rx.detT2 ∧ csrValue s .rxLongT2 = wordOfNum s.rx.longT2 ∧
    csrValue s .rxAlpha = wordOfNum s.rx.alpha ∧ csrValue s .rxKappa = wordOfNum s.rx.kappa ∧
    (csrValue s .rxEvmask).extractLsb' 0 2 = s.rx.evmask ∧ (csrValue s .rxEvmask).extractLsb' 2 30 = 0#30 ∧
    (csrValue s .rxTimer).toNat = s.rx.timer % 2 ^ 32 ∧ (csrValue s .rxNsym).toNat = s.rx.nsym % 2 ^ 32 ∧
    (csrValue s .rxSymidx).toNat = s.rx.symIdx % 2 ^ 32 ∧
    csrValue s .rxNu = wordOfNum s.rx.nu ∧ csrValue s .rxTau = wordOfNum s.rx.tau ∧ csrValue s .rxPhi = wordOfNum s.rx.phi ∧
    (csrValue s .rxCounts).extractLsb' 0 16 = BitVec.ofNat 16 s.rx.derived.nPilot ∧
    (csrValue s .rxCounts).extractLsb' 16 16 = BitVec.ofNat 16 s.rx.derived.nData ∧
    (csrValue s .rxNhdr).toNat = s.rx.derived.nHdr % 2 ^ 32 ∧ (csrValue s .rxNpay).toNat = s.rx.nPay % 2 ^ 32 ∧
    (csrValue s .rxEvcount).toNat = s.rx.evq.length % 2 ^ 32

/-- R286, R270: every command is answered, once, and never stops the block: either `OK` with the payload words its status word
counts, or a failure status alone, and then nothing else has changed. -/
def Obligations.EveryCommandIsAnsweredAllOrNothing : Prop :=
  ∀ (i : Instr) (s : State), ∃ t, exec i s = .next t ∧
    ((∃ payload, t.rsp = s.rsp ++ statusWord .ok payload.length :: payload) ∨
      (∃ st, st ≠ .ok ∧ t = { s with rsp := s.rsp ++ [statusWord st 0] }))

/-- R281 to R285, R287, R111: each failure status is answered for exactly the causes its rule names. -/
def Obligations.FailureCausesAreExact : Prop :=
  ∀ (i : Instr) (s : State) (st : Status), st ≠ .ok →
    (exec i s = .next { s with rsp := s.rsp ++ [statusWord st 0] } ↔ Raises i s st)

/-- R72 (e), R77: TXU commands leave the RXU alone and RXU commands the TXU, the other three commands both; commands to different
units commute in their effect on the units. -/
def Obligations.UnitsShareNothing : Prop :=
  (∀ (i : Instr) (s t : State), exec i s = .next t →
    (opcodeOf i ∈ [0x01#8, 0x02#8, 0x03#8, 0x04#8] → t.rx = s.rx) ∧
    (opcodeOf i ∈ [0x11#8, 0x12#8, 0x13#8, 0x14#8] → t.tx = s.tx) ∧
    (opcodeOf i ∈ [0x20#8, 0x21#8, 0x22#8] → t.tx = s.tx ∧ t.rx = s.rx) ∧ t.cmd = s.cmd) ∧
  (∀ (i j : Instr) (s : State), opcodeOf i ∈ [0x01#8, 0x02#8, 0x03#8, 0x04#8] →
    opcodeOf j ∈ [0x11#8, 0x12#8, 0x13#8, 0x14#8] →
    ∃ t u, execAll [i, j] s = .next t ∧ execAll [j, i] s = .next u ∧ t.tx = u.tx ∧ t.rx = u.rx)

/-- R75 (b), R126, R21, R25: once a unit is configured no command un-configures it or changes its configuration; only `TXPROPS`
changes the four properties and only `RXSETCB` the event mask. -/
def Obligations.ConfigurationIsImmutable : Prop :=
  ∀ (i : Instr) (s t : State), exec i s = .next t →
    (s.tx.state ≠ .unconfigured →
      t.tx.state ≠ .unconfigured ∧ t.tx.m = s.tx.m ∧ t.tx.cpLen = s.tx.cpLen ∧ t.tx.taperLen = s.tx.taperLen ∧
      t.tx.table = s.tx.table ∧ t.tx.hdrMod = s.tx.hdrMod ∧ t.tx.hUser = s.tx.hUser ∧ t.tx.maxPaySyms = s.tx.maxPaySyms ∧
      t.tx.derived = s.tx.derived ∧
      (opcodeOf i ≠ 0x02#8 →
        t.tx.check = s.tx.check ∧ t.tx.fec0 = s.tx.fec0 ∧ t.tx.fec1 = s.tx.fec1 ∧ t.tx.mod = s.tx.mod)) ∧
    (s.rx.state ≠ .unconfigured →
      t.rx.state ≠ .unconfigured ∧ SameRxConfig t.rx s.rx ∧ (opcodeOf i ≠ 0x14#8 → t.rx.evmask = s.rx.evmask))

/-- R40: after hardware reset every register, counter, buffer and table entry of both units is zero or empty, but the event mask
is 3. -/
def Obligations.ResetLeavesZero : Prop :=
  let tx := State.reset.tx
  let rx := State.reset.rx
  (∀ c, csrValue State.reset c = if c = .rxEvmask then 3#32 else 0#32) ∧
  tx.state = .unconfigured ∧ rx.state = .unconfigured ∧ rx.evmask = 3#2 ∧ rx.evq = [] ∧
  tx.m = 0 ∧ tx.cpLen = 0 ∧ tx.taperLen = 0 ∧ tx.table = [] ∧ checkCode tx.check = 0#8 ∧ fecCode tx.fec0 = 0#8 ∧
  fecCode tx.fec1 = 0#8 ∧ modCode tx.mod = 0#8 ∧ modCode tx.hdrMod = 0#8 ∧ tx.hUser = 0 ∧ tx.maxPaySyms = 0 ∧
  tx.derived = ⟨0, 0, 0, [], [], [], [], []⟩ ∧ tx.fd = [] ∧ tx.ovl = [] ∧ tx.cursor = 0 ∧ tx.nHdr = 0 ∧ tx.nPay = 0 ∧
  tx.nTot = 0 ∧
  rx.m = 0 ∧ rx.cpLen = 0 ∧ rx.taperLen = 0 ∧ rx.table = [] ∧ checkCode rx.hdrCheck = 0#8 ∧ fecCode rx.hdrFec = 0#8 ∧
  modCode rx.hdrMod = 0#8 ∧ rx.hUser = 0 ∧ rx.maxSyms = 0 ∧ rx.detT2 = 0 ∧ rx.longT2 = 0 ∧ rx.alpha = 0 ∧ rx.kappa = 0 ∧
  rx.derived = ⟨0, 0, 0, [], [], [], [], [], [], [], 0, 0, 0, 0⟩ ∧
  rx.win = [] ∧ rx.g = [] ∧ rx.rxbits = [] ∧ rx.timer = 0 ∧ rx.age = 0 ∧ rx.cnt = 0 ∧ rx.nsym = 0 ∧ rx.symIdx = 0 ∧
  rx.bestNum = 0 ∧ rx.bestDen = 0 ∧ rx.bestP = Cpx.zero ∧ rx.nu = 0 ∧ rx.phi = 0 ∧ rx.tau = 0 ∧ rx.pl = 0#16 ∧
  modCode rx.curMod = 0#8 ∧ rx.hdrUser = [] ∧ rx.plen = 0 ∧ checkCode rx.pcheck = 0#8 ∧ fecCode rx.pfec = 0#8 ∧
  modCode rx.pmod = 0#8 ∧ rx.payEncLen = 0 ∧ rx.payNmod = 0 ∧ rx.nPay = 0

/-- The invariant holds after hardware reset. -/
def Obligations.InvariantAtReset : Prop := Inv State.reset

/-- R8, R21 to R32, R43, R70, R198, R298: the invariant is kept by every step: legal dimensions and tables, derived constants as
the configuration gives them, buffers of their lengths, `tx_state` a function of the cursor and the counts, timers at least 1
while waiting, counters below the budget, and `rxbits` exactly the bits of the symbols received. -/
def Obligations.InvariantIsKeptByEveryStep : Prop :=
  ∀ s t : State, Inv s → step s = .next t → Inv t
end

