-- ==== Sys2Proof/Laws/Num.lean ====
section
/-! SUPPORT. The laws of the number functions of 00_scope.md R14 (Machine/Num.lean): `cis` has modulus 1, cosines fall and mirror as
R140 uses them, `arg` lies in `(-pi, pi]`; and `pi`, `cos`, `sin`, `cis`, `arg` are near the functions of real analysis. -/

namespace Sys2Proof

/-! ### The power series as sums -/

/-- A complex pair as a complex number. -/
noncomputable def Cpx.toComplex (z : Cpx) : ℂ := ⟨(z.re : ℝ), (z.im : ℝ)⟩

theorem circularSeries_eq_sum (y : Num) (n k : Nat) :
    circularSeries y k n = ∑ j ∈ Finset.range (n + 1), (-y) ^ j * ((k.factorial : Num) / ((k + 2 * j).factorial : Num)) := by
  induction n generalizing k with
  | zero => simp [circularSeries, Nat.factorial_ne_zero]
  | succ n ih =>
    rw [circularSeries, ih, Finset.sum_range_succ' _ (n + 1), Finset.mul_sum, sub_eq_add_neg, ← Finset.sum_neg_distrib, add_comm]
    congr 1
    · apply Finset.sum_congr rfl
      intro j _
      have e : k + 2 * (j + 1) = k + 2 + 2 * j := by ring
      rw [e, Nat.factorial_succ (k + 1), Nat.factorial_succ k]
      have : ((k + 2 + 2 * j).factorial : Num) ≠ 0 := by exact_mod_cast Nat.factorial_ne_zero _
      push_cast
      have h1 : ((k : Num) + 1) ≠ 0 := by positivity
      have h2 : ((k : Num) + 2) ≠ 0 := by positivity
      field_simp
      ring
    · simp [Nat.factorial_ne_zero]

/-- The series of `cis` up to the power `x^25`. -/
theorem series_eq_sum (x : Num) : Cpx.toComplex ⟨cosSeries x, sinSeries x⟩ =
    ∑ m ∈ Finset.range 26, ((x : ℂ) * Complex.I) ^ m / (m.factorial : ℂ) := by
  have even_odd (n : Nat) (f : Nat → ℂ) :
      ∑ m ∈ Finset.range (2 * n), f m = ∑ j ∈ Finset.range n, (f (2 * j) + f (2 * j + 1)) := by
    induction n with
    | zero => simp
    | succ n ih => rw [Finset.sum_range_succ, ← ih, mul_add, Finset.sum_range_succ, Finset.sum_range_succ]; ring
  rw [show 26 = 2 * 13 from rfl, even_odd, Finset.sum_add_distrib]
  have c : ((cosSeries x : ℚ) : ℂ) = ∑ j ∈ Finset.range 13, ((x : ℂ) * Complex.I) ^ (2 * j) / ((2 * j).factorial : ℂ) := by
    rw [cosSeries, circularSeries_eq_sum]
    push_cast
    apply Finset.sum_congr rfl
    intro j _
    rw [mul_pow, pow_mul Complex.I, Complex.I_sq, pow_mul, neg_pow]
    simp; ring
  have s : ((sinSeries x : ℚ) : ℂ) * Complex.I =
      ∑ j ∈ Finset.range 13, ((x : ℂ) * Complex.I) ^ (2 * j + 1) / ((2 * j + 1).factorial : ℂ) := by
    rw [sinSeries, circularSeries_eq_sum]
    push_cast
    rw [Finset.mul_sum, Finset.sum_mul]
    apply Finset.sum_congr rfl
    intro j _
    rw [mul_pow, pow_succ Complex.I, pow_mul Complex.I, Complex.I_sq, pow_succ (x : ℂ), pow_mul, neg_pow, add_comm 1 (2 * j)]
    simp; ring
  rw [← c, ← s]
  apply Complex.ext <;> simp [Cpx.toComplex]

theorem series_close {x : Num} (h0 : 0 ≤ x) (h1 : x ≤ 1) :
    ‖Cpx.toComplex ⟨cosSeries x, sinSeries x⟩ - Complex.exp ((x : ℂ) * Complex.I)‖ ≤ 1 / 10 ^ 26 := by
  have n : ‖(x : ℂ) * Complex.I‖ ≤ 1 := by
    rw [norm_mul, Complex.norm_I, mul_one]
    have : ‖((x : ℚ) : ℂ)‖ = |(x : ℝ)| := by rw [← Complex.ofReal_ratCast, Complex.norm_real, Real.norm_eq_abs]
    rw [this, abs_le]
    have a : (0 : ℝ) ≤ (x : ℝ) := by exact_mod_cast h0
    have b : (x : ℝ) ≤ 1 := by exact_mod_cast h1
    constructor <;> linarith
  have := Complex.exp_bound n (n := 26) (by norm_num)
  rw [series_eq_sum, norm_sub_rev]
  refine this.trans ?_
  have p : ‖(x : ℂ) * Complex.I‖ ^ 26 ≤ 1 := pow_le_one₀ (norm_nonneg _) n
  calc _ ≤ 1 * (((Nat.succ 26 : ℕ) : ℝ) * ((Nat.factorial 26 : ℕ) * (26 : ℕ) : ℝ)⁻¹) := by gcongr
    _ ≤ _ := by norm_num [Nat.factorial]

theorem circularSeries_bounds (y : Num) (h0 : 0 ≤ y) (h1 : y ≤ 1) (n k : Nat) :
    1 / 2 ≤ circularSeries y k n ∧ circularSeries y k n ≤ 1 := by
  induction n generalizing k with
  | zero => norm_num [circularSeries]
  | succ n ih =>
    obtain ⟨a, b⟩ := ih (k + 2)
    have c : (2 : Num) ≤ (((k + 1) * (k + 2) : Nat) : Num) := by exact_mod_cast (by nlinarith : 2 ≤ (k + 1) * (k + 2))
    have d : 0 ≤ y / (((k + 1) * (k + 2) : Nat) : Num) * circularSeries y (k + 2) n := by positivity
    have e : y / (((k + 1) * (k + 2) : Nat) : Num) ≤ 1 / 2 := by
      rw [div_le_div_iff₀ (by linarith) (by norm_num)]; linarith
    simp only [circularSeries]
    constructor
    · nlinarith [mul_le_mul e b (by linarith) (by norm_num)]
    · linarith

theorem mul_circularSeries_mono (y y' : Num) (h0 : 0 ≤ y) (h : y ≤ y') (h1 : y' ≤ 1) (n k : Nat) (hk : 1 ≤ k) :
    (y' - y) / 2 ≤ y' * circularSeries y' k n - y * circularSeries y k n ∧
      y' * circularSeries y' k n - y * circularSeries y k n ≤ y' - y := by
  induction n generalizing k with
  | zero => simp only [circularSeries]; constructor <;> linarith
  | succ n ih =>
    obtain ⟨a, b⟩ := ih (k + 2) (by omega)
    have bd := circularSeries_bounds y' (h0.trans h) h1 (n + 1) k
    have c : (6 : Num) ≤ (((k + 1) * (k + 2) : Nat) : Num) := by exact_mod_cast (by nlinarith : 6 ≤ (k + 1) * (k + 2))
    have b2 := (circularSeries_bounds y' (h0.trans h) h1 n (k + 2)).2
    simp only [circularSeries] at bd ⊢
    generalize (((k + 1) * (k + 2) : Nat) : Num) = C at *
    generalize circularSeries y (k + 2) n = p at *
    generalize circularSeries y' (k + 2) n = p' at *
    have hc : 0 < C := by linarith
    have hi : C⁻¹ ≤ 1 / 6 := by rw [inv_le_comm₀ hc (by norm_num)]; linarith
    have hi0 : 0 < C⁻¹ := by positivity
    have e : y' * (1 - y' / C * p') - y * (1 - y / C * p) =
        (y' - y) * (1 - y' / C * p') - y * ((y' * p' - y * p) * C⁻¹) := by ring
    rw [e]
    have f : y' / C * p' ≤ 1 / 6 := by
      have : y' * p' ≤ 1 := by nlinarith
      calc y' / C * p' = (y' * p') * C⁻¹ := by ring
        _ ≤ 1 * C⁻¹ := by nlinarith
        _ ≤ _ := by linarith
    have g : (y' * p' - y * p) * C⁻¹ ≤ (y' - y) * (1 / 6) := by
      apply mul_le_mul b hi hi0.le (by linarith)
    have g0 : 0 ≤ (y' * p' - y * p) * C⁻¹ := mul_nonneg (by linarith) hi0.le
    constructor
    · nlinarith [mul_le_mul (h.trans h1) g g0 (by norm_num), mul_nonneg (sub_nonneg.2 h) (sub_nonneg.2 f)]
    · nlinarith [mul_nonneg h0 g0, mul_nonneg (sub_nonneg.2 h) (sub_nonneg.2 bd.2)]

theorem cosSeries_lt {x x' : Num} (h0 : 0 ≤ x) (h : x < x') (h1 : x' ≤ 1) : cosSeries x' < cosSeries x := by
  have a := (mul_circularSeries_mono (x * x) (x' * x') (by positivity) (by nlinarith) (by nlinarith) 11 2 (by norm_num)).1
  have e (z : Num) : cosSeries z = 1 - (z * z) * circularSeries (z * z) 2 11 / 2 := by
    simp only [cosSeries, circularSeries]; norm_num; ring
  rw [e, e]
  nlinarith

theorem sinSeries_sub {x x' : Num} (h0 : 0 ≤ x) (h : x ≤ x') (h1 : x' ≤ 1) : (x' - x) / 6 ≤ sinSeries x' - sinSeries x := by
  have y1 : x' * x' ≤ 1 := by nlinarith
  have a := (mul_circularSeries_mono (x * x) (x' * x') (mul_self_nonneg _) (by nlinarith) y1 11 3 (by norm_num)).2
  have b := (circularSeries_bounds (x' * x') (mul_self_nonneg _) y1 12 1).1
  have e (z : Num) : circularSeries (z * z) 1 12 = 1 - (z * z) * circularSeries (z * z) 3 11 / 6 := by
    simp only [circularSeries]; norm_num; ring
  unfold sinSeries
  have d : circularSeries (x * x) 1 12 - circularSeries (x' * x') 1 12 ≤ (x' - x) / 3 := by
    rw [e x, e x']; nlinarith
  nlinarith

theorem sinSeries_lt {x x' : Num} (h0 : 0 ≤ x) (h : x < x') (h1 : x' ≤ 1) : sinSeries x < sinSeries x' := by
  linarith [sinSeries_sub h0 h.le h1]

theorem cosSeries_le_one {x : Num} (h0 : 0 ≤ x) (h1 : x ≤ 1) : cosSeries x ≤ 1 :=
  (circularSeries_bounds (x * x) (mul_self_nonneg _) (by nlinarith) 12 0).2

theorem cosSeries_pos {x : Num} (h0 : 0 ≤ x) (h1 : x ≤ 1) : 0 < cosSeries x := by
  have := (circularSeries_bounds (x * x) (by positivity) (by nlinarith) 12 0).1
  unfold cosSeries; linarith

theorem sinSeries_nonneg {x : Num} (h0 : 0 ≤ x) (h1 : x ≤ 1) : 0 ≤ sinSeries x := by
  have := (circularSeries_bounds (x * x) (by positivity) (by nlinarith) 12 1).1
  unfold sinSeries; exact mul_nonneg h0 (by linarith)

theorem sinSeries_lt_cosSeries {x : Num} (h0 : 0 ≤ x) (h : x < numPi / 4) : sinSeries x < cosSeries x := by
  have a := sinSeries_lt h0 h (by norm_num [numPi])
  have b := cosSeries_lt h0 h (by norm_num [numPi])
  have c : sinSeries (numPi / 4) < cosSeries (numPi / 4) := by decide +kernel
  linarith

/-! ### Rounding -/

theorem roundDown_bounds (x : Num) : roundDown x ≤ x ∧ x < roundDown x + 1 / 2 ^ 80 := by
  have a := Int.floor_le (x * 2 ^ 80)
  have b := Int.lt_floor_add_one (x * 2 ^ 80)
  change ((⌊x * 2 ^ 80⌋ : Int) : Num) / 2 ^ 80 ≤ x ∧ x < ((⌊x * 2 ^ 80⌋ : Int) : Num) / 2 ^ 80 + 1 / 2 ^ 80
  rw [div_le_iff₀ (by norm_num), ← add_div, lt_div_iff₀ (by norm_num)]
  exact ⟨a, b⟩

theorem roundDown_mono {x y : Num} (h : x ≤ y) : roundDown x ≤ roundDown y := by
  change ((⌊x * 2 ^ 80⌋ : Int) : Num) / 2 ^ 80 ≤ ((⌊y * 2 ^ 80⌋ : Int) : Num) / 2 ^ 80
  have : ⌊x * 2 ^ 80⌋ ≤ ⌊y * 2 ^ 80⌋ := Int.floor_mono (by nlinarith)
  have : ((⌊x * 2 ^ 80⌋ : Int) : Num) ≤ ((⌊y * 2 ^ 80⌋ : Int) : Num) := by exact_mod_cast this
  gcongr

theorem roundDown_zero : roundDown 0 = 0 := by decide +kernel

theorem roundDown_nonneg {x : Num} (h : 0 ≤ x) : 0 ≤ roundDown x := by rw [← roundDown_zero]; exact roundDown_mono h

theorem roundUp_bounds (x : Num) : x ≤ roundUp x ∧ roundUp x < x + 1 / 2 ^ 80 := by
  have := roundDown_bounds (-x)
  unfold roundUp; constructor <;> linarith

theorem abs_roundDown_sub (x : Num) : |((roundDown x : Num) : ℝ) - (x : ℝ)| ≤ 1 / 2 ^ 80 := by
  obtain ⟨a, b⟩ := roundDown_bounds x
  have h : ((|roundDown x - x| : Num) : ℝ) ≤ ((1 / 2 ^ 80 : Num) : ℝ) := by
    rw [Rat.cast_le, abs_le]; constructor <;> linarith
  push_cast at h; exact h

theorem abs_roundUp_sub (x : Num) : |((roundUp x : Num) : ℝ) - (x : ℝ)| ≤ 1 / 2 ^ 80 := by
  have := abs_roundDown_sub (-x)
  rw [← abs_neg] at this
  simp only [roundUp]; push_cast at this ⊢; convert this using 2; ring

/-! ### cis: exact laws -/

theorem Cpx.normSq_conj (a : Cpx) : a.conj.normSq = a.normSq := by simp only [Cpx.normSq, Cpx.conj]; ring

/-- The point at half the angle is not 0, its sine part is not negative, and its cosine part is the greater. -/
theorem halfAngle_bounds {t : Num} (h0 : 0 ≤ t) (h : t < 1 / 4) :
    0 < cosSeries (numPi * t) ∧ 0 ≤ sinSeries (numPi * t) ∧ sinSeries (numPi * t) < cosSeries (numPi * t) := by
  have a : 0 ≤ numPi * t := mul_nonneg (by norm_num [numPi]) h0
  have b : numPi * t < numPi / 4 := by have : (0 : Num) < numPi := by norm_num [numPi]
                                       nlinarith
  have c : numPi / 4 ≤ 1 := by norm_num [numPi]
  exact ⟨cosSeries_pos a (by linarith), sinSeries_nonneg a (by linarith), sinSeries_lt_cosSeries a b⟩

theorem halfTangent_bounds {t : Num} (h0 : 0 ≤ t) (h : t < 1 / 4) : 0 ≤ halfTangent t ∧ halfTangent t < 1 := by
  obtain ⟨a, b, c⟩ := halfAngle_bounds h0 h
  exact ⟨roundDown_nonneg (div_nonneg b a.le), (roundDown_bounds _).1.trans_lt ((div_lt_one a).2 c)⟩

/-- Two angles at least `2^-79` turns apart have different tangents. -/
theorem halfTangent_lt {t t' : Num} (h0 : 0 ≤ t) (h : t + 1 / 2 ^ 79 ≤ t') (h1 : t' < 1 / 4) : halfTangent t < halfTangent t' := by
  have g : (0 : Num) < 1 / 2 ^ 79 := by norm_num
  obtain ⟨a, b, -⟩ := halfAngle_bounds h0 (by linarith)
  obtain ⟨a', b', -⟩ := halfAngle_bounds (t := t') (by linarith) h1
  have p : (3 : Num) ≤ numPi := by norm_num [numPi]
  have q : numPi * t ≤ numPi * t' := by nlinarith
  have r : numPi * t' ≤ 1 := by have : numPi / 4 ≤ 1 := by norm_num [numPi]
                                nlinarith
  have x0 : 0 ≤ numPi * t := by positivity
  have c : cosSeries (numPi * t') ≤ cosSeries (numPi * t) := (cosSeries_lt x0 (by nlinarith) r).le
  have c1 := cosSeries_le_one x0 (q.trans r)
  have s := sinSeries_sub x0 q r
  have k : sinSeries (numPi * t) / cosSeries (numPi * t) + 1 / 2 ^ 80 ≤ sinSeries (numPi * t') / cosSeries (numPi * t') := by
    have e1 : sinSeries (numPi * t') / cosSeries (numPi * t) ≤ sinSeries (numPi * t') / cosSeries (numPi * t') := by gcongr
    have e2 : sinSeries (numPi * t') - sinSeries (numPi * t) ≤
        (sinSeries (numPi * t') - sinSeries (numPi * t)) / cosSeries (numPi * t) := by
      rw [le_div_iff₀ a]; nlinarith
    rw [sub_div] at e2
    have e3 : (1 : Num) / 2 ^ 80 ≤ (numPi * t' - numPi * t) / 6 := by
      have : (1 : Num) / 2 ^ 80 = 1 / 2 ^ 79 / 2 := by norm_num
      nlinarith
    linarith
  have u := (roundDown_bounds (sinSeries (numPi * t) / cosSeries (numPi * t))).1
  have v := (roundDown_bounds (sinSeries (numPi * t') / cosSeries (numPi * t'))).2
  unfold halfTangent; linarith

theorem cisQuarter_normSq (t : Num) : (cisQuarter t).normSq = 1 := by
  simp only [cisQuarter, Cpx.normSq, Cpx.scale, Cpx.mul]
  have : (1 + halfTangent t * halfTangent t) ≠ 0 := by nlinarith [mul_self_nonneg (halfTangent t)]
  field_simp
  ring

theorem cisQuarter_re (t : Num) : (cisQuarter t).re = (1 - halfTangent t ^ 2) / (1 + halfTangent t ^ 2) := by
  simp only [cisQuarter, Cpx.normSq, Cpx.scale, Cpx.mul]; ring

theorem cisQuarter_im (t : Num) : (cisQuarter t).im = 2 * halfTangent t / (1 + halfTangent t ^ 2) := by
  simp only [cisQuarter, Cpx.normSq, Cpx.scale, Cpx.mul]; ring

theorem cisQuarter_re_pos {t : Num} (h0 : 0 ≤ t) (h : t < 1 / 4) : 0 < (cisQuarter t).re := by
  obtain ⟨a, b⟩ := halfTangent_bounds h0 h
  rw [cisQuarter_re]; apply div_pos <;> nlinarith

theorem cisQuarter_re_lt {t t' : Num} (h0 : 0 ≤ t) (h : t + 1 / 2 ^ 79 ≤ t') (h1 : t' < 1 / 4) :
    (cisQuarter t').re < (cisQuarter t).re := by
  have a := halfTangent_lt h0 h h1
  have b := (halfTangent_bounds h0 (by have : (0 : Num) < 1 / 2 ^ 79 := by norm_num
                                       linarith)).1
  rw [cisQuarter_re, cisQuarter_re, div_lt_div_iff₀ (by positivity) (by positivity)]
  nlinarith

theorem cisHalf_normSq (t : Num) : (cisHalf t).normSq = 1 := by
  unfold cisHalf; split
  · exact cisQuarter_normSq _
  · split
    · decide +kernel
    · simpa [Cpx.normSq] using cisQuarter_normSq (1 / 2 - t)

/-- The fractional part of the turns. -/
theorem fract_bounds (t : Num) : 0 ≤ t - t.floor ∧ t - t.floor < 1 := by
  change 0 ≤ t - (⌊t⌋ : Num) ∧ t - (⌊t⌋ : Num) < 1
  exact ⟨sub_nonneg.2 (Int.floor_le t), by linarith [Int.lt_floor_add_one t]⟩

/-- R14: `cis` has modulus 1. -/
theorem cisTurn_normSq (t : Num) : (cisTurn t).normSq = 1 := by
  unfold cisTurn; simp only; split
  · exact cisHalf_normSq _
  · rw [Cpx.normSq_conj]; exact cisHalf_normSq _

theorem cis_normSq (x : Num) : (cis x).normSq = 1 := cisTurn_normSq _

theorem cisTurn_of_half {t : Num} (h0 : 0 ≤ t) (h : t ≤ 1 / 2) : cisTurn t = cisHalf t := by
  have : t.floor = 0 := by
    change ⌊t⌋ = 0
    rw [Int.floor_eq_zero_iff]; exact ⟨h0, by linarith⟩
  simp only [cisTurn, this, Int.cast_zero, sub_zero, if_pos h]

theorem cisHalf_mirror {t : Num} (h0 : 0 ≤ t) (h : t ≤ 1 / 2) : cisHalf (1 / 2 - t) = ⟨-(cisHalf t).re, (cisHalf t).im⟩ := by
  unfold cisHalf
  rcases lt_trichotomy t (1 / 4) with c | c | c
  · rw [if_neg (by linarith), if_neg (by intro k; linarith), if_pos c]; simp
  · subst c; norm_num
  · rw [if_pos (by linarith), if_neg (by linarith), if_neg (by intro k; linarith)]; simp

/-- R140: the cosines of an angle and of its complement to half a turn are opposite. -/
theorem cosTurn_mirror {t : Num} (h0 : 0 ≤ t) (h : t ≤ 1 / 2) : cosTurn (1 / 2 - t) = -cosTurn t := by
  rw [cosTurn, cosTurn, cisTurn_of_half h0 h, cisTurn_of_half (by linarith) (by linarith), cisHalf_mirror h0 h]

/-- R140: the cosine falls strictly over the first half turn, for angles at least `2^-79` turns apart. -/
theorem cosTurn_lt {t t' : Num} (h0 : 0 ≤ t) (h : t + 1 / 2 ^ 79 ≤ t') (h1 : t' ≤ 1 / 2) : cosTurn t' < cosTurn t := by
  have g : (0 : Num) < 1 / 2 ^ 79 := by norm_num
  rw [cosTurn, cosTurn, cisTurn_of_half h0 (by linarith), cisTurn_of_half (by linarith) h1]
  unfold cisHalf
  rcases lt_trichotomy t (1 / 4) with c | c | c <;> rcases lt_trichotomy t' (1 / 4) with c' | c' | c'
  · rw [if_pos c, if_pos c']; exact cisQuarter_re_lt h0 h c'
  · rw [if_pos c, if_neg (by linarith), if_pos c']; exact cisQuarter_re_pos h0 c
  · rw [if_pos c, if_neg (by linarith), if_neg (by intro k; linarith)]
    have := cisQuarter_re_pos h0 c
    have := cisQuarter_re_pos (t := 1 / 2 - t') (by linarith) (by linarith)
    simp only; linarith
  · linarith
  · linarith
  · rw [if_neg (by linarith), if_pos c, if_neg (by linarith), if_neg (by intro k; linarith)]
    have := cisQuarter_re_pos (t := 1 / 2 - t') (by linarith) (by linarith)
    simp only; linarith
  · linarith
  · linarith
  · rw [if_neg (by linarith), if_neg (by intro k; linarith), if_neg (by linarith), if_neg (by intro k; linarith)]
    exact neg_lt_neg (cisQuarter_re_lt (by linarith) (by linarith) (by linarith))

/-! ### Closeness to the real functions -/

theorem numPi_close : |((numPi : Num) : ℝ) - Real.pi| ≤ 1 / 10 ^ 20 := by
  have a := Real.pi_gt_d20
  have b := Real.pi_lt_d20
  have e : ((numPi : Num) : ℝ) = 3.14159265358979323846 := by simp only [numPi]; push_cast; norm_num
  rw [e, abs_le]; constructor <;> linarith

/-- `cis` of `t` turns over the reals. -/
noncomputable def realCis (t : ℝ) : ℂ := Complex.exp (((2 * Real.pi * t : ℝ) : ℂ) * Complex.I)

theorem realCis_norm (t : ℝ) : ‖realCis t‖ = 1 := Complex.norm_exp_ofReal_mul_I _

theorem norm_exp_sub_exp (a b : ℝ) : ‖Complex.exp ((a : ℂ) * Complex.I) - Complex.exp ((b : ℂ) * Complex.I)‖ ≤ |a - b| := by
  have e : Complex.exp ((a : ℂ) * Complex.I) - Complex.exp ((b : ℂ) * Complex.I) =
      Complex.exp ((b : ℂ) * Complex.I) * (Complex.exp (Complex.I * ((a - b : ℝ) : ℂ)) - 1) := by
    rw [mul_sub, mul_one, ← Complex.exp_add]; congr 2; push_cast; ring
  rw [e, norm_mul, Complex.norm_exp_ofReal_mul_I, one_mul]
  exact Real.norm_exp_I_mul_ofReal_sub_one_le

theorem halfAngle_close {t : Num} (h0 : 0 ≤ t) (h : t ≤ 1 / 4) :
    ‖Cpx.toComplex ⟨cosSeries (numPi * t), sinSeries (numPi * t)⟩ - realCis ((t : ℝ) / 2)‖ ≤ 1 / (3 * 10 ^ 20) := by
  have p : (0 : Num) < numPi := by norm_num [numPi]
  have a := series_close (x := numPi * t) (by positivity) (by
    have : numPi / 4 ≤ 1 := by norm_num [numPi]
    nlinarith)
  have b := norm_exp_sub_exp ((numPi * t : Num) : ℝ) (2 * Real.pi * ((t : ℝ) / 2))
  have t0 : (0 : ℝ) ≤ (t : ℝ) := by exact_mod_cast h0
  have t1 : (t : ℝ) ≤ 1 / 4 := by
    have : ((t : Num) : ℝ) ≤ ((1 / 4 : Num) : ℝ) := by exact_mod_cast h
    simpa using this
  have c : |((numPi * t : Num) : ℝ) - 2 * Real.pi * ((t : ℝ) / 2)| ≤ 1 / 10 ^ 20 * (1 / 4) := by
    have : ((numPi * t : Num) : ℝ) - 2 * Real.pi * ((t : ℝ) / 2) = ((numPi : ℝ) - Real.pi) * t := by push_cast; ring
    rw [this, abs_mul, abs_of_nonneg t0]
    exact mul_le_mul numPi_close t1 t0 (by norm_num)
  rw [← sub_add_sub_cancel _ (Complex.exp ((((numPi * t : Num) : ℝ) : ℂ) * Complex.I))]
  refine (norm_add_le _ _).trans ?_
  have a' : ‖Cpx.toComplex ⟨cosSeries (numPi * t), sinSeries (numPi * t)⟩ -
      Complex.exp ((((numPi * t : Num) : ℝ) : ℂ) * Complex.I)‖ ≤ 1 / 10 ^ 26 := by simpa using a
  refine (add_le_add a' (b.trans c)).trans ?_
  norm_num

/-- Squaring a point and dividing by its squared modulus brings it no further from the square of a unit point than four times
as far as it was. -/
theorem normalize_close (e w : ℂ) (d : ℝ) (hw : ‖w‖ = 1) (h : ‖e - w‖ ≤ d) (hd : d ≤ 1 / 2) :
    ‖e * e / (‖e‖ ^ 2 : ℝ) - w * w‖ ≤ 4 * d := by
  have n1 : |‖e‖ - 1| ≤ d := by have := abs_norm_sub_norm_le e w; rw [hw] at this; linarith
  have n2 := abs_le.1 n1
  have pos : 0 < ‖e‖ := by linarith
  have hne : ((‖e‖ : ℝ) : ℂ) ≠ 0 := by exact_mod_cast pos.ne'
  set u : ℂ := e / (‖e‖ : ℝ) with hu
  have un : ‖u‖ = 1 := by rw [hu, norm_div, Complex.norm_real, Real.norm_eq_abs, abs_of_pos pos, div_self pos.ne']
  have ue : ‖u - e‖ ≤ d := by
    have : u - e = u * ((1 - ‖e‖ : ℝ) : ℂ) := by rw [hu]; push_cast; field_simp
    rw [this, norm_mul, un, one_mul, Complex.norm_real, Real.norm_eq_abs, abs_sub_comm]; exact n1
  have uw : ‖u - w‖ ≤ 2 * d := by
    rw [← sub_add_sub_cancel u e w]; exact (norm_add_le _ _).trans (by linarith)
  have : e * e / (‖e‖ ^ 2 : ℝ) - w * w = (u - w) * (u + w) := by rw [hu]; push_cast; field_simp; ring
  rw [this, norm_mul]
  have s : ‖u + w‖ ≤ 2 := (norm_add_le _ _).trans (by rw [un, hw]; norm_num)
  calc _ ≤ (2 * d) * 2 := mul_le_mul uw s (norm_nonneg _) (by have := norm_nonneg (u - w); linarith)
    _ = _ := by ring

/-- `C (1 + j u)` for the rounded tangent `u` is as near the half angle as the series and the rounding allow. -/
theorem halfTangent_close {t : Num} (h0 : 0 ≤ t) (h : t < 1 / 4) :
    ‖Cpx.toComplex ⟨cosSeries (numPi * t), cosSeries (numPi * t) * halfTangent t⟩ - realCis ((t : ℝ) / 2)‖ ≤ 1 / (28 * 10 ^ 19) := by
  obtain ⟨a, -, -⟩ := halfAngle_bounds h0 h
  have c1 : cosSeries (numPi * t) ≤ 1 := by
    apply cosSeries_le_one (mul_nonneg (by norm_num [numPi]) h0)
    have : numPi / 4 ≤ 1 := by norm_num [numPi]
    have p : (0 : Num) < numPi := by norm_num [numPi]
    nlinarith
  have b := abs_roundDown_sub (sinSeries (numPi * t) / cosSeries (numPi * t))
  have d : ‖Cpx.toComplex ⟨cosSeries (numPi * t), cosSeries (numPi * t) * halfTangent t⟩ -
      Cpx.toComplex ⟨cosSeries (numPi * t), sinSeries (numPi * t)⟩‖ ≤ 1 / 2 ^ 80 := by
    have e : Cpx.toComplex ⟨cosSeries (numPi * t), cosSeries (numPi * t) * halfTangent t⟩ -
        Cpx.toComplex ⟨cosSeries (numPi * t), sinSeries (numPi * t)⟩ =
        ((((cosSeries (numPi * t) : Num) : ℝ) * (((halfTangent t : Num) : ℝ) - ((sinSeries (numPi * t) / cosSeries (numPi * t) : Num) : ℝ)) : ℝ) : ℂ) *
          Complex.I := by
      have hne : ((cosSeries (numPi * t) : Num) : ℝ) ≠ 0 := by exact_mod_cast a.ne'
      apply Complex.ext
      · simp [Cpx.toComplex]
      · simp only [Cpx.toComplex, Complex.sub_im, Complex.mul_im, Complex.ofReal_re, Complex.I_im, Complex.ofReal_im, Complex.I_re]
        push_cast
        field_simp
        ring
    rw [e, norm_mul, Complex.norm_I, mul_one, Complex.norm_real, norm_mul, Real.norm_eq_abs, Real.norm_eq_abs]
    have a' : (0 : ℝ) < ((cosSeries (numPi * t) : Num) : ℝ) := by exact_mod_cast a
    have c' : ((cosSeries (numPi * t) : Num) : ℝ) ≤ 1 := by exact_mod_cast c1
    rw [abs_of_pos a']
    calc _ ≤ 1 * (1 / 2 ^ 80 : ℝ) := mul_le_mul c' b (abs_nonneg _) (by norm_num)
      _ = _ := one_mul _
  rw [← sub_add_sub_cancel _ (Cpx.toComplex ⟨cosSeries (numPi * t), sinSeries (numPi * t)⟩)]
  refine (norm_add_le _ _).trans ((add_le_add d (halfAngle_close h0 h.le)).trans ?_)
  norm_num

theorem cisQuarter_close {t : Num} (h0 : 0 ≤ t) (h : t < 1 / 4) : ‖(cisQuarter t).toComplex - realCis t‖ ≤ 1 / (7 * 10 ^ 19) := by
  have a := normalize_close _ _ _ (realCis_norm _) (halfTangent_close h0 h) (by norm_num)
  have b : realCis ((t : ℝ) / 2) * realCis ((t : ℝ) / 2) = realCis t := by
    unfold realCis; rw [← Complex.exp_add]; congr 1; push_cast; ring
  have c (z : Cpx) : z.toComplex * z.toComplex / ((‖z.toComplex‖ ^ 2 : ℝ) : ℂ) = (Cpx.scale (1 / z.normSq) (z.mul z)).toComplex := by
    rw [← Complex.normSq_eq_norm_sq]
    have : Complex.normSq z.toComplex = ((z.normSq : Num) : ℝ) := by
      simp only [Complex.normSq_apply, Cpx.toComplex, Cpx.normSq]; push_cast; ring
    rw [this, div_eq_mul_inv, mul_comm]
    apply Complex.ext
    · rw [← Complex.ofReal_inv, Complex.re_ofReal_mul]
      simp only [Cpx.toComplex, Cpx.scale, Cpx.mul, Complex.mul_re]; push_cast; ring
    · rw [← Complex.ofReal_inv, Complex.im_ofReal_mul]
      simp only [Cpx.toComplex, Cpx.scale, Cpx.mul, Complex.mul_im]; push_cast; ring
  have k : Cpx.scale (1 / Cpx.normSq ⟨cosSeries (numPi * t), cosSeries (numPi * t) * halfTangent t⟩)
      (Cpx.mul ⟨cosSeries (numPi * t), cosSeries (numPi * t) * halfTangent t⟩ ⟨cosSeries (numPi * t), cosSeries (numPi * t) * halfTangent t⟩) =
      cisQuarter t := by
    have hc := (halfAngle_bounds h0 h).1.ne'
    have hn : 1 + halfTangent t * halfTangent t ≠ 0 := by nlinarith [mul_self_nonneg (halfTangent t)]
    simp only [cisQuarter, Cpx.scale, Cpx.mul, Cpx.normSq, Cpx.mk.injEq]
    generalize cosSeries (numPi * t) = C at *
    generalize halfTangent t = u at *
    have e : C * C + C * u * (C * u) = C * C * (1 * 1 + u * u) := by ring
    rw [e]
    constructor <;> field_simp
  rw [b, c, k] at a
  refine a.trans ?_
  norm_num

theorem arctanSeries_eq_sum (y : Num) (n k : Nat) :
    arctanSeries y k n = ∑ j ∈ Finset.range n, (-y) ^ j / ((k + 2 * j : Nat) : Num) := by
  induction n generalizing k with
  | zero => simp [arctanSeries]
  | succ n ih =>
    rw [arctanSeries, ih, Finset.sum_range_succ', Finset.mul_sum, sub_eq_add_neg, ← Finset.sum_neg_distrib, add_comm]
    congr 1
    · apply Finset.sum_congr rfl
      intro j _
      rw [show k + 2 * (j + 1) = k + 2 + 2 * j by ring]
      ring
    · simp

theorem arctan_close {r : Num} (h0 : 0 ≤ r) (h1 : r ≤ 1 / 2) :
    |((r * arctanSeries (r * r) 1 32 : Num) : ℝ) - Real.arctan (r : ℝ)| ≤ 1 / 10 ^ 19 := by
  have x0 : (0 : ℝ) ≤ (r : ℝ) := by exact_mod_cast h0
  have x1 : (r : ℝ) ≤ 1 / 2 := by
    have : ((r : Num) : ℝ) ≤ ((1 / 2 : Num) : ℝ) := by exact_mod_cast h1
    simpa using this
  set f : ℝ → ℝ := fun x => (∑ j ∈ Finset.range 32, (-1) ^ j * x ^ (2 * j + 1) / ((2 * j + 1 : Nat) : ℝ)) - Real.arctan x with hf
  have val : f r = ((r * arctanSeries (r * r) 1 32 : Num) : ℝ) - Real.arctan (r : ℝ) := by
    rw [hf, arctanSeries_eq_sum]
    push_cast
    rw [Finset.mul_sum]
    congr 1
    apply Finset.sum_congr rfl
    intro j _
    rw [neg_pow, add_comm (1 : ℝ)]
    ring
  have der (x : ℝ) : HasDerivAt f (-(x ^ 64 / (1 + x ^ 2))) x := by
    have s : HasDerivAt (fun x : ℝ => ∑ j ∈ Finset.range 32, (-1) ^ j * x ^ (2 * j + 1) / ((2 * j + 1 : Nat) : ℝ))
        (∑ j ∈ Finset.range 32, (-(x ^ 2)) ^ j) x := by
      apply HasDerivAt.fun_sum
      intro j _
      refine (((hasDerivAt_pow (2 * j + 1) x).const_mul ((-1 : ℝ) ^ j)).div_const ((2 * j + 1 : Nat) : ℝ)).congr_deriv ?_
      have hne : ((2 * j + 1 : Nat) : ℝ) ≠ 0 := by positivity
      rw [Nat.add_sub_cancel, neg_pow, pow_mul, div_eq_iff hne]
      ring
    refine (s.fun_sub (Real.hasDerivAt_arctan x)).congr_deriv ?_
    have g := geom_sum_eq (x := -(x ^ 2)) (by nlinarith [sq_nonneg x]) 32
    rw [g]
    have hp : (1 + x ^ 2) ≠ 0 := by positivity
    have hq : -(x ^ 2) - 1 ≠ 0 := by nlinarith [sq_nonneg x]
    field_simp
    ring
  have bound : ∀ x ∈ Set.Icc (0 : ℝ) (r : ℝ), ‖-(x ^ 64 / (1 + x ^ 2))‖ ≤ (1 / 2) ^ 64 := by
    intro x hx
    rw [norm_neg, Real.norm_eq_abs, abs_of_nonneg (by positivity), div_le_iff₀ (by positivity)]
    have : x ^ 64 ≤ (1 / 2) ^ 64 := pow_le_pow_left₀ hx.1 (hx.2.trans x1) 64
    nlinarith [sq_nonneg x, show (0 : ℝ) < (1 / 2) ^ 64 by positivity]
  have m := (convex_Icc (0 : ℝ) (r : ℝ)).norm_image_sub_le_of_norm_hasDerivWithin_le
    (fun x _ => (der x).hasDerivWithinAt) bound (Set.left_mem_Icc.2 x0) (Set.right_mem_Icc.2 x0)
  have z : f 0 = 0 := by simp [hf]
  rw [z, sub_zero, val, Real.norm_eq_abs, sub_zero, Real.norm_eq_abs, abs_of_nonneg x0] at m
  refine m.trans ?_
  calc ((1 : ℝ) / 2) ^ 64 * r ≤ (1 / 2) ^ 64 * (1 / 2) := by gcongr
    _ ≤ _ := by norm_num

theorem arctanSeries_bounds {r : Num} (h0 : 0 ≤ r) (h1 : r ≤ 1 / 2) :
    r / 2 ≤ r * arctanSeries (r * r) 1 32 ∧ r * arctanSeries (r * r) 1 32 ≤ r := by
  have key (n k : Nat) (hk : 1 ≤ k) : 0 ≤ arctanSeries (r * r) k n ∧ arctanSeries (r * r) k n ≤ 1 / (k : Num) := by
    have y1 : r * r ≤ 1 / 4 := by nlinarith
    have y0 : 0 ≤ r * r := mul_self_nonneg r
    induction n generalizing k with
    | zero => simp [arctanSeries]
    | succ n ih =>
      obtain ⟨a, b⟩ := ih (k + 2) (by omega)
      have k0 : (0 : Num) < k := by exact_mod_cast hk
      have c : 1 / ((k + 2 : Nat) : Num) ≤ 1 / (k : Num) := by
        apply one_div_le_one_div_of_le k0; push_cast; linarith
      simp only [arctanSeries]
      constructor
      · nlinarith [mul_le_mul y1 (b.trans c) a (by norm_num), show (0 : Num) < 1 / (k : Num) by positivity]
      · nlinarith [mul_nonneg y0 a]
  have e : arctanSeries (r * r) 1 32 = 1 - r * r * arctanSeries (r * r) 3 31 := by simp [arctanSeries]
  obtain ⟨a, b⟩ := key 31 3 (by norm_num)
  have y1 : r * r ≤ 1 / 4 := by nlinarith
  have c : r * r * arctanSeries (r * r) 3 31 ≤ 1 / 12 := by
    calc _ ≤ 1 / 4 * (1 / (3 : Nat) : Num) := mul_le_mul y1 b a (by norm_num)
      _ = _ := by norm_num
  have d : 0 ≤ r * r * arctanSeries (r * r) 3 31 := mul_nonneg (mul_self_nonneg r) a
  rw [e]; constructor <;> nlinarith

theorem cisHalf_close {t : Num} (h0 : 0 ≤ t) (h : t ≤ 1 / 2) : ‖(cisHalf t).toComplex - realCis t‖ ≤ 1 / (7 * 10 ^ 19) := by
  unfold cisHalf; split
  · exact cisQuarter_close h0 ‹_›
  · split
    · subst t
      have : realCis ((1 / 4 : Num) : ℝ) = Complex.I := by
        unfold realCis
        rw [show 2 * Real.pi * (((1 / 4 : Num)) : ℝ) = Real.pi / 2 by push_cast; ring, Complex.ofReal_div]
        exact Complex.exp_pi_div_two_mul_I
      rw [this]
      have : Cpx.toComplex ⟨0, 1⟩ = Complex.I := by apply Complex.ext <;> simp [Cpx.toComplex]
      rw [this, sub_self, norm_zero]; positivity
    · have q := cisQuarter_close (t := 1 / 2 - t) (by linarith) (by
        rcases lt_trichotomy t (1 / 4) with k | k | k <;> first | contradiction | linarith)
      have e1 : Cpx.toComplex ⟨-(cisQuarter (1 / 2 - t)).re, (cisQuarter (1 / 2 - t)).im⟩ =
          -(starRingEnd ℂ) (cisQuarter (1 / 2 - t)).toComplex := by apply Complex.ext <;> simp [Cpx.toComplex]
      have e2 : realCis t = -(starRingEnd ℂ) (realCis ((1 / 2 - t : Num) : ℝ)) := by
        unfold realCis
        rw [← Complex.exp_conj, map_mul, Complex.conj_ofReal, Complex.conj_I, ← neg_one_mul, ← Complex.exp_pi_mul_I, ← Complex.exp_add]
        congr 1; push_cast; ring
      rw [e1, e2, ← neg_sub_neg, neg_neg, neg_neg, ← map_sub, RCLike.norm_conj, norm_sub_rev]
      exact q

theorem realCis_add_int (t : ℝ) (n : ℤ) : realCis (t + n) = realCis t := by
  unfold realCis
  rw [show ((2 * Real.pi * (t + n) : ℝ) : ℂ) * Complex.I = ((2 * Real.pi * t : ℝ) : ℂ) * Complex.I + n * (2 * Real.pi * Complex.I) by
    push_cast; ring]
  exact Complex.exp_periodic.int_mul n _

/-- R14: `cis` of `t` turns is within `10^-19` of the real one. -/
theorem cisTurn_close (t : Num) : ‖(cisTurn t).toComplex - realCis t‖ ≤ 1 / (7 * 10 ^ 19) := by
  obtain ⟨a, b⟩ := fract_bounds t
  unfold cisTurn; simp only; split
  · have := cisHalf_close a ‹_›
    have e := realCis_add_int (((t - t.floor : Num)) : ℝ) t.floor
    rw [show (((t - t.floor : Num)) : ℝ) + ((t.floor : ℤ) : ℝ) = (t : ℝ) by push_cast; ring] at e
    rwa [← e] at this
  · have q := cisHalf_close (t := 1 - (t - t.floor)) (by linarith) (by linarith)
    have e1 (z : Cpx) : z.conj.toComplex = (starRingEnd ℂ) z.toComplex := by
      apply Complex.ext <;> simp [Cpx.toComplex, Cpx.conj]
    have e2 : realCis t = (starRingEnd ℂ) (realCis ((1 - (t - t.floor) : Num) : ℝ)) := by
      rw [← realCis_add_int (t : ℝ) (-(t.floor + 1))]
      unfold realCis
      rw [← Complex.exp_conj, map_mul, Complex.conj_ofReal, Complex.conj_I]
      congr 1; push_cast; ring
    rw [e1, e2, ← map_sub, RCLike.norm_conj]
    exact q

/-- R14: the cosine of `t` turns is within `10^-19` of the real one. -/
theorem cosTurn_close (t : Num) : |((cosTurn t : Num) : ℝ) - Real.cos (2 * Real.pi * t)| ≤ 1 / 10 ^ 19 := by
  have := (Complex.abs_re_le_norm _).trans (cisTurn_close t)
  have e : (realCis t).re = Real.cos (2 * Real.pi * t) := Complex.exp_ofReal_mul_I_re _
  rw [Complex.sub_re, e] at this
  exact this.trans (by norm_num)

/-- R14: the sine of `t` turns is within `10^-19` of the real one. -/
theorem sinTurn_close (t : Num) : |((sinTurn t : Num) : ℝ) - Real.sin (2 * Real.pi * t)| ≤ 1 / 10 ^ 19 := by
  have := (Complex.abs_im_le_norm _).trans (cisTurn_close t)
  have e : (realCis t).im = Real.sin (2 * Real.pi * t) := Complex.exp_ofReal_mul_I_im _
  rw [Complex.sub_im, e] at this
  exact this.trans (by norm_num)

/-- R14: `cis x` for `x` in radians, near the real one; the error grows with the number of turns. -/
theorem cis_close (x : Num) :
    ‖(cis x).toComplex - Complex.exp (((x : ℝ) : ℂ) * Complex.I)‖ ≤ (1 + |(x : ℝ)|) / 10 ^ 19 := by
  have a := cisTurn_close (x / (2 * numPi))
  have b := norm_exp_sub_exp (2 * Real.pi * ((x / (2 * numPi) : Num) : ℝ)) (x : ℝ)
  have p : (3 : ℝ) ≤ ((numPi : Num) : ℝ) := by
    have : (3 : Num) ≤ numPi := by norm_num [numPi]
    exact_mod_cast this
  have c : |2 * Real.pi * ((x / (2 * numPi) : Num) : ℝ) - (x : ℝ)| ≤ |(x : ℝ)| * (1 / 10 ^ 20) := by
    have : 2 * Real.pi * ((x / (2 * numPi) : Num) : ℝ) - (x : ℝ) = (x : ℝ) * (-((numPi : ℝ) - Real.pi) / numPi) := by
      push_cast; field_simp; ring
    rw [this, abs_mul, abs_div, abs_neg, abs_of_pos (by linarith : (0 : ℝ) < ((numPi : Num) : ℝ))]
    apply mul_le_mul_of_nonneg_left _ (abs_nonneg _)
    rw [div_le_iff₀ (by linarith)]
    have := numPi_close
    nlinarith
  rw [← sub_add_sub_cancel _ (realCis ((x / (2 * numPi) : Num) : ℝ))]
  refine (norm_add_le _ _).trans ((add_le_add a (b.trans c)).trans ?_)
  have := abs_nonneg (x : ℝ)
  rw [add_div]
  apply add_le_add
  · norm_num
  · rw [mul_one_div]; apply div_le_div_of_nonneg_left this <;> norm_num

theorem slopeAngle_bounds {r : Num} (h0 : 0 < r) (h1 : r ≤ 1) : 0 < slopeAngle r ∧ slopeAngle r ≤ numPi / 4 := by
  have p3 : (3 : Num) ≤ numPi := by norm_num [numPi]
  have g : (1 : Num) / 2 ^ 80 < 1 / 8 := by norm_num
  unfold slopeAngle; split
  · obtain ⟨a, b⟩ := arctanSeries_bounds h0.le ‹_›
    obtain ⟨c, d⟩ := roundUp_bounds (r * arctanSeries (r * r) 1 32)
    constructor <;> linarith
  · have q0 : 0 ≤ (1 - r) / (1 + r) := div_nonneg (by linarith) (by linarith)
    have q1 : (1 - r) / (1 + r) ≤ 1 / 2 := by rw [div_le_div_iff₀ (by linarith) (by norm_num)]; linarith
    obtain ⟨a, b⟩ := arctanSeries_bounds q0 q1
    simp only
    have c := (roundDown_bounds ((1 - r) / (1 + r) * arctanSeries ((1 - r) / (1 + r) * ((1 - r) / (1 + r))) 1 32)).1
    have d := roundDown_nonneg (x := (1 - r) / (1 + r) * arctanSeries ((1 - r) / (1 + r) * ((1 - r) / (1 + r))) 1 32) (by linarith)
    constructor <;> linarith

theorem slopeAngle_close {r : Num} (h0 : 0 < r) (h1 : r ≤ 1) :
    |((slopeAngle r : Num) : ℝ) - Real.arctan (r : ℝ)| ≤ 2 / 10 ^ 19 := by
  have g : (1 : ℝ) / 2 ^ 80 ≤ 1 / 10 ^ 20 := by norm_num
  unfold slopeAngle; split
  · have a := arctan_close h0.le ‹_›
    have b := abs_roundUp_sub (r * arctanSeries (r * r) 1 32)
    rw [abs_le] at *
    constructor <;> linarith [a.1, a.2, b.1, b.2]
  · have q0 : 0 ≤ (1 - r) / (1 + r) := div_nonneg (by linarith) (by linarith)
    have q1 : (1 - r) / (1 + r) ≤ 1 / 2 := by rw [div_le_div_iff₀ (by linarith) (by norm_num)]; linarith
    have a := arctan_close q0 q1
    have r0 : (0 : ℝ) < (r : ℝ) := by exact_mod_cast h0
    have e : Real.arctan (r : ℝ) + Real.arctan (((1 - r) / (1 + r) : Num) : ℝ) = Real.pi / 4 := by
      have lt : (r : ℝ) * ((1 - r) / (1 + r)) < 1 := by
        rw [mul_div_assoc', div_lt_one (by linarith)]
        nlinarith
      push_cast
      rw [Real.arctan_add lt, ← Real.arctan_one, div_eq_one_iff_eq (by linarith) |>.2]
      field_simp
      ring
    simp only
    set q := (1 - r) / (1 + r)
    have b := numPi_close
    have d := abs_roundDown_sub (q * arctanSeries (q * q) 1 32)
    have k : ((numPi / 4 - roundDown (q * arctanSeries (q * q) 1 32) : Num) : ℝ) =
        ((numPi : Num) : ℝ) / 4 - ((roundDown (q * arctanSeries (q * q) 1 32) : Num) : ℝ) := by push_cast; ring
    rw [k]
    rw [abs_le] at *
    constructor <;> linarith [a.1, a.2, b.1, b.2, d.1, d.2]

theorem quadrantAngle_bounds {x y : Num} (hx : 0 < x) (hy : 0 < y) : 0 < quadrantAngle x y ∧ quadrantAngle x y < numPi / 2 := by
  have p : 0 < numPi := by norm_num [numPi]
  unfold quadrantAngle; split
  · have := slopeAngle_bounds (r := y / x) (by positivity) (by rwa [div_le_one hx])
    constructor <;> linarith
  · have := slopeAngle_bounds (r := x / y) (by positivity) (by rw [div_le_one hy]; linarith)
    constructor <;> linarith

theorem quadrantAngle_close {x y : Num} (hx : 0 < x) (hy : 0 < y) :
    |((quadrantAngle x y : Num) : ℝ) - Real.arctan ((y : ℝ) / x)| ≤ 3 / 10 ^ 19 := by
  unfold quadrantAngle; split
  · have := slopeAngle_close (r := y / x) (by positivity) (by rwa [div_le_one hx])
    push_cast at this
    exact this.trans (by norm_num)
  · have a := slopeAngle_close (r := x / y) (by positivity) (by rw [div_le_one hy]; linarith)
    have b := numPi_close
    have e := Real.arctan_inv_of_pos (x := (x : ℝ) / y) (by positivity)
    rw [inv_div] at e
    rw [e]
    push_cast at a ⊢
    rw [show (numPi : ℝ) / 2 - (slopeAngle (x / y) : ℝ) - (Real.pi / 2 - Real.arctan ((x : ℝ) / y)) =
      ((numPi : ℝ) - Real.pi) / 2 - ((slopeAngle (x / y) : ℝ) - Real.arctan ((x : ℝ) / y)) by ring]
    refine (abs_sub _ _).trans ?_
    rw [abs_div, abs_of_pos (by norm_num : (0 : ℝ) < 2)]
    linarith

/-- R14: `arg` lies in `(-pi, pi]`. -/
theorem arg_bounds (z : Cpx) : -numPi < arg z ∧ arg z ≤ numPi := by
  have p : 0 < numPi := by norm_num [numPi]
  unfold arg; split
  · split <;> constructor <;> linarith
  · split
    · split <;> constructor <;> linarith
    · rename_i hi hr
      obtain ⟨a, b⟩ := quadrantAngle_bounds (abs_pos.2 hr) (abs_pos.2 hi)
      simp only
      split <;> split <;> constructor <;> linarith

theorem complex_arg_of_re_pos {z : ℂ} (h : 0 < z.re) : Complex.arg z = Real.arctan (z.im / z.re) := by
  have := abs_lt.1 (Complex.abs_arg_lt_pi_div_two_iff.2 (.inl h))
  rw [← Complex.tan_arg, Real.arctan_tan this.1 this.2]

/-- R14: `arg` is within `10^-18` of the real argument. -/
theorem arg_close (z : Cpx) : |((arg z : Num) : ℝ) - Complex.arg z.toComplex| ≤ 1 / 10 ^ 18 := by
  have pc := numPi_close
  obtain ⟨x, y⟩ := z
  have hre : (Cpx.toComplex ⟨x, y⟩).re = (x : ℝ) := rfl
  have him : (Cpx.toComplex ⟨x, y⟩).im = (y : ℝ) := rfl
  generalize hw : Cpx.toComplex ⟨x, y⟩ = w at hre him ⊢
  rcases lt_trichotomy y 0 with hy | hy | hy
  · have hy' : (y : ℝ) < 0 := by exact_mod_cast hy
    rcases lt_trichotomy x 0 with hx | hx | hx
    · have hx' : (x : ℝ) < 0 := by exact_mod_cast hx
      have q := quadrantAngle_close (neg_pos.2 hx) (neg_pos.2 hy)
      have e : Complex.arg w = Real.arctan ((y : ℝ) / x) - Real.pi := by
        have := Complex.arg_neg_eq_arg_sub_pi_of_im_pos (x := -w) (by rw [Complex.neg_im, him]; linarith)
        rw [neg_neg, complex_arg_of_re_pos (z := -w) (by rw [Complex.neg_re, hre]; linarith), Complex.neg_im, Complex.neg_re, hre,
          him, neg_div_neg_eq] at this
        exact this
      rw [e]
      simp only [arg, hy.ne, hx.ne, if_false, hx.not_gt, hy.not_gt, abs_of_neg hx, abs_of_neg hy]
      push_cast at q ⊢
      rw [neg_div_neg_eq] at q
      rw [abs_le] at *
      constructor <;> linarith [q.1, q.2, pc.1, pc.2]
    · have e : Complex.arg w = -(Real.pi / 2) := Complex.arg_eq_neg_pi_div_two_iff.2 ⟨by rw [hre, hx]; simp, by rw [him]; exact hy'⟩
      rw [e]
      simp only [arg, hy.ne, hx, if_false, if_true, hy.not_gt]
      push_cast
      rw [abs_le] at *
      constructor <;> linarith [pc.1, pc.2]
    · have hx' : (0 : ℝ) < (x : ℝ) := by exact_mod_cast hx
      have q := quadrantAngle_close hx (neg_pos.2 hy)
      have e : Complex.arg w = Real.arctan ((y : ℝ) / x) := by
        rw [complex_arg_of_re_pos (by rw [hre]; exact hx'), hre, him]
      rw [e]
      simp only [arg, hy.ne, hx.ne', if_false, if_true, hy.not_gt, hx, abs_of_pos hx, abs_of_neg hy]
      push_cast at q ⊢
      rw [neg_div, Real.arctan_neg] at q
      rw [abs_le] at *
      constructor <;> linarith [q.1, q.2]
  · rcases lt_or_ge x 0 with hx | hx
    · have hx' : (x : ℝ) < 0 := by exact_mod_cast hx
      have e : Complex.arg w = Real.pi := Complex.arg_eq_pi_iff.2 ⟨by rw [hre]; exact hx', by rw [him, hy]; simp⟩
      rw [e]
      simp only [arg, hy, if_true, hx]
      exact pc.trans (by norm_num)
    · have hx' : (0 : ℝ) ≤ (x : ℝ) := by exact_mod_cast hx
      have e : Complex.arg w = 0 := Complex.arg_eq_zero_iff.2 ⟨by rw [hre]; exact hx', by rw [him, hy]; simp⟩
      rw [e]
      simp [arg, hy, hx.not_gt]
  · have hy' : (0 : ℝ) < (y : ℝ) := by exact_mod_cast hy
    rcases lt_trichotomy x 0 with hx | hx | hx
    · have hx' : (x : ℝ) < 0 := by exact_mod_cast hx
      have q := quadrantAngle_close (neg_pos.2 hx) hy
      have e : Complex.arg w = Real.arctan ((y : ℝ) / x) + Real.pi := by
        have := Complex.arg_neg_eq_arg_add_pi_of_im_neg (x := -w) (by rw [Complex.neg_im, him]; linarith)
        rw [neg_neg, complex_arg_of_re_pos (z := -w) (by rw [Complex.neg_re, hre]; linarith), Complex.neg_im, Complex.neg_re, hre,
          him, neg_div_neg_eq] at this
        exact this
      rw [e]
      simp only [arg, hy.ne', hx.ne, if_false, if_true, hx.not_gt, hy, abs_of_neg hx, abs_of_pos hy]
      push_cast at q ⊢
      rw [div_neg, Real.arctan_neg] at q
      rw [abs_le] at *
      constructor <;> linarith [q.1, q.2, pc.1, pc.2]
    · have e : Complex.arg w = Real.pi / 2 := Complex.arg_eq_pi_div_two_iff.2 ⟨by rw [hre, hx]; simp, by rw [him]; exact hy'⟩
      rw [e]
      simp only [arg, hy.ne', hx, if_false, if_true, hy]
      push_cast
      rw [abs_le] at *
      constructor <;> linarith [pc.1, pc.2]
    · have hx' : (0 : ℝ) < (x : ℝ) := by exact_mod_cast hx
      have q := quadrantAngle_close hx hy
      have e : Complex.arg w = Real.arctan ((y : ℝ) / x) := by
        rw [complex_arg_of_re_pos (by rw [hre]; exact hx'), hre, him]
      rw [e]
      simp only [arg, hy.ne', hx.ne', if_false, if_true, hy, hx, abs_of_pos hx, abs_of_pos hy]
      exact q.trans (by norm_num)

end Sys2Proof
end

