-- ==== Sys2Proof/Laws/State.lean ====
section
/-! SUPPORT. One lemma per field per update of the state and of the two units, all true by unfolding, so that no proof unfolds a
record update. Where an update computes a field at length, only the fields it keeps are listed. -/

namespace Sys2Proof.Machine

/-! ### The whole state -/

@[simp] theorem State.setTx_cmd (tx : TxUnit) (s : State) : (s.setTx tx).cmd = s.cmd := rfl
@[simp] theorem State.setTx_rsp (tx : TxUnit) (s : State) : (s.setTx tx).rsp = s.rsp := rfl
@[simp] theorem State.setTx_tx (tx : TxUnit) (s : State) : (s.setTx tx).tx = tx := rfl
@[simp] theorem State.setTx_rx (tx : TxUnit) (s : State) : (s.setTx tx).rx = s.rx := rfl

@[simp] theorem State.setRx_cmd (rx : RxUnit) (s : State) : (s.setRx rx).cmd = s.cmd := rfl
@[simp] theorem State.setRx_rsp (rx : RxUnit) (s : State) : (s.setRx rx).rsp = s.rsp := rfl
@[simp] theorem State.setRx_tx (rx : RxUnit) (s : State) : (s.setRx rx).tx = s.tx := rfl
@[simp] theorem State.setRx_rx (rx : RxUnit) (s : State) : (s.setRx rx).rx = rx := rfl

@[simp] theorem State.setCmd_cmd (ws : List Word) (s : State) : (s.setCmd ws).cmd = ws := rfl
@[simp] theorem State.setCmd_rsp (ws : List Word) (s : State) : (s.setCmd ws).rsp = s.rsp := rfl
@[simp] theorem State.setCmd_tx (ws : List Word) (s : State) : (s.setCmd ws).tx = s.tx := rfl
@[simp] theorem State.setCmd_rx (ws : List Word) (s : State) : (s.setCmd ws).rx = s.rx := rfl

@[simp] theorem State.pushRsp_cmd (ws : List Word) (s : State) : (s.pushRsp ws).cmd = s.cmd := rfl
@[simp] theorem State.pushRsp_rsp (ws : List Word) (s : State) : (s.pushRsp ws).rsp = s.rsp ++ ws := rfl
@[simp] theorem State.pushRsp_tx (ws : List Word) (s : State) : (s.pushRsp ws).tx = s.tx := rfl
@[simp] theorem State.pushRsp_rx (ws : List Word) (s : State) : (s.pushRsp ws).rx = s.rx := rfl

/-! ### Leaving a frame -/

@[simp] theorem toDetect_state (rx : RxUnit) : (toDetect rx).state = .detect := rfl
@[simp] theorem toDetect_m (rx : RxUnit) : (toDetect rx).m = rx.m := rfl
@[simp] theorem toDetect_cpLen (rx : RxUnit) : (toDetect rx).cpLen = rx.cpLen := rfl
@[simp] theorem toDetect_taperLen (rx : RxUnit) : (toDetect rx).taperLen = rx.taperLen := rfl
@[simp] theorem toDetect_table (rx : RxUnit) : (toDetect rx).table = rx.table := rfl
@[simp] theorem toDetect_hdrCheck (rx : RxUnit) : (toDetect rx).hdrCheck = rx.hdrCheck := rfl
@[simp] theorem toDetect_hdrFec (rx : RxUnit) : (toDetect rx).hdrFec = rx.hdrFec := rfl
@[simp] theorem toDetect_hdrMod (rx : RxUnit) : (toDetect rx).hdrMod = rx.hdrMod := rfl
@[simp] theorem toDetect_hUser (rx : RxUnit) : (toDetect rx).hUser = rx.hUser := rfl
@[simp] theorem toDetect_maxSyms (rx : RxUnit) : (toDetect rx).maxSyms = rx.maxSyms := rfl
@[simp] theorem toDetect_detT2 (rx : RxUnit) : (toDetect rx).detT2 = rx.detT2 := rfl
@[simp] theorem toDetect_longT2 (rx : RxUnit) : (toDetect rx).longT2 = rx.longT2 := rfl
@[simp] theorem toDetect_alpha (rx : RxUnit) : (toDetect rx).alpha = rx.alpha := rfl
@[simp] theorem toDetect_kappa (rx : RxUnit) : (toDetect rx).kappa = rx.kappa := rfl
@[simp] theorem toDetect_evmask (rx : RxUnit) : (toDetect rx).evmask = rx.evmask := rfl
@[simp] theorem toDetect_derived (rx : RxUnit) : (toDetect rx).derived = rx.derived := rfl
@[simp] theorem toDetect_win (rx : RxUnit) : (toDetect rx).win = rx.win := rfl
@[simp] theorem toDetect_timer (rx : RxUnit) : (toDetect rx).timer = 0 := rfl
@[simp] theorem toDetect_age (rx : RxUnit) : (toDetect rx).age = 0 := rfl
@[simp] theorem toDetect_cnt (rx : RxUnit) : (toDetect rx).cnt = 0 := rfl
@[simp] theorem toDetect_nsym (rx : RxUnit) : (toDetect rx).nsym = 0 := rfl
@[simp] theorem toDetect_symIdx (rx : RxUnit) : (toDetect rx).symIdx = 0 := rfl
@[simp] theorem toDetect_bestNum (rx : RxUnit) : (toDetect rx).bestNum = 0 := rfl
@[simp] theorem toDetect_bestDen (rx : RxUnit) : (toDetect rx).bestDen = 0 := rfl
@[simp] theorem toDetect_bestP (rx : RxUnit) : (toDetect rx).bestP = Cpx.zero := rfl
@[simp] theorem toDetect_nu (rx : RxUnit) : (toDetect rx).nu = 0 := rfl
@[simp] theorem toDetect_phi (rx : RxUnit) : (toDetect rx).phi = 0 := rfl
@[simp] theorem toDetect_tau (rx : RxUnit) : (toDetect rx).tau = 0 := rfl
@[simp] theorem toDetect_g (rx : RxUnit) : (toDetect rx).g = zeros rx.m := rfl
@[simp] theorem toDetect_rxbits (rx : RxUnit) : (toDetect rx).rxbits = [] := rfl
@[simp] theorem toDetect_pl (rx : RxUnit) : (toDetect rx).pl = 0#16 := rfl
@[simp] theorem toDetect_curMod (rx : RxUnit) : (toDetect rx).curMod = .bpsk := rfl
@[simp] theorem toDetect_hdrUser (rx : RxUnit) : (toDetect rx).hdrUser = List.replicate rx.hUser 0#8 := rfl
@[simp] theorem toDetect_plen (rx : RxUnit) : (toDetect rx).plen = 0 := rfl
@[simp] theorem toDetect_pcheck (rx : RxUnit) : (toDetect rx).pcheck = .none := rfl
@[simp] theorem toDetect_pfec (rx : RxUnit) : (toDetect rx).pfec = .none := rfl
@[simp] theorem toDetect_pmod (rx : RxUnit) : (toDetect rx).pmod = .bpsk := rfl
@[simp] theorem toDetect_payEncLen (rx : RxUnit) : (toDetect rx).payEncLen = 0 := rfl
@[simp] theorem toDetect_payNmod (rx : RxUnit) : (toDetect rx).payNmod = 0 := rfl
@[simp] theorem toDetect_nPay (rx : RxUnit) : (toDetect rx).nPay = 0 := rfl
@[simp] theorem toDetect_evq (rx : RxUnit) : (toDetect rx).evq = rx.evq := rfl

/-! ### The initial state -/

@[simp] theorem initialRx_state (rx : RxUnit) : (initialRx rx).state = .detect := rfl
@[simp] theorem initialRx_m (rx : RxUnit) : (initialRx rx).m = rx.m := rfl
@[simp] theorem initialRx_cpLen (rx : RxUnit) : (initialRx rx).cpLen = rx.cpLen := rfl
@[simp] theorem initialRx_taperLen (rx : RxUnit) : (initialRx rx).taperLen = rx.taperLen := rfl
@[simp] theorem initialRx_table (rx : RxUnit) : (initialRx rx).table = rx.table := rfl
@[simp] theorem initialRx_hdrCheck (rx : RxUnit) : (initialRx rx).hdrCheck = rx.hdrCheck := rfl
@[simp] theorem initialRx_hdrFec (rx : RxUnit) : (initialRx rx).hdrFec = rx.hdrFec := rfl
@[simp] theorem initialRx_hdrMod (rx : RxUnit) : (initialRx rx).hdrMod = rx.hdrMod := rfl
@[simp] theorem initialRx_hUser (rx : RxUnit) : (initialRx rx).hUser = rx.hUser := rfl
@[simp] theorem initialRx_maxSyms (rx : RxUnit) : (initialRx rx).maxSyms = rx.maxSyms := rfl
@[simp] theorem initialRx_detT2 (rx : RxUnit) : (initialRx rx).detT2 = rx.detT2 := rfl
@[simp] theorem initialRx_longT2 (rx : RxUnit) : (initialRx rx).longT2 = rx.longT2 := rfl
@[simp] theorem initialRx_alpha (rx : RxUnit) : (initialRx rx).alpha = rx.alpha := rfl
@[simp] theorem initialRx_kappa (rx : RxUnit) : (initialRx rx).kappa = rx.kappa := rfl
@[simp] theorem initialRx_evmask (rx : RxUnit) : (initialRx rx).evmask = rx.evmask := rfl
@[simp] theorem initialRx_derived (rx : RxUnit) : (initialRx rx).derived = rx.derived := rfl
@[simp] theorem initialRx_win (rx : RxUnit) : (initialRx rx).win = zeros (rx.m + rx.cpLen) := rfl
@[simp] theorem initialRx_timer (rx : RxUnit) : (initialRx rx).timer = 0 := rfl
@[simp] theorem initialRx_age (rx : RxUnit) : (initialRx rx).age = 0 := rfl
@[simp] theorem initialRx_cnt (rx : RxUnit) : (initialRx rx).cnt = 0 := rfl
@[simp] theorem initialRx_nsym (rx : RxUnit) : (initialRx rx).nsym = 0 := rfl
@[simp] theorem initialRx_symIdx (rx : RxUnit) : (initialRx rx).symIdx = 0 := rfl
@[simp] theorem initialRx_bestNum (rx : RxUnit) : (initialRx rx).bestNum = 0 := rfl
@[simp] theorem initialRx_bestDen (rx : RxUnit) : (initialRx rx).bestDen = 0 := rfl
@[simp] theorem initialRx_bestP (rx : RxUnit) : (initialRx rx).bestP = Cpx.zero := rfl
@[simp] theorem initialRx_nu (rx : RxUnit) : (initialRx rx).nu = 0 := rfl
@[simp] theorem initialRx_phi (rx : RxUnit) : (initialRx rx).phi = 0 := rfl
@[simp] theorem initialRx_tau (rx : RxUnit) : (initialRx rx).tau = 0 := rfl
@[simp] theorem initialRx_g (rx : RxUnit) : (initialRx rx).g = zeros rx.m := rfl
@[simp] theorem initialRx_rxbits (rx : RxUnit) : (initialRx rx).rxbits = [] := rfl
@[simp] theorem initialRx_pl (rx : RxUnit) : (initialRx rx).pl = 0#16 := rfl
@[simp] theorem initialRx_curMod (rx : RxUnit) : (initialRx rx).curMod = .bpsk := rfl
@[simp] theorem initialRx_hdrUser (rx : RxUnit) : (initialRx rx).hdrUser = List.replicate rx.hUser 0#8 := rfl
@[simp] theorem initialRx_plen (rx : RxUnit) : (initialRx rx).plen = 0 := rfl
@[simp] theorem initialRx_pcheck (rx : RxUnit) : (initialRx rx).pcheck = .none := rfl
@[simp] theorem initialRx_pfec (rx : RxUnit) : (initialRx rx).pfec = .none := rfl
@[simp] theorem initialRx_pmod (rx : RxUnit) : (initialRx rx).pmod = .bpsk := rfl
@[simp] theorem initialRx_payEncLen (rx : RxUnit) : (initialRx rx).payEncLen = 0 := rfl
@[simp] theorem initialRx_payNmod (rx : RxUnit) : (initialRx rx).payNmod = 0 := rfl
@[simp] theorem initialRx_nPay (rx : RxUnit) : (initialRx rx).nPay = 0 := rfl
@[simp] theorem initialRx_evq (rx : RxUnit) : (initialRx rx).evq = rx.evq := rfl

/-! ### The window -/

@[simp] theorem shiftWindow_state (x : Cpx) (rx : RxUnit) : (shiftWindow x rx).state = rx.state := rfl
@[simp] theorem shiftWindow_m (x : Cpx) (rx : RxUnit) : (shiftWindow x rx).m = rx.m := rfl
@[simp] theorem shiftWindow_cpLen (x : Cpx) (rx : RxUnit) : (shiftWindow x rx).cpLen = rx.cpLen := rfl
@[simp] theorem shiftWindow_taperLen (x : Cpx) (rx : RxUnit) : (shiftWindow x rx).taperLen = rx.taperLen := rfl
@[simp] theorem shiftWindow_table (x : Cpx) (rx : RxUnit) : (shiftWindow x rx).table = rx.table := rfl
@[simp] theorem shiftWindow_hdrCheck (x : Cpx) (rx : RxUnit) : (shiftWindow x rx).hdrCheck = rx.hdrCheck := rfl
@[simp] theorem shiftWindow_hdrFec (x : Cpx) (rx : RxUnit) : (shiftWindow x rx).hdrFec = rx.hdrFec := rfl
@[simp] theorem shiftWindow_hdrMod (x : Cpx) (rx : RxUnit) : (shiftWindow x rx).hdrMod = rx.hdrMod := rfl
@[simp] theorem shiftWindow_hUser (x : Cpx) (rx : RxUnit) : (shiftWindow x rx).hUser = rx.hUser := rfl
@[simp] theorem shiftWindow_maxSyms (x : Cpx) (rx : RxUnit) : (shiftWindow x rx).maxSyms = rx.maxSyms := rfl
@[simp] theorem shiftWindow_detT2 (x : Cpx) (rx : RxUnit) : (shiftWindow x rx).detT2 = rx.detT2 := rfl
@[simp] theorem shiftWindow_longT2 (x : Cpx) (rx : RxUnit) : (shiftWindow x rx).longT2 = rx.longT2 := rfl
@[simp] theorem shiftWindow_alpha (x : Cpx) (rx : RxUnit) : (shiftWindow x rx).alpha = rx.alpha := rfl
@[simp] theorem shiftWindow_kappa (x : Cpx) (rx : RxUnit) : (shiftWindow x rx).kappa = rx.kappa := rfl
@[simp] theorem shiftWindow_evmask (x : Cpx) (rx : RxUnit) : (shiftWindow x rx).evmask = rx.evmask := rfl
@[simp] theorem shiftWindow_derived (x : Cpx) (rx : RxUnit) : (shiftWindow x rx).derived = rx.derived := rfl
@[simp] theorem shiftWindow_win (x : Cpx) (rx : RxUnit) : (shiftWindow x rx).win = rx.win.tail ++ [x] := rfl
@[simp] theorem shiftWindow_timer (x : Cpx) (rx : RxUnit) : (shiftWindow x rx).timer = rx.timer := rfl
@[simp] theorem shiftWindow_age (x : Cpx) (rx : RxUnit) : (shiftWindow x rx).age = rx.age := rfl
@[simp] theorem shiftWindow_cnt (x : Cpx) (rx : RxUnit) : (shiftWindow x rx).cnt = rx.cnt := rfl
@[simp] theorem shiftWindow_nsym (x : Cpx) (rx : RxUnit) : (shiftWindow x rx).nsym = rx.nsym := rfl
@[simp] theorem shiftWindow_symIdx (x : Cpx) (rx : RxUnit) : (shiftWindow x rx).symIdx = rx.symIdx := rfl
@[simp] theorem shiftWindow_bestNum (x : Cpx) (rx : RxUnit) : (shiftWindow x rx).bestNum = rx.bestNum := rfl
@[simp] theorem shiftWindow_bestDen (x : Cpx) (rx : RxUnit) : (shiftWindow x rx).bestDen = rx.bestDen := rfl
@[simp] theorem shiftWindow_bestP (x : Cpx) (rx : RxUnit) : (shiftWindow x rx).bestP = rx.bestP := rfl
@[simp] theorem shiftWindow_nu (x : Cpx) (rx : RxUnit) : (shiftWindow x rx).nu = rx.nu := rfl
@[simp] theorem shiftWindow_phi (x : Cpx) (rx : RxUnit) : (shiftWindow x rx).phi = rx.phi := rfl
@[simp] theorem shiftWindow_tau (x : Cpx) (rx : RxUnit) : (shiftWindow x rx).tau = rx.tau := rfl
@[simp] theorem shiftWindow_g (x : Cpx) (rx : RxUnit) : (shiftWindow x rx).g = rx.g := rfl
@[simp] theorem shiftWindow_rxbits (x : Cpx) (rx : RxUnit) : (shiftWindow x rx).rxbits = rx.rxbits := rfl
@[simp] theorem shiftWindow_pl (x : Cpx) (rx : RxUnit) : (shiftWindow x rx).pl = rx.pl := rfl
@[simp] theorem shiftWindow_curMod (x : Cpx) (rx : RxUnit) : (shiftWindow x rx).curMod = rx.curMod := rfl
@[simp] theorem shiftWindow_hdrUser (x : Cpx) (rx : RxUnit) : (shiftWindow x rx).hdrUser = rx.hdrUser := rfl
@[simp] theorem shiftWindow_plen (x : Cpx) (rx : RxUnit) : (shiftWindow x rx).plen = rx.plen := rfl
@[simp] theorem shiftWindow_pcheck (x : Cpx) (rx : RxUnit) : (shiftWindow x rx).pcheck = rx.pcheck := rfl
@[simp] theorem shiftWindow_pfec (x : Cpx) (rx : RxUnit) : (shiftWindow x rx).pfec = rx.pfec := rfl
@[simp] theorem shiftWindow_pmod (x : Cpx) (rx : RxUnit) : (shiftWindow x rx).pmod = rx.pmod := rfl
@[simp] theorem shiftWindow_payEncLen (x : Cpx) (rx : RxUnit) : (shiftWindow x rx).payEncLen = rx.payEncLen := rfl
@[simp] theorem shiftWindow_payNmod (x : Cpx) (rx : RxUnit) : (shiftWindow x rx).payNmod = rx.payNmod := rfl
@[simp] theorem shiftWindow_nPay (x : Cpx) (rx : RxUnit) : (shiftWindow x rx).nPay = rx.nPay := rfl
@[simp] theorem shiftWindow_evq (x : Cpx) (rx : RxUnit) : (shiftWindow x rx).evq = rx.evq := rfl

/-! ### The best correlation -/

@[simp] theorem takeBest_state (k : Metric) (rx : RxUnit) : (takeBest k rx).state = rx.state := rfl
@[simp] theorem takeBest_m (k : Metric) (rx : RxUnit) : (takeBest k rx).m = rx.m := rfl
@[simp] theorem takeBest_cpLen (k : Metric) (rx : RxUnit) : (takeBest k rx).cpLen = rx.cpLen := rfl
@[simp] theorem takeBest_taperLen (k : Metric) (rx : RxUnit) : (takeBest k rx).taperLen = rx.taperLen := rfl
@[simp] theorem takeBest_table (k : Metric) (rx : RxUnit) : (takeBest k rx).table = rx.table := rfl
@[simp] theorem takeBest_hdrCheck (k : Metric) (rx : RxUnit) : (takeBest k rx).hdrCheck = rx.hdrCheck := rfl
@[simp] theorem takeBest_hdrFec (k : Metric) (rx : RxUnit) : (takeBest k rx).hdrFec = rx.hdrFec := rfl
@[simp] theorem takeBest_hdrMod (k : Metric) (rx : RxUnit) : (takeBest k rx).hdrMod = rx.hdrMod := rfl
@[simp] theorem takeBest_hUser (k : Metric) (rx : RxUnit) : (takeBest k rx).hUser = rx.hUser := rfl
@[simp] theorem takeBest_maxSyms (k : Metric) (rx : RxUnit) : (takeBest k rx).maxSyms = rx.maxSyms := rfl
@[simp] theorem takeBest_detT2 (k : Metric) (rx : RxUnit) : (takeBest k rx).detT2 = rx.detT2 := rfl
@[simp] theorem takeBest_longT2 (k : Metric) (rx : RxUnit) : (takeBest k rx).longT2 = rx.longT2 := rfl
@[simp] theorem takeBest_alpha (k : Metric) (rx : RxUnit) : (takeBest k rx).alpha = rx.alpha := rfl
@[simp] theorem takeBest_kappa (k : Metric) (rx : RxUnit) : (takeBest k rx).kappa = rx.kappa := rfl
@[simp] theorem takeBest_evmask (k : Metric) (rx : RxUnit) : (takeBest k rx).evmask = rx.evmask := rfl
@[simp] theorem takeBest_derived (k : Metric) (rx : RxUnit) : (takeBest k rx).derived = rx.derived := rfl
@[simp] theorem takeBest_win (k : Metric) (rx : RxUnit) : (takeBest k rx).win = rx.win := rfl
@[simp] theorem takeBest_timer (k : Metric) (rx : RxUnit) : (takeBest k rx).timer = rx.timer := rfl
@[simp] theorem takeBest_age (k : Metric) (rx : RxUnit) : (takeBest k rx).age = 0 := rfl
@[simp] theorem takeBest_cnt (k : Metric) (rx : RxUnit) : (takeBest k rx).cnt = rx.cnt := rfl
@[simp] theorem takeBest_nsym (k : Metric) (rx : RxUnit) : (takeBest k rx).nsym = rx.nsym := rfl
@[simp] theorem takeBest_symIdx (k : Metric) (rx : RxUnit) : (takeBest k rx).symIdx = rx.symIdx := rfl
@[simp] theorem takeBest_bestNum (k : Metric) (rx : RxUnit) : (takeBest k rx).bestNum = k.num := rfl
@[simp] theorem takeBest_bestDen (k : Metric) (rx : RxUnit) : (takeBest k rx).bestDen = k.den := rfl
@[simp] theorem takeBest_bestP (k : Metric) (rx : RxUnit) : (takeBest k rx).bestP = k.p := rfl
@[simp] theorem takeBest_nu (k : Metric) (rx : RxUnit) : (takeBest k rx).nu = rx.nu := rfl
@[simp] theorem takeBest_phi (k : Metric) (rx : RxUnit) : (takeBest k rx).phi = rx.phi := rfl
@[simp] theorem takeBest_tau (k : Metric) (rx : RxUnit) : (takeBest k rx).tau = rx.tau := rfl
@[simp] theorem takeBest_g (k : Metric) (rx : RxUnit) : (takeBest k rx).g = rx.g := rfl
@[simp] theorem takeBest_rxbits (k : Metric) (rx : RxUnit) : (takeBest k rx).rxbits = rx.rxbits := rfl
@[simp] theorem takeBest_pl (k : Metric) (rx : RxUnit) : (takeBest k rx).pl = rx.pl := rfl
@[simp] theorem takeBest_curMod (k : Metric) (rx : RxUnit) : (takeBest k rx).curMod = rx.curMod := rfl
@[simp] theorem takeBest_hdrUser (k : Metric) (rx : RxUnit) : (takeBest k rx).hdrUser = rx.hdrUser := rfl
@[simp] theorem takeBest_plen (k : Metric) (rx : RxUnit) : (takeBest k rx).plen = rx.plen := rfl
@[simp] theorem takeBest_pcheck (k : Metric) (rx : RxUnit) : (takeBest k rx).pcheck = rx.pcheck := rfl
@[simp] theorem takeBest_pfec (k : Metric) (rx : RxUnit) : (takeBest k rx).pfec = rx.pfec := rfl
@[simp] theorem takeBest_pmod (k : Metric) (rx : RxUnit) : (takeBest k rx).pmod = rx.pmod := rfl
@[simp] theorem takeBest_payEncLen (k : Metric) (rx : RxUnit) : (takeBest k rx).payEncLen = rx.payEncLen := rfl
@[simp] theorem takeBest_payNmod (k : Metric) (rx : RxUnit) : (takeBest k rx).payNmod = rx.payNmod := rfl
@[simp] theorem takeBest_nPay (k : Metric) (rx : RxUnit) : (takeBest k rx).nPay = rx.nPay := rfl
@[simp] theorem takeBest_evq (k : Metric) (rx : RxUnit) : (takeBest k rx).evq = rx.evq := rfl

/-! ### The carrier estimate -/

@[simp] theorem beginSyncLong_state (rx : RxUnit) : (beginSyncLong rx).state = .syncLong := rfl
@[simp] theorem beginSyncLong_m (rx : RxUnit) : (beginSyncLong rx).m = rx.m := rfl
@[simp] theorem beginSyncLong_cpLen (rx : RxUnit) : (beginSyncLong rx).cpLen = rx.cpLen := rfl
@[simp] theorem beginSyncLong_taperLen (rx : RxUnit) : (beginSyncLong rx).taperLen = rx.taperLen := rfl
@[simp] theorem beginSyncLong_table (rx : RxUnit) : (beginSyncLong rx).table = rx.table := rfl
@[simp] theorem beginSyncLong_hdrCheck (rx : RxUnit) : (beginSyncLong rx).hdrCheck = rx.hdrCheck := rfl
@[simp] theorem beginSyncLong_hdrFec (rx : RxUnit) : (beginSyncLong rx).hdrFec = rx.hdrFec := rfl
@[simp] theorem beginSyncLong_hdrMod (rx : RxUnit) : (beginSyncLong rx).hdrMod = rx.hdrMod := rfl
@[simp] theorem beginSyncLong_hUser (rx : RxUnit) : (beginSyncLong rx).hUser = rx.hUser := rfl
@[simp] theorem beginSyncLong_maxSyms (rx : RxUnit) : (beginSyncLong rx).maxSyms = rx.maxSyms := rfl
@[simp] theorem beginSyncLong_detT2 (rx : RxUnit) : (beginSyncLong rx).detT2 = rx.detT2 := rfl
@[simp] theorem beginSyncLong_longT2 (rx : RxUnit) : (beginSyncLong rx).longT2 = rx.longT2 := rfl
@[simp] theorem beginSyncLong_alpha (rx : RxUnit) : (beginSyncLong rx).alpha = rx.alpha := rfl
@[simp] theorem beginSyncLong_kappa (rx : RxUnit) : (beginSyncLong rx).kappa = rx.kappa := rfl
@[simp] theorem beginSyncLong_evmask (rx : RxUnit) : (beginSyncLong rx).evmask = rx.evmask := rfl
@[simp] theorem beginSyncLong_derived (rx : RxUnit) : (beginSyncLong rx).derived = rx.derived := rfl
@[simp] theorem beginSyncLong_win (rx : RxUnit) : (beginSyncLong rx).win = rx.win := rfl
@[simp] theorem beginSyncLong_timer (rx : RxUnit) : (beginSyncLong rx).timer = rx.m + rx.cpLen - rx.age := rfl
@[simp] theorem beginSyncLong_age (rx : RxUnit) : (beginSyncLong rx).age = rx.age := rfl
@[simp] theorem beginSyncLong_cnt (rx : RxUnit) : (beginSyncLong rx).cnt = rx.cnt := rfl
@[simp] theorem beginSyncLong_nsym (rx : RxUnit) : (beginSyncLong rx).nsym = 0 := rfl
@[simp] theorem beginSyncLong_symIdx (rx : RxUnit) : (beginSyncLong rx).symIdx = rx.symIdx := rfl
@[simp] theorem beginSyncLong_bestNum (rx : RxUnit) : (beginSyncLong rx).bestNum = rx.bestNum := rfl
@[simp] theorem beginSyncLong_bestDen (rx : RxUnit) : (beginSyncLong rx).bestDen = rx.bestDen := rfl
@[simp] theorem beginSyncLong_bestP (rx : RxUnit) : (beginSyncLong rx).bestP = rx.bestP := rfl
@[simp] theorem beginSyncLong_phi (rx : RxUnit) : (beginSyncLong rx).phi = 0 := rfl
@[simp] theorem beginSyncLong_tau (rx : RxUnit) : (beginSyncLong rx).tau = 0 := rfl
@[simp] theorem beginSyncLong_g (rx : RxUnit) : (beginSyncLong rx).g = rx.g := rfl
@[simp] theorem beginSyncLong_rxbits (rx : RxUnit) : (beginSyncLong rx).rxbits = rx.rxbits := rfl
@[simp] theorem beginSyncLong_pl (rx : RxUnit) : (beginSyncLong rx).pl = rx.pl := rfl
@[simp] theorem beginSyncLong_curMod (rx : RxUnit) : (beginSyncLong rx).curMod = rx.curMod := rfl
@[simp] theorem beginSyncLong_hdrUser (rx : RxUnit) : (beginSyncLong rx).hdrUser = rx.hdrUser := rfl
@[simp] theorem beginSyncLong_plen (rx : RxUnit) : (beginSyncLong rx).plen = rx.plen := rfl
@[simp] theorem beginSyncLong_pcheck (rx : RxUnit) : (beginSyncLong rx).pcheck = rx.pcheck := rfl
@[simp] theorem beginSyncLong_pfec (rx : RxUnit) : (beginSyncLong rx).pfec = rx.pfec := rfl
@[simp] theorem beginSyncLong_pmod (rx : RxUnit) : (beginSyncLong rx).pmod = rx.pmod := rfl
@[simp] theorem beginSyncLong_payEncLen (rx : RxUnit) : (beginSyncLong rx).payEncLen = rx.payEncLen := rfl
@[simp] theorem beginSyncLong_payNmod (rx : RxUnit) : (beginSyncLong rx).payNmod = rx.payNmod := rfl
@[simp] theorem beginSyncLong_nPay (rx : RxUnit) : (beginSyncLong rx).nPay = rx.nPay := rfl
@[simp] theorem beginSyncLong_evq (rx : RxUnit) : (beginSyncLong rx).evq = rx.evq := rfl

/-! ### The header -/

@[simp] theorem beginHeader_state (rx : RxUnit) : (beginHeader rx).state = .rxHeader := rfl
@[simp] theorem beginHeader_m (rx : RxUnit) : (beginHeader rx).m = rx.m := rfl
@[simp] theorem beginHeader_cpLen (rx : RxUnit) : (beginHeader rx).cpLen = rx.cpLen := rfl
@[simp] theorem beginHeader_taperLen (rx : RxUnit) : (beginHeader rx).taperLen = rx.taperLen := rfl
@[simp] theorem beginHeader_table (rx : RxUnit) : (beginHeader rx).table = rx.table := rfl
@[simp] theorem beginHeader_hdrCheck (rx : RxUnit) : (beginHeader rx).hdrCheck = rx.hdrCheck := rfl
@[simp] theorem beginHeader_hdrFec (rx : RxUnit) : (beginHeader rx).hdrFec = rx.hdrFec := rfl
@[simp] theorem beginHeader_hdrMod (rx : RxUnit) : (beginHeader rx).hdrMod = rx.hdrMod := rfl
@[simp] theorem beginHeader_hUser (rx : RxUnit) : (beginHeader rx).hUser = rx.hUser := rfl
@[simp] theorem beginHeader_maxSyms (rx : RxUnit) : (beginHeader rx).maxSyms = rx.maxSyms := rfl
@[simp] theorem beginHeader_detT2 (rx : RxUnit) : (beginHeader rx).detT2 = rx.detT2 := rfl
@[simp] theorem beginHeader_longT2 (rx : RxUnit) : (beginHeader rx).longT2 = rx.longT2 := rfl
@[simp] theorem beginHeader_alpha (rx : RxUnit) : (beginHeader rx).alpha = rx.alpha := rfl
@[simp] theorem beginHeader_kappa (rx : RxUnit) : (beginHeader rx).kappa = rx.kappa := rfl
@[simp] theorem beginHeader_evmask (rx : RxUnit) : (beginHeader rx).evmask = rx.evmask := rfl
@[simp] theorem beginHeader_derived (rx : RxUnit) : (beginHeader rx).derived = rx.derived := rfl
@[simp] theorem beginHeader_win (rx : RxUnit) : (beginHeader rx).win = rx.win := rfl
@[simp] theorem beginHeader_timer (rx : RxUnit) : (beginHeader rx).timer = rx.m + rx.cpLen := rfl
@[simp] theorem beginHeader_age (rx : RxUnit) : (beginHeader rx).age = rx.age := rfl
@[simp] theorem beginHeader_cnt (rx : RxUnit) : (beginHeader rx).cnt = rx.cnt := rfl
@[simp] theorem beginHeader_nsym (rx : RxUnit) : (beginHeader rx).nsym = 0 := rfl
@[simp] theorem beginHeader_symIdx (rx : RxUnit) : (beginHeader rx).symIdx = 0 := rfl
@[simp] theorem beginHeader_bestNum (rx : RxUnit) : (beginHeader rx).bestNum = rx.bestNum := rfl
@[simp] theorem beginHeader_bestDen (rx : RxUnit) : (beginHeader rx).bestDen = rx.bestDen := rfl
@[simp] theorem beginHeader_bestP (rx : RxUnit) : (beginHeader rx).bestP = rx.bestP := rfl
@[simp] theorem beginHeader_nu (rx : RxUnit) : (beginHeader rx).nu = rx.nu := rfl
@[simp] theorem beginHeader_phi (rx : RxUnit) : (beginHeader rx).phi = rx.phi := rfl
@[simp] theorem beginHeader_tau (rx : RxUnit) : (beginHeader rx).tau = rx.tau := rfl
@[simp] theorem beginHeader_g (rx : RxUnit) : (beginHeader rx).g = rx.g := rfl
@[simp] theorem beginHeader_rxbits (rx : RxUnit) : (beginHeader rx).rxbits = [] := rfl
@[simp] theorem beginHeader_pl (rx : RxUnit) : (beginHeader rx).pl = Config.seedPilot := rfl
@[simp] theorem beginHeader_curMod (rx : RxUnit) : (beginHeader rx).curMod = rx.hdrMod := rfl
@[simp] theorem beginHeader_hdrUser (rx : RxUnit) : (beginHeader rx).hdrUser = rx.hdrUser := rfl
@[simp] theorem beginHeader_plen (rx : RxUnit) : (beginHeader rx).plen = rx.plen := rfl
@[simp] theorem beginHeader_pcheck (rx : RxUnit) : (beginHeader rx).pcheck = rx.pcheck := rfl
@[simp] theorem beginHeader_pfec (rx : RxUnit) : (beginHeader rx).pfec = rx.pfec := rfl
@[simp] theorem beginHeader_pmod (rx : RxUnit) : (beginHeader rx).pmod = rx.pmod := rfl
@[simp] theorem beginHeader_payEncLen (rx : RxUnit) : (beginHeader rx).payEncLen = rx.payEncLen := rfl
@[simp] theorem beginHeader_payNmod (rx : RxUnit) : (beginHeader rx).payNmod = rx.payNmod := rfl
@[simp] theorem beginHeader_nPay (rx : RxUnit) : (beginHeader rx).nPay = rx.nPay := rfl
@[simp] theorem beginHeader_evq (rx : RxUnit) : (beginHeader rx).evq = rx.evq := rfl

/-! ### The parsed fields -/

@[simp] theorem storeHeader_state (h : HeaderFields) (rx : RxUnit) : (storeHeader h rx).state = rx.state := rfl
@[simp] theorem storeHeader_m (h : HeaderFields) (rx : RxUnit) : (storeHeader h rx).m = rx.m := rfl
@[simp] theorem storeHeader_cpLen (h : HeaderFields) (rx : RxUnit) : (storeHeader h rx).cpLen = rx.cpLen := rfl
@[simp] theorem storeHeader_taperLen (h : HeaderFields) (rx : RxUnit) : (storeHeader h rx).taperLen = rx.taperLen := rfl
@[simp] theorem storeHeader_table (h : HeaderFields) (rx : RxUnit) : (storeHeader h rx).table = rx.table := rfl
@[simp] theorem storeHeader_hdrCheck (h : HeaderFields) (rx : RxUnit) : (storeHeader h rx).hdrCheck = rx.hdrCheck := rfl
@[simp] theorem storeHeader_hdrFec (h : HeaderFields) (rx : RxUnit) : (storeHeader h rx).hdrFec = rx.hdrFec := rfl
@[simp] theorem storeHeader_hdrMod (h : HeaderFields) (rx : RxUnit) : (storeHeader h rx).hdrMod = rx.hdrMod := rfl
@[simp] theorem storeHeader_hUser (h : HeaderFields) (rx : RxUnit) : (storeHeader h rx).hUser = rx.hUser := rfl
@[simp] theorem storeHeader_maxSyms (h : HeaderFields) (rx : RxUnit) : (storeHeader h rx).maxSyms = rx.maxSyms := rfl
@[simp] theorem storeHeader_detT2 (h : HeaderFields) (rx : RxUnit) : (storeHeader h rx).detT2 = rx.detT2 := rfl
@[simp] theorem storeHeader_longT2 (h : HeaderFields) (rx : RxUnit) : (storeHeader h rx).longT2 = rx.longT2 := rfl
@[simp] theorem storeHeader_alpha (h : HeaderFields) (rx : RxUnit) : (storeHeader h rx).alpha = rx.alpha := rfl
@[simp] theorem storeHeader_kappa (h : HeaderFields) (rx : RxUnit) : (storeHeader h rx).kappa = rx.kappa := rfl
@[simp] theorem storeHeader_evmask (h : HeaderFields) (rx : RxUnit) : (storeHeader h rx).evmask = rx.evmask := rfl
@[simp] theorem storeHeader_derived (h : HeaderFields) (rx : RxUnit) : (storeHeader h rx).derived = rx.derived := rfl
@[simp] theorem storeHeader_win (h : HeaderFields) (rx : RxUnit) : (storeHeader h rx).win = rx.win := rfl
@[simp] theorem storeHeader_timer (h : HeaderFields) (rx : RxUnit) : (storeHeader h rx).timer = rx.timer := rfl
@[simp] theorem storeHeader_age (h : HeaderFields) (rx : RxUnit) : (storeHeader h rx).age = rx.age := rfl
@[simp] theorem storeHeader_cnt (h : HeaderFields) (rx : RxUnit) : (storeHeader h rx).cnt = rx.cnt := rfl
@[simp] theorem storeHeader_nsym (h : HeaderFields) (rx : RxUnit) : (storeHeader h rx).nsym = rx.nsym := rfl
@[simp] theorem storeHeader_symIdx (h : HeaderFields) (rx : RxUnit) : (storeHeader h rx).symIdx = rx.symIdx := rfl
@[simp] theorem storeHeader_bestNum (h : HeaderFields) (rx : RxUnit) : (storeHeader h rx).bestNum = rx.bestNum := rfl
@[simp] theorem storeHeader_bestDen (h : HeaderFields) (rx : RxUnit) : (storeHeader h rx).bestDen = rx.bestDen := rfl
@[simp] theorem storeHeader_bestP (h : HeaderFields) (rx : RxUnit) : (storeHeader h rx).bestP = rx.bestP := rfl
@[simp] theorem storeHeader_nu (h : HeaderFields) (rx : RxUnit) : (storeHeader h rx).nu = rx.nu := rfl
@[simp] theorem storeHeader_phi (h : HeaderFields) (rx : RxUnit) : (storeHeader h rx).phi = rx.phi := rfl
@[simp] theorem storeHeader_tau (h : HeaderFields) (rx : RxUnit) : (storeHeader h rx).tau = rx.tau := rfl
@[simp] theorem storeHeader_g (h : HeaderFields) (rx : RxUnit) : (storeHeader h rx).g = rx.g := rfl
@[simp] theorem storeHeader_rxbits (h : HeaderFields) (rx : RxUnit) : (storeHeader h rx).rxbits = rx.rxbits := rfl
@[simp] theorem storeHeader_pl (h : HeaderFields) (rx : RxUnit) : (storeHeader h rx).pl = rx.pl := rfl
@[simp] theorem storeHeader_curMod (h : HeaderFields) (rx : RxUnit) : (storeHeader h rx).curMod = rx.curMod := rfl
@[simp] theorem storeHeader_hdrUser (h : HeaderFields) (rx : RxUnit) : (storeHeader h rx).hdrUser = h.user := rfl
@[simp] theorem storeHeader_plen (h : HeaderFields) (rx : RxUnit) : (storeHeader h rx).plen = h.plen := rfl
@[simp] theorem storeHeader_pcheck (h : HeaderFields) (rx : RxUnit) : (storeHeader h rx).pcheck = h.pcheck := rfl
@[simp] theorem storeHeader_pfec (h : HeaderFields) (rx : RxUnit) : (storeHeader h rx).pfec = h.pfec := rfl
@[simp] theorem storeHeader_pmod (h : HeaderFields) (rx : RxUnit) : (storeHeader h rx).pmod = h.pmod := rfl
@[simp] theorem storeHeader_payEncLen (h : HeaderFields) (rx : RxUnit) : (storeHeader h rx).payEncLen = rx.payEncLen := rfl
@[simp] theorem storeHeader_payNmod (h : HeaderFields) (rx : RxUnit) : (storeHeader h rx).payNmod = rx.payNmod := rfl
@[simp] theorem storeHeader_nPay (h : HeaderFields) (rx : RxUnit) : (storeHeader h rx).nPay = rx.nPay := rfl
@[simp] theorem storeHeader_evq (h : HeaderFields) (rx : RxUnit) : (storeHeader h rx).evq = rx.evq := rfl

/-! ### The payload -/

@[simp] theorem enterPayload_state (h : HeaderFields) (rx : RxUnit) : (enterPayload h rx).state = .rxPayload := rfl
@[simp] theorem enterPayload_m (h : HeaderFields) (rx : RxUnit) : (enterPayload h rx).m = rx.m := rfl
@[simp] theorem enterPayload_cpLen (h : HeaderFields) (rx : RxUnit) : (enterPayload h rx).cpLen = rx.cpLen := rfl
@[simp] theorem enterPayload_taperLen (h : HeaderFields) (rx : RxUnit) : (enterPayload h rx).taperLen = rx.taperLen := rfl
@[simp] theorem enterPayload_table (h : HeaderFields) (rx : RxUnit) : (enterPayload h rx).table = rx.table := rfl
@[simp] theorem enterPayload_hdrCheck (h : HeaderFields) (rx : RxUnit) : (enterPayload h rx).hdrCheck = rx.hdrCheck := rfl
@[simp] theorem enterPayload_hdrFec (h : HeaderFields) (rx : RxUnit) : (enterPayload h rx).hdrFec = rx.hdrFec := rfl
@[simp] theorem enterPayload_hdrMod (h : HeaderFields) (rx : RxUnit) : (enterPayload h rx).hdrMod = rx.hdrMod := rfl
@[simp] theorem enterPayload_hUser (h : HeaderFields) (rx : RxUnit) : (enterPayload h rx).hUser = rx.hUser := rfl
@[simp] theorem enterPayload_maxSyms (h : HeaderFields) (rx : RxUnit) : (enterPayload h rx).maxSyms = rx.maxSyms := rfl
@[simp] theorem enterPayload_detT2 (h : HeaderFields) (rx : RxUnit) : (enterPayload h rx).detT2 = rx.detT2 := rfl
@[simp] theorem enterPayload_longT2 (h : HeaderFields) (rx : RxUnit) : (enterPayload h rx).longT2 = rx.longT2 := rfl
@[simp] theorem enterPayload_alpha (h : HeaderFields) (rx : RxUnit) : (enterPayload h rx).alpha = rx.alpha := rfl
@[simp] theorem enterPayload_kappa (h : HeaderFields) (rx : RxUnit) : (enterPayload h rx).kappa = rx.kappa := rfl
@[simp] theorem enterPayload_evmask (h : HeaderFields) (rx : RxUnit) : (enterPayload h rx).evmask = rx.evmask := rfl
@[simp] theorem enterPayload_derived (h : HeaderFields) (rx : RxUnit) : (enterPayload h rx).derived = rx.derived := rfl
@[simp] theorem enterPayload_win (h : HeaderFields) (rx : RxUnit) : (enterPayload h rx).win = rx.win := rfl
@[simp] theorem enterPayload_timer (h : HeaderFields) (rx : RxUnit) : (enterPayload h rx).timer = rx.timer := rfl
@[simp] theorem enterPayload_age (h : HeaderFields) (rx : RxUnit) : (enterPayload h rx).age = rx.age := rfl
@[simp] theorem enterPayload_cnt (h : HeaderFields) (rx : RxUnit) : (enterPayload h rx).cnt = rx.cnt := rfl
@[simp] theorem enterPayload_nsym (h : HeaderFields) (rx : RxUnit) : (enterPayload h rx).nsym = 0 := rfl
@[simp] theorem enterPayload_symIdx (h : HeaderFields) (rx : RxUnit) : (enterPayload h rx).symIdx = 0 := rfl
@[simp] theorem enterPayload_bestNum (h : HeaderFields) (rx : RxUnit) : (enterPayload h rx).bestNum = rx.bestNum := rfl
@[simp] theorem enterPayload_bestDen (h : HeaderFields) (rx : RxUnit) : (enterPayload h rx).bestDen = rx.bestDen := rfl
@[simp] theorem enterPayload_bestP (h : HeaderFields) (rx : RxUnit) : (enterPayload h rx).bestP = rx.bestP := rfl
@[simp] theorem enterPayload_nu (h : HeaderFields) (rx : RxUnit) : (enterPayload h rx).nu = rx.nu := rfl
@[simp] theorem enterPayload_phi (h : HeaderFields) (rx : RxUnit) : (enterPayload h rx).phi = rx.phi := rfl
@[simp] theorem enterPayload_tau (h : HeaderFields) (rx : RxUnit) : (enterPayload h rx).tau = rx.tau := rfl
@[simp] theorem enterPayload_g (h : HeaderFields) (rx : RxUnit) : (enterPayload h rx).g = rx.g := rfl
@[simp] theorem enterPayload_rxbits (h : HeaderFields) (rx : RxUnit) : (enterPayload h rx).rxbits = [] := rfl
@[simp] theorem enterPayload_pl (h : HeaderFields) (rx : RxUnit) : (enterPayload h rx).pl = rx.pl := rfl
@[simp] theorem enterPayload_curMod (h : HeaderFields) (rx : RxUnit) : (enterPayload h rx).curMod = h.pmod := rfl
@[simp] theorem enterPayload_hdrUser (h : HeaderFields) (rx : RxUnit) : (enterPayload h rx).hdrUser = rx.hdrUser := rfl
@[simp] theorem enterPayload_plen (h : HeaderFields) (rx : RxUnit) : (enterPayload h rx).plen = rx.plen := rfl
@[simp] theorem enterPayload_pcheck (h : HeaderFields) (rx : RxUnit) : (enterPayload h rx).pcheck = rx.pcheck := rfl
@[simp] theorem enterPayload_pfec (h : HeaderFields) (rx : RxUnit) : (enterPayload h rx).pfec = rx.pfec := rfl
@[simp] theorem enterPayload_pmod (h : HeaderFields) (rx : RxUnit) : (enterPayload h rx).pmod = rx.pmod := rfl
@[simp] theorem enterPayload_evq (h : HeaderFields) (rx : RxUnit) : (enterPayload h rx).evq = rx.evq := rfl

/-! ### The tracker -/

@[simp] theorem track_state (z : List Cpx) (rx : RxUnit) : (track z rx).state = rx.state := rfl
@[simp] theorem track_m (z : List Cpx) (rx : RxUnit) : (track z rx).m = rx.m := rfl
@[simp] theorem track_cpLen (z : List Cpx) (rx : RxUnit) : (track z rx).cpLen = rx.cpLen := rfl
@[simp] theorem track_taperLen (z : List Cpx) (rx : RxUnit) : (track z rx).taperLen = rx.taperLen := rfl
@[simp] theorem track_table (z : List Cpx) (rx : RxUnit) : (track z rx).table = rx.table := rfl
@[simp] theorem track_hdrCheck (z : List Cpx) (rx : RxUnit) : (track z rx).hdrCheck = rx.hdrCheck := rfl
@[simp] theorem track_hdrFec (z : List Cpx) (rx : RxUnit) : (track z rx).hdrFec = rx.hdrFec := rfl
@[simp] theorem track_hdrMod (z : List Cpx) (rx : RxUnit) : (track z rx).hdrMod = rx.hdrMod := rfl
@[simp] theorem track_hUser (z : List Cpx) (rx : RxUnit) : (track z rx).hUser = rx.hUser := rfl
@[simp] theorem track_maxSyms (z : List Cpx) (rx : RxUnit) : (track z rx).maxSyms = rx.maxSyms := rfl
@[simp] theorem track_detT2 (z : List Cpx) (rx : RxUnit) : (track z rx).detT2 = rx.detT2 := rfl
@[simp] theorem track_longT2 (z : List Cpx) (rx : RxUnit) : (track z rx).longT2 = rx.longT2 := rfl
@[simp] theorem track_alpha (z : List Cpx) (rx : RxUnit) : (track z rx).alpha = rx.alpha := rfl
@[simp] theorem track_kappa (z : List Cpx) (rx : RxUnit) : (track z rx).kappa = rx.kappa := rfl
@[simp] theorem track_evmask (z : List Cpx) (rx : RxUnit) : (track z rx).evmask = rx.evmask := rfl
@[simp] theorem track_derived (z : List Cpx) (rx : RxUnit) : (track z rx).derived = rx.derived := rfl
@[simp] theorem track_win (z : List Cpx) (rx : RxUnit) : (track z rx).win = rx.win := rfl
@[simp] theorem track_timer (z : List Cpx) (rx : RxUnit) : (track z rx).timer = rx.timer := rfl
@[simp] theorem track_age (z : List Cpx) (rx : RxUnit) : (track z rx).age = rx.age := rfl
@[simp] theorem track_cnt (z : List Cpx) (rx : RxUnit) : (track z rx).cnt = rx.cnt := rfl
@[simp] theorem track_nsym (z : List Cpx) (rx : RxUnit) : (track z rx).nsym = rx.nsym := rfl
@[simp] theorem track_symIdx (z : List Cpx) (rx : RxUnit) : (track z rx).symIdx = rx.symIdx := rfl
@[simp] theorem track_bestNum (z : List Cpx) (rx : RxUnit) : (track z rx).bestNum = rx.bestNum := rfl
@[simp] theorem track_bestDen (z : List Cpx) (rx : RxUnit) : (track z rx).bestDen = rx.bestDen := rfl
@[simp] theorem track_bestP (z : List Cpx) (rx : RxUnit) : (track z rx).bestP = rx.bestP := rfl
@[simp] theorem track_phi (z : List Cpx) (rx : RxUnit) : (track z rx).phi = rx.phi := rfl
@[simp] theorem track_rxbits (z : List Cpx) (rx : RxUnit) : (track z rx).rxbits = rx.rxbits := rfl
@[simp] theorem track_curMod (z : List Cpx) (rx : RxUnit) : (track z rx).curMod = rx.curMod := rfl
@[simp] theorem track_hdrUser (z : List Cpx) (rx : RxUnit) : (track z rx).hdrUser = rx.hdrUser := rfl
@[simp] theorem track_plen (z : List Cpx) (rx : RxUnit) : (track z rx).plen = rx.plen := rfl
@[simp] theorem track_pcheck (z : List Cpx) (rx : RxUnit) : (track z rx).pcheck = rx.pcheck := rfl
@[simp] theorem track_pfec (z : List Cpx) (rx : RxUnit) : (track z rx).pfec = rx.pfec := rfl
@[simp] theorem track_pmod (z : List Cpx) (rx : RxUnit) : (track z rx).pmod = rx.pmod := rfl
@[simp] theorem track_payEncLen (z : List Cpx) (rx : RxUnit) : (track z rx).payEncLen = rx.payEncLen := rfl
@[simp] theorem track_payNmod (z : List Cpx) (rx : RxUnit) : (track z rx).payNmod = rx.payNmod := rfl
@[simp] theorem track_nPay (z : List Cpx) (rx : RxUnit) : (track z rx).nPay = rx.nPay := rfl
@[simp] theorem track_evq (z : List Cpx) (rx : RxUnit) : (track z rx).evq = rx.evq := rfl

/-! ### One received symbol -/

@[simp] theorem receiveSymbol_state (rx : RxUnit) : (receiveSymbol rx).state = rx.state := rfl
@[simp] theorem receiveSymbol_m (rx : RxUnit) : (receiveSymbol rx).m = rx.m := rfl
@[simp] theorem receiveSymbol_cpLen (rx : RxUnit) : (receiveSymbol rx).cpLen = rx.cpLen := rfl
@[simp] theorem receiveSymbol_taperLen (rx : RxUnit) : (receiveSymbol rx).taperLen = rx.taperLen := rfl
@[simp] theorem receiveSymbol_table (rx : RxUnit) : (receiveSymbol rx).table = rx.table := rfl
@[simp] theorem receiveSymbol_hdrCheck (rx : RxUnit) : (receiveSymbol rx).hdrCheck = rx.hdrCheck := rfl
@[simp] theorem receiveSymbol_hdrFec (rx : RxUnit) : (receiveSymbol rx).hdrFec = rx.hdrFec := rfl
@[simp] theorem receiveSymbol_hdrMod (rx : RxUnit) : (receiveSymbol rx).hdrMod = rx.hdrMod := rfl
@[simp] theorem receiveSymbol_hUser (rx : RxUnit) : (receiveSymbol rx).hUser = rx.hUser := rfl
@[simp] theorem receiveSymbol_maxSyms (rx : RxUnit) : (receiveSymbol rx).maxSyms = rx.maxSyms := rfl
@[simp] theorem receiveSymbol_detT2 (rx : RxUnit) : (receiveSymbol rx).detT2 = rx.detT2 := rfl
@[simp] theorem receiveSymbol_longT2 (rx : RxUnit) : (receiveSymbol rx).longT2 = rx.longT2 := rfl
@[simp] theorem receiveSymbol_alpha (rx : RxUnit) : (receiveSymbol rx).alpha = rx.alpha := rfl
@[simp] theorem receiveSymbol_kappa (rx : RxUnit) : (receiveSymbol rx).kappa = rx.kappa := rfl
@[simp] theorem receiveSymbol_evmask (rx : RxUnit) : (receiveSymbol rx).evmask = rx.evmask := rfl
@[simp] theorem receiveSymbol_derived (rx : RxUnit) : (receiveSymbol rx).derived = rx.derived := rfl
@[simp] theorem receiveSymbol_win (rx : RxUnit) : (receiveSymbol rx).win = rx.win := rfl
@[simp] theorem receiveSymbol_timer (rx : RxUnit) : (receiveSymbol rx).timer = rx.m + rx.cpLen := rfl
@[simp] theorem receiveSymbol_age (rx : RxUnit) : (receiveSymbol rx).age = rx.age := rfl
@[simp] theorem receiveSymbol_cnt (rx : RxUnit) : (receiveSymbol rx).cnt = rx.cnt := rfl
@[simp] theorem receiveSymbol_nsym (rx : RxUnit) : (receiveSymbol rx).nsym = rx.nsym + 1 := rfl
@[simp] theorem receiveSymbol_symIdx (rx : RxUnit) : (receiveSymbol rx).symIdx = rx.symIdx + 1 := rfl
@[simp] theorem receiveSymbol_bestNum (rx : RxUnit) : (receiveSymbol rx).bestNum = rx.bestNum := rfl
@[simp] theorem receiveSymbol_bestDen (rx : RxUnit) : (receiveSymbol rx).bestDen = rx.bestDen := rfl
@[simp] theorem receiveSymbol_bestP (rx : RxUnit) : (receiveSymbol rx).bestP = rx.bestP := rfl
@[simp] theorem receiveSymbol_curMod (rx : RxUnit) : (receiveSymbol rx).curMod = rx.curMod := rfl
@[simp] theorem receiveSymbol_hdrUser (rx : RxUnit) : (receiveSymbol rx).hdrUser = rx.hdrUser := rfl
@[simp] theorem receiveSymbol_plen (rx : RxUnit) : (receiveSymbol rx).plen = rx.plen := rfl
@[simp] theorem receiveSymbol_pcheck (rx : RxUnit) : (receiveSymbol rx).pcheck = rx.pcheck := rfl
@[simp] theorem receiveSymbol_pfec (rx : RxUnit) : (receiveSymbol rx).pfec = rx.pfec := rfl
@[simp] theorem receiveSymbol_pmod (rx : RxUnit) : (receiveSymbol rx).pmod = rx.pmod := rfl
@[simp] theorem receiveSymbol_payEncLen (rx : RxUnit) : (receiveSymbol rx).payEncLen = rx.payEncLen := rfl
@[simp] theorem receiveSymbol_payNmod (rx : RxUnit) : (receiveSymbol rx).payNmod = rx.payNmod := rfl
@[simp] theorem receiveSymbol_nPay (rx : RxUnit) : (receiveSymbol rx).nPay = rx.nPay := rfl
@[simp] theorem receiveSymbol_evq (rx : RxUnit) : (receiveSymbol rx).evq = rx.evq := rfl

/-! ### The assembler -/

@[simp] theorem asmTime_state (tx : TxUnit) (v : List Cpx) : ((asmTime tx v).2).state = tx.state := rfl
@[simp] theorem asmTime_m (tx : TxUnit) (v : List Cpx) : ((asmTime tx v).2).m = tx.m := rfl
@[simp] theorem asmTime_cpLen (tx : TxUnit) (v : List Cpx) : ((asmTime tx v).2).cpLen = tx.cpLen := rfl
@[simp] theorem asmTime_taperLen (tx : TxUnit) (v : List Cpx) : ((asmTime tx v).2).taperLen = tx.taperLen := rfl
@[simp] theorem asmTime_table (tx : TxUnit) (v : List Cpx) : ((asmTime tx v).2).table = tx.table := rfl
@[simp] theorem asmTime_check (tx : TxUnit) (v : List Cpx) : ((asmTime tx v).2).check = tx.check := rfl
@[simp] theorem asmTime_fec0 (tx : TxUnit) (v : List Cpx) : ((asmTime tx v).2).fec0 = tx.fec0 := rfl
@[simp] theorem asmTime_fec1 (tx : TxUnit) (v : List Cpx) : ((asmTime tx v).2).fec1 = tx.fec1 := rfl
@[simp] theorem asmTime_mod (tx : TxUnit) (v : List Cpx) : ((asmTime tx v).2).mod = tx.mod := rfl
@[simp] theorem asmTime_hdrMod (tx : TxUnit) (v : List Cpx) : ((asmTime tx v).2).hdrMod = tx.hdrMod := rfl
@[simp] theorem asmTime_hUser (tx : TxUnit) (v : List Cpx) : ((asmTime tx v).2).hUser = tx.hUser := rfl
@[simp] theorem asmTime_maxPaySyms (tx : TxUnit) (v : List Cpx) : ((asmTime tx v).2).maxPaySyms = tx.maxPaySyms := rfl
@[simp] theorem asmTime_derived (tx : TxUnit) (v : List Cpx) : ((asmTime tx v).2).derived = tx.derived := rfl
@[simp] theorem asmTime_fd (tx : TxUnit) (v : List Cpx) : ((asmTime tx v).2).fd = tx.fd := rfl
@[simp] theorem asmTime_cursor (tx : TxUnit) (v : List Cpx) : ((asmTime tx v).2).cursor = tx.cursor := rfl
@[simp] theorem asmTime_nHdr (tx : TxUnit) (v : List Cpx) : ((asmTime tx v).2).nHdr = tx.nHdr := rfl
@[simp] theorem asmTime_nPay (tx : TxUnit) (v : List Cpx) : ((asmTime tx v).2).nPay = tx.nPay := rfl
@[simp] theorem asmTime_nTot (tx : TxUnit) (v : List Cpx) : ((asmTime tx v).2).nTot = tx.nTot := rfl

/-! ### One written symbol -/

@[simp] theorem txWriteSymbol_m (tx : TxUnit) : ((txWriteSymbol tx).2).m = tx.m := rfl
@[simp] theorem txWriteSymbol_cpLen (tx : TxUnit) : ((txWriteSymbol tx).2).cpLen = tx.cpLen := rfl
@[simp] theorem txWriteSymbol_taperLen (tx : TxUnit) : ((txWriteSymbol tx).2).taperLen = tx.taperLen := rfl
@[simp] theorem txWriteSymbol_table (tx : TxUnit) : ((txWriteSymbol tx).2).table = tx.table := rfl
@[simp] theorem txWriteSymbol_check (tx : TxUnit) : ((txWriteSymbol tx).2).check = tx.check := rfl
@[simp] theorem txWriteSymbol_fec0 (tx : TxUnit) : ((txWriteSymbol tx).2).fec0 = tx.fec0 := rfl
@[simp] theorem txWriteSymbol_fec1 (tx : TxUnit) : ((txWriteSymbol tx).2).fec1 = tx.fec1 := rfl
@[simp] theorem txWriteSymbol_mod (tx : TxUnit) : ((txWriteSymbol tx).2).mod = tx.mod := rfl
@[simp] theorem txWriteSymbol_hdrMod (tx : TxUnit) : ((txWriteSymbol tx).2).hdrMod = tx.hdrMod := rfl
@[simp] theorem txWriteSymbol_hUser (tx : TxUnit) : ((txWriteSymbol tx).2).hUser = tx.hUser := rfl
@[simp] theorem txWriteSymbol_maxPaySyms (tx : TxUnit) : ((txWriteSymbol tx).2).maxPaySyms = tx.maxPaySyms := rfl
@[simp] theorem txWriteSymbol_derived (tx : TxUnit) : ((txWriteSymbol tx).2).derived = tx.derived := rfl
@[simp] theorem txWriteSymbol_fd (tx : TxUnit) : ((txWriteSymbol tx).2).fd = tx.fd := rfl
@[simp] theorem txWriteSymbol_cursor (tx : TxUnit) : ((txWriteSymbol tx).2).cursor = tx.cursor + 1 := rfl
@[simp] theorem txWriteSymbol_nHdr (tx : TxUnit) : ((txWriteSymbol tx).2).nHdr = tx.nHdr := rfl
@[simp] theorem txWriteSymbol_nPay (tx : TxUnit) : ((txWriteSymbol tx).2).nPay = tx.nPay := rfl
@[simp] theorem txWriteSymbol_nTot (tx : TxUnit) : ((txWriteSymbol tx).2).nTot = tx.nTot := rfl

/-! ### A new frame -/

@[simp] theorem txAssemble_state (tx : TxUnit) (user payload : List Byte) : (txAssemble tx user payload).state = .assembled := rfl
@[simp] theorem txAssemble_m (tx : TxUnit) (user payload : List Byte) : (txAssemble tx user payload).m = tx.m := rfl
@[simp] theorem txAssemble_cpLen (tx : TxUnit) (user payload : List Byte) : (txAssemble tx user payload).cpLen = tx.cpLen := rfl
@[simp] theorem txAssemble_taperLen (tx : TxUnit) (user payload : List Byte) : (txAssemble tx user payload).taperLen = tx.taperLen := rfl
@[simp] theorem txAssemble_table (tx : TxUnit) (user payload : List Byte) : (txAssemble tx user payload).table = tx.table := rfl
@[simp] theorem txAssemble_check (tx : TxUnit) (user payload : List Byte) : (txAssemble tx user payload).check = tx.check := rfl
@[simp] theorem txAssemble_fec0 (tx : TxUnit) (user payload : List Byte) : (txAssemble tx user payload).fec0 = tx.fec0 := rfl
@[simp] theorem txAssemble_fec1 (tx : TxUnit) (user payload : List Byte) : (txAssemble tx user payload).fec1 = tx.fec1 := rfl
@[simp] theorem txAssemble_mod (tx : TxUnit) (user payload : List Byte) : (txAssemble tx user payload).mod = tx.mod := rfl
@[simp] theorem txAssemble_hdrMod (tx : TxUnit) (user payload : List Byte) : (txAssemble tx user payload).hdrMod = tx.hdrMod := rfl
@[simp] theorem txAssemble_hUser (tx : TxUnit) (user payload : List Byte) : (txAssemble tx user payload).hUser = tx.hUser := rfl
@[simp] theorem txAssemble_maxPaySyms (tx : TxUnit) (user payload : List Byte) : (txAssemble tx user payload).maxPaySyms = tx.maxPaySyms := rfl
@[simp] theorem txAssemble_derived (tx : TxUnit) (user payload : List Byte) : (txAssemble tx user payload).derived = tx.derived := rfl
@[simp] theorem txAssemble_fd (tx : TxUnit) (user payload : List Byte) : (txAssemble tx user payload).fd = frameVectors tx user payload := rfl
@[simp] theorem txAssemble_cursor (tx : TxUnit) (user payload : List Byte) : (txAssemble tx user payload).cursor = 0 := rfl
@[simp] theorem txAssemble_nHdr (tx : TxUnit) (user payload : List Byte) : (txAssemble tx user payload).nHdr = (txHdrCounts tx).nsym := rfl
@[simp] theorem txAssemble_nPay (tx : TxUnit) (user payload : List Byte) : (txAssemble tx user payload).nPay = (txPayCounts tx payload.length).nsym := rfl
@[simp] theorem txAssemble_ovl (tx : TxUnit) (user payload : List Byte) : (txAssemble tx user payload).ovl = zeros tx.taperLen := rfl

end Sys2Proof.Machine
end

