-- ==== Sys2Proof/Laws/Transform.lean ====
section
/-! SUPPORT. The laws of the transform engine (Machine/Transform.lean). Exactly: what `solve` answers, and that the two transforms are
inverse to each other at every length (00_scope.md R10). Within the digits the phases leave out (log 2), at every length of a legal
unit: the sums of R17 over the real numbers, and the rotation law of 41_symbol_assembler.md R149 (e). -/

namespace Sys2Proof

/-! ### Complex pairs as complex numbers -/

theorem Cpx.toComplex_injective : Function.Injective Cpx.toComplex := by
  intro a b h
  have hr := congrArg Complex.re h
  have hi := congrArg Complex.im h
  simp only [Cpx.toComplex, Rat.cast_inj] at hr hi
  cases a; cases b; simp_all

@[simp] theorem Cpx.toComplex_zero : Cpx.zero.toComplex = 0 := by apply Complex.ext <;> simp [Cpx.toComplex, Cpx.zero]

@[simp] theorem Cpx.toComplex_add (a b : Cpx) : (a.add b).toComplex = a.toComplex + b.toComplex := by
  apply Complex.ext <;> simp [Cpx.toComplex, Cpx.add]

@[simp] theorem Cpx.toComplex_sub (a b : Cpx) : (a.sub b).toComplex = a.toComplex - b.toComplex := by
  apply Complex.ext <;> simp [Cpx.toComplex, Cpx.sub]

@[simp] theorem Cpx.toComplex_mul (a b : Cpx) : (a.mul b).toComplex = a.toComplex * b.toComplex := by
  apply Complex.ext <;> simp [Cpx.toComplex, Cpx.mul]

@[simp] theorem Cpx.toComplex_scale (r : Num) (a : Cpx) : (Cpx.scale r a).toComplex = (r : ℂ) * a.toComplex := by
  apply Complex.ext <;> simp [Cpx.toComplex, Cpx.scale]

@[simp] theorem Cpx.toComplex_conj (a : Cpx) : a.conj.toComplex = (starRingEnd ℂ) a.toComplex := by
  apply Complex.ext <;> simp [Cpx.toComplex, Cpx.conj]

theorem Cpx.toComplex_normSq (a : Cpx) : ((a.normSq : Num) : ℝ) = Complex.normSq a.toComplex := by
  simp [Cpx.toComplex, Cpx.normSq, Complex.normSq]

@[simp] theorem Cpx.toComplex_div (a b : Cpx) : (a.div b).toComplex = a.toComplex / b.toComplex := by
  have h : ((b.normSq : Num) : ℂ) = ((Complex.normSq b.toComplex : ℝ) : ℂ) := by
    rw [← Cpx.toComplex_normSq]; simp
  simp only [Cpx.div, Cpx.toComplex_scale, Cpx.toComplex_mul, Cpx.toComplex_conj]
  rw [div_eq_mul_inv a.toComplex, Complex.inv_def, Rat.cast_div, h]
  push_cast
  ring

theorem Cpx.toComplex_eq_zero {a : Cpx} : a.toComplex = 0 ↔ a = Cpx.zero := by
  rw [← Cpx.toComplex_zero]; exact Cpx.toComplex_injective.eq_iff

theorem Cpx.toComplex_norm_of_normSq {a : Cpx} (h : a.normSq = 1) : ‖a.toComplex‖ = 1 := by
  have : Complex.normSq a.toComplex = 1 := by rw [← Cpx.toComplex_normSq, h]; norm_num
  rw [Complex.norm_def, this, Real.sqrt_one]

theorem Cpx.toComplex_sum (zs : List Cpx) : (Cpx.sum zs).toComplex = (zs.map Cpx.toComplex).sum := by
  induction zs with
  | nil => simp [Cpx.sum]
  | cons z zs ih => rw [List.map_cons, List.sum_cons, ← ih]; simp [Cpx.sum]

theorem cisTurn_norm (t : Num) : ‖(cisTurn t).toComplex‖ = 1 := Cpx.toComplex_norm_of_normSq (cisTurn_normSq t)

theorem realCis_add (a b : ℝ) : realCis (a + b) = realCis a * realCis b := by
  unfold realCis; rw [← Complex.exp_add]; congr 1; push_cast; ring

theorem realCis_nat_mul (k : Nat) (t : ℝ) : realCis (k * t) = realCis t ^ k := by
  unfold realCis; rw [← Complex.exp_nat_mul]; congr 1; push_cast; ring

/-- Two products of phases differ by no more than the phases do. -/
theorem mul_close {a b a' b' : ℂ} {e f : ℝ} (ha : ‖a - a'‖ ≤ e) (hb : ‖b - b'‖ ≤ f) (na : ‖a'‖ = 1) (nb : ‖b‖ = 1) :
    ‖a * b - a' * b'‖ ≤ e + f := by
  have : a * b - a' * b' = (a - a') * b + a' * (b - b') := by ring
  rw [this]
  refine (norm_add_le _ _).trans ?_
  rw [norm_mul, norm_mul, na, nb, mul_one, one_mul]
  exact add_le_add ha hb

/-- The phases of a full turn in `m` steps are orthogonal. -/
theorem sum_realCis {m n l : Nat} (hn : n < m) (hl : l < m) :
    ∑ k ∈ Finset.range m, realCis ((k : ℝ) * n / m) * realCis (-((k : ℝ) * l / m)) = if n = l then (m : ℂ) else 0 := by
  have hm : (m : ℝ) ≠ 0 := by have : 0 < m := by omega
                              positivity
  have e (k : Nat) : realCis ((k : ℝ) * n / m) * realCis (-((k : ℝ) * l / m)) = realCis (((n : ℝ) - l) / m) ^ k := by
    rw [← realCis_add, ← realCis_nat_mul]; congr 1; field_simp; ring
  simp only [e]
  split
  · subst n; simp [realCis]
  · rename_i h
    have one : realCis (((n : ℝ) - l) / m) ^ m = 1 := by
      rw [← realCis_nat_mul, mul_div_cancel₀ _ hm]
      have := realCis_add_int 0 ((n : ℤ) - l)
      push_cast at this
      rw [zero_add] at this
      rw [this]; simp [realCis]
    have ne : realCis (((n : ℝ) - l) / m) ≠ 1 := by
      unfold realCis
      rw [Ne, Complex.exp_eq_one_iff]
      rintro ⟨j, hj⟩
      have hpi : (2 * Real.pi * Complex.I : ℂ) ≠ 0 := Complex.two_pi_I_ne_zero
      have q : (((n : ℝ) - l) / m : ℂ) = j := by
        apply mul_right_cancel₀ hpi
        rw [← hj]; push_cast; ring
      have q' : (n : ℤ) - l = j * m := by
        have hmc : (m : ℂ) ≠ 0 := by exact_mod_cast hm
        rw [div_eq_iff (by exact_mod_cast hmc)] at q
        exact_mod_cast q
      have b : |(n : ℤ) - l| < m := by rw [abs_lt]; constructor <;> omega
      have z : (n : ℤ) - l = 0 := Int.eq_zero_of_abs_lt_dvd ⟨j, by rw [q']; ring⟩ b
      omega
    have := mul_geom_sum (realCis (((n : ℝ) - l) / m)) m
    rw [one, sub_self, mul_eq_zero] at this
    exact this.resolve_left (sub_ne_zero.2 ne)

theorem cisTurn_add_int (t : Num) (n : ℤ) : cisTurn (t + n) = cisTurn t := by
  have : (t + n).floor = t.floor + n := Int.floor_add_intCast t n
  simp only [cisTurn, this]
  push_cast
  simp only [add_sub_add_right_eq_sub]

namespace Machine

/-- Entry `i` of a list as a complex number; 0 outside. -/
noncomputable def entry (xs : List Cpx) (i : Nat) : ℂ := (xs.getD i Cpx.zero).toComplex

theorem entry_cons_zero (x : Cpx) (xs : List Cpx) : entry (x :: xs) 0 = x.toComplex := rfl

theorem entry_cons_succ (x : Cpx) (xs : List Cpx) (i : Nat) : entry (x :: xs) (i + 1) = entry xs i := by simp [entry]

theorem entry_of_le {xs : List Cpx} {i : Nat} (h : xs.length ≤ i) : entry xs i = 0 := by
  rw [entry, List.getD_eq_default _ _ h, Cpx.toComplex_zero]

theorem entry_map_range (m : Nat) (f : Nat → Cpx) {i : Nat} (h : i < m) : entry ((List.range m).map f) i = (f i).toComplex := by
  simp [entry, List.getD_eq_getElem?_getD, h]

/-- Lists of one length with the same entries are the same. -/
theorem eq_of_entry {xs ys : List Cpx} {n : Nat} (hx : xs.length = n) (hy : ys.length = n)
    (h : ∀ i, i < n → entry xs i = entry ys i) : xs = ys := by
  apply List.ext_getElem (by omega)
  intro i h1 h2
  have := Cpx.toComplex_injective (h i (by omega))
  rwa [List.getD_eq_getElem _ _ h1, List.getD_eq_getElem _ _ h2] at this

theorem toComplex_sum_range (m : Nat) (f : Nat → Cpx) :
    (Cpx.sum ((List.range m).map f)).toComplex = ∑ i ∈ Finset.range m, (f i).toComplex := by
  rw [Cpx.toComplex_sum, List.map_map, Finset.sum_range, ← List.sum_ofFn]
  congr 1
  apply List.ext_getElem <;> simp

theorem toComplex_dot {as xs : List Cpx} {n : Nat} (ha : as.length = n) (hx : xs.length = n) :
    (dot as xs).toComplex = ∑ i ∈ Finset.range n, entry as i * entry xs i := by
  induction n generalizing as xs with
  | zero => simp [dot, Cpx.sum, List.length_eq_zero_iff.1 ha]
  | succ n ih =>
    match as, xs, ha, hx with
    | a :: as, x :: xs, ha, hx =>
      have := ih (as := as) (xs := xs) (by simpa using ha) (by simpa using hx)
      rw [Finset.sum_range_succ']
      simp only [entry_cons_succ, entry_cons_zero, ← this]
      simp [dot, Cpx.sum, add_comm]

/-! ### Solving a linear system -/

/-- The equation holds of the unknowns. -/
def Equation.Holds (xs : List Cpx) (e : Equation) : Prop := dot e.1 xs = e.2

theorem dot_cons (a x : Cpx) (as xs : List Cpx) : dot (a :: as) (x :: xs) = (a.mul x).add (dot as xs) := rfl

theorem dot_eliminated {et as ys : List Cpx} (f : Cpx) (h : et.length = as.length) (hy : ys.length = as.length) :
    (dot (List.zipWith (fun x y => x.sub (f.mul y)) et as) ys).toComplex = (dot et ys).toComplex - f.toComplex * (dot as ys).toComplex := by
  induction as generalizing et ys with
  | nil => simp [dot, Cpx.sum, List.length_eq_zero_iff.1 h]
  | cons a as ih =>
    match et, ys, h, hy with
    | e :: et, y :: ys, h, hy =>
      have := ih (et := et) (ys := ys) (by simpa using h) (by simpa using hy)
      rw [List.zipWith_cons_cons, dot_cons, dot_cons, dot_cons]
      simp only [Cpx.toComplex_add, Cpx.toComplex_mul, Cpx.toComplex_sub, this]
      ring

/-- An equation holds exactly if what elimination leaves of it does, for unknowns of which the pivot equation holds. -/
theorem eliminate_holds {a b x : Cpx} {as ys : List Cpx} {e : Equation} (ha : a ≠ Cpx.zero) (h : e.1.length = as.length + 1)
    (hy : ys.length = as.length) (hp : Equation.Holds (x :: ys) (a :: as, b)) :
    Equation.Holds ys (eliminate a as b e) ↔ Equation.Holds (x :: ys) e := by
  obtain ⟨_ | ⟨e0, et⟩, eb⟩ := e
  · simp at h
  have h0 : a.toComplex ≠ 0 := fun h => ha (Cpx.toComplex_eq_zero.1 h)
  have p := congrArg Cpx.toComplex hp
  simp only [dot_cons, Cpx.toComplex_add, Cpx.toComplex_mul] at p
  unfold Equation.Holds eliminate
  rw [← Cpx.toComplex_injective.eq_iff, ← Cpx.toComplex_injective.eq_iff, dot_cons]
  simp only [List.headD_cons, List.tail_cons]
  rw [dot_eliminated _ (by simpa using h) hy]
  simp only [Cpx.toComplex_add, Cpx.toComplex_mul, Cpx.toComplex_sub, Cpx.toComplex_div, ← p]
  have f : e0.toComplex / a.toComplex * (a.toComplex * x.toComplex) = e0.toComplex * x.toComplex := by field_simp
  constructor <;> intro q
  · linear_combination q - f
  · linear_combination q + f

/-- What `solve` answers: a list of `n` unknowns, from a pivot that is not 0 and a solution of the rest. -/
theorem solve_succ {n : Nat} {es : List Equation} {zs : List Cpx} (h : solve (n + 1) es = some zs) :
    ∃ a as b rest ys, es = (a :: as, b) :: rest ∧ a ≠ Cpx.zero ∧ solve n (rest.map (eliminate a as b)) = some ys ∧
      zs = (b.sub (dot as ys)).div a :: ys := by
  unfold solve at h
  split at h
  · rename_i hn; cases hn
  · rename_i a as b rest hn
    cases hn
    split at h
    · cases h
    · rw [Option.map_eq_some_iff] at h
      obtain ⟨ys, h1, h2⟩ := h
      exact ⟨a, as, b, rest, ys, rfl, ‹_›, h1, h2.symm⟩
  · cases h

theorem solve_length {n : Nat} {es : List Equation} {zs : List Cpx} (h : solve n es = some zs) : zs.length = n := by
  induction n generalizing es zs with
  | zero => simp [solve] at h; simp [h]
  | succ n ih =>
    obtain ⟨a, as, b, rest, ys, -, -, h1, rfl⟩ := solve_succ h
    simp [ih h1]

theorem pivot_holds {a b : Cpx} {as ys : List Cpx} (ha : a ≠ Cpx.zero) :
    Equation.Holds ((b.sub (dot as ys)).div a :: ys) (a :: as, b) := by
  have h0 : a.toComplex ≠ 0 := fun h => ha (Cpx.toComplex_eq_zero.1 h)
  apply Cpx.toComplex_injective
  simp only [dot_cons, Cpx.toComplex_add, Cpx.toComplex_mul, Cpx.toComplex_div, Cpx.toComplex_sub]
  field_simp
  ring

theorem eliminate_length {a b : Cpx} {as : List Cpx} {e : Equation} (h : e.1.length = as.length + 1) :
    (eliminate a as b e).1.length = as.length := by simp [eliminate, h]

/-- `n` equations in `n` unknowns. -/
def Square (n : Nat) (es : List Equation) : Prop := es.length = n ∧ ∀ e ∈ es, e.1.length = n

theorem Square.eliminate {n : Nat} {a b : Cpx} {as : List Cpx} {rest : List Equation} (h : Square (n + 1) ((a :: as, b) :: rest)) :
    as.length = n ∧ rest.length = n ∧ (∀ e ∈ rest, e.1.length = as.length + 1) ∧ Square n (rest.map (eliminate a as b)) := by
  obtain ⟨h1, h2⟩ := h
  have ha : as.length = n := by simpa using h2 _ (List.mem_cons_self ..)
  have hr : ∀ e ∈ rest, e.1.length = as.length + 1 := fun e he => by rw [ha]; exact h2 e (List.mem_cons_of_mem _ he)
  have hl : rest.length = n := by simpa using h1
  refine ⟨ha, hl, hr, by simpa using hl, ?_⟩
  intro e he
  obtain ⟨e', he', rfl⟩ := List.mem_map.1 he
  rw [eliminate_length (hr e' he'), ha]

/-- What `solve` answers are the only unknowns of which all the equations hold. -/
theorem solve_iff {n : Nat} {es : List Equation} {zs xs : List Cpx} (hs : Square n es) (h : solve n es = some zs)
    (hx : xs.length = n) : (∀ e ∈ es, Equation.Holds xs e) ↔ xs = zs := by
  induction n generalizing es zs xs with
  | zero =>
    have := List.length_eq_zero_iff.1 hs.1
    simp [solve] at h
    simp [this, List.length_eq_zero_iff.1 hx, h]
  | succ n ih =>
    obtain ⟨a, as, b, rest, ys, rfl, ha, h1, rfl⟩ := solve_succ h
    obtain ⟨la, -, lr, sq⟩ := hs.eliminate
    have hy := solve_length h1
    constructor
    · intro hold
      match xs, hx with
      | x :: xt, hx =>
        have lx : xt.length = n := by simpa using hx
        have p : Equation.Holds (x :: xt) (a :: as, b) := hold _ (List.mem_cons_self ..)
        have t : xt = ys := by
          refine (ih sq h1 lx).1 fun e he => ?_
          obtain ⟨e', he', rfl⟩ := List.mem_map.1 he
          exact (eliminate_holds ha (lr e' he') (by omega) p).2 (hold e' (List.mem_cons_of_mem _ he'))
        subst t
        congr 1
        have h0 : a.toComplex ≠ 0 := fun h => ha (Cpx.toComplex_eq_zero.1 h)
        have q := congrArg Cpx.toComplex p
        apply Cpx.toComplex_injective
        simp only [dot_cons, Cpx.toComplex_add, Cpx.toComplex_mul, Cpx.toComplex_div, Cpx.toComplex_sub] at q ⊢
        field_simp
        linear_combination q
    · rintro rfl e he
      rcases List.mem_cons.1 he with rfl | he
      · exact pivot_holds ha
      · exact (eliminate_holds ha (lr e he) (by omega) (pivot_holds ha)).1
          ((ih sq h1 hy).2 rfl _ (List.mem_map_of_mem he))

/-- Whether a system can be solved depends on the coefficients alone. -/
theorem solve_isSome_congr {n : Nat} {es es' : List Equation} (h : es.map Prod.fst = es'.map Prod.fst) :
    (solve n es).isSome = (solve n es').isSome := by
  induction n generalizing es es' with
  | zero => rfl
  | succ n ih =>
    match es, es', h with
    | [], [], _ => rfl
    | (r, b) :: rest, (r', b') :: rest', h =>
      simp only [List.map_cons, List.cons.injEq] at h
      obtain ⟨rfl, h⟩ := h
      match r with
      | [] => rfl
      | a :: as =>
        have := ih (es := rest.map (eliminate a as b)) (es' := rest'.map (eliminate a as b')) (by
          simp only [List.map_map]
          have e (c : Cpx) : (Prod.fst ∘ eliminate a as c) = (fun r : List Cpx =>
            List.zipWith (fun x y => x.sub (((r.headD Cpx.zero).div a).mul y)) r.tail as) ∘ Prod.fst := rfl
          rw [e, e, ← List.map_map, h, List.map_map])
        unfold solve
        split <;> simp [this]

/-- The coefficient of unknown `j` in equation `i`. -/
noncomputable def coefficient (es : List Equation) (i j : Nat) : ℂ := entry ((es.map Prod.fst).getD i []) j

theorem coefficient_eliminate {a b : Cpx} {as : List Cpx} {rest : List Equation} {n i j : Nat}
    (h : Square (n + 1) ((a :: as, b) :: rest)) (hi : i < n) (hj : j < n) :
    coefficient (rest.map (eliminate a as b)) i j =
      coefficient ((a :: as, b) :: rest) (i + 1) (j + 1) -
        coefficient ((a :: as, b) :: rest) (i + 1) 0 / a.toComplex * coefficient ((a :: as, b) :: rest) 0 (j + 1) := by
  obtain ⟨la, l, lr, -⟩ := h.eliminate
  have hi' : i < rest.length := by omega
  have m := lr _ (List.getElem_mem hi')
  obtain ⟨e, he⟩ : ∃ e, e = rest[i] := ⟨_, rfl⟩
  rw [← he] at m
  obtain ⟨r, b'⟩ := e
  match r, m with
  | r0 :: rt, m =>
    have lt : rt.length = as.length := by simpa using m
    simp only [coefficient, List.map_map, List.map_cons]
    simp [List.getD_eq_getElem?_getD, hi', ← he, entry, eliminate, lt, la, hj]

/-- A system whose coefficients are near those of the identity has a solution. -/
theorem solve_isSome_of_near {n : Nat} {es : List Equation} (hs : Square n es) (r : Nat) (hr : r + n ≤ 10 ^ 9)
    (h : ∀ i j, i < n → j < n → ‖coefficient es i j - if i = j then 1 else 0‖ ≤ r / 10 ^ 19) : (solve n es).isSome := by
  induction n generalizing es r with
  | zero => rfl
  | succ n ih =>
    match es, hs with
    | (a :: as, b) :: rest, hs =>
      have hR : (r : ℝ) ≤ 10 ^ 9 := by exact_mod_cast (by omega : r ≤ 10 ^ 9)
      have h1 : ‖a.toComplex - 1‖ ≤ r / 10 ^ 19 := by simpa [coefficient, entry] using h 0 0 (by omega) (by omega)
      have h2 : 1 / 2 ≤ ‖a.toComplex‖ := by
        have := norm_sub_norm_le (1 : ℂ) (1 - a.toComplex)
        rw [norm_sub_rev 1, sub_sub_cancel, norm_one] at this
        have : (r : ℝ) / 10 ^ 19 ≤ 1 / 2 := by rw [div_le_iff₀ (by norm_num)]; linarith
        linarith
      have ha : a ≠ Cpx.zero := by rintro rfl; norm_num at h2
      have := ih hs.eliminate.2.2.2 (r + 1) (by omega) (fun i j hi hj => by
        rw [coefficient_eliminate hs hi hj]
        set d := coefficient ((a :: as, b) :: rest)
        have e := h (i + 1) (j + 1) (by omega) (by omega)
        have f := h (i + 1) 0 (by omega) (by omega)
        have g := h 0 (j + 1) (by omega) (by omega)
        rw [if_neg (by omega), sub_zero] at f g
        simp only [Nat.add_right_cancel_iff] at e
        have p : ‖d (i + 1) 0 / a.toComplex * d 0 (j + 1)‖ ≤ 1 / 10 ^ 19 := by
          rw [norm_mul, norm_div]
          have q : ‖d (i + 1) 0‖ / ‖a.toComplex‖ ≤ r / 10 ^ 19 * 2 := by
            rw [div_le_iff₀ (by linarith)]
            have : 0 ≤ (r : ℝ) / 10 ^ 19 := by positivity
            nlinarith
          calc ‖d (i + 1) 0‖ / ‖a.toComplex‖ * ‖d 0 (j + 1)‖ ≤ (r / 10 ^ 19 * 2) * (r / 10 ^ 19) := by
                apply mul_le_mul q g (norm_nonneg _); positivity
            _ ≤ (10 ^ 9 / 10 ^ 19 * 2) * (10 ^ 9 / 10 ^ 19) := by gcongr
            _ ≤ 1 / 10 ^ 19 := by norm_num
        rw [sub_right_comm]
        refine (norm_sub_le _ _).trans ((add_le_add e p).trans ?_)
        push_cast
        rw [add_div])
      unfold solve
      rw [if_neg ha, Option.isSome_map]
      exact this
    | ([], b) :: rest, hs => simpa using hs.2 _ (List.mem_cons_self ..)


/-! ### Odd lengths -/

theorem entry_roundTripRow {m n l : Nat} (hl : l < m) : entry (roundTripRow m n) l =
    1 / (m : ℂ) * ∑ k ∈ Finset.range m, (cisTurn ((k : Num) * n / m)).toComplex * (cisTurn (-((k : Num) * l / m))).toComplex := by
  rw [roundTripRow, entry_map_range m _ hl, Cpx.toComplex_scale, toComplex_sum_range]
  simp

/-- The two sums of R17, one after the other, are near the identity. -/
theorem roundTripRow_close {m n l : Nat} (hn : n < m) (hl : l < m) :
    ‖entry (roundTripRow m n) l - if n = l then 1 else 0‖ ≤ 1 / 10 ^ 19 := by
  have hm : (m : ℂ) ≠ 0 := by have : m ≠ 0 := by omega
                              exact_mod_cast this
  have e : entry (roundTripRow m n) l - (if n = l then 1 else 0) = 1 / (m : ℂ) * ∑ k ∈ Finset.range m,
      ((cisTurn ((k : Num) * n / m)).toComplex * (cisTurn (-((k : Num) * l / m))).toComplex -
        realCis ((k : ℝ) * n / m) * realCis (-((k : ℝ) * l / m))) := by
    rw [entry_roundTripRow hl, Finset.sum_sub_distrib, sum_realCis hn hl, mul_sub]
    congr 1
    split <;> simp [hm]
  rw [e, norm_mul, norm_div, norm_one, Complex.norm_natCast]
  have s : ‖∑ k ∈ Finset.range m, ((cisTurn ((k : Num) * n / m)).toComplex * (cisTurn (-((k : Num) * l / m))).toComplex -
      realCis ((k : ℝ) * n / m) * realCis (-((k : ℝ) * l / m)))‖ ≤ m * (1 / (7 * 10 ^ 19) + 1 / (7 * 10 ^ 19)) := by
    refine (norm_sum_le_of_le (n := fun _ => (1 : ℝ) / (7 * 10 ^ 19) + 1 / (7 * 10 ^ 19)) _
      (fun k _ => mul_close ?_ ?_ (realCis_norm _) (cisTurn_norm _))).trans
      (by rw [Finset.sum_const, Finset.card_range, nsmul_eq_mul])
    · simpa using cisTurn_close ((k : Num) * n / m)
    · simpa using cisTurn_close (-((k : Num) * l / m))
  have hm' : (0 : ℝ) < m := by have : 0 < m := by omega
                               exact_mod_cast this
  rw [div_mul_eq_mul_div, one_mul, div_le_iff₀ hm']
  refine s.trans ?_
  rw [mul_comm]
  gcongr
  norm_num

/-- The equations of `undoRoundTrip`. -/
def undoEquations (m : Nat) (xs : List Cpx) : List Equation := (List.range m).map fun n => (roundTripRow m n, xs.getD n Cpx.zero)

theorem undoEquations_square (m : Nat) (xs : List Cpx) : Square m (undoEquations m xs) := by
  refine ⟨by simp [undoEquations], fun e he => ?_⟩
  obtain ⟨n, -, rfl⟩ := List.mem_map.1 he
  simp [roundTripRow]

theorem undo_isSome_congr (m : Nat) (xs ys : List Cpx) : (undoRoundTrip m xs).isSome = (undoRoundTrip m ys).isSome :=
  solve_isSome_congr (by simp [Function.comp_def])

/-- The two sums of R17 can be undone, for every length of a legal unit (R8, R9) and far beyond. -/
theorem undo_isSome (m : Nat) (hm : m < 10 ^ 9) (xs : List Cpx) : (undoRoundTrip m xs).isSome := by
  refine solve_isSome_of_near (undoEquations_square m xs) 1 (by omega) fun i j hi hj => ?_
  have e : coefficient (undoEquations m xs) i j = entry (roundTripRow m i) j := by
    simp [coefficient, undoEquations, List.getD_eq_getElem?_getD, hi]
  change ‖coefficient (undoEquations m xs) i j - _‖ ≤ _
  rw [e, Nat.cast_one]
  exact roundTripRow_close hi hj

theorem dot_roundTripRow {m n : Nat} {xs : List Cpx} (hx : xs.length = m) (hn : n < m) :
    dot (roundTripRow m n) xs = (dftRefInv m (dftRefFwd m xs)).getD n Cpx.zero := by
  apply Cpx.toComplex_injective
  change _ = entry (dftRefInv m (dftRefFwd m xs)) n
  rw [toComplex_dot (by simp [roundTripRow]) hx, dftRefInv, entry_map_range m _ hn, Cpx.toComplex_scale, toComplex_sum_range,
    Finset.mul_sum]
  have e (k : Nat) (hk : k ∈ Finset.range m) :
      ((1 / (m : Num) : Num) : ℂ) * (((dftRefFwd m xs).getD k Cpx.zero).mul (cisTurn ((k : Num) * n / m))).toComplex =
        ∑ l ∈ Finset.range m, 1 / (m : ℂ) * ((cisTurn ((k : Num) * n / m)).toComplex *
          (cisTurn (-((k : Num) * l / m))).toComplex) * entry xs l := by
    rw [Cpx.toComplex_mul]
    change _ * (entry (dftRefFwd m xs) k * _) = _
    rw [dftRefFwd, entry_map_range m _ (Finset.mem_range.1 hk), toComplex_sum_range, Finset.sum_mul, Finset.mul_sum]
    apply Finset.sum_congr rfl
    intro l _
    rw [Cpx.toComplex_mul]
    push_cast
    simp only [entry]
    ring
  rw [Finset.sum_congr rfl e, Finset.sum_comm]
  apply Finset.sum_congr rfl
  intro l hl
  rw [entry_roundTripRow (Finset.mem_range.1 hl), ← Finset.sum_mul, ← Finset.mul_sum]

/-- What `undoRoundTrip` answers. -/
theorem undo_iff {m : Nat} {xs ys zs : List Cpx} (h : undoRoundTrip m xs = some zs) (hx : xs.length = m) (hy : ys.length = m) :
    dftRefInv m (dftRefFwd m ys) = xs ↔ ys = zs := by
  rw [← solve_iff (undoEquations_square m xs) h hy]
  constructor
  · rintro rfl e he
    obtain ⟨n, hn, rfl⟩ := List.mem_map.1 he
    exact dot_roundTripRow hy (List.mem_range.1 hn)
  · intro hold
    refine eq_of_entry (n := m) (by simp [dftRefInv]) hx fun i hi => ?_
    have := hold (roundTripRow m i, xs.getD i Cpx.zero) (List.mem_map.2 ⟨i, List.mem_range.2 hi, rfl⟩)
    rw [Equation.Holds, dot_roundTripRow hy hi] at this
    exact congrArg Cpx.toComplex this


theorem entry_dftRefFwd {m k : Nat} (xs : List Cpx) (hk : k < m) : entry (dftRefFwd m xs) k =
    ∑ n ∈ Finset.range m, (cisTurn (-((k : Num) * n / m))).toComplex * entry xs n := by
  rw [dftRefFwd, entry_map_range m _ hk, toComplex_sum_range]
  exact Finset.sum_congr rfl fun n _ => by rw [Cpx.toComplex_mul, mul_comm]; rfl

theorem entry_dftRefInv {m n : Nat} (xs : List Cpx) (hn : n < m) : entry (dftRefInv m xs) n =
    ∑ k ∈ Finset.range m, (1 / (m : ℂ) * (cisTurn ((k : Num) * n / m)).toComplex) * entry xs k := by
  rw [dftRefInv, entry_map_range m _ hn, Cpx.toComplex_scale, toComplex_sum_range, Finset.mul_sum]
  exact Finset.sum_congr rfl fun k _ => by rw [Cpx.toComplex_mul]; push_cast; simp only [entry]; ring

/-- A list as a vector over the complex numbers. -/
noncomputable def vectorOf (m : Nat) (xs : List Cpx) : Fin m → ℂ := fun i => entry xs i

/-- What the two sums of R17 make, the forward sum after what `undoRoundTrip` answers for the inverse one, is the vector itself. -/
theorem dftRefFwd_undo {m : Nat} {xs zs : List Cpx} (hx : xs.length = m) (h : undoRoundTrip m (dftRefInv m xs) = some zs) :
    dftRefFwd m zs = xs := by
  let F : Matrix (Fin m) (Fin m) ℂ := .of fun k n => (cisTurn (-(((k : Nat) : Num) * ((n : Nat) : Num) / m))).toComplex
  let B : Matrix (Fin m) (Fin m) ℂ := .of fun n k => 1 / (m : ℂ) * (cisTurn (((k : Nat) : Num) * ((n : Nat) : Num) / m)).toComplex
  have vF (ys : List Cpx) : vectorOf m (dftRefFwd m ys) = F.mulVec (vectorOf m ys) := by
    funext k; rw [vectorOf, entry_dftRefFwd _ k.isLt, Finset.sum_range]; rfl
  have vB (ys : List Cpx) : vectorOf m (dftRefInv m ys) = B.mulVec (vectorOf m ys) := by
    funext n; rw [vectorOf, entry_dftRefInv _ n.isLt, Finset.sum_range]; rfl
  let unit (j : Fin m) : List Cpx := (List.range m).map fun i : Nat => if i = (j : Nat) then Cpx.ofNum 1 else Cpx.zero
  have column (j : Fin m) : ∃ ss : List Cpx, B.mulVec (F.mulVec (vectorOf m ss)) = fun i => if i = j then 1 else 0 := by
    have some_ : (undoRoundTrip m (unit j)).isSome := by rw [undo_isSome_congr m _ (dftRefInv m xs), h]; rfl
    obtain ⟨ss, hs⟩ := Option.isSome_iff_exists.1 some_
    refine ⟨ss, ?_⟩
    rw [← vF, ← vB, (undo_iff hs (by simp [unit]) (solve_length hs)).2 rfl]
    funext i
    rw [vectorOf, entry_map_range m _ i.isLt]
    simp only [Fin.ext_iff]
    split <;> simp [Cpx.toComplex, Cpx.ofNum, Cpx.zero, Complex.ext_iff]
  choose col hcol using column
  let S : Matrix (Fin m) (Fin m) ℂ := .of fun i j => vectorOf m (col j) i
  have inv : B * (F * S) = 1 := by
    ext i j
    have := congrFun (hcol j) i
    rw [Matrix.one_apply, ← this]
    simp [Matrix.mul_apply, Matrix.mulVec, dotProduct, S]
  have inv' := mul_eq_one_comm.1 inv
  have z := congrArg (vectorOf m) ((undo_iff h (by simp [dftRefInv]) (solve_length h)).2 rfl)
  rw [vB, vF, vB] at z
  have q := congrArg (F * S).mulVec z
  rw [Matrix.mulVec_mulVec, Matrix.mulVec_mulVec (vectorOf m xs), inv', Matrix.one_mulVec, Matrix.one_mulVec, ← vF] at q
  exact eq_of_entry (n := m) (by simp [dftRefFwd]) hx fun i hi => congrFun q ⟨i, hi⟩

/-! ### Both transforms: the laws of R10 -/

theorem oddFwd_length (m : Nat) (xs : List Cpx) (h : xs.length = m) : (oddFwd m xs).length = m := by
  unfold oddFwd; split
  · exact h
  · split <;> simp [dftRefFwd, h]

theorem oddInv_length (m : Nat) (xs : List Cpx) (h : xs.length = m) : (oddInv m xs).length = m := by
  unfold oddInv; split
  · exact h
  · cases e : undoRoundTrip m (dftRefInv m xs) with
    | none => exact h
    | some zs => exact solve_length e

theorem oddInv_oddFwd {m : Nat} {xs : List Cpx} (h : xs.length = m) : oddInv m (oddFwd m xs) = xs := by
  unfold oddInv oddFwd
  by_cases h1 : m = 1
  · simp [h1]
  · simp only [h1, if_false]
    cases e : undoRoundTrip m [] with
    | none =>
      have := undo_isSome_congr m (dftRefInv m xs) []
      rw [e] at this
      simp [Option.not_isSome_iff_eq_none.1 (by simp [this] : ¬ (undoRoundTrip m (dftRefInv m xs)).isSome)]
    | some ws =>
      have := undo_isSome_congr m (dftRefInv m (dftRefFwd m xs)) []
      rw [e] at this
      obtain ⟨zs, hz⟩ := Option.isSome_iff_exists.1 this
      simp only [Option.isSome_some, if_true, hz, Option.getD_some]
      exact ((undo_iff hz (by simp [dftRefInv]) h).1 rfl).symm

theorem oddFwd_oddInv {m : Nat} {xs : List Cpx} (h : xs.length = m) : oddFwd m (oddInv m xs) = xs := by
  unfold oddInv oddFwd
  by_cases h1 : m = 1
  · simp [h1]
  · simp only [h1, if_false]
    rw [undo_isSome_congr m [] (dftRefInv m xs)]
    cases e : undoRoundTrip m (dftRefInv m xs) with
    | none => simp
    | some zs => simpa using dftRefFwd_undo h e

@[simp] theorem padTo_length (m : Nat) (xs : List Cpx) : (padTo m xs).length = m := by simp [padTo]

theorem padTo_of_length {m : Nat} {xs : List Cpx} (h : xs.length = m) : padTo m xs = xs := by
  refine eq_of_entry (n := m) (by simp) h fun i hi => ?_
  rw [padTo, entry_map_range m _ hi]; rfl

@[simp] theorem twiddles_length (m : Nat) : (twiddles m).length = m / 2 := by simp [twiddles]

theorem twiddles_normSq {m : Nat} {w : Cpx} (h : w ∈ twiddles m) : w.normSq = 1 := by
  obtain ⟨n, -, rfl⟩ := List.mem_map.1 h; exact cisTurn_normSq _

theorem pow_halvings_dvd (fuel m : Nat) : 2 ^ halvings fuel m ∣ m := by
  induction fuel generalizing m with
  | zero => simp [halvings]
  | succ fuel ih =>
    unfold halvings; split
    · rename_i h
      obtain ⟨k, hk⟩ := ih (m / 2)
      exact ⟨k, by rw [pow_succ, mul_right_comm, ← hk]; omega⟩
    · simp

theorem unzipBins_length (n : Nat) (xs : List Cpx) (h : xs.length = 2 * n) :
    (unzipBins xs).1.length = n ∧ (unzipBins xs).2.length = n := by
  induction n generalizing xs with
  | zero => rw [List.length_eq_zero_iff.1 h]; simp [unzipBins]
  | succ n ih =>
    match xs, h with
    | a :: b :: xs, h =>
      have := ih xs (by simp at h; omega)
      simp [unzipBins, this]

theorem zipBins_length (a b : List Cpx) : (zipBins a b).length = 2 * min a.length b.length := by
  simp [zipBins, List.length_flatMap, mul_comm]

theorem zipBins_unzipBins (n : Nat) (xs : List Cpx) (h : xs.length = 2 * n) : zipBins (unzipBins xs).1 (unzipBins xs).2 = xs := by
  induction n generalizing xs with
  | zero => rw [List.length_eq_zero_iff.1 h]; rfl
  | succ n ih =>
    match xs, h with
    | a :: b :: xs, h =>
      have := ih xs (by simp at h; omega)
      simpa [unzipBins, zipBins] using this

theorem unzipBins_zipBins (a b : List Cpx) (h : a.length = b.length) : unzipBins (zipBins a b) = (a, b) := by
  induction a generalizing b with
  | nil => cases b <;> simp_all [zipBins, unzipBins]
  | cons x a ih =>
    match b, h with
    | y :: b, h => have := ih b (by simpa using h); simp only [zipBins] at this; simp [zipBins, unzipBins, this]

theorem toComplex_getD (xs : List Cpx) (i : Nat) : (xs.getD i Cpx.zero).toComplex = entry xs i := rfl

theorem entry_zipWith {f : Cpx → Cpx → Cpx} {xs ys : List Cpx} {i : Nat} (hx : i < xs.length) (hy : i < ys.length) :
    entry (List.zipWith f xs ys) i = (f (xs.getD i Cpx.zero) (ys.getD i Cpx.zero)).toComplex := by
  simp [entry, List.getD_eq_getElem?_getD, hx, hy]

theorem entry_add {xs ys : List Cpx} {i : Nat} (hx : i < xs.length) (hy : i < ys.length) :
    entry (List.zipWith Cpx.add xs ys) i = entry xs i + entry ys i := by rw [entry_zipWith hx hy, Cpx.toComplex_add]; rfl

theorem entry_sub {xs ys : List Cpx} {i : Nat} (hx : i < xs.length) (hy : i < ys.length) :
    entry (List.zipWith Cpx.sub xs ys) i = entry xs i - entry ys i := by rw [entry_zipWith hx hy, Cpx.toComplex_sub]; rfl

theorem entry_mul {xs ys : List Cpx} {i : Nat} (hx : i < xs.length) (hy : i < ys.length) :
    entry (List.zipWith Cpx.mul xs ys) i = entry xs i * entry ys i := by rw [entry_zipWith hx hy, Cpx.toComplex_mul]; rfl

/-- Half the sum and half the difference of two lists. -/
theorem half_add_half_sub {u v : List Cpx} {n : Nat} (hu : u.length = n) (hv : v.length = n) :
    List.zipWith (fun a b => Cpx.scale (1 / 2) (a.add b)) (List.zipWith Cpx.add u v) (List.zipWith Cpx.sub u v) = u ∧
    List.zipWith (fun a b => Cpx.scale (1 / 2) (a.sub b)) (List.zipWith Cpx.add u v) (List.zipWith Cpx.sub u v) = v := by
  constructor
  all_goals
    refine eq_of_entry (n := n) (by simp [hu, hv]) ‹_› fun i hi => ?_
    rw [entry_zipWith (by simp; omega) (by simp; omega)]
    simp only [Cpx.toComplex_scale, Cpx.toComplex_add, Cpx.toComplex_sub, toComplex_getD]
    rw [entry_add (by omega) (by omega), entry_sub (by omega) (by omega)]
    push_cast
    ring

theorem add_sub_half {s d : List Cpx} {n : Nat} (hs : s.length = n) (hd : d.length = n) :
    List.zipWith Cpx.add (List.zipWith (fun a b => Cpx.scale (1 / 2) (a.add b)) s d)
      (List.zipWith (fun a b => Cpx.scale (1 / 2) (a.sub b)) s d) = s ∧
    List.zipWith Cpx.sub (List.zipWith (fun a b => Cpx.scale (1 / 2) (a.add b)) s d)
      (List.zipWith (fun a b => Cpx.scale (1 / 2) (a.sub b)) s d) = d := by
  constructor
  all_goals
    refine eq_of_entry (n := n) (by simp [hs, hd]) ‹_› fun i hi => ?_
    first
    | rw [entry_add (by simp; omega) (by simp; omega)]
    | rw [entry_sub (by simp; omega) (by simp; omega)]
    rw [entry_zipWith (by omega) (by omega), entry_zipWith (by omega) (by omega)]
    simp only [Cpx.toComplex_scale, Cpx.toComplex_add, Cpx.toComplex_sub, toComplex_getD]
    push_cast
    ring

/-- A phase of modulus 1 turned forth and back. -/
theorem turn_back {ds ws : List Cpx} (h : ds.length = ws.length) (hw : ∀ w ∈ ws, w.normSq = 1) :
    List.zipWith (fun z w => z.mul w.conj) (List.zipWith Cpx.mul ds ws) ws = ds ∧
    List.zipWith Cpx.mul (List.zipWith (fun z w => z.mul w.conj) ds ws) ws = ds := by
  have unit (i : Nat) (hi : i < ws.length) : entry ws i * (starRingEnd ℂ) (entry ws i) = 1 := by
    rw [Complex.mul_conj]
    have := hw _ (List.getElem_mem hi)
    rw [← List.getD_eq_getElem (d := Cpx.zero)] at this
    rw [entry, ← Cpx.toComplex_normSq, this]; norm_num
  constructor
  all_goals
    refine eq_of_entry (n := ws.length) (by simp [h]) h fun i hi => ?_
  · rw [entry_zipWith (by simp; omega) hi]
    simp only [Cpx.toComplex_mul, Cpx.toComplex_conj, toComplex_getD]
    rw [entry_mul (by omega) hi, mul_assoc, unit i hi, mul_one]
  · rw [entry_mul (by simp; omega) hi, entry_zipWith (by omega) hi]
    simp only [Cpx.toComplex_mul, Cpx.toComplex_conj, toComplex_getD]
    rw [mul_assoc, mul_comm (starRingEnd ℂ _), unit i hi, mul_one]

theorem half_of_dvd {l m : Nat} (h : 2 ^ (l + 1) ∣ m) : 2 ^ l ∣ m / 2 ∧ 2 * (m / 2) = m := by
  obtain ⟨k, rfl⟩ := h
  have : 2 ^ (l + 1) * k = 2 * (2 ^ l * k) := by ring
  rw [this, Nat.mul_div_cancel_left _ (by norm_num)]
  exact ⟨⟨k, rfl⟩, rfl⟩

theorem fwdLevels_length (l m : Nat) (xs : List Cpx) (d : 2 ^ l ∣ m) (h : xs.length = m) : (fwdLevels l m xs).length = m := by
  induction l generalizing m xs with
  | zero => exact oddFwd_length m xs h
  | succ l ih =>
    obtain ⟨d', e⟩ := half_of_dvd d
    unfold fwdLevels
    simp only [zipBins_length]
    rw [ih _ _ d', ih _ _ d'] <;> simp [h] <;> omega

theorem invLevels_length (l m : Nat) (xs : List Cpx) (d : 2 ^ l ∣ m) (h : xs.length = m) : (invLevels l m xs).length = m := by
  induction l generalizing m xs with
  | zero => exact oddInv_length m xs h
  | succ l ih =>
    obtain ⟨d', e⟩ := half_of_dvd d
    have u := unzipBins_length (m / 2) xs (by omega)
    unfold invLevels
    simp only [List.length_append, List.length_zipWith, twiddles_length]
    rw [ih _ _ d' u.1, ih _ _ d' u.2]
    omega

theorem invLevels_fwdLevels (l m : Nat) (xs : List Cpx) (d : 2 ^ l ∣ m) (h : xs.length = m) :
    invLevels l m (fwdLevels l m xs) = xs := by
  induction l generalizing m xs with
  | zero => exact oddInv_oddFwd h
  | succ l ih =>
    obtain ⟨d', e⟩ := half_of_dvd d
    have lu : (xs.take (m / 2)).length = m / 2 := by simp; omega
    have lv : (xs.drop (m / 2)).length = m / 2 := by simp; omega
    unfold invLevels fwdLevels
    simp only
    rw [unzipBins_zipBins]
    · simp only
      rw [ih _ _ d' (by simp [lu, lv]), ih _ _ d' (by simp [lu, lv]),
        (turn_back (by simp [lu, lv]) fun w => twiddles_normSq).1, (half_add_half_sub lu lv).1, (half_add_half_sub lu lv).2,
        List.take_append_drop]
    · rw [fwdLevels_length _ _ _ d' (by simp [lu, lv]), fwdLevels_length _ _ _ d' (by simp [lu, lv])]

theorem fwdLevels_invLevels (l m : Nat) (xs : List Cpx) (d : 2 ^ l ∣ m) (h : xs.length = m) :
    fwdLevels l m (invLevels l m xs) = xs := by
  induction l generalizing m xs with
  | zero => exact oddFwd_oddInv h
  | succ l ih =>
    obtain ⟨d', e⟩ := half_of_dvd d
    obtain ⟨la, lb⟩ := unzipBins_length (m / 2) xs (by omega)
    have ls := invLevels_length l (m / 2) _ d' la
    have ld := invLevels_length l (m / 2) _ d' lb
    have lt : (List.zipWith (fun z w => z.mul w.conj) (invLevels l (m / 2) (unzipBins xs).2) (twiddles m)).length = m / 2 := by
      simp [ld]
    unfold invLevels fwdLevels
    simp only
    rw [List.take_left' (by simp [ls, lt]), List.drop_left' (by simp [ls, lt]), (add_sub_half ls lt).1, (add_sub_half ls lt).2,
      (turn_back (by simp [ld]) fun w => twiddles_normSq).2, ih _ _ d' la, ih _ _ d' lb, zipBins_unzipBins (m / 2) xs (by omega)]

@[simp] theorem dftInv_length (m : Nat) (xs : List Cpx) : (dftInv m xs).length = m :=
  invLevels_length _ _ _ (pow_halvings_dvd _ _) (padTo_length _ _)

@[simp] theorem dftFwd_length (m : Nat) (xs : List Cpx) : (dftFwd m xs).length = m :=
  fwdLevels_length _ _ _ (pow_halvings_dvd _ _) (padTo_length _ _)

theorem zipBins_replicate (n : Nat) (z : Cpx) : zipBins (List.replicate n z) (List.replicate n z) = List.replicate (2 * n) z := by
  induction n with
  | zero => rfl
  | succ n ih =>
    rw [show 2 * (n + 1) = 2 * n + 1 + 1 by ring, List.replicate_succ, List.replicate_succ, List.replicate_succ, ← ih]
    simp [zipBins]

/-- The forward transform of the zero vector. -/
theorem fwdLevels_zero (l m : Nat) (d : 2 ^ l ∣ m) : fwdLevels l m (List.replicate m Cpx.zero) = List.replicate m Cpx.zero := by
  induction l generalizing m with
  | zero =>
    unfold fwdLevels oddFwd
    split
    · rfl
    · split
      · refine eq_of_entry (n := m) (by simp [dftRefFwd]) (by simp) fun i hi => ?_
        have z (j : Nat) : entry (List.replicate m Cpx.zero) j = 0 := by
          rw [entry, List.getD_eq_getElem?_getD, List.getElem?_replicate]; split <;> simp
        simp [entry_dftRefFwd _ hi, z]
      · rfl
  | succ l ih =>
    obtain ⟨d', e⟩ := half_of_dvd d
    have h2 : m - m / 2 = m / 2 := by omega
    have h3 : min (m / 2) m = m / 2 := by omega
    have za : Cpx.add Cpx.zero Cpx.zero = Cpx.zero := by decide +kernel
    have zs : Cpx.sub Cpx.zero Cpx.zero = Cpx.zero := by decide +kernel
    have zm : List.zipWith Cpx.mul (List.replicate (m / 2) Cpx.zero) (twiddles m) = List.replicate (m / 2) Cpx.zero := by
      refine eq_of_entry (n := m / 2) (by simp) (by simp) fun i hi => ?_
      rw [entry_mul (by simpa using hi) (by simpa using hi)]
      simp [entry, List.getD_eq_getElem?_getD, hi]
    unfold fwdLevels
    simp only [List.take_replicate, List.drop_replicate, h2, h3, List.zipWith_replicate, min_self, za, zs, zm, ih _ d']
    rw [zipBins_replicate, e]

theorem dftInv_zero (m : Nat) : dftInv m (List.replicate m Cpx.zero) = List.replicate m Cpx.zero := by
  rw [dftInv, padTo_of_length (by simp)]
  have := invLevels_fwdLevels (halvings m m) m (List.replicate m Cpx.zero) (pow_halvings_dvd m m) (by simp)
  rwa [fwdLevels_zero _ _ (pow_halvings_dvd m m)] at this

/-- R10: the forward transform of an inverse one. -/
theorem dftFwd_dftInv {m : Nat} {xs : List Cpx} (h : xs.length = m) : dftFwd m (dftInv m xs) = xs := by
  rw [dftFwd, padTo_of_length (dftInv_length _ _), dftInv, padTo_of_length h, fwdLevels_invLevels _ _ _ (pow_halvings_dvd _ _) h]

/-- R10: the inverse transform of a forward one. -/
theorem dftInv_dftFwd {m : Nat} {xs : List Cpx} (h : xs.length = m) : dftInv m (dftFwd m xs) = xs := by
  rw [dftInv, padTo_of_length (dftFwd_length _ _), dftFwd, padTo_of_length h, invLevels_fwdLevels _ _ _ (pow_halvings_dvd _ _) h]


/-! ### Both transforms: how near they are to R17 over the real numbers -/

/-- The forward sum of R17 over the complex numbers. -/
noncomputable def fourier (m : Nat) (xs : List Cpx) (k : Nat) : ℂ :=
  ∑ n ∈ Finset.range m, entry xs n * realCis (-((k : ℝ) * n / m))

/-- The sum of the moduli of the first `m` entries. -/
noncomputable def modulusSum (m : Nat) (xs : List Cpx) : ℝ := ∑ n ∈ Finset.range m, ‖entry xs n‖

theorem modulusSum_nonneg (m : Nat) (xs : List Cpx) : 0 ≤ modulusSum m xs := Finset.sum_nonneg fun _ _ => norm_nonneg _

theorem realCis_of_int (n : ℤ) : realCis n = 1 := by
  have := realCis_add_int 0 n; rw [zero_add] at this; rw [this]; simp [realCis]

theorem realCis_neg_half : realCis (-(1 / 2)) = -1 := by
  unfold realCis
  rw [show ((2 * Real.pi * (-(1 / 2)) : ℝ) : ℂ) * Complex.I = -(Real.pi * Complex.I) by push_cast; ring, Complex.exp_neg,
    Complex.exp_pi_mul_I]
  norm_num

theorem sum_range_double (h : Nat) (f : Nat → ℂ) :
    ∑ n ∈ Finset.range (2 * h), f n = ∑ n ∈ Finset.range h, (f n + f (h + n)) := by
  rw [two_mul, Finset.sum_range_add, Finset.sum_add_distrib]

theorem modulusSum_double (h : Nat) (xs : List Cpx) :
    modulusSum (2 * h) xs = ∑ n ∈ Finset.range h, (‖entry xs n‖ + ‖entry xs (h + n)‖) := by
  rw [modulusSum, two_mul, Finset.sum_range_add, Finset.sum_add_distrib]

theorem entry_take {xs : List Cpx} {h n : Nat} (hn : n < h) : entry (xs.take h) n = entry xs n := by
  simp [entry, List.getD_eq_getElem?_getD, hn]

theorem entry_drop (xs : List Cpx) (h n : Nat) : entry (xs.drop h) n = entry xs (h + n) := by
  simp [entry, List.getD_eq_getElem?_getD]

theorem entry_twiddles {m n : Nat} (h : n < m / 2) : entry (twiddles m) n = (cisTurn (-((n : Num) / m))).toComplex :=
  entry_map_range _ _ h

theorem entry_zipBins {a b : List Cpx} (h : a.length = b.length) (j : Nat) :
    entry (zipBins a b) (2 * j) = entry a j ∧ entry (zipBins a b) (2 * j + 1) = entry b j := by
  induction a generalizing b j with
  | nil => cases b <;> simp_all [zipBins, entry]
  | cons x a ih =>
    match b, h with
    | y :: b, h =>
      have e : zipBins (x :: a) (y :: b) = x :: y :: zipBins a b := by simp [zipBins]
      rw [e]
      match j with
      | 0 => exact ⟨rfl, rfl⟩
      | j + 1 =>
        rw [show 2 * (j + 1) = 2 * j + 1 + 1 by ring]
        simp only [entry_cons_succ]
        exact ih (by simpa using h) j

/-- Half of the sum of R17, for a bin of even index. -/
theorem fourier_even {h : Nat} (hh : 0 < h) (xs : List Cpx) (hx : xs.length = 2 * h) (j : Nat) :
    fourier (2 * h) xs (2 * j) = fourier h (List.zipWith Cpx.add (xs.take h) (xs.drop h)) j := by
  have hR : (h : ℝ) ≠ 0 := by positivity
  rw [fourier, sum_range_double, fourier]
  apply Finset.sum_congr rfl
  intro n hn
  have hn := Finset.mem_range.1 hn
  rw [entry_add (by simp; omega) (by simp; omega), entry_take hn, entry_drop, add_mul]
  congr 2
  · congr 1; push_cast; field_simp
  · rw [← realCis_add_int _ (j : ℤ)]; congr 1; push_cast; field_simp; ring

/-- Half of the sum of R17, for a bin of odd index. -/
theorem fourier_odd {h : Nat} (hh : 0 < h) (xs : List Cpx) (j : Nat) :
    fourier (2 * h) xs (2 * j + 1) = ∑ n ∈ Finset.range h,
      (entry xs n - entry xs (h + n)) * realCis (-((n : ℝ) / (2 * h : Nat))) * realCis (-((j : ℝ) * n / h)) := by
  have hR : (h : ℝ) ≠ 0 := by positivity
  rw [fourier, sum_range_double]
  apply Finset.sum_congr rfl
  intro n _
  have e1 : realCis (-(((2 * j + 1 : Nat) : ℝ) * n / (2 * h : Nat))) =
      realCis (-((n : ℝ) / (2 * h : Nat))) * realCis (-((j : ℝ) * n / h)) := by
    rw [← realCis_add]; congr 1; push_cast; field_simp; ring
  have e2 : realCis (-(((2 * j + 1 : Nat) : ℝ) * (h + n : Nat) / (2 * h : Nat))) =
      -(realCis (-((n : ℝ) / (2 * h : Nat))) * realCis (-((j : ℝ) * n / h))) := by
    have : -(((2 * j + 1 : Nat) : ℝ) * (h + n : Nat) / (2 * h : Nat)) =
        -(((2 * j + 1 : Nat) : ℝ) * n / (2 * h : Nat)) + -(1 / 2) + ((-(j : ℤ) : ℤ) : ℝ) := by push_cast; field_simp; ring
    rw [this, realCis_add_int, realCis_add, realCis_neg_half, e1]; ring
  rw [e1, e2]; ring

theorem fourier_sub_le {m : Nat} {xs ys : List Cpx} (k : Nat) :
    ‖fourier m xs k - fourier m ys k‖ ≤ ∑ n ∈ Finset.range m, ‖entry xs n - entry ys n‖ := by
  rw [fourier, fourier, ← Finset.sum_sub_distrib]
  refine norm_sum_le_of_le _ fun n _ => ?_
  rw [← sub_mul, norm_mul, realCis_norm, mul_one]

theorem oddFwd_close {m : Nat} (hm : m < 10 ^ 9) {xs : List Cpx} (hx : xs.length = m) {k : Nat} (hk : k < m) :
    ‖entry (oddFwd m xs) k - fourier m xs k‖ ≤ 1 / (7 * 10 ^ 19) * modulusSum m xs := by
  unfold oddFwd
  split
  · rename_i h1
    subst h1
    have : k = 0 := by omega
    subst k
    have e : fourier 1 xs 0 = entry xs 0 := by simp [fourier, realCis]
    rw [e, sub_self, norm_zero]
    exact mul_nonneg (by positivity) (modulusSum_nonneg _ _)
  · rw [if_pos (undo_isSome m hm []), entry_dftRefFwd _ hk, fourier, ← Finset.sum_sub_distrib, modulusSum, Finset.mul_sum]
    refine norm_sum_le_of_le _ fun n _ => ?_
    rw [mul_comm (entry xs n), ← sub_mul, norm_mul]
    apply mul_le_mul_of_nonneg_right _ (norm_nonneg _)
    simpa using cisTurn_close (-((k : Num) * n / m))

theorem fwdLevels_close (l m : Nat) (xs : List Cpx) (d : 2 ^ l ∣ m) (hm : m < 10 ^ 9) (hx : xs.length = m) (k : Nat) (hk : k < m) :
    ‖entry (fwdLevels l m xs) k - fourier m xs k‖ ≤ (l + 1) / (7 * 10 ^ 19) * modulusSum m xs := by
  induction l generalizing m xs k with
  | zero => simpa [fwdLevels] using oddFwd_close hm hx hk
  | succ l ih =>
    obtain ⟨d', e⟩ := half_of_dvd d
    obtain ⟨h, rfl⟩ : ∃ h, m = 2 * h := ⟨m / 2, e.symm⟩
    have h2 : 2 * h / 2 = h := by omega
    rw [h2] at d'
    have lu : (xs.take h).length = h := by simp; omega
    have lv : (xs.drop h).length = h := by simp; omega
    have lt : (twiddles (2 * h)).length = h := by simp
    have hpos : 0 < h := by omega
    unfold fwdLevels
    simp only [h2]
    set a := List.zipWith Cpx.add (xs.take h) (xs.drop h) with ha
    set b := List.zipWith Cpx.mul (List.zipWith Cpx.sub (xs.take h) (xs.drop h)) (twiddles (2 * h)) with hb
    have la : a.length = h := by simp [ha, lu, lv]
    have lb : b.length = h := by simp [hb, lu, lv]
    have ea (n : Nat) (hn : n < h) : entry a n = entry xs n + entry xs (h + n) := by
      rw [ha, entry_add (by omega) (by omega), entry_take hn, entry_drop]
    have eb (n : Nat) (hn : n < h) : entry b n = (entry xs n - entry xs (h + n)) * (cisTurn (-((n : Num) / (2 * h : Nat)))).toComplex := by
      rw [hb, entry_mul (by simp [lu, lv]; omega) (by omega), entry_sub (by omega) (by omega), entry_take hn, entry_drop,
        entry_twiddles (by omega)]
    have sa : modulusSum h a ≤ modulusSum (2 * h) xs := by
      rw [modulusSum_double, modulusSum]
      exact Finset.sum_le_sum fun n hn => by rw [ea n (Finset.mem_range.1 hn)]; exact norm_add_le _ _
    have sb : modulusSum h b ≤ modulusSum (2 * h) xs := by
      rw [modulusSum_double, modulusSum]
      exact Finset.sum_le_sum fun n hn => by
        rw [eb n (Finset.mem_range.1 hn), norm_mul, cisTurn_norm, mul_one]; exact norm_sub_le _ _
    have le (s : ℝ) (hs : s ≤ modulusSum (2 * h) xs) : ((l : ℝ) + 1) / (7 * 10 ^ 19) * s ≤ (l + 1) / (7 * 10 ^ 19) * modulusSum (2 * h) xs :=
      mul_le_mul_of_nonneg_left hs (by positivity)
    have lz : (fwdLevels l h a).length = (fwdLevels l h b).length := by
      rw [fwdLevels_length _ _ _ d' la, fwdLevels_length _ _ _ d' lb]
    rcases Nat.even_or_odd' k with ⟨j, rfl | rfl⟩
    · rw [(entry_zipBins lz j).1, fourier_even hpos xs hx, ← ha]
      refine (ih h a d' (by omega) la j (by omega)).trans ((le _ sa).trans ?_)
      apply mul_le_mul_of_nonneg_right _ (modulusSum_nonneg _ _)
      push_cast
      gcongr
      linarith
    · rw [(entry_zipBins lz j).2, ← sub_add_sub_cancel _ (fourier h b j)]
      refine (norm_add_le _ _).trans ((add_le_add ((ih h b d' (by omega) lb j (by omega)).trans (le _ sb)) (?_ :
        _ ≤ 1 / (7 * 10 ^ 19) * modulusSum (2 * h) xs)).trans (le_of_eq (by push_cast; ring)))
      rw [fourier_odd hpos xs, fourier, ← Finset.sum_sub_distrib, modulusSum_double, Finset.mul_sum]
      refine norm_sum_le_of_le _ fun n hn => ?_
      rw [eb n (Finset.mem_range.1 hn), ← sub_mul, norm_mul, realCis_norm, mul_one, ← mul_sub, norm_mul, mul_comm]
      apply mul_le_mul _ (norm_sub_le _ _) (norm_nonneg _) (by positivity)
      simpa using cisTurn_close (-((n : Num) / (2 * h : Nat)))

/-- R17: every entry of the forward transform is near that of the sum over the real numbers. -/
theorem dftFwd_close {m : Nat} (hm : m < 2 ^ 16) {xs : List Cpx} (hx : xs.length = m) {k : Nat} (hk : k < m) :
    ‖entry (dftFwd m xs) k - fourier m xs k‖ ≤ 3 / 10 ^ 19 * modulusSum m xs := by
  rw [dftFwd, padTo_of_length hx]
  have l : halvings m m ≤ 15 := by
    by_contra h
    have := (Nat.pow_le_pow_right (n := 2) (by norm_num) (by omega : 16 ≤ halvings m m)).trans
      (Nat.le_of_dvd (by omega) (pow_halvings_dvd m m))
    omega
  refine (fwdLevels_close _ m xs (pow_halvings_dvd m m) (by omega) hx k hk).trans ?_
  apply mul_le_mul_of_nonneg_right _ (modulusSum_nonneg _ _)
  have : ((halvings m m : Nat) : ℝ) ≤ 15 := by exact_mod_cast l
  rw [div_le_div_iff₀ (by norm_num) (by norm_num)]
  linarith

/-- The inverse sum of R17 over the complex numbers. -/
noncomputable def fourierInv (m : Nat) (xs : List Cpx) (n : Nat) : ℂ :=
  1 / (m : ℂ) * ∑ k ∈ Finset.range m, entry xs k * realCis ((k : ℝ) * n / m)

/-- Over the complex numbers the inverse sum of R17 undoes the forward one. -/
theorem sum_fourier {m n : Nat} (hn : n < m) (xs : List Cpx) :
    1 / (m : ℂ) * ∑ k ∈ Finset.range m, fourier m xs k * realCis ((k : ℝ) * n / m) = entry xs n := by
  have hm : (m : ℂ) ≠ 0 := by exact_mod_cast (by omega : m ≠ 0)
  have e : ∑ k ∈ Finset.range m, fourier m xs k * realCis ((k : ℝ) * n / m) =
      ∑ l ∈ Finset.range m, entry xs l * if n = l then (m : ℂ) else 0 := by
    simp only [fourier, Finset.sum_mul]
    rw [Finset.sum_comm]
    refine Finset.sum_congr rfl fun l hl => ?_
    rw [← sum_realCis hn (Finset.mem_range.1 hl), Finset.mul_sum]
    exact Finset.sum_congr rfl fun k _ => by ring
  rw [e]
  simp [hn]
  field_simp

/-- R17: every entry of the inverse transform is near that of the sum over the real numbers. -/
theorem dftInv_close {m : Nat} (hm : m < 2 ^ 16) {xs : List Cpx} (hx : xs.length = m) {n : Nat} (hn : n < m) :
    ‖entry (dftInv m xs) n - fourierInv m xs n‖ ≤ 4 / 10 ^ 19 * modulusSum m xs := by
  have hpos : (0 : ℝ) < m := by exact_mod_cast (by omega : 0 < m)
  have hm' : (m : ℝ) ≤ 2 ^ 16 := by exact_mod_cast hm.le
  set y := dftInv m xs
  have ly : y.length = m := dftInv_length _ _
  have mean (f : Nat → ℂ) (b : ℝ) (n : Nat) (h : ∑ k ∈ Finset.range m, ‖f k‖ ≤ b) :
      ‖1 / (m : ℂ) * ∑ k ∈ Finset.range m, f k * realCis ((k : ℝ) * n / m)‖ ≤ b / m := by
    rw [norm_mul, norm_div, norm_one, Complex.norm_natCast, one_div, inv_mul_eq_div]
    gcongr
    exact (norm_sum_le_of_le _ fun k _ => (by rw [norm_mul, realCis_norm, mul_one] : _ ≤ ‖f k‖)).trans h
  have near (n : Nat) (hn : n < m) : ‖entry y n - fourierInv m xs n‖ ≤ 3 / 10 ^ 19 * modulusSum m y := by
    rw [← sum_fourier hn y, fourierInv, ← mul_sub, ← Finset.sum_sub_distrib]
    simp only [← sub_mul]
    refine (mean _ (m * (3 / 10 ^ 19 * modulusSum m y)) n ?_).trans_eq (by field_simp)
    refine (Finset.sum_le_card_nsmul _ _ _ fun k hk => ?_).trans_eq (by rw [Finset.card_range, nsmul_eq_mul])
    have := dftFwd_close hm ly (Finset.mem_range.1 hk)
    rwa [dftFwd_dftInv hx, norm_sub_rev] at this
  have size : modulusSum m y ≤ modulusSum m xs + m * (3 / 10 ^ 19 * modulusSum m y) := by
    have b (n : Nat) (hn : n ∈ Finset.range m) : ‖entry y n‖ ≤ modulusSum m xs / m + 3 / 10 ^ 19 * modulusSum m y := by
      rw [← add_sub_cancel (fourierInv m xs n) (entry y n)]
      exact (norm_add_le _ _).trans (add_le_add (mean _ _ n le_rfl) (near n (Finset.mem_range.1 hn)))
    refine (Finset.sum_le_card_nsmul _ _ _ b).trans_eq ?_
    rw [Finset.card_range, nsmul_eq_mul]
    field_simp
  refine (near n hn).trans ?_
  nlinarith [mul_le_mul_of_nonneg_right hm' (modulusSum_nonneg m y), modulusSum_nonneg m y]


/-! ### A rotated vector -/

/-- The vector rotated by `a` entries: entry `n` is entry `(n + a) mod m`. -/
def rotate (m a : Nat) (xs : List Cpx) : List Cpx := (List.range m).map fun n => xs.getD ((n + a) % m) Cpx.zero

@[simp] theorem rotate_length (m a : Nat) (xs : List Cpx) : (rotate m a xs).length = m := by simp [rotate]

theorem entry_rotate {m a n : Nat} (xs : List Cpx) (h : n < m) : entry (rotate m a xs) n = entry xs ((n + a) % m) :=
  entry_map_range _ _ h

theorem sum_rotate {β : Type} [AddCommMonoid β] {m : Nat} (hm : 0 < m) (a : Nat) (f : Nat → β) :
    ∑ n ∈ Finset.range m, f ((n + a) % m) = ∑ n ∈ Finset.range m, f n := by
  refine Finset.sum_nbij' (fun n => (n + a) % m) (fun n => (n + (m - a % m)) % m) ?_ ?_ ?_ ?_ (fun _ _ => rfl)
  · intro n _; exact Finset.mem_range.2 (Nat.mod_lt _ hm)
  · intro n _; exact Finset.mem_range.2 (Nat.mod_lt _ hm)
  all_goals
    intro n hn
    have hn := Finset.mem_range.1 hn
    have ha := Nat.mod_lt a hm
    obtain ⟨q, hq⟩ : ∃ q, a = m * q + a % m := ⟨a / m, (Nat.div_add_mod a m).symm⟩
    have e : n + (m - a % m) + a = n + m * (q + 1) := by rw [mul_add, mul_one]; omega
    have e' : n + a + (m - a % m) = n + m * (q + 1) := by rw [mul_add, mul_one]; omega
    simp only [Nat.mod_add_mod]
    first
    | rw [e', Nat.add_mul_mod_self_left, Nat.mod_eq_of_lt hn]
    | rw [e, Nat.add_mul_mod_self_left, Nat.mod_eq_of_lt hn]

theorem modulusSum_rotate {m : Nat} (hm : 0 < m) (a : Nat) (xs : List Cpx) : modulusSum m (rotate m a xs) = modulusSum m xs := by
  rw [modulusSum, modulusSum, ← sum_rotate hm a fun n => ‖entry xs n‖]
  exact Finset.sum_congr rfl fun n hn => by rw [entry_rotate _ (Finset.mem_range.1 hn)]

theorem fourier_rotate {m : Nat} (hm : 0 < m) (a : Nat) (xs : List Cpx) (k : Nat) :
    fourier m (rotate m a xs) k = fourier m xs k * realCis ((k : ℝ) * a / m) := by
  have hR : (m : ℝ) ≠ 0 := by positivity
  rw [fourier, fourier, ← sum_rotate hm a fun n => entry xs n * realCis (-((k : ℝ) * n / m)), Finset.sum_mul]
  apply Finset.sum_congr rfl
  intro n hn
  obtain ⟨q, hq⟩ : ∃ q, (n + a) % m + m * q = n + a := ⟨_, Nat.mod_add_div (n + a) m⟩
  rw [entry_rotate _ (Finset.mem_range.1 hn), mul_assoc, ← realCis_add, ← realCis_add_int _ ((k * q : Nat) : ℤ)]
  congr 2
  have : (((n + a) % m : Nat) : ℝ) = n + a - m * q := by rw [eq_sub_iff_add_eq]; exact_mod_cast hq
  rw [this]
  push_cast
  field_simp
  ring

/-- R149 (e): the forward transform of a rotated inverse transform turns each bin by the phase of the rotation. -/
theorem dftFwd_rotate_dftInv_close {m : Nat} (hm : m < 2 ^ 16) {v : List Cpx} (hv : v.length = m) (a : Nat) {k : Nat} (hk : k < m) :
    ‖entry (dftFwd m (rotate m a (dftInv m v))) k - entry v k * (cisTurn ((k : Num) * a / m)).toComplex‖ ≤
      1 / 10 ^ 18 * modulusSum m (dftInv m v) := by
  have hpos : 0 < m := by omega
  set x := dftInv m v with hx
  set s := modulusSum m x with hs
  have lx : x.length = m := by simp [hx]
  have c1 := dftFwd_close hm (rotate_length m a x) hk
  rw [fourier_rotate hpos, modulusSum_rotate hpos, ← hs] at c1
  have c2 := dftFwd_close hm lx hk
  rw [hx, dftFwd_dftInv hv, ← hx, ← hs] at c2
  have c3 : ‖fourier m x k‖ ≤ s := norm_sum_le_of_le _ fun n _ => by rw [norm_mul, realCis_norm, mul_one]
  have c4 : ‖realCis ((k : ℝ) * a / m) - (cisTurn ((k : Num) * a / m)).toComplex‖ ≤ 1 / (7 * 10 ^ 19) := by
    rw [norm_sub_rev]; simpa using cisTurn_close ((k : Num) * a / m)
  have e : entry (dftFwd m (rotate m a x)) k - entry v k * (cisTurn ((k : Num) * a / m)).toComplex =
      (entry (dftFwd m (rotate m a x)) k - fourier m x k * realCis ((k : ℝ) * a / m)) +
      (fourier m x k * (realCis ((k : ℝ) * a / m) - (cisTurn ((k : Num) * a / m)).toComplex) -
        (entry v k - fourier m x k) * (cisTurn ((k : Num) * a / m)).toComplex) := by ring
  have h0 : 0 ≤ s := modulusSum_nonneg _ _
  rw [e]
  refine (norm_add_le _ _).trans ((add_le_add c1 (norm_sub_le _ _)).trans ?_)
  rw [norm_mul, norm_mul, cisTurn_norm, mul_one]
  have c5 : ‖fourier m x k‖ * ‖realCis ((k : ℝ) * a / m) - (cisTurn ((k : Num) * a / m)).toComplex‖ ≤ s * (1 / (7 * 10 ^ 19)) :=
    mul_le_mul c3 c4 (norm_nonneg _) h0
  have c6 : 3 / 10 ^ 19 * s + (s * (1 / (7 * 10 ^ 19)) + 3 / 10 ^ 19 * s) ≤ 1 / 10 ^ 18 * s := by nlinarith
  linarith

/-- The same with what the model computes: the squared distance, against the energy of the time-domain vector. -/
theorem dftFwd_rotate_dftInv {m : Nat} (hm : m < 2 ^ 16) {v : List Cpx} (hv : v.length = m) (a : Nat) {k : Nat} (hk : k < m) :
    (((dftFwd m (rotate m a (dftInv m v))).getD k Cpx.zero).sub ((v.getD k Cpx.zero).mul (cisTurn ((k : Num) * a / m)))).normSq ≤
      m * numSum ((dftInv m v).map Cpx.normSq) / 10 ^ 36 := by
  have c := dftFwd_rotate_dftInv_close hm hv a hk
  have lx : (dftInv m v).length = m := by simp
  have q : ((numSum ((dftInv m v).map Cpx.normSq) : Num) : ℝ) = ∑ n ∈ Finset.range m, ‖entry (dftInv m v) n‖ ^ 2 := by
    generalize dftInv m v = x at lx
    clear c hm hv hk
    induction m generalizing x with
    | zero => simp [List.length_eq_zero_iff.1 lx, numSum]
    | succ m ih =>
      match x, lx with
      | y :: x, lx =>
        have := ih x (by simpa using lx)
        rw [Finset.sum_range_succ', ← Finset.sum_congr rfl fun n _ => by rw [entry_cons_succ], ← this, entry_cons_zero,
          ← Complex.normSq_eq_norm_sq, ← Cpx.toComplex_normSq]
        simp [numSum, add_comm]
  have s : modulusSum m (dftInv m v) ^ 2 ≤ m * ∑ n ∈ Finset.range m, ‖entry (dftInv m v) n‖ ^ 2 := by
    have := sq_sum_le_card_mul_sum_sq (s := Finset.range m) (f := fun n => ‖entry (dftInv m v) n‖)
    rwa [Finset.card_range] at this
  rw [← Rat.cast_le (K := ℝ), Cpx.toComplex_normSq, Complex.normSq_eq_norm_sq, Cpx.toComplex_sub, Cpx.toComplex_mul, toComplex_getD,
    toComplex_getD, Rat.cast_div, Rat.cast_mul, q]
  refine (pow_le_pow_left₀ (norm_nonneg _) c 2).trans ?_
  rw [mul_pow]
  push_cast
  rw [le_div_iff₀ (by norm_num)]
  nlinarith [s]

end Machine
end Sys2Proof
end

