-- ==== Sys2Proof/Laws/Ops.lean ====
section
/-! SUPPORT. What each shared operation can do, said once: responses, failures, the checks before a meaning, events, the unit
transitions, and the list operations of the operand forms. -/

namespace Sys2Proof.Machine

/-! ### Responses and checks -/

theorem respond_eq (ws : List Word) (s : State) :
    respond ws s = .next { s with rsp := s.rsp ++ statusWord .ok ws.length :: ws } := rfl

theorem raise_eq (st : Status) (s : State) : raise st s = .next { s with rsp := s.rsp ++ [statusWord st 0] } := rfl

theorem respond_next {ws : List Word} {s t : State} (h : respond ws s = .next t) :
    t.rsp = s.rsp ++ statusWord .ok ws.length :: ws ∧ t.cmd = s.cmd ∧ t.tx = s.tx ∧ t.rx = s.rx := by
  cases h; exact ⟨rfl, rfl, rfl, rfl⟩

theorem raise_next {st : Status} {s t : State} (h : raise st s = .next t) :
    t.rsp = s.rsp ++ [statusWord st 0] ∧ t.cmd = s.cmd ∧ t.tx = s.tx ∧ t.rx = s.rx := by
  cases h; exact ⟨rfl, rfl, rfl, rfl⟩

theorem ifTxConfigured_of_unconfigured {s : State} (h : s.tx.state = .unconfigured) (k : Result) :
    ifTxConfigured s k = raise .notConfigured s := if_pos h

theorem ifTxConfigured_of_configured {s : State} (h : s.tx.state ≠ .unconfigured) (k : Result) :
    ifTxConfigured s k = k := if_neg h

theorem ifRxConfigured_of_unconfigured {s : State} (h : s.rx.state = .unconfigured) (k : Result) :
    ifRxConfigured s k = raise .notConfigured s := if_pos h

theorem ifRxConfigured_of_configured {s : State} (h : s.rx.state ≠ .unconfigured) (k : Result) :
    ifRxConfigured s k = k := if_neg h

@[simp] theorem ifFits_fits {α : Type} (a : α) (s : State) (k : α → Result) : ifFits (.fits a) s k = k a := rfl

@[simp] theorem ifFits_misfit {α : Type} (ws : List Word) (s : State) (k : α → Result) :
    ifFits (.misfit ws) s k = raise .illegalCommand s := rfl

theorem ifTxConfigured_next {s t : State} {k : Result} (h : ifTxConfigured s k = .next t) :
    (s.tx.state = .unconfigured ∧ raise .notConfigured s = .next t) ∨ (s.tx.state ≠ .unconfigured ∧ k = .next t) := by
  unfold ifTxConfigured at h; split at h
  · exact .inl ⟨‹_›, h⟩
  · exact .inr ⟨‹_›, h⟩

theorem ifRxConfigured_next {s t : State} {k : Result} (h : ifRxConfigured s k = .next t) :
    (s.rx.state = .unconfigured ∧ raise .notConfigured s = .next t) ∨ (s.rx.state ≠ .unconfigured ∧ k = .next t) := by
  unfold ifRxConfigured at h; split at h
  · exact .inl ⟨‹_›, h⟩
  · exact .inr ⟨‹_›, h⟩

theorem ifFits_next {α : Type} {o : Operands α} {s t : State} {k : α → Result} (h : ifFits o s k = .next t) :
    (∃ ws, o = .misfit ws ∧ raise .illegalCommand s = .next t) ∨ (∃ a, o = .fits a ∧ k a = .next t) := by
  cases o with
  | fits a => exact .inr ⟨a, rfl, h⟩
  | misfit ws => exact .inl ⟨ws, rfl, h⟩

/-- The low byte of a status word tells the status. -/
theorem statusWord_low (st : Status) (n : Nat) : (statusWord st n).extractLsb' 0 8 = statusCode st := by
  unfold statusWord
  ext i hi
  rw [BitVec.getElem_extractLsb', Nat.zero_add]
  exact (BitVec.getLsbD_append (x := BitVec.ofNat 24 n) (y := statusCode st)).trans (by simp [hi, BitVec.getLsbD_eq_getElem])

theorem statusCode_injective {a b : Status} (h : statusCode a = statusCode b) : a = b := by
  cases a <;> cases b <;> first | rfl | exact absurd h (by decide)

/-! ### Events -/

theorem emit_evq (e : EventRecord) (rx : RxUnit) :
    (emit e rx).evq = rx.evq ++ (if eventEnabled rx.evmask e then [e] else []) := by
  unfold emit; split <;> simp

theorem emit_eq (e : EventRecord) (rx : RxUnit) :
    emit e rx = { rx with evq := rx.evq ++ (if eventEnabled rx.evmask e then [e] else []) } := by
  unfold emit; split <;> simp

@[simp] theorem emit_state (e : EventRecord) (rx : RxUnit) : (emit e rx).state = rx.state := by unfold emit; split <;> rfl
@[simp] theorem emit_m (e : EventRecord) (rx : RxUnit) : (emit e rx).m = rx.m := by unfold emit; split <;> rfl
@[simp] theorem emit_cpLen (e : EventRecord) (rx : RxUnit) : (emit e rx).cpLen = rx.cpLen := by unfold emit; split <;> rfl
@[simp] theorem emit_taperLen (e : EventRecord) (rx : RxUnit) : (emit e rx).taperLen = rx.taperLen := by unfold emit; split <;> rfl
@[simp] theorem emit_table (e : EventRecord) (rx : RxUnit) : (emit e rx).table = rx.table := by unfold emit; split <;> rfl
@[simp] theorem emit_hdrCheck (e : EventRecord) (rx : RxUnit) : (emit e rx).hdrCheck = rx.hdrCheck := by unfold emit; split <;> rfl
@[simp] theorem emit_hdrFec (e : EventRecord) (rx : RxUnit) : (emit e rx).hdrFec = rx.hdrFec := by unfold emit; split <;> rfl
@[simp] theorem emit_hdrMod (e : EventRecord) (rx : RxUnit) : (emit e rx).hdrMod = rx.hdrMod := by unfold emit; split <;> rfl
@[simp] theorem emit_hUser (e : EventRecord) (rx : RxUnit) : (emit e rx).hUser = rx.hUser := by unfold emit; split <;> rfl
@[simp] theorem emit_maxSyms (e : EventRecord) (rx : RxUnit) : (emit e rx).maxSyms = rx.maxSyms := by unfold emit; split <;> rfl
@[simp] theorem emit_detT2 (e : EventRecord) (rx : RxUnit) : (emit e rx).detT2 = rx.detT2 := by unfold emit; split <;> rfl
@[simp] theorem emit_longT2 (e : EventRecord) (rx : RxUnit) : (emit e rx).longT2 = rx.longT2 := by unfold emit; split <;> rfl
@[simp] theorem emit_alpha (e : EventRecord) (rx : RxUnit) : (emit e rx).alpha = rx.alpha := by unfold emit; split <;> rfl
@[simp] theorem emit_kappa (e : EventRecord) (rx : RxUnit) : (emit e rx).kappa = rx.kappa := by unfold emit; split <;> rfl
@[simp] theorem emit_evmask (e : EventRecord) (rx : RxUnit) : (emit e rx).evmask = rx.evmask := by unfold emit; split <;> rfl
@[simp] theorem emit_derived (e : EventRecord) (rx : RxUnit) : (emit e rx).derived = rx.derived := by unfold emit; split <;> rfl
@[simp] theorem emit_win (e : EventRecord) (rx : RxUnit) : (emit e rx).win = rx.win := by unfold emit; split <;> rfl
@[simp] theorem emit_timer (e : EventRecord) (rx : RxUnit) : (emit e rx).timer = rx.timer := by unfold emit; split <;> rfl
@[simp] theorem emit_age (e : EventRecord) (rx : RxUnit) : (emit e rx).age = rx.age := by unfold emit; split <;> rfl
@[simp] theorem emit_cnt (e : EventRecord) (rx : RxUnit) : (emit e rx).cnt = rx.cnt := by unfold emit; split <;> rfl
@[simp] theorem emit_nsym (e : EventRecord) (rx : RxUnit) : (emit e rx).nsym = rx.nsym := by unfold emit; split <;> rfl
@[simp] theorem emit_symIdx (e : EventRecord) (rx : RxUnit) : (emit e rx).symIdx = rx.symIdx := by unfold emit; split <;> rfl
@[simp] theorem emit_bestNum (e : EventRecord) (rx : RxUnit) : (emit e rx).bestNum = rx.bestNum := by unfold emit; split <;> rfl
@[simp] theorem emit_bestDen (e : EventRecord) (rx : RxUnit) : (emit e rx).bestDen = rx.bestDen := by unfold emit; split <;> rfl
@[simp] theorem emit_bestP (e : EventRecord) (rx : RxUnit) : (emit e rx).bestP = rx.bestP := by unfold emit; split <;> rfl
@[simp] theorem emit_nu (e : EventRecord) (rx : RxUnit) : (emit e rx).nu = rx.nu := by unfold emit; split <;> rfl
@[simp] theorem emit_phi (e : EventRecord) (rx : RxUnit) : (emit e rx).phi = rx.phi := by unfold emit; split <;> rfl
@[simp] theorem emit_tau (e : EventRecord) (rx : RxUnit) : (emit e rx).tau = rx.tau := by unfold emit; split <;> rfl
@[simp] theorem emit_g (e : EventRecord) (rx : RxUnit) : (emit e rx).g = rx.g := by unfold emit; split <;> rfl
@[simp] theorem emit_rxbits (e : EventRecord) (rx : RxUnit) : (emit e rx).rxbits = rx.rxbits := by unfold emit; split <;> rfl
@[simp] theorem emit_pl (e : EventRecord) (rx : RxUnit) : (emit e rx).pl = rx.pl := by unfold emit; split <;> rfl
@[simp] theorem emit_curMod (e : EventRecord) (rx : RxUnit) : (emit e rx).curMod = rx.curMod := by unfold emit; split <;> rfl
@[simp] theorem emit_hdrUser (e : EventRecord) (rx : RxUnit) : (emit e rx).hdrUser = rx.hdrUser := by unfold emit; split <;> rfl
@[simp] theorem emit_plen (e : EventRecord) (rx : RxUnit) : (emit e rx).plen = rx.plen := by unfold emit; split <;> rfl
@[simp] theorem emit_pcheck (e : EventRecord) (rx : RxUnit) : (emit e rx).pcheck = rx.pcheck := by unfold emit; split <;> rfl
@[simp] theorem emit_pfec (e : EventRecord) (rx : RxUnit) : (emit e rx).pfec = rx.pfec := by unfold emit; split <;> rfl
@[simp] theorem emit_pmod (e : EventRecord) (rx : RxUnit) : (emit e rx).pmod = rx.pmod := by unfold emit; split <;> rfl
@[simp] theorem emit_payEncLen (e : EventRecord) (rx : RxUnit) : (emit e rx).payEncLen = rx.payEncLen := by unfold emit; split <;> rfl
@[simp] theorem emit_payNmod (e : EventRecord) (rx : RxUnit) : (emit e rx).payNmod = rx.payNmod := by unfold emit; split <;> rfl
@[simp] theorem emit_nPay (e : EventRecord) (rx : RxUnit) : (emit e rx).nPay = rx.nPay := by unfold emit; split <;> rfl

@[simp] theorem toDetect_emit (e : EventRecord) (rx : RxUnit) :
    toDetect (emit e rx) = { toDetect rx with evq := (emit e rx).evq } := by
  unfold emit; split <;> rfl

/-! ### Transitions of the receive unit -/

theorem SameRxConfig.refl (rx : RxUnit) : SameRxConfig rx rx := by simp [SameRxConfig]

theorem SameRxConfig.trans {a b c : RxUnit} (h : SameRxConfig a b) (k : SameRxConfig b c) : SameRxConfig a c := by
  simp only [SameRxConfig] at *; aesop

/-- What a sample can do in `DETECT`. -/
theorem stepDetect_cases (rx : RxUnit) :
    stepDetect rx = rx ∨ stepDetect rx = { takeBest (metric rx) rx with cnt := 0, state := .syncShort } := by
  unfold stepDetect; simp only; split
  · exact .inr rfl
  · exact .inl rfl

/-- What the budget test of `SYNC_SHORT` can do. -/
theorem shortBudget_cases (rx : RxUnit) :
    (rx.cnt < rx.maxSyms * (rx.m + rx.cpLen) ∧ shortBudget rx = rx) ∨
      (rx.maxSyms * (rx.m + rx.cpLen) ≤ rx.cnt ∧ shortBudget rx = toDetect rx) := by
  unfold shortBudget; split
  · exact .inr ⟨‹_›, rfl⟩
  · exact .inl ⟨by omega, rfl⟩

/-- What a sample can do in `SYNC_SHORT`. -/
theorem stepSyncShort_cases (rx : RxUnit) :
    stepSyncShort rx = shortBudget (takeBest (metric rx) { rx with age := rx.age + 1, cnt := rx.cnt + 1 }) ∨
      (rx.m / 2 < rx.age + 1 ∧ stepSyncShort rx = beginSyncLong { rx with age := rx.age + 1, cnt := rx.cnt + 1 }) ∨
      (rx.age + 1 ≤ rx.m / 2 ∧ stepSyncShort rx = shortBudget { rx with age := rx.age + 1, cnt := rx.cnt + 1 }) := by
  unfold stepSyncShort; simp only; split
  · exact .inl rfl
  · split
    · exact .inr (.inl ⟨‹_›, rfl⟩)
    · rename_i h; exact .inr (.inr ⟨by simpa using h, rfl⟩)

/-- What the test of a complete block in `SYNC_LONG` can do. -/
theorem testLong_cases (rx : RxUnit) :
    (testLong rx = beginHeader { rx with
        g := oneShotGains rx (disassemble rx), phi := rx.phi + rx.nu * ((rx.m + rx.cpLen : Nat) : Sys2Proof.Num) }) ∨
      (rx.maxSyms ≤ rx.nsym + 1 ∧ testLong rx = toDetect { rx with nsym := rx.nsym + 1 }) ∨
      (rx.nsym + 1 < rx.maxSyms ∧ testLong rx = { rx with
        nsym := rx.nsym + 1, phi := rx.phi + rx.nu * ((rx.m / 2 : Nat) : Sys2Proof.Num), timer := rx.m / 2 }) := by
  unfold testLong; simp only; split
  · exact .inl rfl
  · split
    · exact .inr (.inl ⟨‹_›, rfl⟩)
    · rename_i h; exact .inr (.inr ⟨by simpa using h, rfl⟩)

/-- What counting a sample off the timer can do. -/
theorem tick_cases (k : RxUnit → RxUnit) (rx : RxUnit) :
    (rx.timer ≤ 1 ∧ tick k rx = k { rx with timer := 0 }) ∨ (1 < rx.timer ∧ tick k rx = { rx with timer := rx.timer - 1 }) := by
  unfold tick; simp only; split
  · rename_i h; refine .inl ⟨by omega, ?_⟩; rw [h]
  · exact .inr ⟨by omega, rfl⟩

/-- What the end of a header can do. -/
theorem finishHeader_cases (rx : RxUnit) :
    finishHeader rx = toDetect (emit (.header false []) rx) ∨
      ∃ h, (decodeHeader rx).2 = true ∧ parseHeader rx.hUser (decodeHeader rx).1 = some h ∧ finishHeader rx = beginPayload h rx := by
  unfold finishHeader; simp only; split
  · exact .inr ⟨_, ‹_›, ‹_›, rfl⟩
  · exact .inl rfl

/-- What the beginning of a payload can do. -/
theorem beginPayload_cases (h : HeaderFields) (rx : RxUnit) :
    let rx1 := enterPayload h (emit (.header true h.user) (storeHeader h rx))
    (rx1.nPay = 0 ∧ beginPayload h rx = finishPayload rx1) ∨ (rx1.nPay ≠ 0 ∧ beginPayload h rx = rx1) := by
  intro rx1; unfold beginPayload; simp only; split
  · exact .inl ⟨‹_›, rfl⟩
  · exact .inr ⟨‹_›, rfl⟩

/-- What the tests after a received symbol can do. -/
theorem afterSymbol_cases (rx : RxUnit) :
    (rx.state = .rxHeader ∧ rx.symIdx = rx.derived.nHdr ∧ afterSymbol rx = finishHeader rx) ∨
      (rx.state ≠ .rxHeader ∧ rx.symIdx = rx.nPay ∧ afterSymbol rx = finishPayload rx) ∨
      (rx.maxSyms ≤ rx.nsym ∧ afterSymbol rx = toDetect rx) ∨
      (rx.nsym < rx.maxSyms ∧ (rx.state = .rxHeader → rx.symIdx ≠ rx.derived.nHdr) ∧
        (rx.state ≠ .rxHeader → rx.symIdx ≠ rx.nPay) ∧ afterSymbol rx = rx) := by
  unfold afterSymbol; split
  · split
    · exact .inl ⟨‹_›, ‹_›, rfl⟩
    · split
      · exact .inr (.inr (.inl ⟨‹_›, rfl⟩))
      · exact .inr (.inr (.inr ⟨by omega, fun _ => ‹_›, fun h => absurd ‹_› h, rfl⟩))
  · split
    · exact .inr (.inl ⟨‹_›, ‹_›, rfl⟩)
    · split
      · exact .inr (.inr (.inl ⟨‹_›, rfl⟩))
      · exact .inr (.inr (.inr ⟨by omega, fun h => absurd h ‹_›, fun _ => ‹_›, rfl⟩))

/-! ### Lists and numbers -/

@[simp] theorem chunks_length {α : Type} (n k : Nat) (l : List α) : (chunks n k l).length = k := by
  induction k generalizing l with
  | zero => rfl
  | succ k ih => simp [chunks, ih]

theorem chunks_getElem? {α : Type} (n k i : Nat) (l : List α) (h : i < k) :
    (chunks n k l)[i]? = some ((l.drop (i * n)).take n) := by
  induction k generalizing l i with
  | zero => omega
  | succ k ih =>
    cases i with
    | zero => simp [chunks]
    | succ i =>
      simp only [chunks, List.getElem?_cons_succ, ih i (l.drop n) (by omega), List.drop_drop]
      congr 3; ring

@[simp] theorem zeros_length (n : Nat) : (zeros n).length = n := by simp [zeros]

@[simp] theorem asmBlock_length (m cp tl : Nat) (w : List Sys2Proof.Num) (x ovl : List Cpx) :
    (asmBlock m cp tl w x ovl).length = m + cp := by simp [asmBlock]

@[simp] theorem asmOverlap_length (tl : Nat) (w : List Sys2Proof.Num) (x : List Cpx) : (asmOverlap tl w x).length = tl := by
  simp [asmOverlap]

@[simp] theorem disassemble_length (rx : RxUnit) : (disassemble rx).length = rx.m := by simp [disassemble]

theorem numPi_pos : 0 < numPi := by norm_num [numPi]

@[simp] theorem cisTurn_zero : cisTurn 0 = ⟨1, 0⟩ := by decide +kernel

@[simp] theorem cis_zero : cis 0 = ⟨1, 0⟩ := by simp [cis]

@[simp] theorem arg_zero : arg Cpx.zero = 0 := by simp [arg, Cpx.zero]

/-! ### Cuts of an assembled block -/

/-- `cis` of a number of turns (R14). -/
theorem cis_turns (t : Sys2Proof.Num) : cis (2 * numPi * t) = cisTurn t := by
  have := numPi_pos
  rw [cis, mul_div_cancel_left₀ _ (by positivity)]

/-- R149 (e): `m` samples of a block from `s` on, in its clean part, are the body rotated. -/
theorem asmBlock_cut {m cp tl s : Nat} (w : List Sys2Proof.Num) (x ovl : List Cpx) (h1 : tl ≤ s) (h2 : s ≤ cp) :
    ((List.range m).map fun n => (asmBlock m cp tl w x ovl).getD (s + n) Cpx.zero) = rotate m (s + (m - cp)) x := by
  unfold rotate
  apply List.map_congr_left
  intro n hn
  have hn := List.mem_range.1 hn
  rw [asmBlock, List.getD_eq_getElem?_getD, List.getElem?_map, List.getElem?_range (by omega)]
  simp only [Option.map_some, Option.getD_some, if_neg (by omega : ¬ s + n < tl)]
  congr 2
  omega

/-- R149 (e), the phase: a cut before the body turns each bin by `k (s - cp_len) / M` turns. -/
theorem dftFwd_cut {m cp tl s k : Nat} {v : List Cpx} (w : List Sys2Proof.Num) (ovl : List Cpx) (hm : m < 2 ^ 16) (hcp : cp < m)
    (h1 : tl ≤ s) (h2 : s ≤ cp) (hk : k < m) (hv : v.length = m) :
    (((dftFwd m ((List.range m).map fun n => (asmBlock m cp tl w (dftInv m v) ovl).getD (s + n) Cpx.zero)).getD k Cpx.zero).sub
      ((v.getD k Cpx.zero).mul (cis (2 * numPi * k * ((s : Sys2Proof.Num) - cp) / m)))).normSq ≤
      m * numSum ((dftInv m v).map Cpx.normSq) / 10 ^ 36 := by
  have hm0 : (m : Sys2Proof.Num) ≠ 0 := Nat.cast_ne_zero.2 (by omega)
  have e : cis (2 * numPi * k * ((s : Sys2Proof.Num) - cp) / m) = cisTurn ((k : Sys2Proof.Num) * (s + (m - cp) : Nat) / m) := by
    rw [mul_assoc, mul_div_assoc, cis_turns, ← cisTurn_add_int _ k]
    congr 1
    rw [Nat.cast_add, Nat.cast_sub hcp.le]
    push_cast
    field_simp
    ring
  rw [e, asmBlock_cut w _ ovl h1 h2]
  exact dftFwd_rotate_dftInv hm hv _ hk

theorem rotate_self {m : Nat} {x : List Cpx} (h : x.length = m) : rotate m m x = x := by
  refine eq_of_entry (n := m) (by simp) h fun i hi => ?_
  rw [entry_rotate _ hi, Nat.add_mod_right, Nat.mod_eq_of_lt hi]

end Sys2Proof.Machine
end

