-- ==== Sys2Proof/Laws/PerInstr.lean ====
section
/-! SUPPORT. The statements made command by command: the header word of a well-formed command carries its opcode and counts its
operand words (30_encoding.md R91, R92). -/

namespace Sys2Proof

open Machine

theorem headerOpcode_headerWord (op : Byte) (n : Nat) : headerOpcode (headerWord op n) = op := by
  unfold headerOpcode headerWord
  ext i hi
  rw [BitVec.getElem_extractLsb']
  exact (BitVec.getLsbD_append (x := op) (y := BitVec.ofNat 24 n)).trans (by
    rw [if_neg (by omega), Nat.add_sub_cancel_left, BitVec.getLsbD_eq_getElem hi])

theorem headerCount_headerWord (op : Byte) {n : Nat} (h : n < 2 ^ 24) : headerCount (headerWord op n) = n := by
  have e : (headerWord op n).extractLsb' 0 24 = BitVec.ofNat 24 n := by
    unfold headerWord
    ext i hi
    rw [BitVec.getElem_extractLsb', Nat.zero_add]
    exact (BitVec.getLsbD_append (x := op) (y := BitVec.ofNat 24 n)).trans (by
      rw [if_pos hi, BitVec.getLsbD_eq_getElem hi])
  rw [headerCount, e, BitVec.toNat_ofNat, Nat.mod_eq_of_lt h]

@[simp] theorem packTable_length (ts : List TagCode) : (packTable ts).length = ceilDiv ts.length 16 := by simp [packTable]

@[simp] theorem packBytes_length (bs : List Byte) : (packBytes bs).length = ceilDiv bs.length 4 := by simp [packBytes]

theorem samplesWords_length (xs : List SampleWords) : (xs.flatMap fun x => [x.re, x.im]).length = 2 * xs.length := by
  induction xs with
  | nil => rfl
  | cons x xs ih => simp only [List.flatMap_cons, List.length_append, List.length_cons, List.length_nil, ih]; omega

namespace Laws.EncodedHeader

/-- A well-formed command's header word carries its opcode, and counts the operand words that follow. -/
def Statement (i : Instr) : Prop :=
  WellFormed i = true →
    ∃ h, encode i = h :: operandsOf i ∧ headerOpcode h = opcodeOf i ∧ headerCount h = (operandsOf i).length

/-- The statement from the number of operand words. -/
theorem of_length (i : Instr) (h : (operandsOf i).length = operandWords i) : Statement i := by
  intro wf
  simp only [WellFormed, countFits, Bool.and_eq_true, decide_eq_true_eq] at wf
  exact ⟨_, rfl, headerOpcode_headerWord _ _, by rw [headerCount_headerWord _ wf.1.2, h]⟩

theorem txcfg (o : Operands TxCfgOps) : Statement (.txcfg o) :=
  of_length _ (by cases o <;> simp [operandsOf, operandWords, encodeOperands, tableWordCount]; omega)

theorem txprops (o : Operands PropsOps) : Statement (.txprops o) :=
  of_length _ (by cases o <;> simp [operandsOf, operandWords, encodeOperands])

theorem assemble (o : Operands AssembleOps) : Statement (.assemble o) :=
  of_length _ (by cases o <;> simp [operandsOf, operandWords, encodeOperands]; omega)

theorem wrsym (o : Operands Unit) : Statement (.wrsym o) :=
  of_length _ (by cases o <;> simp [operandsOf, operandWords, encodeOperands])

theorem rxcfg (o : Operands RxCfgOps) : Statement (.rxcfg o) :=
  of_length _ (by cases o <;> simp [operandsOf, operandWords, encodeOperands, tableWordCount]; omega)

theorem execute (o : Operands (List SampleWords)) : Statement (.execute o) :=
  of_length _ (by
    cases o
    · simp only [operandsOf, operandWords, encodeOperands, List.length_cons, samplesWords_length]; omega
    · simp [operandsOf, operandWords, encodeOperands])

theorem rxreset (o : Operands Unit) : Statement (.rxreset o) :=
  of_length _ (by cases o <;> simp [operandsOf, operandWords, encodeOperands])

theorem rxsetcb (o : Operands (BitVec 2)) : Statement (.rxsetcb o) :=
  of_length _ (by cases o <;> simp [operandsOf, operandWords, encodeOperands])

theorem rdcsr (o : Operands Csr) : Statement (.rdcsr o) :=
  of_length _ (by cases o <;> simp [operandsOf, operandWords, encodeOperands])

theorem defalloc (o : Operands Word) : Statement (.defalloc o) :=
  of_length _ (by cases o <;> simp [operandsOf, operandWords, encodeOperands])

theorem allocchk (o : Operands AllocChkOps) : Statement (.allocchk o) :=
  of_length _ (by cases o <;> simp [operandsOf, operandWords, encodeOperands, tableWordCount]; omega)

end Laws.EncodedHeader

end Sys2Proof
end

