-- ==== Sys2Proof/Tests/Slice0.lean ====
section
/-! SUPPORT. Tests of the model. Every expected word and value is copied from 95_test_vectors.md (the vector is named) or from a
rule's own example; V1 names vector 1 of that file, R152 a rule. -/

namespace Sys2Proof.Tests

open Sys2Proof.Machine

-- One theorem after the other: each test that the kernel evaluates would otherwise hold a thread.
set_option Elab.async false

/-! ### Small states -/

/-- `NDPNNNPD`. -/
def table8 : List TagCode := [0#2, 2#2, 1#2, 0#2, 0#2, 0#2, 1#2, 2#2]

/-- The operands of V30. -/
def v30 : TxCfgOps :=
  { m := 8#16, cpLen := 2#16, taperLen := 1#16, props := { check := 1#8, fec0 := 0#8, fec1 := 0#8, mod := 1#8 },
    hdrMod := 1#8, hUser := 1#8, maxPaySyms := 100#32, table := table8 }

/-- The operands of V40. -/
def v40 : RxCfgOps :=
  { m := 8#16, cpLen := 2#16, taperLen := 1#16, hdrCheck := 1#8, hdrFec := 0#8, hdrMod := 1#8, hUser := 1#8,
    maxSyms := 16#32, detT2 := 0x3F000000#32, longT2 := 0x3F000000#32, alpha := 0x3F000000#32, kappa := 0x3F800000#32,
    table := table8 }

/-- The operands of V36. -/
def v36 : AssembleOps := { payloadLen := 1#32, body := [0x3C#32, 0xA5#32] }

/-- The TXU after V30. -/
def txReady : TxUnit :=
  { state := .idle, m := 8, cpLen := 2, taperLen := 1, table := tagsOf table8, check := .sum8, fec0 := .none, fec1 := .none,
    mod := .qpsk, hdrMod := .qpsk, hUser := 1, maxPaySyms := 100, derived := txDerive (tagsOf table8) 1, fd := [], cursor := 0,
    nHdr := 0, nPay := 0, nTot := 0, ovl := [Cpx.zero] }

/-- The TXU after V36. -/
def txBusy : TxUnit := txAssemble txReady [0x3C#8] [0xA5#8]

/-- The RXU after V40. -/
def rxReady : RxUnit :=
  initialRx
    { RxUnit.reset with
      m := 8, cpLen := 2, taperLen := 1, table := tagsOf table8, hdrCheck := .sum8, hdrFec := .none, hdrMod := .qpsk,
      hUser := 1, maxSyms := 16, detT2 := 1 / 2, longT2 := 1 / 2, alpha := 1 / 2, kappa := 1,
      derived := rxDerive 8 (tagsOf table8) .sum8 .none .qpsk 1 }

/-- A block with both units configured. -/
def ready : State := { State.reset with tx := txReady, rx := rxReady }

/-- The block with words on CMD. -/
def withCmd (ws : List Word) (s : State) : State := { s with cmd := ws }

/-- What a step leaves on RSP, of a block whose RSP was empty. -/
def answer (s : State) : List Word :=
  match step s with
  | .next t => t.rsp
  | _ => []

/-- A property of the state after a step. -/
def after (s : State) (p : State → Bool) : Bool :=
  match step s with
  | .next t => p t
  | _ => false

/-- The two lists agree in every digit the vectors print. -/
def near (xs ys : List Cpx) : Bool :=
  xs.length == ys.length && (xs.zip ys).all fun p => |p.1.re - p.2.re| ≤ 1 / 10 ^ 6 && |p.1.im - p.2.im| ≤ 1 / 10 ^ 6

/-! ### Well-formed commands -/

theorem test_wellformed_accepts : WellFormed (.txcfg (.fits v30)) = true ∧ WellFormed (.rxcfg (.fits v40)) = true ∧
    WellFormed (.assemble (.fits v36)) = true ∧ WellFormed (.txprops (.fits v30.props)) = true ∧
    WellFormed (.wrsym (.fits ())) = true ∧ WellFormed (.execute (.fits [⟨0#32, 0xBE800000#32⟩])) = true ∧
    WellFormed (.rxreset (.fits ())) = true ∧ WellFormed (.rxsetcb (.fits 3#2)) = true ∧
    WellFormed (.rdcsr (.fits .rxEvcount)) = true ∧ WellFormed (.defalloc (.fits 8#32)) = true ∧
    WellFormed (.allocchk (.fits { m := 8#32, table := table8 })) = true := by decide

/-- Check `operandsFit`: a `WRSYM` with one operand word. -/
theorem test_wellformed_refuses_misfit : WellFormed (.wrsym (.misfit [0#32])) = false := by decide

/-- Check `countFits`: more operand words than `NW` can say. -/
theorem test_wellformed_refuses_count (xs : List SampleWords) (h : xs.length = 2 ^ 23) :
    WellFormed (.execute (.fits xs)) = false := by
  simp [WellFormed, countFits, operandsFit, operandWords, h]

/-- Check `bodySplits`: a payload word is missing; one word more than a 255-byte user header takes. -/
theorem test_wellformed_refuses_body : WellFormed (.assemble (.fits { payloadLen := 5#32, body := [0#32] })) = false ∧
    WellFormed (.assemble (.fits { payloadLen := 0#32, body := List.replicate 65 0#32 })) = false := by decide

/-! ### Decoding: words written out from the layouts of 30_encoding.md -/

/-- V30. -/
theorem test_decode_txcfg :
    decode 0x01000007#32 [0x00000008#32, 0x00010002#32, 0x01000001#32, 0x00000101#32, 0x00000064#32, 0x00000008#32,
      0x00009018#32] = .command (.txcfg (.fits v30)) := by decide

/-- V33: must-be-zero bits set, and a table word missing. -/
theorem test_decode_txcfg_misfit :
    decode 0x01000006#32 [8#32, 0x00010002#32, 0x01000001#32, 0x00000101#32, 0x64#32, 8#32] =
      .command (.txcfg (.misfit [8#32, 0x00010002#32, 0x01000001#32, 0x00000101#32, 0x64#32, 8#32])) := by decide

/-- V34. -/
theorem test_decode_txprops :
    decode 0x02000001#32 [0x01070001#32] = .command (.txprops (.fits { check := 1#8, fec0 := 0#8, fec1 := 7#8, mod := 1#8 })) := by
  decide

/-- V36. -/
theorem test_decode_assemble :
    decode 0x03000003#32 [0x00000001#32, 0x0000003C#32, 0x000000A5#32] = .command (.assemble (.fits v36)) := by decide

/-- V1; V5 (e). -/
theorem test_decode_wrsym : decode 0x04000000#32 [] = .command (.wrsym (.fits ())) ∧
    decode 0x04000001#32 [0#32] = .command (.wrsym (.misfit [0#32])) := by decide

/-- V40. -/
theorem test_decode_rxcfg :
    decode 0x1100000A#32 [0x00000008#32, 0x00010002#32, 0x01010001#32, 0x00000010#32, 0x3F000000#32, 0x3F000000#32,
      0x3F000000#32, 0x3F800000#32, 0x00000008#32, 0x00009018#32] = .command (.rxcfg (.fits v40)) := by decide

/-- P3, step 1; V45. -/
theorem test_decode_execute :
    decode 0x12000003#32 [0x00000001#32, 0x00000000#32, 0xBE800000#32] =
      .command (.execute (.fits [⟨0x00000000#32, 0xBE800000#32⟩])) ∧
    decode 0x12000002#32 [0x00000001#32, 0x00000000#32] = .command (.execute (.misfit [1#32, 0#32])) := by decide

/-- P3, step 2. -/
theorem test_decode_rxreset : decode 0x13000000#32 [] = .command (.rxreset (.fits ())) := by decide

/-- V47; V5 (c). -/
theorem test_decode_rxsetcb : decode 0x14000001#32 [0x00000001#32] = .command (.rxsetcb (.fits 1#2)) ∧
    decode 0x14000001#32 [0x00000004#32] = .command (.rxsetcb (.misfit [4#32])) := by decide

/-- V70; V5 (d). -/
theorem test_decode_rdcsr : decode 0x20000001#32 [0x00000019#32] = .command (.rdcsr (.fits .rxEvmask)) ∧
    decode 0x20000001#32 [0x0000000B#32] = .command (.rdcsr (.misfit [0x0B#32])) ∧
    [0x0B#32, 0x0F#32, 0x24#32, 0xFFFFFFFF#32].map csrOfNumber = [none, none, none, none] := by decide

/-- V11. -/
theorem test_decode_defalloc : decode 0x21000001#32 [0x00000008#32] = .command (.defalloc (.fits 8#32)) := by decide

/-- V12: entries beyond `L` are ignored. -/
theorem test_decode_allocchk :
    decode 0x22000003#32 [0x00000008#32, 0x00000008#32, 0x00009018#32] = .command (.allocchk (.fits { m := 8#32, table := table8 })) ∧
    decode 0x22000003#32 [0x00000008#32, 0x00000008#32, 0x00039018#32] =
      .command (.allocchk (.fits { m := 8#32, table := table8 })) := by decide

/-- V5 (a), (b). -/
theorem test_decode_reserved : decode 0x05000000#32 [] = .rejected (.reservedOpcode 0x05#8) ∧
    decode 0x00000000#32 [] = .rejected (.reservedOpcode 0x00#8) := by decide

/-- V1: the word counts. -/
theorem test_header_fields : headerOpcode 0x120001A5#32 = 0x12#8 ∧ headerCount 0x120001A5#32 = 421 ∧
    takeCommand [0x21000001#32, 8#32, 0x04000000#32] = some (0x21000001#32, [8#32], [0x04000000#32]) ∧
    takeCommand [0x21000002#32, 8#32] = none := by decide

/-! ### Operand forms -/

/-- V3. -/
theorem test_table_packing : packTable table8 = [0x00009018#32] ∧
    packTable ((defaultAllocation 16).map tagCode) = [0x9A901A98#32] ∧
    packTable ((defaultAllocation 64).map tagCode) = [0xA9AAA9A8#32, 0x000AA9AA#32, 0xA9AA8000#32, 0xA9AAA9AA#32] := by
  decide +kernel

/-- V4. -/
theorem test_byte_packing : packBytes [0#8, 1#8, 2#8, 3#8, 4#8, 5#8, 6#8, 7#8] = [0x03020100#32, 0x07060504#32] ∧
    packBytes [1#8, 2#8, 3#8, 4#8, 5#8] = [0x04030201#32, 0x00000005#32] ∧
    unpackBytes 5 [0x04030201#32, 0xFFFFFF05#32] = [1#8, 2#8, 3#8, 4#8, 5#8] := by decide

/-- The binary32 words of the head of 95_test_vectors.md. -/
theorem test_number_words : wordOfNum (1 / 8) = 0x3E000000#32 ∧ wordOfNum (-(1 / 4)) = 0xBE800000#32 ∧
    wordOfNum (1 - 1 / 1024) = 0x3F7FC000#32 ∧ numOfWord 0x3F400000#32 = 3 / 4 ∧ numOfWord 0xBF800000#32 = -1 ∧
    numOfWord 0x00000001#32 = 1 / 2 ^ 149 := by decide +kernel

/-- V7. -/
theorem test_event_words : (EventRecord.header true [0x3C#8]).words = [0x00000101#32, 0x00000001#32, 0x0000003C#32] ∧
    (EventRecord.header false []).words = [0x00000001#32, 0x00000000#32] ∧
    (EventRecord.frame true 1 [0x3C#8] [0xA5#8]).words =
      [0x00000102#32, 0x00000003#32, 0x00000001#32, 0x0000003C#32, 0x000000A5#32] ∧
    (EventRecord.frame false 1 [0x3C#8] [0x25#8]).words =
      [0x00000002#32, 0x00000003#32, 0x00000001#32, 0x0000003C#32, 0x00000025#32] ∧
    (EventRecord.frame true 0 [0x00#8] []).words = [0x00000102#32, 0x00000002#32, 0x00000000#32, 0x00000000#32] := by decide

/-! ### Tables -/

/-- V10: `M = 9`, and the lists for `M = 16`. -/
theorem test_default_table : packTable ((defaultAllocation 9).map tagCode) = [0x00024018#32] ∧
    binsOf .pilot (defaultAllocation 16) = [2, 6, 10, 14] ∧ pilotsFreq (defaultAllocation 16) = [10, 14, 2, 6] ∧
    binsOf .data (defaultAllocation 16) = [1, 3, 4, 5, 11, 12, 13, 15] ∧
    nonNullFreq (defaultAllocation 16) = [10, 11, 12, 13, 14, 15, 1, 2, 3, 4, 5, 6] := by decide

/-- V12. -/
theorem test_validate : validate table8 8 = .ok ∧ validate (table8.take 7) 8 = .invalidAllocation ∧
    validate [0#2, 1#2, 1#2, 0#2, 0#2, 0#2, 1#2, 1#2] 8 = .invalidAllocation ∧
    validate [0#2, 2#2, 2#2, 0#2, 0#2, 0#2, 2#2, 2#2] 8 = .invalidAllocation ∧
    validate (3#2 :: table8.tail) 8 = .invalidAllocation ∧ validate [0#2, 2#2, 1#2, 2#2] 4 = .ok := by decide

/-- V11, through a step, on a fresh block. -/
theorem test_defalloc : answer (withCmd [0x21000001#32, 9#32] State.reset) = [0x00000100#32, 0x00024018#32] ∧
    answer (withCmd [0x21000001#32, 7#32] State.reset) = [0x00000001#32] ∧
    answer (withCmd [0x21000001#32, 65536#32] State.reset) = [0x00000001#32] ∧
    answer (withCmd [0x21000002#32, 8#32, 0#32] State.reset) = [0x000000FF#32] := by decide +kernel

/-- V12, through a step. -/
theorem test_allocchk : answer (withCmd [0x22000003#32, 8#32, 8#32, 0x00009018#32] State.reset) = [0x00000000#32] ∧
    answer (withCmd [0x22000003#32, 8#32, 8#32, 0x0000901B#32] State.reset) = [0x00000002#32] ∧
    answer (withCmd [0x22000002#32, 0#32, 0#32] State.reset) = [0x00000002#32] ∧
    answer (withCmd [0x22000002#32, 8#32, 8#32] State.reset) = [0x000000FF#32] := by decide +kernel

/-! ### Assembler -/

/-- V20: the states and the first outputs. -/
theorem test_lfsr : (List.range 4).map (fun n => lfsrIter (n + 1) 0xACE1#16) = [0x5670#16, 0xAB38#16, 0x559C#16, 0x2ACE#16] ∧
    (List.range 8).map (fun n => (lfsrStep (lfsrIter n 0x7A5B#16)).1) = [true, true, false, true, true, false, true, false] := by
  decide +kernel

/-- V21. -/
theorem test_preambles : shortPreamble (tagsOf table8) = [⟨0, 0⟩, ⟨0, 0⟩, ⟨1, 0⟩, ⟨0, 0⟩, ⟨0, 0⟩, ⟨0, 0⟩, ⟨-1, 0⟩, ⟨0, 0⟩] ∧
    longPreamble (tagsOf table8) = [⟨0, 0⟩, ⟨-1, 0⟩, ⟨1, 0⟩, ⟨0, 0⟩, ⟨0, 0⟩, ⟨0, 0⟩, ⟨-1, 0⟩, ⟨1, 0⟩] := by decide +kernel

/-- V21: `s0` and `E0`. -/
theorem test_short_symbol : rxReady.derived.shortTime =
      [⟨0, 0⟩, ⟨0, 1 / 4⟩, ⟨0, 0⟩, ⟨0, -(1 / 4)⟩, ⟨0, 0⟩, ⟨0, 1 / 4⟩, ⟨0, 0⟩, ⟨0, -(1 / 4)⟩] ∧
    rxReady.derived.shortEnergy = 1 / 4 := by decide +kernel

/-- V22. -/
theorem test_taper : near ((taperWindow 2).map Cpx.ofNum) [⟨0.146447, 0⟩, ⟨0.853553, 0⟩] = true ∧
    near ((taperWindow 4).map Cpx.ofNum) [⟨0.038060, 0⟩, ⟨0.308658, 0⟩, ⟨0.691342, 0⟩, ⟨0.961940, 0⟩] = true := by
  decide +kernel

/-- R152: the body `x[n] = j^n` of the worked example, both ways, and by the sums of R17. -/
theorem test_transform :
    let x : List Cpx := [⟨1, 0⟩, ⟨0, 1⟩, ⟨-1, 0⟩, ⟨0, -1⟩, ⟨1, 0⟩, ⟨0, 1⟩, ⟨-1, 0⟩, ⟨0, -1⟩]
    let f : List Cpx := [⟨0, 0⟩, ⟨0, 0⟩, ⟨8, 0⟩, ⟨0, 0⟩, ⟨0, 0⟩, ⟨0, 0⟩, ⟨0, 0⟩, ⟨0, 0⟩]
    dftInv 8 f = x ∧ dftFwd 8 x = f ∧ dftRefInv 8 f = x ∧ near (dftRefFwd 8 x) f = true := by decide +kernel

/-- R17, a length with an odd factor: the sums of R17, and back exactly (R10). -/
theorem test_transform_odd :
    let x : List Cpx := [⟨1, 0⟩, ⟨0, 1⟩, ⟨2, -1⟩, ⟨0, 0⟩, ⟨-3, 1⟩, ⟨1 / 2, 0⟩]
    near (dftFwd 6 x) (dftRefFwd 6 x) = true ∧ near (dftInv 6 x) (dftRefInv 6 x) = true ∧ dftInv 6 (dftFwd 6 x) = x := by
  decide +kernel

/-- R152: the blocks of the worked example, with `taper_len = 1`. -/
theorem test_assemble_time :
    let x : List Cpx := [⟨1, 0⟩, ⟨0, 1⟩, ⟨-1, 0⟩, ⟨0, -1⟩, ⟨1, 0⟩, ⟨0, 1⟩, ⟨-1, 0⟩, ⟨0, -1⟩]
    let w := taperWindow 1
    w = [1 / 2] ∧
    asmBlock 8 2 1 w x [⟨0, 0⟩] = ⟨-(1 / 2), 0⟩ :: ⟨0, -1⟩ :: x ∧ asmOverlap 1 w x = [⟨1 / 2, 0⟩] ∧
    asmBlock 8 2 1 w x [⟨1 / 2, 0⟩] = ⟨0, 0⟩ :: ⟨0, -1⟩ :: x ∧
    asmBlock 8 2 1 w (zeros 8) [⟨1 / 2, 0⟩] = ⟨1 / 2, 0⟩ :: zeros 9 := by decide +kernel

/-- V25: the timing shift, column `ti`. -/
theorem test_timing_shift : [0, -1, 1 / 2, -(1 / 2), 1, -3].map (timingShift 2) = [0, -1, 0, 0, 0, -2] := by decide +kernel

/-- V37: block 2 of the frame of V36. V25: rows 2 and 3 of its table, on that block. -/
theorem test_block_and_shifts :
    let win := (txBlocks 3 txBusy).1.drop 20
    let z := fun tau => disassemble { rxReady with win := win, tau := tau }
    near win [⟨1 / 4, -(1 / 8)⟩, ⟨0.176777, -0.176777⟩, ⟨-(1 / 4), 0⟩, ⟨-0.176777, 0.176777⟩, ⟨0, 1 / 4⟩,
      ⟨-0.176777, 0.176777⟩, ⟨-(1 / 4), 0⟩, ⟨0.176777, -0.176777⟩, ⟨1 / 2, -(1 / 4)⟩, ⟨0.176777, -0.176777⟩] = true ∧
    near (z (-1)) [⟨0, 0⟩, ⟨1.414214, 0⟩, ⟨0, 1⟩, ⟨0, 0⟩, ⟨0, 0⟩, ⟨0, 0⟩, ⟨0, -1⟩, ⟨0, -1.414214⟩] = true ∧
    near (z (1 / 2)) [⟨0, 0⟩, ⟨0.541196, 1.306563⟩, ⟨-0.707107, -0.707107⟩, ⟨0, 0⟩, ⟨0, 0⟩, ⟨0, 0⟩, ⟨-0.707107, 0.707107⟩,
      ⟨-1.306563, -0.541196⟩] = true := by decide +kernel

/-- V27: the update by a quarter sample of delay, `ALPHA = 1`. -/
theorem test_tracker :
    let p := defaultAllocation 16
    let z : List Cpx := [⟨0, 0⟩, ⟨0.995185, -0.098017⟩, ⟨-0.980785, 0.195090⟩, ⟨0, 0⟩, ⟨0, 0⟩, ⟨0, 0⟩, ⟨-0.831470, 0.555570⟩,
      ⟨0, 0⟩, ⟨0, 0⟩, ⟨0, 0⟩, ⟨0.831470, 0.555570⟩, ⟨0, 0⟩, ⟨0, 0⟩, ⟨0, 0⟩, ⟨-0.980785, -0.195090⟩, ⟨0.995185, 0.098017⟩]
    let rx := track z { rxReady with
      m := 16, cpLen := 4, table := p, derived := rxDerive 16 p .sum8 .none .qpsk 1, alpha := 1, pl := 0x7A5B#16,
      g := p.map fun t => if t = .null then Cpx.zero else Cpx.ofNum 1 }
    rx.nu = 0 ∧ near [⟨rx.tau, 0⟩] [⟨1 / 4, 0⟩] = true ∧
    near [rx.g.getD 1 Cpx.zero, rx.g.getD 3 Cpx.zero, rx.g.getD 11 Cpx.zero]
      [⟨0.980785, -0.097545⟩, ⟨0.943456, -0.285210⟩, ⟨0.868799, 0.465450⟩] = true := by decide +kernel

/-! ### Frame generator -/

/-- V35, rows 1, 2, 7 (the `QAM16` and `REP3` counts), 8 and 11. -/
theorem test_counts : counts .sum8 .none .qpsk 6 2 = ⟨7, 28, 14⟩ ∧ counts .sum8 .none .qpsk 1 2 = ⟨2, 8, 4⟩ ∧
    counts .crc32 .rep3 .qam16 120 44 = ⟨372, 744, 17⟩ ∧ counts .none .none .qam16 0 44 = ⟨0, 0, 0⟩ ∧
    counts .crc32 .none .qam16 65535 44 = ⟨65539, 131078, 2980⟩ := by decide +kernel

/-- V30, through a step. -/
theorem test_txcfg :
    after (withCmd (encode (.txcfg (.fits v30))) State.reset) (fun t =>
      t.rsp = [0#32] && csrValue t .txState == 1#32 && csrValue t .txCptp == 0x00010002#32 && csrValue t .txProps == 0x01000001#32 &&
      csrValue t .txHdrfmt == 0x00000101#32 && csrValue t .txMaxpay == 100#32 && csrValue t .txCounts == 0x00020002#32) = true := by
  decide +kernel

/-- V32: `cp=8`, and `cp=2 tp=3`; V33: the second `TXCFG`. -/
theorem test_txcfg_refused :
    answer (withCmd (encode (.txcfg (.fits { v30 with cpLen := 8#16 }))) State.reset) = [0x00000001#32] ∧
    answer (withCmd (encode (.txcfg (.fits { v30 with taperLen := 3#16 }))) State.reset) = [0x00000001#32] ∧
    answer (withCmd (encode (.txcfg (.fits v30))) ready) = [0x00000001#32] := by decide +kernel

/-- V34. -/
theorem test_txprops :
    after (withCmd [0x02000001#32, 0x01000000#32] ready) (fun t => t.rsp = [0#32] && csrValue t .txProps == 0x01000000#32) = true ∧
    after (withCmd [0x02000001#32, 0x01070001#32] ready) (fun t => t.rsp = [1#32] && csrValue t .txProps == 0x01000001#32) = true ∧
    answer (withCmd [0x02000001#32, 0x01000000#32] State.reset) = [0x00000005#32] := by decide +kernel

/-- V36: the counts, the header bytes with their checksum, and three vectors of the frame. -/
theorem test_assemble :
    after (withCmd [0x03000003#32, 0x00000001#32, 0x0000003C#32, 0x000000A5#32] ready) (fun t =>
      t.rsp = [0#32] && t.tx.nHdr == 14 && t.tx.nPay == 4 && t.tx.nTot == 21 && decide (t.tx.state = .assembled) &&
      decide (t.tx.fd[2]? = some [⟨0, 0⟩, ⟨1, 1⟩, ⟨-1, 0⟩, ⟨0, 0⟩, ⟨0, 0⟩, ⟨0, 0⟩, ⟨-1, 0⟩, ⟨-1, -1⟩]) &&
      decide (t.tx.fd[7]? = some [⟨0, 0⟩, ⟨1, 1⟩, ⟨1, 0⟩, ⟨0, 0⟩, ⟨0, 0⟩, ⟨0, 0⟩, ⟨-1, 0⟩, ⟨1, -1⟩]) &&
      decide (t.tx.fd[17]? = some [⟨0, 0⟩, ⟨1, -1⟩, ⟨-1, 0⟩, ⟨0, 0⟩, ⟨0, 0⟩, ⟨0, 0⟩, ⟨1, 0⟩, ⟨1, -1⟩])) = true ∧
    protect .sum8 .none (fullHeader txReady [0x3C#8] 1) = [0x3C#8, 0x00#8, 0x01#8, 0x01#8, 0x00#8, 0x01#8, 0x3F#8] := by
  decide +kernel

/-- V38: too large, misshapen, not configured. -/
theorem test_assemble_refused :
    answer (withCmd (encode (.assemble (.fits v36))) { ready with tx := { txReady with maxPaySyms := 3 } }) = [0x00000003#32] ∧
    answer (withCmd [0x03000002#32, 0x00000001#32, 0x0000003C#32] ready) = [0x000000FF#32] ∧
    answer (withCmd (encode (.assemble (.fits v36))) State.reset) = [0x00000005#32] := by decide +kernel

/-- V37: the status word, `is_last`, and the state, cursor after the first symbol. -/
theorem test_wrsym :
    after (withCmd [0x04000000#32] { ready with tx := txBusy }) (fun t =>
      decide (t.rsp.take 2 = [0x00001500#32, 0#32]) && t.rsp.length == 22 && decide (t.tx.state = .preamble) &&
      t.tx.cursor == 1) = true ∧
    after (withCmd [0x04000000#32] { ready with tx := { txBusy with cursor := 20, state := .tail } }) (fun t =>
      decide (t.rsp.take 2 = [0x00001500#32, 1#32]) && decide (t.tx.state = .idle) && t.tx.cursor == 21) = true := by
  decide +kernel

/-- V71, V6: `NotAssembled`, and `NotConfigured` before the operand count. -/
theorem test_wrsym_refused : answer (withCmd [0x04000000#32] ready) = [0x00000004#32] ∧
    answer (withCmd [0x04000001#32, 0#32] State.reset) = [0x00000005#32] ∧
    answer (withCmd [0x04000001#32, 0#32] ready) = [0x000000FF#32] := by decide +kernel

/-! ### Frame synchronizer -/

/-- V40, through a step. -/
theorem test_rxcfg :
    after (withCmd (encode (.rxcfg (.fits v40))) State.reset) (fun t =>
      t.rsp = [0#32] && csrValue t .rxState == 1#32 && csrValue t .rxHdrfmt == 0x01010001#32 && csrValue t .rxMaxsyms == 16#32 &&
      csrValue t .rxDetT2 == 0x3F000000#32 && csrValue t .rxKappa == 0x3F800000#32 && csrValue t .rxNhdr == 14#32 &&
      csrValue t .rxCounts == 0x00020002#32 && csrValue t .rxEvmask == 3#32 && csrValue t .rxEvcount == 0#32) = true := by
  decide +kernel

/-- V41: `det=1`, `maxsyms=0`, and a second `RXCFG`. -/
theorem test_rxcfg_refused :
    answer (withCmd (encode (.rxcfg (.fits { v40 with detT2 := 0x3F800000#32 }))) State.reset) = [0x00000001#32] ∧
    answer (withCmd (encode (.rxcfg (.fits { v40 with maxSyms := 0#32 }))) State.reset) = [0x00000001#32] ∧
    answer (withCmd (encode (.rxcfg (.fits v40))) ready) = [0x00000001#32] := by decide +kernel

/-- The RXU of V42 at sample 5, the window holding samples -4 to 5. -/
def rxAtFive : RxUnit :=
  { rxReady with win := zeros 4 ++ [⟨0, 0⟩, ⟨0, -(1 / 4)⟩, ⟨0, 0⟩, ⟨0, 1 / 4⟩, ⟨0, 0⟩, ⟨0, -(1 / 4)⟩] }

/-- V42, sample 5: the metric, and the detection. -/
theorem test_detect : metric rxAtFive = ⟨9 / 256, 3 / 64, ⟨1 / 16, 0⟩⟩ ∧ (stepDetect rxAtFive).state = .syncShort ∧
    (stepDetect { rxAtFive with detT2 := 3 / 4 }).state = .detect := by decide +kernel

/-- V42, sample 14: no new best, `age` passes 4, five samples to go. -/
theorem test_sync_short :
    let rx := stepSyncShort { rxAtFive with
      state := .syncShort, age := 4, cnt := 8, bestNum := 1 / 16, bestDen := 1 / 16, bestP := ⟨1 / 8, 0⟩ }
    rx.state = .syncLong ∧ rx.timer = 5 := by decide +kernel

/-- V43: the bits of the header, and the parsed fields. -/
theorem test_header_bits :
    let rx := { rxReady with
      state := .rxHeader, rxbits := bitsOfBytes [0x3C#8, 0x00#8, 0x01#8, 0x01#8, 0x00#8, 0x01#8, 0x3F#8] }
    (finishHeader rx).evq = [.header true [0x3C#8]] ∧ (finishHeader rx).state = .rxPayload ∧ (finishHeader rx).nPay = 4 ∧
    (finishHeader { rx with rxbits := rx.rxbits.set 0 true }).evq = [.header false []] := by decide +kernel

/-- V43, V60: a good payload, and one with its top bit cleared. -/
theorem test_payload_bits :
    let rx := { rxReady with
      state := .rxPayload, hdrUser := [0x3C#8], plen := 1, pcheck := .sum8, pmod := .qpsk, payEncLen := 2, payNmod := 8, nPay := 4,
      rxbits := bitsOfBytes [0xA5#8, 0xA5#8] }
    (finishPayload rx).evq = [.frame true 1 [0x3C#8] [0xA5#8]] ∧
    (finishPayload { rx with rxbits := rx.rxbits.set 0 false }).evq = [.frame false 1 [0x3C#8] [0x25#8]] := by decide +kernel

/-- V45: no samples; a fresh block; one sample word missing. -/
theorem test_execute : answer (withCmd [0x12000001#32, 0#32] ready) = [0x00000000#32] ∧
    answer (withCmd [0x12000001#32, 0#32] State.reset) = [0x00000005#32] ∧
    answer (withCmd [0x12000002#32, 1#32, 0#32] ready) = [0x000000FF#32] := by decide +kernel

/-- V46: a fresh block, and a unit in `RX_HEADER`. -/
theorem test_rxreset : answer (withCmd [0x13000000#32] State.reset) = [0x00000000#32] ∧
    after (withCmd [0x13000000#32] { ready with rx := { rxReady with state := .rxHeader, timer := 5, nsym := 2, symIdx := 2 } })
      (fun t => t.rsp = [0#32] && csrValue t .rxState == 1#32 && csrValue t .rxTimer == 0#32 && csrValue t .rxNsym == 0#32 &&
        csrValue t .rxEvmask == 3#32) = true := by decide +kernel

/-- V47, V6. -/
theorem test_rxsetcb :
    after (withCmd [0x14000001#32, 0x00000001#32] ready) (fun t => t.rsp = [0#32] && csrValue t .rxEvmask == 1#32) = true ∧
    answer (withCmd [0x14000001#32, 0x00000004#32] State.reset) = [0x00000005#32] ∧
    answer (withCmd [0x14000001#32, 0x00000004#32] ready) = [0x000000FF#32] := by decide +kernel

/-- V70. -/
theorem test_rdcsr : answer (withCmd [0x20000001#32, 0x00#32] State.reset) = [0x00000100#32, 0x00000000#32] ∧
    answer (withCmd [0x20000001#32, 0x19#32] State.reset) = [0x00000100#32, 0x00000003#32] ∧
    answer (withCmd [0x20000001#32, 0x15#32] State.reset) = [0x00000100#32, 0x00000000#32] ∧
    answer (withCmd [0x20000001#32, 0x24#32] State.reset) = [0x000000FF#32] := by decide +kernel

/-- V28 (c), and the first row of V20 through the tracker's pilots. -/
theorem test_equalise : equalise [⟨3, 1⟩] [⟨0, 0⟩] 0 = ⟨0, 0⟩ ∧ equalise [⟨-1, 1⟩] [⟨1 / 2, 1 / 2⟩] 0 = ⟨0, 2⟩ ∧
    demodulate .qpsk ⟨0, -2⟩ = [false, true] := by decide +kernel

/-- A reserved opcode is answered and skipped (V5); the table's numbering of an instruction's bits. -/
theorem test_step : answer (withCmd [0x05000000#32] State.reset) = [0x000000FF#32] ∧
    decodeTableWord 32 0x04000000 = some (.wrsym (.fits ())) ∧
    decodeTableWord 64 0x0000000821000001 = some (.defalloc (.fits 8#32)) ∧
    answer (State.reset.withFetchWord 64 0x0000000921000001) = [0x00000100#32, 0x00024018#32] := by decide +kernel

/-- With nothing on CMD the block waits. -/
theorem test_wait : step State.reset = .next State.reset := rfl

/-! ### Witnesses: for each statement of Certificates/Slice0/Obligations.lean with hypotheses, states and operands that meet them -/

/-- Four data bits groups of V36's first header symbol. -/
def groups8 : List (List Bool) := [[false, false], [true, true]]

/-- The gains after a clean long preamble. -/
def unitGains : List Cpx := (tagsOf table8).map fun t => if t = .null then Cpx.zero else Cpx.ofNum 1

/-- The RXU in `SYNC_SHORT`, at its first sample. -/
def rxShort : RxUnit := { rxReady with state := .syncShort }

/-- The RXU in `SYNC_LONG`, with a whole block to come. -/
def rxLong : RxUnit := { rxReady with state := .syncLong, timer := 10 }

/-- The RXU at the first sample of the header. -/
def rxHdr : RxUnit := { rxReady with state := .rxHeader, timer := 10, curMod := .qpsk, pl := 0x7A5B#16 }

/-- The RXU at the first sample of the payload of V36. -/
def rxPay : RxUnit :=
  { rxReady with
    state := .rxPayload, timer := 10, plen := 1, pcheck := .sum8, pmod := .qpsk, curMod := .qpsk, payEncLen := 2,
    payNmod := 8, nPay := 4 }

theorem txConfigured_ready : TxConfigured txReady where
  dims := by decide
  table := by decide
  hUser := by decide
  derived := rfl
  ovlLength := rfl
  fdCount := rfl
  fdWidth := by intro v h; cases h
  payLimit := by decide
  idle := fun _ => rfl
  inFrame := fun h => absurd rfl h

theorem rxConfigured_of (rx : RxUnit) (c : SameRxConfig rx rxReady) (w : rx.win.length = 10) (g : rx.g = zeros 8)
    (u : rx.hdrUser.length = 1) (detect : rx.state = .detect → toDetect rx = rx)
    (syncShort : rx.state = .syncShort → rx.age ≤ rx.m / 2 ∧ rx.age ≤ rx.cnt ∧ rx.cnt < rx.maxSyms * (rx.m + rx.cpLen))
    (syncLong : rx.state = .syncLong → 1 ≤ rx.timer ∧ rx.timer ≤ rx.m + rx.cpLen ∧ rx.nsym < rx.maxSyms ∧ rx.tau = 0)
    (header : rx.state = .rxHeader → Receiving rx rx.derived.nHdr rx.hdrMod)
    (payload : rx.state = .rxPayload → Receiving rx rx.nPay rx.pmod)
    (payloadCounts : rx.state = .rxPayload → rx.plen < 65536 ∧
      (⟨rx.payEncLen, rx.payNmod, rx.nPay⟩ : Counts) = counts rx.pcheck rx.pfec rx.pmod rx.plen rx.derived.nData) :
    RxConfigured rx := by
  obtain ⟨h1, h2, h3, h4, h5, h6, h7, h8, h9, h10, h11, h12, h13, h14⟩ := c
  refine ⟨?_, ?_, ?_, ?_, ?_, ?_, ?_, ?_, ?_, ?_, detect, syncShort, syncLong, header, payload, payloadCounts⟩
  · rw [h1, h2, h3]; decide
  · rw [h1, h4]; decide
  · rw [h8]; decide
  · rw [h9]; decide
  · rw [h10, h11, h12, h13]; decide +kernel
  · rw [h14, h1, h4, h5, h6, h7, h8]; rfl
  · rw [w, h1, h2]; rfl
  · rw [g, h1]; rfl
  · intro k _; rw [g, zeros, List.getD_eq_getElem?_getD, List.getElem?_replicate]; split <;> rfl
  · rw [u, h8]; rfl

theorem rxConfigured_ready : RxConfigured rxReady :=
  rxConfigured_of _ (.refl _) (by decide) rfl rfl (fun _ => rfl) (fun h => absurd h (by decide)) (fun h => absurd h (by decide))
    (fun h => absurd h (by decide)) (fun h => absurd h (by decide)) (fun h => absurd h (by decide))

theorem rxConfigured_short : RxConfigured rxShort :=
  rxConfigured_of _ (.refl rxReady) (by decide) rfl rfl (fun h => absurd h (by decide)) (fun _ => by decide)
    (fun h => absurd h (by decide)) (fun h => absurd h (by decide)) (fun h => absurd h (by decide)) (fun h => absurd h (by decide))

theorem rxConfigured_long : RxConfigured rxLong :=
  rxConfigured_of _ (.refl rxReady) (by decide) rfl rfl (fun h => absurd h (by decide)) (fun h => absurd h (by decide))
    (fun _ => ⟨by decide, by decide, by decide, rfl⟩) (fun h => absurd h (by decide)) (fun h => absurd h (by decide))
    (fun h => absurd h (by decide))

theorem rxConfigured_hdr : RxConfigured rxHdr :=
  rxConfigured_of _ (.refl rxReady) (by decide) rfl rfl (fun h => absurd h (by decide)) (fun h => absurd h (by decide))
    (fun h => absurd h (by decide)) (fun _ => ⟨by decide, rfl, by decide, by decide +kernel, rfl, by decide +kernel⟩)
    (fun h => absurd h (by decide)) (fun h => absurd h (by decide))

theorem rxConfigured_pay : RxConfigured rxPay :=
  rxConfigured_of _ (.refl rxReady) (by decide) rfl rfl (fun h => absurd h (by decide)) (fun h => absurd h (by decide))
    (fun h => absurd h (by decide)) (fun h => absurd h (by decide))
    (fun _ => ⟨by decide, rfl, by decide, by decide, rfl, by decide +kernel⟩) (fun _ => ⟨by decide, by decide +kernel⟩)

theorem inv_ready : Inv ready :=
  ⟨.inr ⟨by decide, txConfigured_ready⟩, .inr ⟨by decide, rxConfigured_ready⟩⟩

theorem matched_ready : Matched txReady rxLong := ⟨rfl, rfl, rfl, rfl, rfl, rfl, rfl⟩

/-- EncodeThenDecodeGivesTheCommand: see also `test_wellformed_accepts` for every constructor. -/
theorem witness_EncodeThenDecode : WellFormed (.txcfg (.fits v30)) = true ∧
    WellFormed (.assemble (.fits { payloadLen := 0#32, body := List.replicate 64 0#32 })) = true ∧
    WellFormed (.execute (.fits [])) = true := by decide

/-- A form whose words are kept, one that does not fit, and a table whose word has bits beyond its entries. -/
theorem witness_DecodingKeeps : decode 0x21000001#32 [0x00000008#32] = .command (.defalloc (.fits 8#32)) ∧
    (decode 0x04000001#32 [0#32] = .command (.wrsym (.misfit [0#32])) ∧ operandsFit (.wrsym (.misfit [0#32])) = false) ∧
    (decode 0x22000003#32 [8#32, 8#32, 0x00039018#32] = .command (.allocchk (.fits { m := 8#32, table := table8 })) ∧
      (headerOpcode 0x22000003#32, 2) ∈ [(0x01#8, 6), (0x11#8, 9), (0x22#8, 2)] ∧ 0 < (8#32).toNat ∧ 7 < (8#32).toNat) ∧
    decode 0xFF000000#32 [] = .rejected (.reservedOpcode 0xFF#8) := by decide

theorem witness_StepRuns : takeCommand State.reset.cmd = none ∧
    takeCommand (withCmd [0x04000000#32] ready).cmd = some (0x04000000#32, [], []) ∧
    decode 0x04000000#32 [] = .command (.wrsym (.fits ())) ∧
    takeCommand (withCmd [0x05000000#32] ready).cmd = some (0x05000000#32, [], []) ∧
    decode 0x05000000#32 [] = .rejected (.reservedOpcode 0x05#8) := by decide

/-- A reserved opcode; operands that do not fit, on a ready unit and with none needed; an `ASSEMBLE` one word short. -/
theorem witness_IllegalCommand :
    takeCommand [0x05000000#32] = some (0x05000000#32, [], []) ∧ (∃ r, decode 0x05000000#32 [] = .rejected r) ∧
    (decode 0x04000001#32 [0#32] = .command (.wrsym (.misfit [0#32])) ∧ UnitReady (.wrsym (.misfit [0#32])) ready ∧
      operandsFit (.wrsym (.misfit [0#32])) = false) ∧
    (decode 0x13000001#32 [0#32] = .command (.rxreset (.misfit [0#32])) ∧ UnitReady (.rxreset (.misfit [0#32])) State.reset) ∧
    (decode 0x03000002#32 [1#32, 0x3C#32] = .command (.assemble (.fits { payloadLen := 1#32, body := [0x3C#32] })) ∧
      ¬ AssembleShape ready.tx { payloadLen := 1#32, body := [0x3C#32] }) := by
  refine ⟨by decide, ⟨_, rfl⟩, ⟨by decide, ⟨fun _ => by decide, fun h => absurd h (by decide)⟩, by decide⟩,
    ⟨by decide, ⟨fun h => absurd h (by decide), fun h => absurd h (by decide)⟩⟩, ⟨by decide, by decide +kernel⟩⟩

/-- Byte 0, byte 3 and byte 4 of five; the unused lanes 5 and 7; a string that fills its words. -/
theorem witness_BytesTravel : let bs := [1#8, 2#8, 3#8, 4#8, 5#8]
    (0 < bs.length ∧ 4 < bs.length) ∧ (bs.length ≤ 5 ∧ 7 < 4 * ceilDiv bs.length 4) ∧ 8 ≤ 4 * [0x04030201#32, 0x00000005#32].length := by
  decide

/-- The least and the greatest magnitude, and a negative number. -/
theorem witness_NumberWords : ([0x00000001#32, 0x7F7FFFFF#32, 0xBF800000#32].all fun w =>
    w.extractLsb' 23 8 != 255#8 && w != 0x80000000#32) = true := by decide

theorem witness_MapSymbols : 8 * [0x3C#8].length ≤ 2 * 2 * modBps .qpsk ∧ 3 < 2 * 2 := by decide

/-- The least and the greatest length of a transform, the first and the last value. -/
theorem witness_TransformSums : (1 ≤ 65534 ∧ (zeros 1).length = 1 ∧ 0 < 1) ∧
    (65534 ≤ 65534 ∧ (zeros 65534).length = 65534 ∧ 0 < 65534 ∧ 65533 < 65534) :=
  ⟨by decide, by decide, List.length_replicate, by decide, by decide⟩

/-- The length 0, the first and the last bit of a string that repeats, and both ends of the range of angles. -/
theorem witness_CollaboratorLaws : [Cpx.zero].length = 1 ∧ ([] : List Cpx).length = 0 ∧ [1#8, 1#8, 1#8].length = fecEncLen .rep3 1 ∧
    (0 < 2 ∧ 1 < 2 ∧ 0 < 8 ∧ 7 < 8) ∧
    [true, false].length = modBps .qpsk ∧ (-numPi + 1 / 10 ^ 20 ≤ -numPi + 1 / 10 ^ 20 ∧ -numPi + 1 / 10 ^ 20 ≤ numPi ∧ numPi ≤ numPi) ∧ Cpx.ofNum 1 ≠ Cpx.zero := by decide +kernel

/-- A bin of a tag; the last index below and the first from `M/2` on, and the ends of the range (R15). -/
theorem witness_DerivedLists : (1 < (tagsOf table8).length ∧ tagAt (tagsOf table8) 1 = .data) ∧
    (2 * 3 < 8 ∧ 8 ≤ 2 * 4 ∧ 1 ≤ 4 ∧ 0 < 2 * 4 ∧ 7 < 2 * 4) ∧ [0, 3, 4, 7].map (sidx 8) = [0, 3, -4, -1] := by decide

/-- The least `M`, bins at both ends, and the mirror of bins 1 and `M - 1`. -/
theorem witness_DefaultAllocation : 8 ≤ 8 ∧ 0 < 8 ∧ 7 < 8 ∧ 1 ≤ 1 ∧ 1 ≤ 8 - 1 ∧ 7 ≤ 8 - 1 := by decide

/-- `M` at the ends of both ranges, and the worked command. -/
theorem witness_Defalloc : (8 ≤ (8#32).toNat ∧ (65535#32).toNat ≤ 65535) ∧ ((7#32).toNat < 8 ∧ 65535 < (65536#32).toNat) ∧
    (defaultTableOperand (8#32).toNat = some table8 ∧ (defaultTableOperand (65535#32).toNat).isSome = true) ∧
    (withCmd [0x21000001#32, 0x00000008#32] State.reset).cmd = [0x21000001#32, 0x00000008#32] :=
  ⟨by decide, by decide, ⟨by decide, rfl⟩, rfl⟩

theorem witness_Allocchk : validate table8 (8#32).toNat = .ok ∧ validate (table8.take 7) (8#32).toNat ≠ .ok ∧
    (withCmd [0x22000003#32, 0x00000008#32, 0x00000008#32, 0x00009018#32] State.reset).cmd =
      [0x22000003#32, 0x00000008#32, 0x00000008#32, 0x00009018#32] := by decide

theorem witness_Lfsr : (0xACE1#16 ≠ 0#16) ∧ (1 ≤ 65534 ∧ 65534 < 65535) := by decide

/-- The first and the last index, and the greatest length. -/
theorem witness_Taper : 0 < 1 ∧ (0 < 2 ∧ 2 ≤ 65533 ∧ 0 + 1 < 2) ∧ (65532 < 65533 ∧ 65533 ≤ 65533) := by decide

theorem witness_Preambles : 0 < (tagsOf table8).length ∧ 7 < (tagsOf table8).length ∧ tagAt (tagsOf table8) 7 ≠ .null ∧
    ((tagsOf table8).length % 2 = 0 ∧ 3 < (tagsOf table8).length / 2) := by decide

/-- The greatest `M`, cut at both ends of the clean part; `cp_len = M - 1 = taper_len`, with indices at the ends of their ranges; and
`taper_len = 0`. -/
theorem witness_BlockShape :
    (65534 ≤ 65534 ∧ 2 < 65534 ∧ (1 ≤ 1 ∧ 1 ≤ 2 ∧ 1 ≤ 2 ∧ 2 ≤ 2) ∧ (0 < 65534 ∧ 65533 < 65534) ∧ (zeros 65534).length = 65534) ∧
    (7 < 8 ∧ 7 ≤ 7 ∧ (zeros 8).length = 8) ∧ (2 < 8 ∧ 1 ≤ 2 ∧ 1 ≤ 1 ∧ 1 < 2) ∧ (0 < 8 ∧ 0 ≤ 0) ∧ 7 < 8 :=
  ⟨⟨by decide, by decide, by decide, by decide, List.length_replicate⟩, by decide⟩

theorem witness_Tail : txBusy.cpLen < txBusy.m ∧ txBusy.taperLen ≤ txBusy.cpLen ∧ txBusy.ovl.length = txBusy.taperLen := by decide

/-- The estimate 0, and both ends of the clean prefix, 0 and -1; the first and the last bin. -/
theorem witness_DisassembleInverts :
    let v := longPreamble (tagsOf table8)
    let rx := { rxReady with win := (asmTime txReady v).1 }
    let cut := fun t : Int => { rx with tau := t }
    txReady.cpLen < txReady.m ∧ txReady.taperLen ≤ txReady.cpLen ∧ rx.m = txReady.m ∧ rx.cpLen = txReady.cpLen ∧
    v.length = txReady.m ∧ rx.nu = 0 ∧ rx.phi = 0 ∧ rx.tau = 0 ∧ rx.win = (asmTime txReady v).1 ∧
    txReady.m ≤ 65534 ∧ (0 < txReady.m ∧ 7 < txReady.m) ∧
    ∀ t ∈ [(-1 : Int), 0], (cut t).tau = (t : Sys2Proof.Num) ∧ -((txReady.cpLen : Int) - txReady.taperLen) ≤ t ∧ t ≤ 0 :=
  ⟨by decide, by decide, rfl, rfl, by decide, rfl, rfl, rfl, rfl, by decide, by decide, fun t h => ⟨rfl, by revert t; decide⟩⟩

theorem unitGains_pilot (k : Nat) (h : tagAt (tagsOf table8) k = .pilot) : unitGains.getD k Cpx.zero = Cpx.ofNum 1 := by
  by_cases c : k < 8
  · interval_cases k <;> first | rfl | exact absurd h (by decide)
  · rw [tagAt, List.getD_eq_default _ _ (by simpa [tagsOf, table8] using c)] at h; cases h

/-- The noiseless symbol itself, with unit gains. -/
theorem witness_TrackerNoiseless :
    let rx := { rxHdr with g := unitGains }
    let d : List Cpx := [⟨1, 1⟩, ⟨-1, -1⟩]
    Cpx.ofNum 1 ≠ Cpx.zero ∧ LegalTable rx.m rx.table ∧ rx.derived.pil = binsOf .pilot rx.table ∧
    rx.derived.pils = pilotsFreq rx.table ∧ (∀ k, tagAt rx.table k = .pilot → rx.g.getD k Cpx.zero = Cpx.ofNum 1) ∧
    (∀ k, tagAt rx.table k ≠ .null →
      (fill rx.table d rx.pl).1.getD k Cpx.zero = (Cpx.ofNum 1).mul ((fill rx.table d rx.pl).1.getD k Cpx.zero)) := by
  refine ⟨by decide +kernel, by decide, rfl, rfl, unitGains_pilot, fun k _ => ?_⟩
  generalize (fill _ _ _).1.getD k Cpx.zero = z
  simp [Cpx.mul, Cpx.ofNum]

/-- `NULL, PILOT, DATA, NULL, NULL, NULL, DATA, PILOT`: signed indices -2 data, -1 pilot, 1 pilot, 2 data. -/
def tableOutside : List Tag := [.null, .pilot, .data, .null, .null, .null, .data, .pilot]

/-- A gain that is not 0, and one that is; the worked example's unit; data bins between pilots (1 and 7 of `NDPNNNPD`); and data bins above and below the outermost. -/
theorem witness_TrackerUpdates :
    let rx := { rxHdr with g := [⟨0, 0⟩, ⟨1, 0⟩, ⟨1, 0⟩, ⟨0, 0⟩, ⟨0, 0⟩, ⟨0, 0⟩, ⟨1, 0⟩, ⟨1, 0⟩] }
    let out := { rxHdr with table := tableOutside, derived := rxDerive 8 tableOutside .sum8 .none .qpsk 1 }
    let f := sidx 8
    (rx.g.getD 1 Cpx.zero ≠ Cpx.zero ∧ rx.g.getD 0 Cpx.zero = Cpx.zero) ∧
    (rx.m = 8 ∧ rx.cpLen = 2 ∧ rx.table = tagsOf table8 ∧ rx.derived.pil = [2, 6] ∧ rx.derived.pils = [6, 2] ∧ rx.nu = 0 ∧
      rx.tau = 0 ∧ rx.pl = 0x7A5B#16 ∧ rx.alpha = 1 / 2 ∧ { rx with alpha := 1 }.alpha = 1) ∧
    (LegalTable rx.m rx.table ∧ rx.derived.pil = binsOf .pilot rx.table ∧ rx.derived.pils = pilotsFreq rx.table ∧
      (0 < rx.m ∧ tagAt rx.table 0 = .null) ∧ tagAt rx.table 7 = .data ∧ f 6 < f 7 ∧ f 7 < f 2 ∧
      ∀ q ∈ rx.derived.pil, f q ≤ f 6 ∨ f 2 ≤ f q) ∧
    (LegalTable out.m out.table ∧ out.derived.pil = binsOf .pilot out.table ∧ out.derived.pils = pilotsFreq out.table ∧
      (tagAt out.table 6 = .data ∧ f 6 < f 7 ∧ ∀ q ∈ out.derived.pil, f 7 ≤ f q) ∧
      (tagAt out.table 2 = .data ∧ f 1 < f 2 ∧ ∀ q ∈ out.derived.pil, f q ≤ f 1)) := by
  refine ⟨by decide, ⟨rfl, rfl, rfl, by decide, by decide, rfl, rfl, rfl, rfl, rfl⟩, ⟨by decide, rfl, rfl, by decide, by decide, by decide,
    by decide, by decide⟩, ⟨by decide, rfl, rfl, by decide, by decide⟩⟩

theorem witness_Txcfg : State.reset.tx.state = .unconfigured ∧ TxCfgLegal v30 ∧
    TxCfgLegal { v30 with cpLen := 7#16, taperLen := 7#16 } ∧ TxCfgLegal { v30 with cpLen := 0#16, taperLen := 0#16 } ∧
    (decodeTxCfg [0x00000008#32, 0x00010002#32, 0x01000001#32, 0x00000101#32, 0x00000064#32, 0x00000008#32, 0x00009018#32] =
      .fits v30 ∧ 7 < v30.table.length) := by
  unfold TxCfgLegal; decide

/-- Each clause: legal properties; an unconfigured unit; an unsupported id; the worked command. -/
theorem witness_Txprops : (ready.tx.state ≠ .unconfigured ∧ PropsSupported v30.props) ∧ State.reset.tx.state = .unconfigured ∧
    ¬ PropsSupported { v30.props with fec1 := 7#8 } ∧ ¬ PropsSupported { v30.props with mod := 3#8 } ∧
    (withCmd [0x02000001#32, 0x01000000#32] ready).cmd = [0x02000001#32, 0x01000000#32] := by
  unfold PropsSupported; decide

theorem witness_Counts : 1 ≤ 1 := by decide

theorem witness_Descriptor : 0 ≤ 65535 ∧ 65535 ≤ 65535 := by decide

/-- V36, and an empty payload. -/
theorem witness_Assemble : ready.tx.state ≠ .unconfigured ∧ AssembleShape ready.tx v36 ∧ PayloadFits ready.tx v36 ∧
    (0 < 14 ∧ 13 < 14) ∧
    AssembleShape ready.tx { payloadLen := 0#32, body := [0x3C#32] } ∧ PayloadFits ready.tx { payloadLen := 0#32, body := [0x3C#32] } := by
  unfold AssembleShape PayloadFits; decide +kernel

/-- A unit in a frame; the states of V36's frame at the ends of each range, and those of a frame without payload symbols (R198). -/
theorem witness_Wrsym : (txBusy.state ≠ .unconfigured ∧ txBusy.state ≠ .idle) ∧
    (2 < 2 + 14 ∧ 2 ≤ 15 ∧ 15 < 2 + 14) ∧ (2 + 14 ≤ 16 ∧ 16 < 2 + 14 + 4 ∧ 2 + 14 ≤ 19 ∧ 19 < 2 + 14 + 4) ∧
    [0, 1, 2, 15, 16, 19, 20].map (stateOf 14 4) = [.assembled, .preamble, .header, .header, .payload, .payload, .tail] ∧
    [15, 16].map (stateOf 14 0) = [.header, .tail] := by decide

theorem witness_FrameLength : ∃ t, exec (.assemble (.fits v36)) ready = .next t ∧ t.rsp = ready.rsp ++ [0x00000000#32] ∧
    0 < t.tx.nTot ∧ 20 < t.tx.nTot ∧
    ∃ u, exec (.assemble (.fits v36)) State.reset = .next u ∧ u.rsp ≠ State.reset.rsp ++ [0x00000000#32] := by
  refine ⟨{ ready with tx := txBusy, rsp := [0x00000000#32] }, ?_, rfl, by decide +kernel, by decide +kernel, _, rfl, by decide⟩
  have h1 : ready.tx.state ≠ .unconfigured := by decide
  have h2 : ¬ (v36.body.length ≠ ceilDiv ready.tx.hUser 4 + ceilDiv v36.payloadLen.toNat 4) := by decide +kernel
  have h3 : ¬ (65535 < v36.payloadLen.toNat) := by decide
  have h4 : ¬ (ready.tx.maxPaySyms < (txPayCounts ready.tx v36.payloadLen.toNat).nsym) := by decide +kernel
  have h5 : unpackBytes ready.tx.hUser (v36.body.take (ceilDiv ready.tx.hUser 4)) = [0x3C#8] := by decide
  have h6 : unpackBytes v36.payloadLen.toNat (v36.body.drop (ceilDiv ready.tx.hUser 4)) = [0xA5#8] := by decide
  simp only [exec, execAssemble, ifTxConfigured_of_configured h1, ifFits_fits, if_neg h2, if_neg h3, if_neg h4, h5, h6]
  rfl

theorem witness_Rxcfg : State.reset.rx.state = .unconfigured ∧ RxCfgLegal v40 ∧
    RxCfgLegal { v40 with detT2 := 0#32, longT2 := 0#32, alpha := 0x3F800000#32, maxSyms := 1#32 } ∧
    (decodeRxCfg [0x00000008#32, 0x00010002#32, 0x01010001#32, 0x00000010#32, 0x3F000000#32, 0x3F000000#32, 0x3F000000#32,
      0x3F800000#32, 0x00000008#32, 0x00009018#32] = .fits v40 ∧ 7 < v40.table.length) := by
  unfold RxCfgLegal; decide +kernel

theorem witness_InitialState : (∃ rx, rxConfigure v40 RxUnit.reset = some rx) ∧ ready.rx.state ≠ .unconfigured := by
  have h : (rxConfigure v40 RxUnit.reset).isSome = true := by decide +kernel
  exact ⟨Option.isSome_iff_exists.mp h, by decide⟩

theorem witness_Execute : ready.rx.state ≠ .unconfigured ∧ State.reset.rx.state = .unconfigured := by decide

theorem witness_Samples : rxReady.state ≠ .unconfigured ∧ rxReady.win ≠ [] := by decide

theorem witness_Chunks : ready.rx.state ≠ .unconfigured ∧ ([[], [⟨0#32, 0#32⟩]] : List (List SampleWords)).length = 2 := by decide

theorem witness_Correlation : rxReady.derived.shortTime.length = rxReady.m ∧
    rxReady.derived.shortEnergy = energy rxReady.derived.shortTime := by
  refine ⟨?_, rfl⟩
  show (dftInv 8 _).length = 8
  simp

theorem witness_Silence : RxInitial rxReady ∧ rxReady.win = zeros (rxReady.m + rxReady.cpLen) ∧ 1 ≤ rxReady.m :=
  ⟨⟨rfl, ⟨rfl, rfl, rfl, rfl⟩, ⟨rfl, rfl, rfl, rfl, rfl⟩, ⟨rfl, rfl, rfl⟩, ⟨rfl, rfl, rfl⟩, ⟨rfl, rfl, rfl, rfl, rfl⟩,
    ⟨rfl, rfl, rfl⟩⟩, rfl, by decide⟩

/-- Past the threshold, and exactly on it (V42, sample 5, with `DET_T2` 1/2 and 3/4). -/
theorem witness_Detect :
    let r := { rxAtFive with win := ⟨1, 0⟩ :: rxAtFive.win.dropLast }
    let x : Cpx := ⟨0, -(1 / 4)⟩
    r.state = .detect ∧ (metric { r with win := r.win.drop 1 ++ [x] }).num > r.detT2 * (metric { r with win := r.win.drop 1 ++ [x] }).den ∧
    ¬ ((metric { r with win := r.win.drop 1 ++ [x] }).num > 3 / 4 * (metric { r with win := r.win.drop 1 ++ [x] }).den) := by
  decide +kernel

/-- Each clause of `SYNC_SHORT`, at V42's sample 5 window: an equal peak within the budget and at its end; `age` at `M/2`, and
below it within the budget and at its end. -/
theorem witness_SyncShort :
    let r := { rxAtFive with state := .syncShort, win := ⟨1, 0⟩ :: rxAtFive.win.dropLast, bestNum := 9 / 256, bestDen := 3 / 64 }
    let k := metric { r with win := r.win.drop 1 ++ [⟨0, -(1 / 4)⟩] }
    (0 < k.den ∧ r.kappa * r.bestNum * k.den ≤ k.num * r.bestDen) ∧ 158 + 1 < r.maxSyms * (r.m + r.cpLen) ∧
    ¬ (159 + 1 < r.maxSyms * (r.m + r.cpLen)) ∧ ¬ (r.kappa * 1 * k.den ≤ k.num * 1) ∧ r.m / 2 < 4 + 1 ∧ 3 + 1 ≤ r.m / 2 := by
  decide +kernel

/-- What `SYNC_LONG` tests in a window: is it accepted? -/
def longAccepted (rx : RxUnit) : Bool :=
  let z := disassemble rx
  let gain := fun k => if tagAt rx.table k = .null then Cpx.zero else (z.getD k Cpx.zero).mul (rx.derived.long.getD k Cpx.zero)
  let q := fun i => ((List.range rx.m).map gain).getD (rx.derived.nn.getD i 0) Cpx.zero
  let n := rx.derived.nn.length - 1
  let c := Cpx.sum ((List.range n).map fun i => (q (i + 1)).mul (q i).conj)
  let ea := numSum ((List.range n).map fun i => (q i).normSq)
  let eb := numSum ((List.range n).map fun i => (q (i + 1)).normSq)
  decide (rx.longT2 * ea * eb < c.normSq)

/-- Each clause per sample: the timer at 2; a long-preamble block with a carrier estimate that is not 0; silence, within the budget and
at its end. -/
theorem witness_LongPerSample :
    let y := (asmTime txReady (longPreamble (tagsOf table8))).1
    (1 < { rxLong with timer := 2 }.timer ∧ rxLong.state = .syncLong) ∧
    longAccepted { rxLong with timer := 1, nu := 1 / 1000, win := y } = true ∧
    longAccepted { rxLong with timer := 1, win := zeros 10 } = false ∧
    14 + 1 < rxLong.maxSyms ∧ rxLong.maxSyms ≤ 15 + 1 := by decide +kernel

/-- A window one sample short of a long-preamble block, and that sample. -/
theorem witness_CleanLong :
    let y := (asmTime txReady (longPreamble (tagsOf table8))).1
    ∃ x, let rx := { rxLong with timer := 1, win := Cpx.zero :: y.dropLast }
      RxConfigured rx ∧ rx.state = .syncLong ∧ rx.timer = 1 ∧ txReady.m = rx.m ∧ txReady.cpLen = rx.cpLen ∧
      txReady.taperLen ≤ txReady.cpLen ∧ rx.nu = 0 ∧ rx.phi = 0 ∧ rx.tau = 0 ∧
      rx.win.drop 1 ++ [x] = (asmTime txReady (longPreamble rx.table)).1 := by
  intro y
  have hl : y.length = 10 := asmBlock_length 8 2 1 _ _ _
  have hn : y ≠ [] := by intro h; rw [h] at hl; cases hl
  refine ⟨y.getLast hn, ?_, rfl, rfl, rfl, rfl, by decide, rfl, rfl, rfl, List.dropLast_append_getLast hn⟩
  exact rxConfigured_of _ (.refl rxReady) (by simp [hl]) rfl rfl (fun h => absurd h (by decide)) (fun h => absurd h (by decide))
    (fun _ => ⟨by decide, by decide, by decide, rfl⟩) (fun h => absurd h (by decide)) (fun h => absurd h (by decide))
    (fun h => absurd h (by decide))

/-- Each clause per sample: the timer at 2; the last symbol of a header and of a payload; an earlier one within the budget and at its
end. -/
theorem witness_SymbolPerSample : (rxHdr.state = .rxHeader ∧ rxPay.state = .rxPayload) ∧ 1 < { rxHdr with timer := 2 }.timer ∧
    (13 + 1 = rxHdr.derived.nHdr ∧ 3 + 1 = rxPay.nPay) ∧ (2 + 1 ≠ rxPay.nPay ∧ 14 + 1 < rxPay.maxSyms ∧ rxPay.maxSyms ≤ 15 + 1) := by
  decide +kernel

theorem witness_CleanSymbol :
    let rx := { rxHdr with
      g := unitGains, win := (asmTime txReady (fill (tagsOf table8) (groups8.map (modulate .qpsk)) 0x7A5B#16).1).1 }
    LegalTable rx.m rx.table ∧ rx.derived = rxDerive rx.m rx.table rx.hdrCheck rx.hdrFec rx.hdrMod rx.hUser ∧
    txReady.m = rx.m ∧ txReady.cpLen = rx.cpLen ∧ txReady.cpLen < txReady.m ∧ txReady.taperLen ≤ txReady.cpLen ∧
    rx.nu = 0 ∧ rx.phi = 0 ∧ rx.tau = 0 ∧ rx.g = (rx.table.map fun t => if t = .null then Cpx.zero else Cpx.ofNum 1) ∧
    groups8.length = rx.derived.nData ∧ (∀ b ∈ groups8, b.length = modBps rx.curMod) ∧
    rx.win = (asmTime txReady (fill rx.table (groups8.map (modulate rx.curMod)) rx.pl).1).1 :=
  ⟨by decide, rfl, rfl, rfl, by decide, by decide, rfl, rfl, rfl, rfl, by decide, by decide, rfl⟩

theorem witness_HeaderBits :
    let hdr := fullHeader txReady [0x3C#8] 1
    let rx := { rxHdr with rxbits :=
      (mapSymbols (fecEncode .none (hdr ++ checkCompute .sum8 hdr)) .qpsk 14 2).flatMap (demodulate .qpsk) }
    LegalTable rx.m rx.table ∧ rx.derived = rxDerive rx.m rx.table rx.hdrCheck rx.hdrFec rx.hdrMod rx.hUser ∧ Matched txReady rx ∧
    [0x3C#8].length = txReady.hUser ∧ 1 ≤ 65535 ∧ rx.derived.nHdr = 14 ∧ rx.derived.nData = 2 ∧
    0 < (counts txReady.check txReady.fec1 txReady.mod 1 rx.derived.nData).nsym :=
  ⟨by decide, rfl, ⟨rfl, rfl, rfl, rfl, rfl, rfl, rfl⟩, rfl, by decide, by decide +kernel, by decide, by decide +kernel⟩

theorem witness_PayloadBits :
    let rx := { rxPay with rxbits :=
      (mapSymbols (fecEncode .none ([0xA5#8] ++ checkCompute .sum8 [0xA5#8])) .qpsk 4 2).flatMap (demodulate .qpsk) }
    1 ≤ rx.derived.nData ∧ rx.plen = [0xA5#8].length ∧
    (⟨rx.payEncLen, rx.payNmod, rx.nPay⟩ : Counts) = counts rx.pcheck rx.pfec rx.pmod rx.plen rx.derived.nData ∧
    rx.derived.nData = 2 :=
  ⟨by decide, rfl, by decide +kernel, by decide⟩

/-- Seven zeros and the frame of V36 (P2). -/
def fed : List Cpx := zeros 7 ++ (txBlocks 21 txBusy).1

/-- The receiver of V40 locks on it. -/
theorem locks_fed : LocksOn rxReady fed 7 21 where
  before := by decide +kernel
  after := by
    have h : ∀ j ∈ List.range' 18 5, let k := metric (fedWindow rxReady (fed.take j)); ¬ (0 < k.den ∧ k.den ≤ k.num) := by
      decide +kernel
    exact fun j h1 h2 => h j (List.mem_range'_1.mpr ⟨h1, Nat.lt_succ_of_le h2⟩)
  tail := by
    have h : ∀ j ∈ List.range' 208 10, let k := metric (fedWindow rxReady (fed.take j)); k.num ≤ rxReady.detT2 * k.den := by
      decide +kernel
    exact fun j h1 h2 => h j (List.mem_range'_1.mpr ⟨h1, Nat.lt_succ_of_le h2⟩)

/-- The whole round trip, with seven leading zeros, the samples in two pieces. -/
theorem witness_IdentityChannel :
    txReady.state ≠ .unconfigured ∧ TxConfigured txReady ∧ RxConfigured rxReady ∧ Matched txReady rxReady ∧
    [0x3C#8].length = txReady.hUser ∧ [0xA5#8].length ≤ 65535 ∧ RxInitial rxReady ∧
    rxReady.win = zeros (rxReady.m + rxReady.cpLen) ∧ rxReady.evmask = 3#2 ∧ rxReady.kappa = 1 ∧
    (∃ k, k % 2 = 0 ∧ tagAt rxReady.table k ≠ .null) ∧
    (txAssemble txReady [0x3C#8] [0xA5#8]).nHdr ≤ rxReady.maxSyms ∧ (txAssemble txReady [0x3C#8] [0xA5#8]).nPay ≤ rxReady.maxSyms ∧
    (txAssemble txReady [0x3C#8] [0xA5#8]).nTot = 21 ∧ LocksOn rxReady fed 7 21 ∧ [fed.take 100, fed.drop 100].flatten = fed := by
  refine ⟨by decide, txConfigured_ready, rxConfigured_ready, ⟨rfl, rfl, rfl, rfl, rfl, rfl, rfl⟩, rfl, by decide,
    witness_Silence.1, rfl, rfl, rfl, ⟨2, by decide⟩, by decide +kernel, by decide +kernel, by decide +kernel, locks_fed, ?_⟩
  simp

/-- V36's frame, for a receiver in step. -/
theorem witness_AlignedFrame :
    txReady.state ≠ .unconfigured ∧ TxConfigured txReady ∧ RxConfigured rxLong ∧ Matched txReady rxLong ∧
    [0x3C#8].length = txReady.hUser ∧ [0xA5#8].length ≤ 65535 ∧ rxLong.state = .syncLong ∧
    rxLong.timer = rxLong.m + rxLong.cpLen ∧ rxLong.nu = 0 ∧ rxLong.phi = 0 ∧ rxLong.tau = 0 ∧ rxLong.evmask = 3#2 ∧
    (txWriteSymbol (txAssemble txReady [0x3C#8] [0xA5#8])).2.nHdr ≤ rxLong.maxSyms ∧
    (txWriteSymbol (txAssemble txReady [0x3C#8] [0xA5#8])).2.nPay ≤ rxLong.maxSyms :=
  ⟨by decide, txConfigured_ready, rxConfigured_long, matched_ready, rfl, by decide, rfl, rfl, rfl, rfl, rfl, rfl,
    by decide +kernel, by decide +kernel⟩

/-- V43's header; one whose payload is empty and without checksum, which takes no symbol; a header whose checksum is bad. -/
theorem witness_FinishedReceptions :
    (let rx := { rxHdr with rxbits := bitsOfBytes [0x3C#8, 0x00#8, 0x01#8, 0x01#8, 0x00#8, 0x01#8, 0x3F#8] }
     (decodeHeader rx).2 = true ∧ parseHeader rx.hUser (decodeHeader rx).1 = some ⟨[0x3C#8], 1, .sum8, .none, .qpsk⟩ ∧
     0 < (counts .sum8 .none .qpsk 1 rx.derived.nData).nsym) ∧
    (let rx := { rxHdr with rxbits := bitsOfBytes [0x3C#8, 0x00#8, 0x00#8, 0x00#8, 0x00#8, 0x01#8, 0x3D#8] }
     (decodeHeader rx).2 = true ∧ parseHeader rx.hUser (decodeHeader rx).1 = some ⟨[0x3C#8], 0, .none, .none, .qpsk⟩ ∧
     (counts .none .none .qpsk 0 rx.derived.nData).nsym = 0) ∧
    (decodeHeader { rxHdr with rxbits := bitsOfBytes [0xBC#8, 0x00#8, 0x01#8, 0x01#8, 0x00#8, 0x01#8, 0x3F#8] }).2 = false ∧
    parseHeader 1 [0x3C#8, 0x00#8, 0x01#8, 0x01#8, 0x00#8, 0x03#8] = none := by decide +kernel

/-- Each state, with exactly as many samples as the budget. -/
theorem witness_Budget : (RxConfigured rxShort ∧ rxShort.state = .syncShort) ∧ (RxConfigured rxLong ∧ rxLong.state = .syncLong) ∧
    (RxConfigured rxHdr ∧ rxHdr.state = .rxHeader) ∧
    (RxConfigured rxPay ∧ rxPay.state = .rxPayload) ∧
    rxHdr.maxSyms * (rxHdr.m + rxHdr.cpLen) ≤ (List.replicate 160 Cpx.zero).length :=
  ⟨⟨rxConfigured_short, rfl⟩, ⟨rxConfigured_long, rfl⟩, ⟨rxConfigured_hdr, rfl⟩, ⟨rxConfigured_pay, rfl⟩, by rw [List.length_replicate]; decide⟩

theorem witness_Rxreset : ready.rx.state ≠ .unconfigured ∧ State.reset.rx.state = .unconfigured := by decide

theorem witness_Rxsetcb : ready.rx.state ≠ .unconfigured ∧ State.reset.rx.state = .unconfigured ∧ (3#32).toNat < 4 := by decide

/-- One cause of each failure status. -/
theorem witness_FailureCauses : Raises (.wrsym (.fits ())) State.reset .notConfigured ∧
    Raises (.wrsym (.misfit [0#32])) ready .illegalCommand ∧ Raises (.wrsym (.fits ())) ready .notAssembled ∧
    Raises (.allocchk (.fits { m := 0#32, table := [] })) State.reset .invalidAllocation ∧
    Raises (.assemble (.fits v36)) { ready with tx := { txReady with maxPaySyms := 3 } } .payloadTooLarge ∧
    Raises (.defalloc (.fits 7#32)) State.reset .invalidConfiguration := by
  refine ⟨fun h => h.1 rfl rfl, ⟨⟨fun _ => by decide, fun h => absurd h (by decide)⟩, .inl rfl⟩, ⟨rfl, rfl⟩, ⟨_, rfl, by decide⟩,
    ⟨v36, rfl, by decide, ?_, ?_⟩, .inr (.inr (.inr ⟨7#32, rfl, .inl (by decide)⟩))⟩
  · unfold AssembleShape; decide
  · unfold PayloadFits; decide +kernel

/-- A command of each group completes. -/
theorem witness_UnitsShareNothing : (∃ t, exec (.wrsym (.fits ())) ready = .next t) ∧ (∃ t, exec (.rxsetcb (.fits 1#2)) ready = .next t) ∧
    (∃ t, exec (.rdcsr (.fits .txM)) ready = .next t) ∧ opcodeOf (.wrsym (.fits ())) ∈ [0x01#8, 0x02#8, 0x03#8, 0x04#8] ∧
    opcodeOf (.rxsetcb (.fits 1#2)) ∈ [0x11#8, 0x12#8, 0x13#8, 0x14#8] ∧ opcodeOf (.rdcsr (.fits .txM)) ∈ [0x20#8, 0x21#8, 0x22#8] :=
  ⟨⟨_, rfl⟩, ⟨_, rfl⟩, ⟨_, rfl⟩, by decide, by decide, by decide⟩

theorem witness_ConfigurationIsImmutable : (∃ t, exec (.txprops (.fits v30.props)) ready = .next t) ∧ ready.tx.state ≠ .unconfigured ∧
    ready.rx.state ≠ .unconfigured ∧ opcodeOf (.wrsym (.fits ())) ≠ 0x02#8 ∧ opcodeOf (.wrsym (.fits ())) ≠ 0x14#8 :=
  ⟨⟨_, rfl⟩, by decide, by decide, by decide, by decide⟩

theorem witness_Invariant : Inv ready ∧ (∃ t, step (withCmd [0x04000000#32] ready) = .next t) ∧ Inv State.reset :=
  ⟨inv_ready, ⟨_, rfl⟩, .inl rfl, .inl rfl⟩

end Sys2Proof.Tests
end

/-! SUPPORT. Lengths and counts that the invariant speaks of: tables and their bins, byte and bit strings, the collaborators' lengths
(R12, R62, R64), the vectors of a frame (R142 to R146). -/

namespace Sys2Proof.Machine

/-! ### Ceiling division, dimensions, tables -/

theorem le_ceilDiv_mul (a : Nat) {b : Nat} (h : 0 < b) : a ≤ ceilDiv a b * b := by
  have := Nat.lt_div_mul_add h (a := a + b - 1)
  unfold ceilDiv; omega

theorem ceilDiv_pos {a b : Nat} (ha : 0 < a) (hb : 0 < b) : 0 < ceilDiv a b := Nat.div_pos (by omega) hb

theorem legalDims_iff (m cp tl : Nat) :
    legalDims m cp tl = true ↔ m % 2 = 0 ∧ 8 ≤ m ∧ m ≤ Config.mMax ∧ cp < m ∧ tl ≤ cp := by
  simp [legalDims, and_assoc]

theorem validate_ok_iff (p : List TagCode) (m : Nat) :
    validate p m = .ok ↔ p.length = m ∧ 3#2 ∉ p ∧ tagCode .data ∈ p ∧ tagCode .pilot ∈ p := by
  simp [validate]

theorem tagOfCode_tagCode (t : Tag) : tagOfCode (tagCode t) = some t := by cases t <;> rfl

theorem mem_tagsOf {p : List TagCode} {t : Tag} (h : tagCode t ∈ p) : t ∈ tagsOf p :=
  List.mem_map.2 ⟨_, h, by rw [tagOfCode_tagCode]; rfl⟩

/-- R120, R122: a table that passes `validate` is stored as a legal one. -/
theorem legalTable_tagsOf {p : List TagCode} {m : Nat} (h : validate p m = .ok) : LegalTable m (tagsOf p) := by
  obtain ⟨hlen, -, hdata, hpilot⟩ := (validate_ok_iff p m).1 h
  exact ⟨by simp [tagsOf, hlen], mem_tagsOf hdata, mem_tagsOf hpilot⟩

theorem countTag_pos {t : Tag} {p : List Tag} (h : t ∈ p) : 0 < countTag t p :=
  List.countP_pos_iff.2 ⟨t, h, by simp⟩

/-- R121: as many bins have a tag as the table has entries with it. -/
theorem binsOf_length (t : Tag) (p : List Tag) : (binsOf t p).length = countTag t p := by
  have tags : (List.range p.length).map (tagAt p) = p :=
    List.ext_getElem (by simp) fun k _ hk => by simp [tagAt, hk]
  rw [binsOf, ← List.countP_eq_length_filter]
  conv_rhs => rw [countTag, ← tags, List.countP_map]
  rfl

/-! ### Vectors of one symbol -/

theorem zeros_getD (n k : Nat) : (zeros n).getD k Cpx.zero = Cpx.zero := by
  rw [zeros, List.getD_eq_getElem?_getD, List.getElem?_replicate]; split <;> rfl

theorem preambleFrom_length (keep : Nat → Tag → Bool) (k : Nat) (r : BitVec 16) (p : List Tag) :
    (preambleFrom keep k r p).length = p.length := by
  induction p generalizing k r with
  | nil => rfl
  | cons t ts ih => simp [preambleFrom, ih]

@[simp] theorem shortPreamble_length (p : List Tag) : (shortPreamble p).length = p.length := preambleFrom_length _ _ _ _

@[simp] theorem longPreamble_length (p : List Tag) : (longPreamble p).length = p.length := preambleFrom_length _ _ _ _

@[simp] theorem fill_length (p : List Tag) (d : List Cpx) (pl : BitVec 16) : (fill p d pl).1.length = p.length := by
  induction p generalizing d pl with
  | nil => rfl
  | cons t ts ih => cases t <;> simp [fill, ih]

@[simp] theorem fillAll_length (p : List Tag) (ds : List (List Cpx)) (pl : BitVec 16) :
    (fillAll p ds pl).1.length = ds.length := by
  induction ds generalizing pl with
  | nil => rfl
  | cons d ds ih => simp [fillAll, ih]

theorem fillAll_width (p : List Tag) (ds : List (List Cpx)) (pl : BitVec 16) :
    ∀ v ∈ (fillAll p ds pl).1, v.length = p.length := by
  induction ds generalizing pl with
  | nil => simp [fillAll]
  | cons d ds ih =>
    intro v hv
    rcases List.mem_cons.1 hv with rfl | hv
    · exact fill_length _ _ _
    · exact ih _ v hv

/-! ### Lengths of the collaborators (R12) -/

theorem modBps_pos (md : ModId) : 0 < modBps md := by cases md <;> decide

theorem demodulate_length (md : ModId) (z : Cpx) : (demodulate md z).length = modBps md := by cases md <;> rfl

/-- No encoder shortens a message. -/
theorem le_fecEncLen (f : FecId) (n : Nat) : n ≤ fecEncLen f n := by
  cases f <;> simp only [fecEncLen] <;> omega

theorem h128Decode_length (n : Nat) (e : List Byte) : (h128Decode n e).1.length = n := by
  unfold h128Decode; simp only; split <;> simp

/-- R10: a decoder gives back as many bytes as the message had. -/
theorem fecDecode_length (f : FecId) {n : Nat} {e : List Byte} (h : e.length = fecEncLen f n) :
    (fecDecode f n e).1.length = n := by
  cases f with
  | none => exact h
  | h128 => exact h128Decode_length n e
  | rep3 => simp [fecDecode]

theorem bytesOfBits_length (bits : List Bool) : (bytesOfBits bits).length = bits.length / 8 := by simp [bytesOfBits]

/-- R193: the counts are positive for a message that is not empty. -/
theorem counts_nsym_pos (c : CheckId) (f : FecId) (md : ModId) {n nData : Nat} (hn : 0 < n) (hd : 0 < nData) :
    0 < (counts c f md n nData).nsym := by
  have enc : 0 < fecEncLen f (n + checkLen c) := lt_of_lt_of_le (by omega) (le_fecEncLen f (n + checkLen c))
  exact ceilDiv_pos (ceilDiv_pos (by omega) (modBps_pos md)) hd

/-- R193, R240: the symbols of a message carry all its bits, so what `unmap` cuts out has the encoded length. -/
theorem unmap_length (c : CheckId) (f : FecId) (md : ModId) (n : Nat) {nData : Nat} (hd : 0 < nData) {bits : List Bool}
    (h : bits.length = (counts c f md n nData).nsym * nData * modBps md) :
    (unmap bits (counts c f md n nData).nmod md (counts c f md n nData).encLen).length = (counts c f md n nData).encLen := by
  have hmod : (counts c f md n nData).nmod ≤ (counts c f md n nData).nsym * nData := le_ceilDiv_mul _ hd
  have hbits : 8 * (counts c f md n nData).encLen ≤ (counts c f md n nData).nmod * modBps md := le_ceilDiv_mul _ (modBps_pos md)
  have hfull : (counts c f md n nData).nmod * modBps md ≤ bits.length := h ▸ Nat.mul_le_mul_right _ hmod
  rw [unmap, List.length_take, bytesOfBits_length, List.length_take]
  omega

end Sys2Proof.Machine

/-! SUPPORT. The invariant of the TXU: what each of its commands makes of it (R191, R192, R196, R197, R198). -/

namespace Sys2Proof.Machine

/-! ### The state as a function of the cursor (R198) -/

theorem stateOf_ne_unconfigured (nHdr nPay c : Nat) : stateOf nHdr nPay c ≠ .unconfigured := by
  unfold stateOf; split_ifs <;> decide

theorem stateOf_ne_idle (nHdr nPay c : Nat) : stateOf nHdr nPay c ≠ .idle := by
  unfold stateOf; split_ifs <;> decide

/-! ### `TXCFG` -/

/-- What a `TXCFG` that succeeds has checked, and the unit it leaves (R191). -/
theorem txConfigure_some {c : TxCfgOps} {tx tx' : TxUnit} (h : txConfigure c tx = some tx') :
    legalDims c.m.toNat c.cpLen.toNat c.taperLen.toNat = true ∧ validate c.table c.m.toNat = .ok ∧
      ∃ check fec0 fec1 md hdrMod, tx' =
        { state := .idle, m := c.m.toNat, cpLen := c.cpLen.toNat, taperLen := c.taperLen.toNat, table := tagsOf c.table,
          check := check, fec0 := fec0, fec1 := fec1, mod := md, hdrMod := hdrMod, hUser := c.hUser.toNat,
          maxPaySyms := c.maxPaySyms.toNat, derived := txDerive (tagsOf c.table) c.taperLen.toNat,
          fd := [], cursor := 0, nHdr := 0, nPay := 0, nTot := 0, ovl := zeros c.taperLen.toNat } := by
  unfold txConfigure at h
  split at h
  · cases h
  · split at h
    · cases h
    · split at h
      · cases h
      · rename_i hdims htable
        split at h
        · exact ⟨by simpa using hdims, by simpa using htable, _, _, _, _, _, (Option.some.inj h).symm⟩
        · cases h

theorem txConfigure_inv {c : TxCfgOps} {tx tx' : TxUnit} (h : txConfigure c tx = some tx') : TxInv tx' := by
  obtain ⟨dims, valid, check, fec0, fec1, md, hdrMod, rfl⟩ := txConfigure_some h
  exact .inr ⟨by simp,
    { dims := dims
      table := legalTable_tagsOf valid
      hUser := by have := c.hUser.isLt; simp only; omega
      derived := rfl
      ovlLength := zeros_length _
      fdCount := rfl
      fdWidth := by simp
      payLimit := Nat.zero_le _
      idle := fun _ => rfl
      inFrame := fun h => absurd rfl h }⟩

/-! ### `TXPROPS` -/

/-- R192: the properties that a `TXPROPS` replaces are none that the invariant speaks of. -/
theorem txSetProps_inv {p : PropsOps} {tx tx' : TxUnit} (h : txSetProps p tx = some tx')
    (ready : tx.state ≠ .unconfigured) (conf : TxConfigured tx) : TxInv tx' := by
  unfold txSetProps at h
  split at h
  · cases h
    exact .inr ⟨ready, conf.dims, conf.table, conf.hUser, conf.derived, conf.ovlLength, conf.fdCount, conf.fdWidth,
      conf.payLimit, conf.idle, conf.inFrame⟩
  · cases h

/-! ### `ASSEMBLE` -/

@[simp] theorem frameVectors_length (tx : TxUnit) (user payload : List Byte) :
    (frameVectors tx user payload).length = 2 + (txHdrCounts tx).nsym + (txPayCounts tx payload.length).nsym + 1 := by
  simp [frameVectors]; omega

/-- R196: every vector of a frame is one symbol wide. -/
theorem frameVectors_width {tx : TxUnit} (table : tx.table.length = tx.m) (derived : tx.derived = txDerive tx.table tx.taperLen)
    (user payload : List Byte) : ∀ v ∈ frameVectors tx user payload, v.length = tx.m := by
  intro v hv
  simp only [frameVectors, List.mem_append, List.mem_cons, List.not_mem_nil, or_false] at hv
  rcases hv with ((rfl | rfl) | hv) | rfl
  · simp [derived, txDerive, table]
  · simp [derived, txDerive, table]
  · exact (fillAll_width _ _ _ v hv).trans table
  · exact zeros_length _

theorem txAssemble_inv {tx : TxUnit} (conf : TxConfigured tx) (user payload : List Byte)
    (limit : (txPayCounts tx payload.length).nsym ≤ tx.maxPaySyms) : TxInv (txAssemble tx user payload) :=
  .inr ⟨by simp [txAssemble],
    { dims := conf.dims
      table := conf.table
      hUser := conf.hUser
      derived := conf.derived
      ovlLength := zeros_length _
      fdCount := frameVectors_length tx user payload
      fdWidth := frameVectors_width conf.table.1 conf.derived user payload
      payLimit := limit
      idle := fun h => by simp [txAssemble] at h
      inFrame := fun _ => ⟨rfl, by simp [txAssemble], rfl⟩ }⟩

theorem unpackBytes_length {n : Nat} {ws : List Word} (h : ws.length = ceilDiv n 4) : (unpackBytes n ws).length = n := by
  have lanes : (ws.flatMap bytesOfWord).length = ws.length * 4 := by
    simp [List.length_flatMap, bytesOfWord]
  have := le_ceilDiv_mul n (b := 4) (by omega)
  rw [unpackBytes, List.length_take, lanes, h]
  omega

/-! ### `WRSYM` -/

theorem txWriteSymbol_inv {tx : TxUnit} (conf : TxConfigured tx) (busy : tx.state ≠ .idle) : TxInv (txWriteSymbol tx).2 := by
  obtain ⟨total, below, -⟩ := conf.inFrame busy
  have state : (txWriteSymbol tx).2.state = if tx.cursor + 1 = tx.nTot then .idle else stateOf tx.nHdr tx.nPay (tx.cursor + 1) := rfl
  refine .inr ⟨?_, conf.dims, conf.table, conf.hUser, conf.derived, asmOverlap_length _ _ _, conf.fdCount, conf.fdWidth,
    conf.payLimit, ?idle, ?inFrame⟩
  · rw [state]; split
    · decide
    · exact stateOf_ne_unconfigured _ _ _
  case idle =>
    rw [state]; split
    · exact fun _ => ‹_›
    · exact fun h => absurd h (stateOf_ne_idle _ _ _)
  case inFrame =>
    rw [state]; split
    · exact fun h => absurd rfl h
    · exact fun _ => ⟨total, Nat.lt_of_le_of_ne below ‹_›, rfl⟩

end Sys2Proof.Machine

/-! SUPPORT. The invariant of the RXU, in two parts: what a configured unit stores whatever its state (R25, R26, R28), and what its state
asks of timers, counters and decode state (R27, R29, R32). Each rule of a state is shown to keep both. -/

namespace Sys2Proof.Machine

/-! ### The two parts of the invariant -/

/-- What a configured RXU stores in every state: the clauses of `RxConfigured` that do not depend on the state. -/
structure RxStored (rx : RxUnit) : Prop where
  dims : legalDims rx.m rx.cpLen rx.taperLen = true
  table : LegalTable rx.m rx.table
  hUser : rx.hUser ≤ 255
  budget : 1 ≤ rx.maxSyms
  tuning : legalTuning rx.detT2 rx.longT2 rx.alpha rx.kappa = true
  derived : rx.derived = rxDerive rx.m rx.table rx.hdrCheck rx.hdrFec rx.hdrMod rx.hUser
  winLength : rx.win.length = rx.m + rx.cpLen
  gainLength : rx.g.length = rx.m
  nullGains : ∀ k, tagAt rx.table k = .null → rx.g.getD k Cpx.zero = Cpx.zero
  hdrUserLength : rx.hdrUser.length = rx.hUser

/-- What the state of a configured RXU asks: the clauses of `RxConfigured` for that state. -/
def RxControl (rx : RxUnit) : Prop :=
  match rx.state with
  | .unconfigured => False
  | .detect => toDetect rx = rx
  | .syncShort => rx.age ≤ rx.m / 2 ∧ rx.age ≤ rx.cnt ∧ rx.cnt < rx.maxSyms * (rx.m + rx.cpLen)
  | .syncLong => 1 ≤ rx.timer ∧ rx.timer ≤ rx.m + rx.cpLen ∧ rx.nsym < rx.maxSyms ∧ rx.tau = 0
  | .rxHeader => Receiving rx rx.derived.nHdr rx.hdrMod
  | .rxPayload => Receiving rx rx.nPay rx.pmod ∧ rx.plen < 65536 ∧
      (⟨rx.payEncLen, rx.payNmod, rx.nPay⟩ : Counts) = counts rx.pcheck rx.pfec rx.pmod rx.plen rx.derived.nData

/-- A configured RXU of which the invariant holds. -/
structure RxActive (rx : RxUnit) : Prop where
  stored : RxStored rx
  control : RxControl rx

section

variable {rx : RxUnit}

theorem rxControl_detect (h : rx.state = .detect) : RxControl rx ↔ toDetect rx = rx := by simp [RxControl, h]

theorem rxControl_syncShort (h : rx.state = .syncShort) :
    RxControl rx ↔ rx.age ≤ rx.m / 2 ∧ rx.age ≤ rx.cnt ∧ rx.cnt < rx.maxSyms * (rx.m + rx.cpLen) := by simp [RxControl, h]

theorem rxControl_syncLong (h : rx.state = .syncLong) :
    RxControl rx ↔ 1 ≤ rx.timer ∧ rx.timer ≤ rx.m + rx.cpLen ∧ rx.nsym < rx.maxSyms ∧ rx.tau = 0 := by simp [RxControl, h]

theorem rxControl_header (h : rx.state = .rxHeader) : RxControl rx ↔ Receiving rx rx.derived.nHdr rx.hdrMod := by
  simp [RxControl, h]

theorem rxControl_payload (h : rx.state = .rxPayload) :
    RxControl rx ↔ Receiving rx rx.nPay rx.pmod ∧ rx.plen < 65536 ∧
      (⟨rx.payEncLen, rx.payNmod, rx.nPay⟩ : Counts) = counts rx.pcheck rx.pfec rx.pmod rx.plen rx.derived.nData := by
  simp [RxControl, h]

theorem RxActive.of_syncShort (s : RxStored rx) (h : rx.state = .syncShort) (age : rx.age ≤ rx.m / 2) (cnt : rx.age ≤ rx.cnt)
    (budget : rx.cnt < rx.maxSyms * (rx.m + rx.cpLen)) : RxActive rx := ⟨s, (rxControl_syncShort h).2 ⟨age, cnt, budget⟩⟩

theorem RxActive.of_syncLong (s : RxStored rx) (h : rx.state = .syncLong) (least : 1 ≤ rx.timer)
    (most : rx.timer ≤ rx.m + rx.cpLen) (budget : rx.nsym < rx.maxSyms) (tau : rx.tau = 0) : RxActive rx :=
  ⟨s, (rxControl_syncLong h).2 ⟨least, most, budget, tau⟩⟩

theorem RxActive.of_header (s : RxStored rx) (h : rx.state = .rxHeader) (r : Receiving rx rx.derived.nHdr rx.hdrMod) :
    RxActive rx := ⟨s, (rxControl_header h).2 r⟩

theorem RxActive.of_payload (s : RxStored rx) (h : rx.state = .rxPayload) (r : Receiving rx rx.nPay rx.pmod)
    (plen : rx.plen < 65536)
    (fixed : (⟨rx.payEncLen, rx.payNmod, rx.nPay⟩ : Counts) = counts rx.pcheck rx.pfec rx.pmod rx.plen rx.derived.nData) :
    RxActive rx := ⟨s, (rxControl_payload h).2 ⟨r, plen, fixed⟩⟩

end

/-- The two parts together are the invariant of a configured unit. -/
theorem rxActive_iff (rx : RxUnit) : RxActive rx ↔ rx.state ≠ .unconfigured ∧ RxConfigured rx := by
  constructor
  · rintro ⟨s, c⟩
    refine ⟨fun h => by simp [RxControl, h] at c, s.dims, s.table, s.hUser, s.budget, s.tuning, s.derived, s.winLength, s.gainLength,
      s.nullGains, s.hdrUserLength, fun h => (rxControl_detect h).1 c, fun h => (rxControl_syncShort h).1 c,
      fun h => (rxControl_syncLong h).1 c, fun h => (rxControl_header h).1 c, fun h => ((rxControl_payload h).1 c).1,
      fun h => ((rxControl_payload h).1 c).2⟩
  · rintro ⟨ready, c⟩
    refine ⟨⟨c.dims, c.table, c.hUser, c.budget, c.tuning, c.derived, c.winLength, c.gainLength, c.nullGains, c.hdrUserLength⟩, ?_⟩
    cases h : rx.state with
    | unconfigured => exact absurd h ready
    | detect => exact (rxControl_detect h).2 (c.detect h)
    | syncShort => exact (rxControl_syncShort h).2 (c.syncShort h)
    | syncLong => exact (rxControl_syncLong h).2 (c.syncLong h)
    | rxHeader => exact (rxControl_header h).2 (c.header h)
    | rxPayload => exact (rxControl_payload h).2 ⟨c.payload h, c.payloadCounts h⟩

/-! ### What the stored part gives, and what keeps it -/

namespace RxStored

variable {rx rx' : RxUnit}

theorem m_ge (h : RxStored rx) : 8 ≤ rx.m := ((legalDims_iff _ _ _).1 h.dims).2.1

theorem nData_eq (h : RxStored rx) : rx.derived.nData = countTag .data rx.table := by rw [h.derived]; rfl

theorem dat_length (h : RxStored rx) : rx.derived.dat.length = rx.derived.nData := by
  rw [h.derived]; exact binsOf_length _ _

theorem nData_pos (h : RxStored rx) : 0 < rx.derived.nData := h.nData_eq ▸ countTag_pos h.table.2.1

/-- R26: the header counts of a unit are those of R193. -/
theorem hdrEncLen_eq (h : RxStored rx) :
    rx.derived.hdrEncLen = (counts rx.hdrCheck rx.hdrFec rx.hdrMod (rx.hUser + Config.hDesc) rx.derived.nData).encLen := by
  rw [h.derived]; rfl

theorem hdrNmod_eq (h : RxStored rx) :
    rx.derived.hdrNmod = (counts rx.hdrCheck rx.hdrFec rx.hdrMod (rx.hUser + Config.hDesc) rx.derived.nData).nmod := by
  rw [h.derived]; rfl

theorem nHdr_eq (h : RxStored rx) :
    rx.derived.nHdr = (counts rx.hdrCheck rx.hdrFec rx.hdrMod (rx.hUser + Config.hDesc) rx.derived.nData).nsym := by
  rw [h.derived]; rfl

theorem nHdr_pos (h : RxStored rx) : 0 < rx.derived.nHdr := by
  rw [h.nHdr_eq]
  exact counts_nsym_pos _ _ _ (by simp [Config.hDesc]) h.nData_pos

/-- Gains, window and user header of their lengths under the same configuration. -/
theorem of_config (h : RxStored rx) (same : SameRxConfig rx rx') (win : rx'.win.length = rx.m + rx.cpLen)
    (gain : rx'.g.length = rx.m) (null : ∀ k, tagAt rx.table k = .null → rx'.g.getD k Cpx.zero = Cpx.zero)
    (user : rx'.hdrUser.length = rx.hUser) : RxStored rx' := by
  obtain ⟨m, cpLen, taperLen, table, hdrCheck, hdrFec, hdrMod, hUser, maxSyms, detT2, longT2, alpha, kappa, derived⟩ := same
  constructor
  case dims => rw [← m, ← cpLen, ← taperLen]; exact h.dims
  case table => rw [← m, ← table]; exact h.table
  case hUser => rw [← hUser]; exact h.hUser
  case budget => rw [← maxSyms]; exact h.budget
  case tuning => rw [← detT2, ← longT2, ← alpha, ← kappa]; exact h.tuning
  case derived => rw [← derived, ← m, ← table, ← hdrCheck, ← hdrFec, ← hdrMod, ← hUser]; exact h.derived
  case winLength => rw [← m, ← cpLen]; exact win
  case gainLength => rw [← m]; exact gain
  case nullGains => rw [← table]; exact null
  case hdrUserLength => rw [← hUser]; exact user

/-- Configuration, window, gains and user header are the same: counters, timers and the rest do not matter. -/
theorem congr (h : RxStored rx) (same : SameRxConfig rx rx') (win : rx'.win = rx.win) (gain : rx'.g = rx.g)
    (user : rx'.hdrUser = rx.hdrUser) : RxStored rx' :=
  h.of_config same (win ▸ h.winLength) (gain ▸ h.gainLength) (gain ▸ h.nullGains) (user ▸ h.hdrUserLength)

/-- The same with new gains. -/
theorem with_gains (h : RxStored rx) (same : SameRxConfig rx rx') (win : rx'.win = rx.win) (gain : rx'.g.length = rx.m)
    (null : ∀ k, tagAt rx.table k = .null → rx'.g.getD k Cpx.zero = Cpx.zero) (user : rx'.hdrUser = rx.hdrUser) : RxStored rx' :=
  h.of_config same (win ▸ h.winLength) gain null (user ▸ h.hdrUserLength)

theorem emitted (h : RxStored rx) (e : EventRecord) : RxStored (emit e rx) := by
  rw [emit_eq]; exact h.congr (.refl rx) rfl rfl rfl

/-- R246: leaving a frame leads into `DETECT` with its decode state cleared. -/
theorem toDetect_active (h : RxStored rx) : RxActive (toDetect rx) where
  stored := h.of_config (.refl rx) h.winLength (zeros_length _) (fun k _ => zeros_getD _ k) List.length_replicate
  control := (rxControl_detect rfl).2 rfl

end RxStored

/-- R41: the initial state of any legal configuration. -/
theorem initialRx_active {rx : RxUnit} (dims : legalDims rx.m rx.cpLen rx.taperLen = true) (table : LegalTable rx.m rx.table)
    (hUser : rx.hUser ≤ 255) (budget : 1 ≤ rx.maxSyms) (tuning : legalTuning rx.detT2 rx.longT2 rx.alpha rx.kappa = true)
    (derived : rx.derived = rxDerive rx.m rx.table rx.hdrCheck rx.hdrFec rx.hdrMod rx.hUser) : RxActive (initialRx rx) where
  stored := ⟨dims, table, hUser, budget, tuning, derived, zeros_length _, zeros_length _, fun k _ => zeros_getD _ k,
    List.length_replicate⟩
  control := (rxControl_detect rfl).2 rfl

end Sys2Proof.Machine

/-! SUPPORT. The rules of the RXU's states (R223 to R245) keep its invariant, sample by sample. -/

namespace Sys2Proof.Machine

/-! ### `DETECT` and `SYNC_SHORT` (R225, R226) -/

theorem stepDetect_active {rx : RxUnit} (h : RxActive rx) : RxActive (stepDetect rx) := by
  rcases stepDetect_cases rx with e | e <;> rw [e]
  · exact h
  · have := h.stored.m_ge
    have window : 0 < rx.m + rx.cpLen := by omega
    exact RxActive.of_syncShort (h.stored.congr (.refl rx) rfl rfl rfl) rfl (Nat.zero_le _) le_rfl (Nat.mul_pos h.stored.budget window)

theorem shortBudget_active {rx : RxUnit} (h : RxStored rx) (state : rx.state = .syncShort) (age : rx.age ≤ rx.m / 2)
    (cnt : rx.age ≤ rx.cnt) : RxActive (shortBudget rx) := by
  rcases shortBudget_cases rx with ⟨below, e⟩ | ⟨-, e⟩ <;> rw [e]
  · exact RxActive.of_syncShort h state age cnt below
  · exact h.toDetect_active

theorem beginSyncLong_active {rx : RxUnit} (h : RxStored rx) (age : rx.age ≤ rx.m / 2 + 1) : RxActive (beginSyncLong rx) := by
  have := h.m_ge
  have least : 1 ≤ rx.m + rx.cpLen - rx.age := by omega
  exact RxActive.of_syncLong (h.congr (.refl rx) rfl rfl rfl) rfl least (Nat.sub_le _ _) h.budget rfl

theorem stepSyncShort_active {rx : RxUnit} (h : RxActive rx) (state : rx.state = .syncShort) : RxActive (stepSyncShort rx) := by
  obtain ⟨age, cnt, -⟩ := (rxControl_syncShort state).1 h.control
  rcases stepSyncShort_cases rx with e | ⟨-, e⟩ | ⟨young, e⟩ <;> rw [e]
  · exact shortBudget_active (h.stored.congr (.refl rx) rfl rfl rfl) state (Nat.zero_le _) (Nat.zero_le _)
  · exact beginSyncLong_active (h.stored.congr (.refl rx) rfl rfl rfl) (Nat.succ_le_succ age)
  · exact shortBudget_active (h.stored.congr (.refl rx) rfl rfl rfl) state young (Nat.succ_le_succ cnt)

/-! ### `SYNC_LONG` (R227, R228) -/

theorem oneShotGains_length (rx : RxUnit) (z : List Cpx) : (oneShotGains rx z).length = rx.m := by simp [oneShotGains]

theorem oneShotGains_null (rx : RxUnit) (z : List Cpx) {k : Nat} (h : tagAt rx.table k = .null) :
    (oneShotGains rx z).getD k Cpx.zero = Cpx.zero := by
  rcases lt_or_ge k rx.m with hk | hk
  · simp [oneShotGains, List.getD_eq_getElem?_getD, List.getElem?_range hk, h]
  · exact List.getD_eq_default _ _ (by rwa [oneShotGains_length])

theorem beginHeader_active {rx : RxUnit} (h : RxStored rx) : RxActive (beginHeader rx) :=
  RxActive.of_header (h.congr (.refl rx) rfl rfl rfl) rfl
    { timer := ⟨by have := h.m_ge; simp only [beginHeader_timer]; omega, le_rfl⟩
      count := rfl
      budget := h.budget
      open_ := h.nHdr_pos
      modulation := rfl
      bits := by simp }

theorem testLong_active {rx : RxUnit} (h : RxStored rx) (state : rx.state = .syncLong) (tau : rx.tau = 0) :
    RxActive (testLong rx) := by
  rcases testLong_cases rx with e | ⟨-, e⟩ | ⟨below, e⟩ <;> rw [e]
  · exact beginHeader_active
      (h.with_gains (.refl rx) rfl (oneShotGains_length _ _) (fun _ => oneShotGains_null rx _) rfl)
  · exact (h.congr (.refl rx) rfl rfl rfl : RxStored { rx with nsym := rx.nsym + 1 }).toDetect_active
  · have := h.m_ge
    have half : 1 ≤ rx.m / 2 ∧ rx.m / 2 ≤ rx.m + rx.cpLen := by omega
    exact RxActive.of_syncLong (h.congr (.refl rx) rfl rfl rfl) state half.1 half.2 below tau

theorem stepSyncLong_active {rx : RxUnit} (h : RxActive rx) (state : rx.state = .syncLong) : RxActive (stepSyncLong rx) := by
  obtain ⟨-, most, nsym, tau⟩ := (rxControl_syncLong state).1 h.control
  unfold stepSyncLong
  rcases tick_cases testLong rx with ⟨-, e⟩ | ⟨left, e⟩ <;> rw [e]
  · exact testLong_active (h.stored.congr (.refl rx) rfl rfl rfl) state tau
  · exact RxActive.of_syncLong (h.stored.congr (.refl rx) rfl rfl rfl) state (Nat.le_sub_one_of_lt left)
      ((Nat.sub_le _ _).trans most) nsym tau

/-! ### The end of a header and of a payload (R241 to R245) -/

theorem finishPayload_active {rx : RxUnit} (h : RxStored rx) : RxActive (finishPayload rx) := (h.emitted _).toDetect_active

/-- R242: the user header is cut from the body by the unit's header format, and a payload length is two bytes. -/
theorem parseHeader_some {hUser : Nat} {body : List Byte} {f : HeaderFields} (h : parseHeader hUser body = some f) :
    f.user = body.take hUser ∧ f.plen < 65536 := by
  unfold parseHeader at h
  simp only at h
  split at h
  · cases h
    exact ⟨rfl, by simp only; omega⟩
  · cases h

/-- R241: from all the bits of a header comes a whole header body. -/
theorem decodeHeader_length {rx : RxUnit} (h : RxStored rx)
    (bits : rx.rxbits.length = rx.derived.nHdr * rx.derived.nData * modBps rx.hdrMod) :
    (decodeHeader rx).1.length = rx.hUser + Config.hDesc := by
  have encoded : (unmap rx.rxbits rx.derived.hdrNmod rx.hdrMod rx.derived.hdrEncLen).length = rx.derived.hdrEncLen := by
    rw [h.hdrNmod_eq, h.hdrEncLen_eq]
    exact unmap_length _ _ _ _ h.nData_pos (h.nHdr_eq ▸ bits)
  have decoded := fecDecode_length rx.hdrFec (encoded.trans h.hdrEncLen_eq)
  unfold decodeHeader
  rw [List.length_take, decoded]
  omega

theorem beginPayload_active {rx : RxUnit} (h : RxStored rx) (timer : 1 ≤ rx.timer ∧ rx.timer ≤ rx.m + rx.cpLen) {f : HeaderFields}
    (user : f.user.length = rx.hUser) (plen : f.plen < 65536) : RxActive (beginPayload f rx) := by
  have parsed : RxStored (storeHeader f rx) := h.of_config (.refl rx) h.winLength h.gainLength h.nullGains user
  have entered : RxStored (enterPayload f (emit (.header true f.user) (storeHeader f rx))) :=
    (parsed.emitted _).congr (.refl _) rfl rfl rfl
  rcases beginPayload_cases f rx with ⟨-, e⟩ | ⟨symbols, e⟩ <;> rw [e]
  · exact finishPayload_active entered
  · refine RxActive.of_payload entered rfl ?_ (by simpa using plen) (by simp [enterPayload])
    exact
      { timer := by simpa using timer
        count := rfl
        budget := entered.budget
        open_ := Nat.pos_of_ne_zero symbols
        modulation := by simp
        bits := by simp }

theorem finishHeader_active {rx : RxUnit} (h : RxStored rx) (timer : 1 ≤ rx.timer ∧ rx.timer ≤ rx.m + rx.cpLen)
    (bits : rx.rxbits.length = rx.derived.nHdr * rx.derived.nData * modBps rx.hdrMod) : RxActive (finishHeader rx) := by
  rcases finishHeader_cases rx with e | ⟨f, -, parse, e⟩ <;> rw [e]
  · exact (h.emitted _).toDetect_active
  · obtain ⟨user, plen⟩ := parseHeader_some parse
    refine beginPayload_active h timer ?_ plen
    rw [user, List.length_take, decodeHeader_length h bits]
    omega

/-! ### One received symbol (R229) -/

theorem updatedGains_length (rx : RxUnit) (obs : List PilotObs) : (updatedGains rx obs).length = rx.m := by simp [updatedGains]

/-- R176: the tracker leaves the gains of `NULL` bins as they are. -/
theorem updatedGains_null (rx : RxUnit) (obs : List PilotObs) (gain : rx.g.length = rx.m) {k : Nat} (h : tagAt rx.table k = .null) :
    (updatedGains rx obs).getD k Cpx.zero = rx.g.getD k Cpx.zero := by
  rcases lt_or_ge k rx.m with hk | hk
  · simp [updatedGains, List.getD_eq_getElem?_getD, List.getElem?_range hk, h]
  · rw [List.getD_eq_default _ _ (by rwa [updatedGains_length]), List.getD_eq_default _ _ (by rwa [gain])]

theorem receiveSymbol_stored {rx : RxUnit} (h : RxStored rx) : RxStored (receiveSymbol rx) :=
  h.with_gains (.refl rx) rfl (updatedGains_length _ _)
    (fun _ null => (updatedGains_null _ _ h.gainLength null).trans (h.nullGains _ null)) rfl

/-- R229, R298: a symbol adds one group of bits per data bin. -/
theorem receiveSymbol_bits {rx : RxUnit} (h : RxStored rx)
    (bits : rx.rxbits.length = rx.symIdx * rx.derived.nData * modBps rx.curMod) :
    (receiveSymbol rx).rxbits.length = (rx.symIdx + 1) * rx.derived.nData * modBps rx.curMod := by
  have groups (z g : List Cpx) : (rx.derived.dat.flatMap fun k => demodulate rx.curMod (equalise z g k)).length =
      rx.derived.nData * modBps rx.curMod := by
    simp [List.length_flatMap, demodulate_length, h.dat_length]
  calc (receiveSymbol rx).rxbits.length
      = rx.symIdx * rx.derived.nData * modBps rx.curMod + rx.derived.nData * modBps rx.curMod := by
        rw [← bits, ← groups]; exact List.length_append
    _ = (rx.symIdx + 1) * rx.derived.nData * modBps rx.curMod := by ring

/-- A unit that has just received a symbol, before the tests of R229: as in `Receiving`, but the symbol may be the last one, of the
frame or of the budget. -/
structure Received (rx : RxUnit) (n : Nat) (md : ModId) : Prop where
  timer : 1 ≤ rx.timer ∧ rx.timer ≤ rx.m + rx.cpLen
  count : rx.symIdx = rx.nsym
  upTo : rx.symIdx ≤ n
  modulation : rx.curMod = md
  bits : rx.rxbits.length = rx.symIdx * rx.derived.nData * modBps md

theorem receiveSymbol_received {rx : RxUnit} {n : Nat} {md : ModId} (h : RxStored rx) (r : Receiving rx n md) :
    Received (receiveSymbol rx) n md where
  timer := ⟨by have := h.m_ge; simp; omega, by simp⟩
  count := by simp [r.count]
  upTo := r.open_
  modulation := r.modulation
  bits := by
    have := receiveSymbol_bits h (r.modulation ▸ r.bits)
    rwa [r.modulation] at this

/-- A symbol that is not the last one, within the budget: the unit goes on receiving. -/
theorem Received.receiving {rx : RxUnit} {n : Nat} {md : ModId} (r : Received rx n md) (budget : rx.nsym < rx.maxSyms)
    (more : rx.symIdx ≠ n) : Receiving rx n md :=
  ⟨r.timer, r.count, budget, Nat.lt_of_le_of_ne r.upTo more, r.modulation, r.bits⟩

theorem rxSymbol_active_header {rx : RxUnit} (h : RxStored rx) (state : rx.state = .rxHeader)
    (r : Receiving rx rx.derived.nHdr rx.hdrMod) : RxActive (rxSymbol rx) := by
  have stored := receiveSymbol_stored h
  have received := receiveSymbol_received h r
  unfold rxSymbol
  rcases afterSymbol_cases (receiveSymbol rx) with ⟨-, last, e⟩ | ⟨other, -⟩ | ⟨-, e⟩ | ⟨budget, more, -, e⟩
  · rw [e]; exact finishHeader_active stored received.timer (last ▸ received.bits)
  · exact absurd state other
  · rw [e]; exact stored.toDetect_active
  · rw [e]; exact RxActive.of_header stored state (received.receiving budget (more state))

theorem rxSymbol_active_payload {rx : RxUnit} (h : RxStored rx) (state : rx.state = .rxPayload)
    (r : Receiving rx rx.nPay rx.pmod) (plen : rx.plen < 65536)
    (fixed : (⟨rx.payEncLen, rx.payNmod, rx.nPay⟩ : Counts) = counts rx.pcheck rx.pfec rx.pmod rx.plen rx.derived.nData) :
    RxActive (rxSymbol rx) := by
  have stored := receiveSymbol_stored h
  have received := receiveSymbol_received h r
  have payload : (receiveSymbol rx).state ≠ .rxHeader := by simp [state]
  unfold rxSymbol
  rcases afterSymbol_cases (receiveSymbol rx) with ⟨header, -⟩ | ⟨-, -, e⟩ | ⟨-, e⟩ | ⟨budget, -, more, e⟩
  · exact absurd header payload
  · rw [e]; exact finishPayload_active stored
  · rw [e]; exact stored.toDetect_active
  · rw [e]; exact RxActive.of_payload stored state (received.receiving budget (more payload)) plen fixed

/-- What a sample can do in `RX_HEADER` and `RX_PAYLOAD`; receiving a symbol does not look at the timer. -/
theorem stepReceive_cases (rx : RxUnit) :
    stepReceive rx = rxSymbol rx ∨ (1 < rx.timer ∧ stepReceive rx = { rx with timer := rx.timer - 1 }) := by
  rcases tick_cases rxSymbol rx with ⟨-, e⟩ | ⟨left, e⟩
  · exact .inl e
  · exact .inr ⟨left, e⟩

theorem Receiving.counted {rx : RxUnit} {n : Nat} {md : ModId} (r : Receiving rx n md) (left : 1 < rx.timer) :
    Receiving { rx with timer := rx.timer - 1 } n md :=
  ⟨⟨Nat.le_sub_one_of_lt left, (Nat.sub_le _ _).trans r.timer.2⟩, r.count, r.budget, r.open_, r.modulation, r.bits⟩

theorem stepReceive_active {rx : RxUnit} (h : RxActive rx) (state : rx.state = .rxHeader ∨ rx.state = .rxPayload) :
    RxActive (stepReceive rx) := by
  rcases state with state | state
  · have r := (rxControl_header state).1 h.control
    rcases stepReceive_cases rx with e | ⟨left, e⟩ <;> rw [e]
    · exact rxSymbol_active_header h.stored state r
    · exact RxActive.of_header (h.stored.congr (.refl rx) rfl rfl rfl) state (r.counted left)
  · obtain ⟨r, plen, fixed⟩ := (rxControl_payload state).1 h.control
    rcases stepReceive_cases rx with e | ⟨left, e⟩ <;> rw [e]
    · exact rxSymbol_active_payload h.stored state r plen fixed
    · exact RxActive.of_payload (h.stored.congr (.refl rx) rfl rfl rfl) state (r.counted left) plen fixed

/-! ### One sample, and a block of them (R222, R223) -/

/-- No state asks anything of the event mask or of the samples in the window (R223, R248). -/
theorem RxActive.with_mask_window {rx : RxUnit} (h : RxActive rx) (mask : BitVec 2) {win : List Cpx}
    (len : win.length = rx.m + rx.cpLen) : RxActive { rx with evmask := mask, win := win } := by
  have stored : RxStored { rx with evmask := mask, win := win } :=
    h.stored.of_config (.refl rx) len h.stored.gainLength h.stored.nullGains h.stored.hdrUserLength
  have receiving {n : Nat} {md : ModId} (r : Receiving rx n md) : Receiving { rx with evmask := mask, win := win } n md :=
    ⟨r.timer, r.count, r.budget, r.open_, r.modulation, r.bits⟩
  have c := h.control
  obtain ⟨st, state⟩ : ∃ st, rx.state = st := ⟨_, rfl⟩
  cases st with
  | unconfigured => simp [RxControl, state] at c
  | detect =>
    have initial := congrArg (fun r : RxUnit => { r with evmask := mask, win := win }) ((rxControl_detect state).1 c)
    exact ⟨stored, (rxControl_detect (rx := { rx with evmask := mask, win := win }) state).2 initial⟩
  | syncShort =>
    obtain ⟨age, cnt, budget⟩ := (rxControl_syncShort state).1 c
    exact RxActive.of_syncShort stored state age cnt budget
  | syncLong =>
    obtain ⟨least, most, budget, tau⟩ := (rxControl_syncLong state).1 c
    exact RxActive.of_syncLong stored state least most budget tau
  | rxHeader => exact RxActive.of_header stored state (receiving ((rxControl_header state).1 c))
  | rxPayload =>
    obtain ⟨r, plen, fixed⟩ := (rxControl_payload state).1 c
    exact RxActive.of_payload stored state (receiving r) plen fixed

theorem shiftWindow_active {rx : RxUnit} (h : RxActive rx) (x : Cpx) : RxActive (shiftWindow x rx) := by
  have := h.stored.winLength
  have := h.stored.m_ge
  exact h.with_mask_window rx.evmask (by rw [List.length_append, List.length_tail, List.length_singleton]; omega)

theorem rxStep_active {rx : RxUnit} (h : RxActive rx) (x : Cpx) : RxActive (rxStep rx x) := by
  have s := shiftWindow_active h x
  unfold rxStep
  cases state : rx.state with
  | unconfigured => exact h
  | detect => exact stepDetect_active s
  | syncShort => exact stepSyncShort_active s state
  | syncLong => exact stepSyncLong_active s state
  | rxHeader => exact stepReceive_active s (.inl state)
  | rxPayload => exact stepReceive_active s (.inr state)

theorem rxRun_active {rx : RxUnit} (h : RxActive rx) (xs : List Cpx) : RxActive (rxRun rx xs) := by
  induction xs generalizing rx with
  | nil => exact h
  | cons x xs ih => exact ih (rxStep_active h x)

end Sys2Proof.Machine

/-! SUPPORT. Every command keeps the invariant of both units (R286 for the failures), and so does every step. -/

namespace Sys2Proof.Machine

/-- Whatever state the answer leaves, the invariant holds of it. -/
def LeavesInv (r : Result) : Prop := ∀ t, r = .next t → Inv t

theorem inv_of_units {s t : State} (h : Inv s) (tx : t.tx = s.tx) (rx : t.rx = s.rx) : Inv t := by
  rw [Inv, tx, rx]; exact h

theorem inv_setTx {s : State} (h : Inv s) {tx : TxUnit} (k : TxInv tx) : Inv (s.setTx tx) := ⟨k, h.2⟩

theorem inv_setRx {s : State} (h : Inv s) {rx : RxUnit} (k : RxInv rx) : Inv (s.setRx rx) := ⟨h.1, k⟩

theorem inv_setCmd {s : State} (h : Inv s) (ws : List Word) : Inv (s.setCmd ws) := h

theorem respond_leavesInv {s : State} (h : Inv s) (ws : List Word) : LeavesInv (respond ws s) := fun _ e =>
  have ⟨_, _, tx, rx⟩ := respond_next e
  inv_of_units h tx rx

theorem raise_leavesInv {s : State} (h : Inv s) (st : Status) : LeavesInv (raise st s) := fun _ e =>
  have ⟨_, _, tx, rx⟩ := raise_next e
  inv_of_units h tx rx

/-- Behind the configured check of a TXU command the unit is one that the invariant describes as configured. -/
theorem ifTxConfigured_leavesInv {s : State} {k : Result} (h : Inv s)
    (hk : s.tx.state ≠ .unconfigured → TxConfigured s.tx → LeavesInv k) : LeavesInv (ifTxConfigured s k) := by
  intro t e
  rcases ifTxConfigured_next e with ⟨-, e⟩ | ⟨ready, e⟩
  · exact raise_leavesInv h _ t e
  · rcases h.1 with reset | ⟨-, conf⟩
    · exact absurd (reset ▸ rfl) ready
    · exact hk ready conf t e

theorem rxActive_of_inv {rx : RxUnit} (h : RxInv rx) (ready : rx.state ≠ .unconfigured) : RxActive rx := by
  rcases h with reset | h
  · exact absurd (reset ▸ rfl) ready
  · exact (rxActive_iff rx).2 h

theorem RxActive.inv {rx : RxUnit} (h : RxActive rx) : RxInv rx := .inr ((rxActive_iff rx).1 h)

theorem ifRxConfigured_leavesInv {s : State} {k : Result} (h : Inv s) (hk : RxActive s.rx → LeavesInv k) :
    LeavesInv (ifRxConfigured s k) := by
  intro t e
  rcases ifRxConfigured_next e with ⟨-, e⟩ | ⟨ready, e⟩
  · exact raise_leavesInv h _ t e
  · exact hk (rxActive_of_inv h.2 ready) t e

theorem ifFits_leavesInv {α : Type} {o : Operands α} {s : State} {k : α → Result} (h : Inv s) (hk : ∀ a, LeavesInv (k a)) :
    LeavesInv (ifFits o s k) := by
  cases o with
  | fits a => exact hk a
  | misfit ws => exact raise_leavesInv h _

/-! ### The TXU's commands -/

theorem execTxcfg_leavesInv {s : State} (h : Inv s) (o : Operands TxCfgOps) : LeavesInv (execTxcfg o s) := by
  refine ifFits_leavesInv h fun c => ?_
  split
  · exact respond_leavesInv (inv_setTx h (txConfigure_inv ‹_›)) _
  · exact raise_leavesInv h _

theorem execTxprops_leavesInv {s : State} (h : Inv s) (o : Operands PropsOps) : LeavesInv (execTxprops o s) := by
  refine ifTxConfigured_leavesInv h fun ready conf => ifFits_leavesInv h fun p => ?_
  split
  · exact respond_leavesInv (inv_setTx h (txSetProps_inv ‹_› ready conf)) _
  · exact raise_leavesInv h _

theorem execAssemble_leavesInv {s : State} (h : Inv s) (o : Operands AssembleOps) : LeavesInv (execAssemble o s) := by
  refine ifTxConfigured_leavesInv h fun _ conf => ifFits_leavesInv h fun a => ?_
  simp only
  split
  · exact raise_leavesInv h _
  · split
    · exact raise_leavesInv h _
    · split
      · exact raise_leavesInv h _
      · rename_i shape _ fits
        have payload : (unpackBytes a.payloadLen.toNat (a.body.drop (ceilDiv s.tx.hUser 4))).length = a.payloadLen.toNat :=
          unpackBytes_length (by rw [List.length_drop]; omega)
        exact respond_leavesInv (inv_setTx h (txAssemble_inv conf _ _ (by rw [payload]; omega))) _

theorem execWrsym_leavesInv {s : State} (h : Inv s) (o : Operands Unit) : LeavesInv (execWrsym o s) := by
  refine ifTxConfigured_leavesInv h fun _ conf => ifFits_leavesInv h fun _ => ?_
  split
  · exact raise_leavesInv h _
  · exact respond_leavesInv (inv_setTx h (txWriteSymbol_inv conf ‹_›)) _

/-! ### The RXU's commands -/

/-- What an `RXCFG` that succeeds has checked, and the unit it leaves (R221). -/
theorem rxConfigure_some {c : RxCfgOps} {rx rx' : RxUnit} (h : rxConfigure c rx = some rx') :
    legalDims c.m.toNat c.cpLen.toNat c.taperLen.toNat = true ∧ validate c.table c.m.toNat = .ok ∧ 1 ≤ c.maxSyms.toNat ∧
      legalTuning (numOfWord c.detT2) (numOfWord c.longT2) (numOfWord c.alpha) (numOfWord c.kappa) = true ∧
      ∃ hdrCheck hdrFec hdrMod, rx' = initialRx
        { rx with
          m := c.m.toNat, cpLen := c.cpLen.toNat, taperLen := c.taperLen.toNat, table := tagsOf c.table,
          hdrCheck := hdrCheck, hdrFec := hdrFec, hdrMod := hdrMod, hUser := c.hUser.toNat, maxSyms := c.maxSyms.toNat,
          detT2 := numOfWord c.detT2, longT2 := numOfWord c.longT2, alpha := numOfWord c.alpha, kappa := numOfWord c.kappa,
          derived := rxDerive c.m.toNat (tagsOf c.table) hdrCheck hdrFec hdrMod c.hUser.toNat } := by
  unfold rxConfigure at h
  split at h
  · cases h
  · split at h
    · cases h
    · split at h
      · cases h
      · rename_i dims table
        split at h
        · split at h
          · cases h
          · split at h
            · cases h
            · rename_i syms tuning
              exact ⟨by simpa using dims, by simpa using table, by omega, by simpa using tuning, _, _, _, (Option.some.inj h).symm⟩
        · cases h

theorem rxConfigure_active {c : RxCfgOps} {rx rx' : RxUnit} (h : rxConfigure c rx = some rx') : RxActive rx' := by
  obtain ⟨dims, valid, syms, tuning, hdrCheck, hdrFec, hdrMod, rfl⟩ := rxConfigure_some h
  exact initialRx_active dims (legalTable_tagsOf valid) (Nat.le_of_lt_succ c.hUser.isLt) syms tuning rfl

theorem execRxcfg_leavesInv {s : State} (h : Inv s) (o : Operands RxCfgOps) : LeavesInv (execRxcfg o s) := by
  refine ifFits_leavesInv h fun c => ?_
  split
  · exact respond_leavesInv (inv_setRx h (rxConfigure_active ‹_›).inv) _
  · exact raise_leavesInv h _

theorem execExecute_leavesInv {s : State} (h : Inv s) (o : Operands (List SampleWords)) : LeavesInv (execExecute o s) :=
  ifRxConfigured_leavesInv h fun active => ifFits_leavesInv h fun _ =>
    respond_leavesInv (inv_setRx h (rxRun_active active _).inv) _

theorem execRxreset_leavesInv {s : State} (h : Inv s) (o : Operands Unit) : LeavesInv (execRxreset o s) := by
  refine ifFits_leavesInv h fun _ => ?_
  split
  · exact respond_leavesInv h _
  · have stored := (rxActive_of_inv h.2 ‹_›).stored
    exact respond_leavesInv (inv_setRx h (initialRx_active stored.dims stored.table stored.hUser stored.budget stored.tuning
      stored.derived).inv) _

theorem execRxsetcb_leavesInv {s : State} (h : Inv s) (o : Operands (BitVec 2)) : LeavesInv (execRxsetcb o s) :=
  ifRxConfigured_leavesInv h fun active => ifFits_leavesInv h fun mask =>
    respond_leavesInv (inv_setRx h (active.with_mask_window mask active.stored.winLength).inv) _

/-! ### The system's commands -/

theorem execRdcsr_leavesInv {s : State} (h : Inv s) (o : Operands Csr) : LeavesInv (execRdcsr o s) :=
  ifFits_leavesInv h fun _ => respond_leavesInv h _

theorem execDefalloc_leavesInv {s : State} (h : Inv s) (o : Operands Word) : LeavesInv (execDefalloc o s) := by
  refine ifFits_leavesInv h fun m => ?_
  split
  · exact raise_leavesInv h _
  · exact respond_leavesInv h _

theorem execAllocchk_leavesInv {s : State} (h : Inv s) (o : Operands AllocChkOps) : LeavesInv (execAllocchk o s) := by
  refine ifFits_leavesInv h fun a => ?_
  split
  · exact respond_leavesInv h _
  · exact raise_leavesInv h _

/-! ### Every command, every step -/

theorem exec_leavesInv {s : State} (h : Inv s) (i : Instr) : LeavesInv (exec i s) := by
  cases i with
  | txcfg o => exact execTxcfg_leavesInv h o
  | txprops o => exact execTxprops_leavesInv h o
  | assemble o => exact execAssemble_leavesInv h o
  | wrsym o => exact execWrsym_leavesInv h o
  | rxcfg o => exact execRxcfg_leavesInv h o
  | execute o => exact execExecute_leavesInv h o
  | rxreset o => exact execRxreset_leavesInv h o
  | rxsetcb o => exact execRxsetcb_leavesInv h o
  | rdcsr o => exact execRdcsr_leavesInv h o
  | defalloc o => exact execDefalloc_leavesInv h o
  | allocchk o => exact execAllocchk_leavesInv h o

theorem step_leavesInv {s : State} (h : Inv s) : LeavesInv (step s) := by
  unfold step
  split
  · rintro t ⟨⟩; exact h
  · split
    · exact exec_leavesInv (inv_setCmd h _) _
    · exact raise_leavesInv (inv_setCmd h _) _

/-- Settles O60: the invariant is kept by every step, by cases over the commands and, for the samples of an `EXECUTE`, over the states
of the RXU. -/
theorem invariantIsKeptByEveryStep : Obligations.InvariantIsKeptByEveryStep :=
  fun _ t h e => step_leavesInv h t e

end Sys2Proof.Machine

/-! SUPPORT. The laws of the checksum codecs, the FEC codecs and the modem (R10), and the stand-in schemes of R12. -/

namespace Sys2Proof.Machine

/-! ### Ids -/

/-- R12: a table of three ids, read by the number of the code. -/
theorem idTable_eq {α : Type} (a0 a1 a2 : α) (c : Byte) :
    (if c = 0#8 then some a0 else if c = 1#8 then some a1 else if c = 2#8 then some a2 else none) =
      match c.toNat with | 0 => some a0 | 1 => some a1 | 2 => some a2 | _ => none := by
  have code (k : Nat) (hk : k < 256) : c = BitVec.ofNat 8 k ↔ c.toNat = k := by
    rw [← BitVec.toNat_inj, BitVec.toNat_ofNat, Nat.mod_eq_of_lt hk]
  simp only [code 0 (by decide), code 1 (by decide), code 2 (by decide)]
  match c.toNat with
  | 0 => rfl
  | 1 => rfl
  | 2 => rfl
  | n + 3 => simp

/-! ### Checksums -/

theorem checkCompute_length (c : CheckId) (b : List Byte) : (checkCompute c b).length = checkLen c := by
  cases c with
  | none => rfl
  | sum8 => rfl
  | crc32 => exact Vector.length_toList

theorem checkVerify_checkCompute (c : CheckId) (b : List Byte) : checkVerify c b (checkCompute c b) = true := by
  cases c <;> simp [checkVerify]

theorem byteSum_eq (b : List Byte) : byteSum b = BitVec.ofNat 8 (b.map BitVec.toNat).sum := by
  induction b with
  | nil => rfl
  | cons x xs ih =>
    rw [List.map_cons, List.sum_cons, BitVec.ofNat_add, BitVec.ofNat_toNat, ← ih]
    simp [byteSum]

theorem checkVerify_sum8_iff (b s : List Byte) : checkVerify .sum8 b s = true ↔ s = checkCompute .sum8 b := by
  rw [checkVerify, beq_iff_eq, eq_comm]

/-! ### FEC -/

theorem toBytes_toList {n : Nat} (v : Vector Byte n) : toBytes n v.toList = v := by
  apply Vector.ext
  intro i hi
  simp [toBytes]

/-- A message filled up with zeros. -/
theorem toBytes_message (b : List Byte) (extra : Nat) :
    (toBytes (b.length + extra) b).toList = b ++ List.replicate extra 0#8 := by
  apply List.ext_getElem (by simp)
  intro i hi _
  rcases lt_or_ge i b.length with h | h
  · simp [toBytes, h]
  · simp [toBytes, h, List.getElem_append_right]

/-- R10: the code word of a message is turned back into the message and the zeros behind it. -/
theorem h128Decode_h128Encode (b : List Byte) : h128Decode b.length (h128Encode b) = (b, true) := by
  unfold h128Decode h128Encode
  rw [toBytes_toList, Equiv.symm_apply_apply, toBytes_message]
  simp

theorem fecEncode_length (f : FecId) (b : List Byte) : (fecEncode f b).length = fecEncLen f b.length := by
  cases f with
  | none => rfl
  | h128 => exact Vector.length_toList
  | rep3 => simp [fecEncode, fecEncLen]; omega

theorem majority_self (c : Byte) : majority c c c = c := by simp [majority]

/-- R12: three equal copies decode to what they repeat. -/
theorem rep3_roundTrip (b : List Byte) : fecDecode .rep3 b.length (b ++ b ++ b) = (b, true) := by
  refine Prod.ext (List.ext_getElem (by simp [fecDecode]) fun i _ hi => ?_) rfl
  have hi : i < b.length := hi
  have copy (c : List Byte) {k : Nat} (hk : k = c.length) : (c ++ b).getD (k + i) 0#8 = b[i] := by
    subst hk; simp [hi]
  have first : (b ++ b ++ b).getD i 0#8 = b[i] := by
    rw [List.append_assoc, List.getD_append _ _ _ _ hi, List.getD_eq_getElem _ _ hi]
  have second : (b ++ b ++ b).getD (b.length + i) 0#8 = b[i] := by
    rw [List.getD_append _ _ _ _ (by simp; omega)]; exact copy b rfl
  have third : (b ++ b ++ b).getD (2 * b.length + i) 0#8 = b[i] := copy (b ++ b) (by simp; omega)
  simp only [fecDecode, List.getElem_map, List.getElem_range]
  rw [first, second, third, majority_self]

theorem fecDecode_fecEncode (f : FecId) (b : List Byte) : fecDecode f b.length (fecEncode f b) = (b, true) := by
  cases f with
  | none => rfl
  | h128 => exact h128Decode_h128Encode b
  | rep3 => exact rep3_roundTrip b

/-- R10: every FEC has a bounded expansion ratio; that of `H128` is bounded by the build parameter of log 6. -/
theorem fecEncLen_le_mul (f : FecId) : ∃ r, ∀ n, 1 ≤ n → fecEncLen f n ≤ r * n := by
  cases f with
  | none => exact ⟨1, fun n _ => (Nat.one_mul n).ge⟩
  | h128 =>
    refine ⟨1 + Config.h128Ratio, fun n _ => ?_⟩
    rw [Nat.add_mul, Nat.one_mul]
    exact Nat.add_le_add_left (Nat.min_le_right _ _) n
  | rep3 => exact ⟨3, fun n _ => le_rfl⟩

theorem majority_getLsbD (a b c : Byte) (j : Nat) :
    (majority a b c).getLsbD j = true ↔ 2 ≤ [a, b, c].countP fun x => x.getLsbD j := by
  simp only [majority, BitVec.getLsbD_or, BitVec.getLsbD_and, List.countP_cons, List.countP_nil]
  cases a.getLsbD j <;> cases b.getLsbD j <;> cases c.getLsbD j <;> decide

/-- R12: `REP3` decodes each bit by the majority of its three copies. -/
theorem rep3_decode_bit {n i : Nat} (e : List Byte) (hi : i < n) (j : Nat) :
    ((fecDecode .rep3 n e).1.getD i 0#8).getLsbD j = true ↔
      2 ≤ [e.getD i 0#8, e.getD (n + i) 0#8, e.getD (2 * n + i) 0#8].countP fun c => c.getLsbD j := by
  rw [← majority_getLsbD]
  simp [fecDecode, hi]

/-! ### Modem -/

theorem signOf_neg_iff (b : Bool) : decide (signOf b < 0) = b := by cases b <;> simp [signOf]

theorem gridPoints_nodup : gridPoints.toList.Nodup := by decide +kernel

/-- R10: the sixteen points are distinct, whatever the build's are (log 7). -/
theorem qam16Table_nodup : qam16Table.toList.Nodup := by
  unfold qam16Table; split
  · assumption
  · exact gridPoints_nodup

/-- A point of the table is found at its own index. -/
theorem qam16Demap_point {i : Nat} (hi : i < 16) : qam16Demap (qam16Table.toList.getD i Cpx.zero) = BitVec.ofNat 4 i := by
  have point {j : Nat} (hj : j < 16) : qam16Table.toList.getD j Cpx.zero = qam16Table.toList[j]'(by simpa using hj) :=
    List.getD_eq_getElem _ _ _
  have found : (List.range 16).find? (fun j => qam16Table.toList.getD j Cpx.zero == qam16Table.toList.getD i Cpx.zero) = some i := by
    refine List.find?_eq_some_iff_getElem.2 ⟨beq_self_eq_true _, i, by simpa using hi, by simp, fun j hj => ?_⟩
    have hne : qam16Table.toList.getD j Cpx.zero ≠ qam16Table.toList.getD i Cpx.zero := by
      rw [point hi, point (hj.trans hi)]
      exact fun e => hj.ne ((qam16Table_nodup.getElem_inj_iff).1 e)
    simpa using hne
  rw [qam16Demap, found]

theorem bitsOfIndex_indexOfBits (b0 b1 b2 b3 : Bool) : bitsOfIndex (indexOfBits [b0, b1, b2, b3]) = [b0, b1, b2, b3] := by
  revert b0 b1 b2 b3; decide

/-- R10: demodulating a modulated group gives the group back. -/
theorem demodulate_modulate (md : ModId) (bits : List Bool) (h : bits.length = modBps md) :
    demodulate md (modulate md bits) = bits := by
  cases md with
  | bpsk =>
    obtain ⟨b0, rfl⟩ := List.length_eq_one_iff.1 h
    simp [modulate, demodulate, signOf_neg_iff]
  | qpsk =>
    obtain ⟨b0, b1, rfl⟩ := List.length_eq_two.1 h
    simp [modulate, demodulate, signOf_neg_iff]
  | qam16 =>
    match bits, h with
    | [b0, b1, b2, b3], _ =>
      rw [demodulate, modulate, qam16Demap_point (BitVec.isLt _), BitVec.ofNat_toNat, BitVec.setWidth_eq, bitsOfIndex_indexOfBits]

end Sys2Proof.Machine

/-! SUPPORT. `arg` and `cis` belong together (R14), within the digits of logs 2 and 3; the transforms are the sums of R17 in the terms of the
statement; and the statement of the collaborators' laws. -/

namespace Sys2Proof

/-! ### `cis` and its side of the real axis -/

theorem cisQuarter_im_nonneg {t : Num} (h0 : 0 ≤ t) (h : t < 1 / 4) : 0 ≤ (cisQuarter t).im := by
  have := (halfTangent_bounds h0 h).1
  rw [cisQuarter_im]; positivity

/-- The second quarter turn mirrors the first. -/
theorem cisHalf_cases (t : Num) :
    (t < 1 / 4 ∧ cisHalf t = cisQuarter t) ∨ (t = 1 / 4 ∧ cisHalf t = ⟨0, 1⟩) ∨
      (1 / 4 < t ∧ cisHalf t = ⟨-(cisQuarter (1 / 2 - t)).re, (cisQuarter (1 / 2 - t)).im⟩) := by
  unfold cisHalf
  rcases lt_trichotomy t (1 / 4) with h | h | h
  · exact .inl ⟨h, if_pos h⟩
  · exact .inr (.inl ⟨h, by rw [if_neg h.not_lt, if_pos h]⟩)
  · exact .inr (.inr ⟨h, by rw [if_neg h.not_gt, if_neg h.ne']⟩)

/-- In the upper half turn the imaginary part is not negative. -/
theorem cisHalf_im_nonneg {t : Num} (h0 : 0 ≤ t) (h : t ≤ 1 / 2) : 0 ≤ (cisHalf t).im := by
  rcases cisHalf_cases t with ⟨first, e⟩ | ⟨-, e⟩ | ⟨second, e⟩ <;> rw [e]
  · exact cisQuarter_im_nonneg h0 first
  · exact zero_le_one
  · exact cisQuarter_im_nonneg (by linarith) (by linarith)

/-- Up to one step of `halfTangent` before half a turn, `cis` does not reach the negative real axis. -/
theorem cisHalf_re_nonneg_of_real {t : Num} (h0 : 0 ≤ t) (h : t + 1 / 2 ^ 79 ≤ 1 / 2) (real : (cisHalf t).im = 0) :
    0 ≤ (cisHalf t).re := by
  rcases cisHalf_cases t with ⟨first, e⟩ | ⟨-, e⟩ | ⟨second, e⟩
  · exact e ▸ (cisQuarter_re_pos h0 first).le
  · exact (congrArg Cpx.re e).ge
  · rw [e] at real
    have least : 0 ≤ halfTangent 0 := (halfTangent_bounds le_rfl (by norm_num)).1
    have tangent : 0 < halfTangent (1 / 2 - t) := least.trans_lt (halfTangent_lt le_rfl (by linarith) (by linarith))
    have : 0 < (cisQuarter (1 / 2 - t)).im := by rw [cisQuarter_im]; positivity
    exact absurd real this.ne'

/-- The lower half turn is the conjugate of the upper one. -/
theorem cisTurn_neg {t : Num} (h0 : 0 < t) (h : t < 1 / 2) : cisTurn (-t) = (cisHalf t).conj := by
  have : (-t).floor = -1 := by
    change ⌊-t⌋ = -1
    rw [Int.floor_eq_iff]
    constructor <;> push_cast <;> linarith
  simp only [cisTurn, this, Int.cast_neg, Int.cast_one]
  rw [if_neg (by linarith)]
  congr 2; ring

/-! ### The argument of a phase -/

theorem cast_abs_le {q r : Num} : |(q : ℝ)| ≤ (r : ℝ) ↔ |q| ≤ r := by rw [← Rat.cast_abs, Rat.cast_le]

/-- A chord of the unit circle bounds the angle, for angles not more than half a turn apart. -/
theorem abs_sub_le_of_chord {a b : ℝ} (h : |a - b| ≤ Real.pi) :
    |a - b| ≤ Real.pi / 2 * ‖Complex.exp ((a : ℂ) * Complex.I) - Complex.exp ((b : ℂ) * Complex.I)‖ := by
  have chord : ‖Complex.exp ((a : ℂ) * Complex.I) - Complex.exp ((b : ℂ) * Complex.I)‖ = 2 * |Real.sin ((a - b) / 2)| := by
    have e : Complex.exp ((a : ℂ) * Complex.I) - Complex.exp ((b : ℂ) * Complex.I) =
        Complex.exp ((b : ℂ) * Complex.I) * (Complex.exp (Complex.I * ((a - b : ℝ) : ℂ)) - 1) := by
      rw [mul_sub, mul_one, ← Complex.exp_add]; congr 2; push_cast; ring
    rw [e, norm_mul, Complex.norm_exp_ofReal_mul_I, one_mul, Complex.norm_exp_I_mul_ofReal_sub_one, norm_mul, Real.norm_eq_abs,
      Real.norm_eq_abs, abs_two]
  have half : |(a - b) / 2| = |a - b| / 2 := by rw [abs_div, abs_two]
  have sine := Real.mul_abs_le_abs_sin (x := (a - b) / 2) (by rw [half]; linarith)
  rw [half] at sine
  rw [chord]
  have pi := Real.pi_pos
  calc |a - b| = Real.pi * (2 / Real.pi * (|a - b| / 2)) := by field_simp
    _ ≤ Real.pi * |Real.sin ((a - b) / 2)| := mul_le_mul_of_nonneg_left sine pi.le
    _ = _ := by ring

/-- A number of modulus 1 near a phase has nearly its angle, on the same side of the real axis. -/
theorem complex_arg_close {z : ℂ} {b d : ℝ} (norm : ‖z‖ = 1) (near : ‖z - Complex.exp ((b : ℂ) * Complex.I)‖ ≤ d)
    (side : |Complex.arg z - b| ≤ Real.pi) : |Complex.arg z - b| ≤ Real.pi / 2 * d := by
  have e := Complex.norm_mul_exp_arg_mul_I z
  rw [norm, Complex.ofReal_one, one_mul] at e
  have chord := abs_sub_le_of_chord side
  rw [e] at chord
  exact chord.trans (mul_le_mul_of_nonneg_left near (by positivity))

/-- The argument of a phase and the turns it was made of are on the same side of the real axis. -/
theorem complex_arg_cisTurn_side {t : Num} (h0 : -(1 / 2) + 1 / 2 ^ 79 ≤ t) (h : t ≤ 1 / 2) :
    |Complex.arg (cisTurn t).toComplex - 2 * Real.pi * t| ≤ Real.pi := by
  have pi := Real.pi_pos
  have small : (0 : Num) < 1 / 2 ^ 79 := by norm_num
  rcases le_or_gt 0 t with pos | neg
  · have lower : (0 : ℝ) ≤ t := by exact_mod_cast pos
    have upper : (t : ℝ) ≤ ((1 / 2 : Num) : ℝ) := Rat.cast_le.2 h
    have im : 0 ≤ (cisTurn t).im := cisTurn_of_half pos h ▸ cisHalf_im_nonneg pos h
    have least : 0 ≤ Complex.arg (cisTurn t).toComplex := Complex.arg_nonneg_iff.2 (Rat.cast_nonneg.2 im)
    have most := Complex.arg_le_pi (cisTurn t).toComplex
    push_cast at upper
    rw [abs_le]; constructor <;> nlinarith
  · have lower : ((-(1 / 2) : Num) : ℝ) ≤ (t : ℝ) := Rat.cast_le.2 (by linarith)
    have upper : (t : ℝ) ≤ 0 := by exact_mod_cast neg.le
    have conj : cisTurn t = (cisHalf (-t)).conj := by
      rw [← cisTurn_neg (by linarith) (by linarith), neg_neg]
    have im : 0 ≤ (cisHalf (-t)).im := cisHalf_im_nonneg (by linarith) (by linarith)
    have most : Complex.arg (cisTurn t).toComplex ≤ 0 := by
      rcases im.eq_or_lt with real | above
      · have re := cisHalf_re_nonneg_of_real (t := -t) (by linarith) (by linarith) real.symm
        refine (Complex.arg_eq_zero_iff.2 ⟨?_, ?_⟩).le
        · rw [conj]; exact Rat.cast_nonneg.2 re
        · rw [conj]; simp [Cpx.toComplex, Cpx.conj, ← real]
      · refine (Complex.arg_neg_iff.2 ?_).le
        rw [conj]
        exact Rat.cast_lt_zero.2 (neg_lt_zero.2 above)
    have least := Complex.neg_pi_lt_arg (cisTurn t).toComplex
    push_cast at lower
    rw [abs_le]; constructor <;> nlinarith

/-- R14: the argument of `cis x` is `x`, from next to `-pi` up to `pi`, within the digits of logs 2 and 3. -/
theorem arg_cis_close {x : Num} (h0 : -numPi + 1 / 10 ^ 20 ≤ x) (h : x ≤ numPi) : |arg (cis x) - x| ≤ 1 / 10 ^ 17 := by
  have pos : 0 < numPi := Machine.numPi_pos
  have four : numPi ≤ 4 := by norm_num [numPi]
  set t := x / (2 * numPi) with ht
  have back : x = 2 * numPi * t := by rw [ht]; field_simp
  have upper : t ≤ 1 / 2 := by rw [ht, div_le_iff₀ (by positivity)]; linarith
  have lower : -(1 / 2) + 1 / 2 ^ 79 ≤ t := by
    rw [ht, le_div_iff₀ (by positivity)]
    have : 1 / 2 ^ 79 * (2 * numPi) ≤ 1 / 10 ^ 20 := by
      calc 1 / 2 ^ 79 * (2 * numPi) ≤ 1 / 2 ^ 79 * (2 * 4) := by gcongr
        _ ≤ _ := by norm_num
    linarith
  have turns : |Complex.arg (cisTurn t).toComplex - 2 * Real.pi * t| ≤ Real.pi / 2 * (1 / (7 * 10 ^ 19)) :=
    complex_arg_close (cisTurn_norm t) (cisTurn_close t) (complex_arg_cisTurn_side lower upper)
  have model := arg_close (cisTurn t)
  have radians : |2 * Real.pi * (t : ℝ) - (x : ℝ)| ≤ 1 / 10 ^ 20 := by
    have small : (0 : Num) < 1 / 2 ^ 79 := by norm_num
    have half : |(t : ℝ)| ≤ ((1 / 2 : Num) : ℝ) := cast_abs_le.2 (abs_le.2 ⟨by linarith, upper⟩)
    have e : 2 * Real.pi * (t : ℝ) - (x : ℝ) = 2 * (t : ℝ) * -((numPi : ℝ) - Real.pi) := by rw [back]; push_cast; ring
    rw [e, abs_mul, abs_neg, abs_mul, abs_two]
    push_cast at half
    calc 2 * |(t : ℝ)| * |(numPi : ℝ) - Real.pi| ≤ 2 * (1 / 2) * (1 / 10 ^ 20) := by gcongr; exact numPi_close
      _ = _ := by ring
  have pi := Real.pi_lt_four
  rw [← cast_abs_le, cis, ← ht]
  push_cast
  rw [abs_le] at turns model radians ⊢
  constructor <;> linarith [turns.1, turns.2, model.1, model.2, radians.1, radians.2]

/-! ### A number turned back by its argument -/

theorem Cpx.normSq_mul (a b : Cpx) : (a.mul b).normSq = a.normSq * b.normSq := by
  simp only [Cpx.normSq, Cpx.mul]; ring

/-- `cis` of the argument is near the direction of the number. -/
theorem cis_arg_close (z : Cpx) :
    ‖(cis (arg z)).toComplex - Complex.exp ((Complex.arg z.toComplex : ℂ) * Complex.I)‖ ≤ 2 / 10 ^ 18 := by
  obtain ⟨least, most⟩ := arg_bounds z
  have four : numPi ≤ 4 := by norm_num [numPi]
  have size : |((arg z : Num) : ℝ)| ≤ ((4 : Num) : ℝ) := cast_abs_le.2 (abs_le.2 ⟨by linarith, by linarith⟩)
  have phase := cis_close (arg z)
  have angle := (norm_exp_sub_exp ((arg z : Num) : ℝ) (Complex.arg z.toComplex)).trans (arg_close z)
  calc ‖(cis (arg z)).toComplex - Complex.exp ((Complex.arg z.toComplex : ℂ) * Complex.I)‖
      ≤ (1 + |((arg z : Num) : ℝ)|) / 10 ^ 19 + 1 / 10 ^ 18 := (norm_sub_le_norm_sub_add_norm_sub _ _ _).trans (add_le_add phase angle)
    _ ≤ _ := by push_cast at size; linarith

/-- R14: a number turned back by its argument keeps its modulus and lies next to the positive real axis. -/
theorem turnedBack_real {z : Cpx} (hz : z ≠ Cpx.zero) :
    0 < (z.mul (cis (arg z)).conj).re ∧ |(z.mul (cis (arg z)).conj).im| ≤ (z.mul (cis (arg z)).conj).re / 10 ^ 17 ∧
      (z.mul (cis (arg z)).conj).normSq = z.normSq := by
  set w := z.mul (cis (arg z)).conj with hw
  set r := ‖z.toComplex‖
  have pos : 0 < r := norm_pos_iff.2 fun h => hz (Cpx.toComplex_eq_zero.1 h)
  set u := Complex.exp ((Complex.arg z.toComplex : ℂ) * Complex.I)
  have direction : (r : ℂ) * u = z.toComplex := Complex.norm_mul_exp_arg_mul_I z.toComplex
  have unit : ‖u‖ = 1 := Complex.norm_exp_ofReal_mul_I _
  have self : u * (starRingEnd ℂ) u = 1 := by rw [Complex.mul_conj, Complex.normSq_eq_norm_sq, unit]; norm_num
  have near : ‖w.toComplex - r‖ ≤ r * (2 / 10 ^ 18) := by
    have e : w.toComplex - r = z.toComplex * (starRingEnd ℂ) ((cis (arg z)).toComplex - u) := by
      rw [hw, Cpx.toComplex_mul, Cpx.toComplex_conj, map_sub, mul_sub, ← direction, mul_assoc (r : ℂ) u ((starRingEnd ℂ) u), self,
        mul_one]
    rw [e, norm_mul, RCLike.norm_conj]
    exact mul_le_mul_of_nonneg_left (cis_arg_close z) pos.le
  have re := (Complex.abs_re_le_norm _).trans near
  have im := (Complex.abs_im_le_norm _).trans near
  rw [Complex.sub_re, Complex.ofReal_re] at re
  rw [Complex.sub_im, Complex.ofReal_im, sub_zero] at im
  have re' : r * (1 - 2 / 10 ^ 18) ≤ (w.re : ℝ) := by have := (abs_le.1 re).1; change _ ≤ (w.toComplex).re; linarith
  refine ⟨?_, ?_, ?_⟩
  · have : (0 : ℝ) < w.re := lt_of_lt_of_le (by positivity) re'
    exact_mod_cast this
  · have : |(w.im : ℝ)| ≤ w.re / 10 ^ 17 := by
      change |(w.toComplex).im| ≤ _
      linarith
    exact_mod_cast this
  · rw [hw, Cpx.normSq_mul, Cpx.normSq_conj, cis_normSq, mul_one]

namespace Machine

/-! ### The transforms in the terms of R17 -/

theorem realCis_neg (t : ℝ) : realCis (-t) = (realCis t)⁻¹ := by
  unfold realCis; rw [← Complex.exp_neg]; congr 1; push_cast; ring

theorem fourier_eq (m : Nat) (xs : List Cpx) (k : Nat) :
    fourier m xs k = ∑ n ∈ Finset.range m, entry xs n * (realCis ((k : ℝ) * n / m))⁻¹ :=
  Finset.sum_congr rfl fun n _ => by rw [realCis_neg]

theorem fourierInv_eq (m : Nat) (xs : List Cpx) (k : Nat) :
    fourierInv m xs k = 1 / (m : ℂ) * ∑ n ∈ Finset.range m, entry xs n * realCis ((k : ℝ) * n / m) := by
  rw [fourierInv]
  congr 1
  exact Finset.sum_congr rfl fun n _ => by rw [mul_comm (n : ℝ)]

/-! ### The statement -/

/-- Settles O9, scheme by scheme. -/
theorem collaboratorLawsHold : Obligations.CollaboratorLawsHold := by
  refine ⟨fun m x hx => ⟨dftFwd_length m x, dftInv_length m x, dftFwd_dftInv hx, dftInv_dftFwd hx⟩,
    fun m x k hm hx hk => ?transforms,
    fun c b => ⟨checkCompute_length c b, checkVerify_checkCompute c b⟩,
    fun f b => ⟨fecEncode_length f b, fecDecode_fecEncode f b⟩,
    fun f _ _ => fecDecode_length f,
    fecEncLen_le_mul,
    fun md => ⟨modBps_pos md, demodulate_length md, demodulate_modulate md⟩,
    fun c => ⟨idTable_eq _ _ _ c, idTable_eq _ _ _ c, idTable_eq _ _ _ c⟩,
    ⟨rfl, rfl, rfl, fun b s => ⟨rfl, rfl, congrArg (fun x => [x]) (byteSum_eq b), checkVerify_sum8_iff b s⟩⟩,
    fun n b e => ⟨rfl, rfl, rfl, rfl, rfl, by simp [fecDecode], rfl, fun i j hi _ => rep3_decode_bit e hi j⟩,
    ⟨rfl, rfl, rfl, fun _ _ => ⟨rfl, rfl⟩, fun _ => ⟨rfl, rfl⟩⟩,
    fun x => arg_cis_close,
    fun z => turnedBack_real⟩
  case transforms =>
    have short : m < 2 ^ 16 := by omega
    exact ⟨fourier_eq m x k ▸ dftFwd_close short hx hk, fourierInv_eq m x k ▸ dftInv_close short hx hk⟩

end Machine
end Sys2Proof

/-! SUPPORT. What the status registers show (10_state.md R35, R43) and what hardware reset leaves (R40). -/

namespace Sys2Proof.Machine

/-! ### Fields of a status word -/

theorem halvesWord_low (lo hi : Nat) : (halvesWord lo hi).extractLsb' 0 16 = BitVec.ofNat 16 lo :=
  BitVec.extractLsb'_append_eq_right

theorem halvesWord_high (lo hi : Nat) : (halvesWord lo hi).extractLsb' 16 16 = BitVec.ofNat 16 hi :=
  BitVec.extractLsb'_append_eq_left

/-- R43: a counter reads modulo `2^32`. -/
theorem counterWord_toNat (n : Nat) : (counterWord n).toNat = n % 2 ^ 32 := BitVec.toNat_ofNat n 32

/-- A field in the lowest bits of a word that is 0 elsewhere. -/
theorem extract_setWidth {n : Nat} (v : BitVec n) (h : n ≤ 32) : (v.setWidth 32).extractLsb' 0 n = v := by
  rw [BitVec.extractLsb'_setWidth_of_le (by omega), BitVec.extractLsb'_eq_self]

theorem extract_setWidth_above {n k : Nat} (v : BitVec n) : (v.setWidth 32).extractLsb' n k = 0#k := by
  ext i hi
  simp

section

variable {n : Nat} (a b c : Byte) (hi : BitVec n)

theorem append_field0 : (hi ++ a).extractLsb' 0 8 = a := BitVec.extractLsb'_append_eq_right

theorem append_field1 : (hi ++ b ++ a).extractLsb' 8 8 = b := by
  rw [BitVec.extractLsb'_append_eq_of_le le_rfl]; exact append_field0 b hi

theorem append_field2 : (hi ++ c ++ b ++ a).extractLsb' 16 8 = c := by
  rw [BitVec.extractLsb'_append_eq_of_le (by decide)]; exact append_field1 b c hi

theorem append_above1 : (hi ++ a).extractLsb' 8 n = hi := BitVec.extractLsb'_append_eq_left

theorem append_above2 : (hi ++ b ++ a).extractLsb' 16 n = hi := by
  rw [BitVec.extractLsb'_append_eq_of_le (by decide)]; exact append_above1 b hi

theorem append_above3 : (hi ++ c ++ b ++ a).extractLsb' 24 n = hi := by
  rw [BitVec.extractLsb'_append_eq_of_le (by decide)]; exact append_above2 b c hi

end

/-- Settles O53, register by register in the order of R35. -/
theorem csrFieldsShowTheState : Obligations.CsrFieldsShowTheState :=
  ⟨rfl, rfl, fun s =>
    ⟨-- txState, txM, txCptp
      extract_setWidth _ (by decide), extract_setWidth_above _, halvesWord_low _ _, halvesWord_high _ 0,
      halvesWord_low _ _, halvesWord_high _ _,
      -- txProps, txHdrfmt
      append_field0 _ _, append_field1 _ _ _, append_field2 _ _ _ _, append_above3 _ _ _ _,
      append_field0 _ _, append_field1 _ _ _, append_above2 _ _ _,
      -- txMaxpay, txCursor, txNtot, txNhdr, txNpay, txCounts
      counterWord_toNat _, counterWord_toNat _, counterWord_toNat _, counterWord_toNat _, counterWord_toNat _,
      halvesWord_low _ _, halvesWord_high _ _,
      -- rxState, rxM, rxCptp
      extract_setWidth _ (by decide), extract_setWidth_above _, halvesWord_low _ _, halvesWord_high _ 0,
      halvesWord_low _ _, halvesWord_high _ _,
      -- rxHdrfmt, rxMaxsyms, the thresholds and factors
      append_field0 _ _, append_field1 _ _ _, append_field2 _ _ _ _, append_above3 _ _ _ _, counterWord_toNat _,
      rfl, rfl, rfl, rfl,
      -- rxEvmask, rxTimer, rxNsym, rxSymidx, the estimates
      extract_setWidth _ (by decide), extract_setWidth_above _,
      counterWord_toNat _, counterWord_toNat _, counterWord_toNat _, rfl, rfl, rfl,
      -- rxCounts, rxNhdr, rxNpay, rxEvcount
      halvesWord_low _ _, halvesWord_high _ _, counterWord_toNat _, counterWord_toNat _, counterWord_toNat _⟩⟩

/-! ### Hardware reset -/

/-- R35: the number 0 reads as the word 0. -/
theorem wordOfNum_zero : wordOfNum 0 = 0#32 := by decide +kernel

theorem csrValue_reset (c : Csr) : csrValue State.reset c = if c = .rxEvmask then 3#32 else 0#32 := by
  cases c with
  | rxDetT2 | rxLongT2 | rxAlpha | rxKappa | rxNu | rxTau | rxPhi => exact wordOfNum_zero
  | _ => rfl

/-- Settles O58: the status registers one by one, and each register of the two units at its value of R40. -/
theorem resetLeavesZero : Obligations.ResetLeavesZero := by
  refine ⟨csrValue_reset, ?_⟩
  and_intros <;> rfl

/-- Settles O59: each unit is as hardware reset leaves it. -/
theorem invariantAtReset : Obligations.InvariantAtReset := ⟨.inl rfl, .inl rfl⟩

end Sys2Proof.Machine

/-! SUPPORT. What no sample changes in the RXU (R25, R28, R72), each rule of a state by itself, and then a block of samples. -/

namespace Sys2Proof.Machine

/-! ### What the rules of the states keep -/

/-- From `rx` to `rx'` the configuration, the mask and the window stay, records are only appended to the queue, and a configured
unit stays configured. -/
structure KeepsConfigAndQueue (rx rx' : RxUnit) : Prop where
  config : SameRxConfig rx' rx
  mask : rx'.evmask = rx.evmask
  win : rx'.win = rx.win
  queue : rx.evq <+: rx'.evq
  ready : rx.state ≠ .unconfigured → rx'.state ≠ .unconfigured

namespace KeepsConfigAndQueue

variable {rx rx' rx'' : RxUnit}

theorem refl (rx : RxUnit) : KeepsConfigAndQueue rx rx := ⟨.refl rx, rfl, rfl, List.prefix_rfl, id⟩

theorem trans (h : KeepsConfigAndQueue rx rx') (k : KeepsConfigAndQueue rx' rx'') : KeepsConfigAndQueue rx rx'' :=
  ⟨k.config.trans h.config, k.mask.trans h.mask, k.win.trans h.win, h.queue.trans k.queue, k.ready ∘ h.ready⟩

/-- An update of counters, estimates or decode state, which may enter another state but no longer `UNCONFIGURED`. -/
theorem of_eq (config : SameRxConfig rx' rx) (mask : rx'.evmask = rx.evmask) (win : rx'.win = rx.win) (queue : rx'.evq = rx.evq)
    (ready : rx.state ≠ .unconfigured → rx'.state ≠ .unconfigured) : KeepsConfigAndQueue rx rx' :=
  ⟨config, mask, win, queue ▸ List.prefix_rfl, ready⟩

/-- The same of the two units with further samples in their windows. -/
theorem fed (h : KeepsConfigAndQueue rx rx') (xs : List Cpx) : KeepsConfigAndQueue (fedWindow rx xs) (fedWindow rx' xs) :=
  ⟨h.config, h.mask, by simp only [fedWindow, h.win], h.queue, h.ready⟩

end KeepsConfigAndQueue

theorem toDetect_keeps (rx : RxUnit) : KeepsConfigAndQueue rx (toDetect rx) := .of_eq (.refl rx) rfl rfl rfl fun _ => by simp

/-- R291: an event is appended to the queue, or lost. -/
theorem emit_keeps (e : EventRecord) (rx : RxUnit) : KeepsConfigAndQueue rx (emit e rx) := by
  rw [emit_eq]; exact ⟨.refl rx, rfl, rfl, List.prefix_append _ _, id⟩

/-- R225 -/
theorem stepDetect_keeps (rx : RxUnit) : KeepsConfigAndQueue rx (stepDetect rx) := by
  rcases stepDetect_cases rx with e | e <;> rw [e]
  · exact .refl rx
  · exact .of_eq (.refl rx) rfl rfl rfl fun _ => by simp

theorem shortBudget_keeps (rx : RxUnit) : KeepsConfigAndQueue rx (shortBudget rx) := by
  rcases shortBudget_cases rx with ⟨-, e⟩ | ⟨-, e⟩ <;> rw [e]
  · exact .refl rx
  · exact toDetect_keeps rx

/-- R226 -/
theorem stepSyncShort_keeps (rx : RxUnit) : KeepsConfigAndQueue rx (stepSyncShort rx) := by
  rcases stepSyncShort_cases rx with e | ⟨-, e⟩ | ⟨-, e⟩ <;> rw [e]
  · refine .trans ?_ (shortBudget_keeps _)
    exact .of_eq (.refl rx) rfl rfl rfl id
  · exact .of_eq (.refl rx) rfl rfl rfl fun _ => by simp
  · refine .trans ?_ (shortBudget_keeps _)
    exact .of_eq (.refl rx) rfl rfl rfl id

theorem testLong_keeps (rx : RxUnit) : KeepsConfigAndQueue rx (testLong rx) := by
  rcases testLong_cases rx with e | ⟨-, e⟩ | ⟨-, e⟩ <;> rw [e]
  · exact .of_eq (.refl rx) rfl rfl rfl fun _ => by simp
  · exact .of_eq (.refl rx) rfl rfl rfl fun _ => by simp
  · exact .of_eq (.refl rx) rfl rfl rfl id

theorem tick_keeps {k : RxUnit → RxUnit} (hk : ∀ rx, KeepsConfigAndQueue rx (k rx)) (rx : RxUnit) :
    KeepsConfigAndQueue rx (tick k rx) := by
  rcases tick_cases k rx with ⟨-, e⟩ | ⟨-, e⟩ <;> rw [e]
  · refine .trans ?_ (hk _)
    exact .of_eq (.refl rx) rfl rfl rfl id
  · exact .of_eq (.refl rx) rfl rfl rfl id

/-- R245 -/
theorem finishPayload_keeps (rx : RxUnit) : KeepsConfigAndQueue rx (finishPayload rx) := (emit_keeps _ rx).trans (toDetect_keeps _)

/-- R244: the header's record is appended, and behind it, for an empty payload, the frame's. -/
theorem beginPayload_keeps (h : HeaderFields) (rx : RxUnit) : KeepsConfigAndQueue rx (beginPayload h rx) := by
  have stored : KeepsConfigAndQueue rx (storeHeader h rx) := .of_eq (.refl rx) rfl rfl rfl id
  have entered : KeepsConfigAndQueue rx (enterPayload h (emit (.header true h.user) (storeHeader h rx))) :=
    (stored.trans (emit_keeps _ _)).trans (.of_eq (.refl _) rfl rfl rfl fun _ => by simp)
  rcases beginPayload_cases h rx with ⟨-, e⟩ | ⟨-, e⟩ <;> rw [e]
  · exact entered.trans (finishPayload_keeps _)
  · exact entered

/-- R241 to R244 -/
theorem finishHeader_keeps (rx : RxUnit) : KeepsConfigAndQueue rx (finishHeader rx) := by
  rcases finishHeader_cases rx with e | ⟨h, -, -, e⟩ <;> rw [e]
  · exact (emit_keeps _ rx).trans (toDetect_keeps _)
  · exact beginPayload_keeps h rx

/-- R229 -/
theorem rxSymbol_keeps (rx : RxUnit) : KeepsConfigAndQueue rx (rxSymbol rx) := by
  have received : KeepsConfigAndQueue rx (receiveSymbol rx) := .of_eq (.refl rx) rfl rfl rfl id
  refine received.trans ?_
  unfold rxSymbol
  rcases afterSymbol_cases (receiveSymbol rx) with ⟨-, -, e⟩ | ⟨-, -, e⟩ | ⟨-, e⟩ | ⟨-, -, -, e⟩ <;> rw [e]
  · exact finishHeader_keeps _
  · exact finishPayload_keeps _
  · exact toDetect_keeps _
  · exact .refl _

/-! ### One sample, and a block of them (R222, R223) -/

/-- R223: behind the shift of the window, every rule of a configured unit keeps the window too. -/
theorem rxStep_keeps {rx : RxUnit} (ready : rx.state ≠ .unconfigured) (x : Cpx) :
    KeepsConfigAndQueue (shiftWindow x rx) (rxStep rx x) := by
  unfold rxStep
  cases state : rx.state with
  | unconfigured => exact absurd state ready
  | detect => exact stepDetect_keeps _
  | syncShort => exact stepSyncShort_keeps _
  | syncLong => exact tick_keeps testLong_keeps _
  | rxHeader | rxPayload => exact tick_keeps rxSymbol_keeps _

/-- R28: the oldest sample leaves a window that is not empty as the newest enters it. -/
theorem fedWindow_cons {rx : RxUnit} (win : rx.win ≠ []) (x : Cpx) (xs : List Cpx) :
    fedWindow rx (x :: xs) = fedWindow (shiftWindow x rx) xs := by
  obtain ⟨y, ys, full⟩ := List.exists_cons_of_ne_nil win
  simp [fedWindow, shiftWindow, full]

/-- After a block of samples all is kept from the unit whose window has seen them. -/
theorem rxRun_keeps {rx : RxUnit} (ready : rx.state ≠ .unconfigured) (win : rx.win ≠ []) (xs : List Cpx) :
    KeepsConfigAndQueue (fedWindow rx xs) (rxRun rx xs) := by
  induction xs generalizing rx with
  | nil => exact .of_eq (.refl rx) rfl (by simp [fedWindow, rxRun]) rfl id
  | cons x xs ih =>
    have sample := rxStep_keeps ready x
    have window : (rxStep rx x).win ≠ [] := by rw [sample.win]; simp
    rw [fedWindow_cons win]
    exact (sample.fed xs).trans (ih (sample.ready ready) window)

/-- Settles O34, by induction on the samples. -/
theorem samplesKeepConfigurationAndQueue : Obligations.SamplesKeepConfigurationAndQueue := fun _ xs ready win =>
  have kept := rxRun_keeps ready win xs
  have ⟨new, appended⟩ := kept.queue
  ⟨kept.config, kept.mask, kept.ready ready, kept.win, new, appended.symm⟩

end Sys2Proof.Machine

/-! SUPPORT. `TXCFG` (R96, R191): which words fit its layout and where the fields are, what a legal one stores. -/

namespace Sys2Proof.Machine

/-! ### Tables in words (R95 (e)) -/

/-- Entry `k` of a table in words is field `k mod 16` of word `k / 16`; behind the last word both read 0. -/
theorem tagFields_getD (ws : List Word) (k : Nat) :
    (ws.flatMap tagsOfWord).getD k 0#2 = (ws.getD (k / 16) 0#32).extractLsb' (2 * (k % 16)) 2 := by
  induction ws generalizing k with
  | nil => simp
  | cons w ws ih =>
    have width : (tagsOfWord w).length = 16 := by simp [tagsOfWord]
    rw [List.flatMap_cons]
    rcases lt_or_ge k 16 with inWord | behind
    · rw [List.getD_append _ _ _ _ (by omega), Nat.div_eq_of_lt inWord, Nat.mod_eq_of_lt inWord]
      simp [tagsOfWord, List.getD_eq_getElem?_getD, List.getElem?_range inWord]
    · have word : k / 16 = (k - 16) / 16 + 1 := by omega
      have field : (k - 16) % 16 = k % 16 := by omega
      rw [List.getD_append_right _ _ _ _ (by omega), width, ih, word, field, List.getD_cons_succ]

theorem unpackTable_getD {n k : Nat} (ws : List Word) (h : k < n) :
    (unpackTable n ws).getD k 0#2 = (ws.getD (k / 16) 0#32).extractLsb' (2 * (k % 16)) 2 := by
  rw [← tagFields_getD, unpackTable, List.getD_eq_getElem?_getD, List.getElem?_take_of_lt h, List.getD_eq_getElem?_getD]

theorem unpackTable_length {n : Nat} {ws : List Word} (h : ws.length = tableWordCount n) : (unpackTable n ws).length = n := by
  have fields : (ws.flatMap tagsOfWord).length = ws.length * 16 := by simp [List.length_flatMap, tagsOfWord]
  have enough : n ≤ tableWordCount n * 16 := le_ceilDiv_mul n (by decide)
  rw [unpackTable, List.length_take, fields, h, min_eq_left enough]

/-- R122: the stored tags are those of the operands where no code is 3. -/
theorem map_tagCode_tagsOf {p : List TagCode} (h : 3#2 ∉ p) : (tagsOf p).map tagCode = p := by
  have code : ∀ c : TagCode, c ≠ 3#2 → tagCode ((tagOfCode c).getD .null) = c := by decide
  rw [tagsOf, List.map_map]
  exact (List.map_congr_left fun c hc => code c (ne_of_mem_of_not_mem hc h)).trans (List.map_id p)

/-! ### The layout (R96, R107) -/

/-- Operand words that fit the layout of `TXCFG`: the six words before the table, and the table. -/
theorem decodeTxCfg_fits {ops : List Word} {c : TxCfgOps} (h : decodeTxCfg ops = .fits c) :
    ∃ w0 w1 w2 w3 w4 w5 tab, ops = w0 :: w1 :: w2 :: w3 :: w4 :: w5 :: tab ∧
      w0.extractLsb' 16 16 = 0#16 ∧ w3.extractLsb' 16 16 = 0#16 ∧ tab.length = tableWordCount w5.toNat ∧
      c = { m := w0.extractLsb' 0 16, cpLen := w1.extractLsb' 0 16, taperLen := w1.extractLsb' 16 16, props := decodeProps w2,
            hdrMod := w3.extractLsb' 0 8, hUser := w3.extractLsb' 8 8, maxPaySyms := w4,
            table := unpackTable w5.toNat tab } := by
  unfold decodeTxCfg at h
  split at h
  · split at h
    · rename_i shape
      obtain ⟨zero0, zero3, count⟩ := shape
      exact ⟨_, _, _, _, _, _, _, rfl, zero0, zero3, count, (Operands.fits.inj h).symm⟩
    · cases h
  · cases h

theorem decodeTxCfg_fits_iff (ops : List Word) : (∃ c, decodeTxCfg ops = .fits c) ↔
    ops.length = 6 + ceilDiv (ops.getD 5 0#32).toNat 16 ∧ (ops.getD 0 0#32).extractLsb' 16 16 = 0#16 ∧
      (ops.getD 3 0#32).extractLsb' 16 16 = 0#16 := by
  constructor
  · rintro ⟨c, h⟩
    obtain ⟨w0, w1, w2, w3, w4, w5, tab, rfl, zero0, zero3, count, -⟩ := decodeTxCfg_fits h
    have words : tab.length + 6 = 6 + tableWordCount w5.toNat := by omega
    exact ⟨words, zero0, zero3⟩
  · intro h
    match ops, h with
    | w0 :: w1 :: w2 :: w3 :: w4 :: w5 :: tab, ⟨words, zero0, zero3⟩ =>
      have words : tab.length + 6 = 6 + tableWordCount w5.toNat := words
      exact ⟨_, if_pos ⟨zero0, zero3, by omega⟩⟩
    | [], ⟨words, _⟩ | [_], ⟨words, _⟩ | [_, _], ⟨words, _⟩ | [_, _, _], ⟨words, _⟩ | [_, _, _, _], ⟨words, _⟩
    | [_, _, _, _, _], ⟨words, _⟩ => simp only [List.length_cons, List.length_nil] at words; omega

/-! ### The command (R191) -/

/-- R12: what a table of three ids finds has the code it was looked up by. -/
theorem idTable_code {α : Type} {a0 a1 a2 a : α} {b : Byte} (code : α → Byte) (h0 : code a0 = 0#8) (h1 : code a1 = 1#8)
    (h2 : code a2 = 2#8)
    (h : (if b = 0#8 then some a0 else if b = 1#8 then some a1 else if b = 2#8 then some a2 else none) = some a) :
    code a = b := by
  split_ifs at h with e0 e1 e2 <;> cases h
  · rw [h0, e0]
  · rw [h1, e1]
  · rw [h2, e2]

theorem checkCode_of_checkOfCode {b : Byte} {c : CheckId} (h : checkOfCode b = some c) : checkCode c = b :=
  idTable_code checkCode rfl rfl rfl h

theorem fecCode_of_fecOfCode {b : Byte} {f : FecId} (h : fecOfCode b = some f) : fecCode f = b :=
  idTable_code fecCode rfl rfl rfl h

theorem modCode_of_modOfCode {b : Byte} {md : ModId} (h : modOfCode b = some md) : modCode md = b :=
  idTable_code modCode rfl rfl rfl h

/-- R191: a legal `TXCFG` configures an unconfigured unit, with the schemes its ids name. -/
theorem txConfigure_of_legal {c : TxCfgOps} {tx : TxUnit} (fresh : tx.state = .unconfigured) (legal : TxCfgLegal c) :
    ∃ tx', txConfigure c tx = some tx' ∧ checkOfCode c.props.check = some tx'.check ∧ fecOfCode c.props.fec0 = some tx'.fec0 ∧
      fecOfCode c.props.fec1 = some tx'.fec1 ∧ modOfCode c.props.mod = some tx'.mod ∧ modOfCode c.hdrMod = some tx'.hdrMod := by
  obtain ⟨even, least, most, prefixed, tapered, valid, check, fec0, fec1, md, hdrMod⟩ := legal
  obtain ⟨check, hcheck⟩ := Option.isSome_iff_exists.1 check
  obtain ⟨fec0, hfec0⟩ := Option.isSome_iff_exists.1 fec0
  obtain ⟨fec1, hfec1⟩ := Option.isSome_iff_exists.1 fec1
  obtain ⟨md, hmod⟩ := Option.isSome_iff_exists.1 md
  obtain ⟨hdrMod, hhdrMod⟩ := Option.isSome_iff_exists.1 hdrMod
  have dims := (legalDims_iff _ _ _).2 ⟨even, least, most, prefixed, tapered⟩
  simp [txConfigure, fresh, dims, valid, hcheck, hfec0, hfec1, hmod, hhdrMod]

theorem exec_txcfg_of_some {s : State} {c : TxCfgOps} {tx : TxUnit} (h : txConfigure c s.tx = some tx) :
    exec (.txcfg (.fits c)) s = respond [] (s.setTx tx) := by
  simp only [exec, execTxcfg, ifFits_fits, h]

/-- Settles O24: the effect is read off the unit that `txConfigure` leaves, the fields off the words before the table. -/
theorem txcfgConfiguresTheUnit : Obligations.TxcfgConfiguresTheUnit := by
  refine ⟨fun s c fresh legal => ?effect, fun s ws => rfl, decodeTxCfg_fits_iff, fun ops c h => ?fields⟩
  case effect =>
    obtain ⟨tx, done, check, fec0, fec1, md, hdrMod⟩ := txConfigure_of_legal fresh legal
    refine ⟨_, exec_txcfg_of_some done, rfl, rfl, rfl, ?_⟩
    obtain ⟨-, valid, _, _, _, _, _, rfl⟩ := txConfigure_some done
    obtain ⟨-, noCode3, -, -⟩ := (validate_ok_iff _ _).1 valid
    exact ⟨rfl, rfl, rfl, map_tagCode_tagsOf noCode3, checkCode_of_checkOfCode check, fecCode_of_fecOfCode fec0,
      fecCode_of_fecOfCode fec1, modCode_of_modOfCode md, modCode_of_modOfCode hdrMod,
      rfl, rfl, rfl, rfl, rfl, rfl, rfl, rfl, rfl, rfl⟩
  case fields =>
    obtain ⟨w0, w1, w2, w3, w4, w5, tab, rfl, -, -, count, rfl⟩ := decodeTxCfg_fits h
    have entries : (unpackTable w5.toNat tab).length = w5.toNat := unpackTable_length count
    refine ⟨rfl, rfl, rfl, rfl, rfl, rfl, rfl, rfl, rfl, rfl, entries, fun k hk => ?_⟩
    have word : 6 + k / 16 = k / 16 + 6 := Nat.add_comm _ _
    rw [unpackTable_getD tab (entries ▸ hk), word]
    rfl

end Sys2Proof.Machine

/-! SUPPORT. What a command makes of the two units, said once: a command of one unit is a function of that unit alone (R72, R77), and
no function of a configured unit changes its configuration (R75, R126). -/

namespace Sys2Proof.Machine

/-! ### What each command makes of its unit -/

/-- What a command makes of the TXU, its operand forms and failures included (R191, R192, R196, R197): `exec_answers`. -/
def txNext : Instr → TxUnit → TxUnit
  | .txcfg (.fits c), tx => (txConfigure c tx).getD tx
  | .txprops (.fits p), tx => if tx.state = .unconfigured then tx else (txSetProps p tx).getD tx
  | .assemble (.fits a), tx =>
    if tx.state ≠ .unconfigured ∧ AssembleShape tx a ∧ PayloadFits tx a then
      txAssemble tx (assembleUser tx a) (assemblePayload tx a)
    else tx
  | .wrsym (.fits _), tx => if tx.state = .unconfigured ∨ tx.state = .idle then tx else (txWriteSymbol tx).2
  | _, tx => tx

/-- What a command makes of the RXU (R221, R222, R247, R248): `exec_answers`. -/
def rxNext : Instr → RxUnit → RxUnit
  | .rxcfg (.fits c), rx => (rxConfigure c rx).getD rx
  | .execute (.fits xs), rx => if rx.state = .unconfigured then rx else rxRun rx (xs.map cpxOfWords)
  | .rxreset (.fits _), rx => if rx.state = .unconfigured then rx else initialRx rx
  | .rxsetcb (.fits mask), rx => if rx.state = .unconfigured then rx else { rx with evmask := mask }
  | _, rx => rx

/-- The answer `r` to a command in `s`: a response is written, CMD stays, and the units become `tx` and `rx`. -/
def AnswersWith (s : State) (tx : TxUnit) (rx : RxUnit) (r : Result) : Prop :=
  ∃ ws, r = .next { cmd := s.cmd, rsp := s.rsp ++ ws, tx := tx, rx := rx }

theorem raise_answers (st : Status) (s : State) : AnswersWith s s.tx s.rx (raise st s) := ⟨_, rfl⟩

theorem respond_answers (ws : List Word) (s : State) : AnswersWith s s.tx s.rx (respond ws s) := ⟨_, rfl⟩

theorem respond_setTx_answers (ws : List Word) (s : State) (tx : TxUnit) :
    AnswersWith s tx s.rx (respond ws (s.setTx tx)) := ⟨_, rfl⟩

theorem respond_setRx_answers (ws : List Word) (s : State) (rx : RxUnit) :
    AnswersWith s s.tx rx (respond ws (s.setRx rx)) := ⟨_, rfl⟩

theorem ifTxConfigured_raise_answers (st : Status) (s : State) :
    AnswersWith s s.tx s.rx (ifTxConfigured s (raise st s)) := by
  unfold ifTxConfigured; split <;> exact raise_answers _ _

theorem ifRxConfigured_raise_answers (st : Status) (s : State) :
    AnswersWith s s.tx s.rx (ifRxConfigured s (raise st s)) := by
  unfold ifRxConfigured; split <;> exact raise_answers _ _

theorem execTxcfg_answers (c : TxCfgOps) (s : State) :
    AnswersWith s (txNext (.txcfg (.fits c)) s.tx) s.rx (execTxcfg (.fits c) s) := by
  rw [execTxcfg, ifFits_fits, txNext]
  cases txConfigure c s.tx with
  | some tx => exact respond_setTx_answers _ _ _
  | none => exact raise_answers _ _

theorem execTxprops_answers (p : PropsOps) (s : State) :
    AnswersWith s (txNext (.txprops (.fits p)) s.tx) s.rx (execTxprops (.fits p) s) := by
  rw [execTxprops, ifFits_fits, ifTxConfigured, txNext]
  split
  · exact raise_answers _ _
  · cases txSetProps p s.tx with
    | some tx => exact respond_setTx_answers _ _ _
    | none => exact raise_answers _ _

theorem execAssemble_of_legal {s : State} {a : AssembleOps} (ready : s.tx.state ≠ .unconfigured) (shape : AssembleShape s.tx a)
    (fits : PayloadFits s.tx a) : execAssemble (.fits a) s =
      respond [] (s.setTx (txAssemble s.tx (assembleUser s.tx a) (assemblePayload s.tx a))) := by
  obtain ⟨len, syms⟩ := fits
  rw [execAssemble, ifTxConfigured_of_configured ready, ifFits_fits]
  simp only
  rw [if_neg (not_not.2 shape), if_neg (Nat.not_lt.2 len), if_neg (Nat.not_lt.2 syms)]
  rfl

theorem execAssemble_of_illegal {s : State} {a : AssembleOps} (ready : s.tx.state ≠ .unconfigured)
    (illegal : ¬ (AssembleShape s.tx a ∧ PayloadFits s.tx a)) : ∃ st, execAssemble (.fits a) s = raise st s := by
  rw [execAssemble, ifTxConfigured_of_configured ready, ifFits_fits]
  simp only
  split
  · exact ⟨_, rfl⟩
  · split
    · exact ⟨_, rfl⟩
    · split
      · exact ⟨_, rfl⟩
      · rename_i shape len syms
        exact absurd ⟨not_not.1 shape, Nat.not_lt.1 len, Nat.not_lt.1 syms⟩ illegal

theorem execAssemble_answers (a : AssembleOps) (s : State) :
    AnswersWith s (txNext (.assemble (.fits a)) s.tx) s.rx (execAssemble (.fits a) s) := by
  by_cases ready : s.tx.state = .unconfigured
  · rw [execAssemble, ifTxConfigured_of_unconfigured ready, txNext, if_neg fun h => h.1 ready]
    exact raise_answers _ _
  · by_cases legal : AssembleShape s.tx a ∧ PayloadFits s.tx a
    · rw [execAssemble_of_legal ready legal.1 legal.2, txNext, if_pos ⟨ready, legal⟩]
      exact respond_setTx_answers _ _ _
    · obtain ⟨st, failed⟩ := execAssemble_of_illegal ready legal
      rw [failed, txNext, if_neg fun h => legal h.2]
      exact raise_answers _ _

theorem execWrsym_answers (u : Unit) (s : State) :
    AnswersWith s (txNext (.wrsym (.fits u)) s.tx) s.rx (execWrsym (.fits u) s) := by
  by_cases ready : s.tx.state = .unconfigured
  · rw [execWrsym, ifTxConfigured_of_unconfigured ready, txNext, if_pos (.inl ready)]
    exact raise_answers _ _
  · rw [execWrsym, ifTxConfigured_of_configured ready, ifFits_fits]
    by_cases idle : s.tx.state = .idle
    · rw [if_pos idle, txNext, if_pos (.inr idle)]
      exact raise_answers _ _
    · rw [if_neg idle, txNext, if_neg (not_or.2 ⟨ready, idle⟩)]
      exact respond_setTx_answers _ _ _

theorem execRxcfg_answers (c : RxCfgOps) (s : State) :
    AnswersWith s s.tx (rxNext (.rxcfg (.fits c)) s.rx) (execRxcfg (.fits c) s) := by
  rw [execRxcfg, ifFits_fits, rxNext]
  cases rxConfigure c s.rx with
  | some rx => exact respond_setRx_answers _ _ _
  | none => exact raise_answers _ _

theorem execExecute_answers (xs : List SampleWords) (s : State) :
    AnswersWith s s.tx (rxNext (.execute (.fits xs)) s.rx) (execExecute (.fits xs) s) := by
  rw [execExecute, ifFits_fits, ifRxConfigured, rxNext]
  split
  · exact raise_answers _ _
  · exact respond_setRx_answers _ _ _

theorem execRxreset_answers (u : Unit) (s : State) :
    AnswersWith s s.tx (rxNext (.rxreset (.fits u)) s.rx) (execRxreset (.fits u) s) := by
  rw [execRxreset, ifFits_fits, rxNext]
  split
  · exact respond_answers _ _
  · exact respond_setRx_answers _ _ _

theorem execRxsetcb_answers (mask : BitVec 2) (s : State) :
    AnswersWith s s.tx (rxNext (.rxsetcb (.fits mask)) s.rx) (execRxsetcb (.fits mask) s) := by
  rw [execRxsetcb, ifFits_fits, ifRxConfigured, rxNext]
  split
  · exact raise_answers _ _
  · exact respond_setRx_answers _ _ _

theorem execDefalloc_answers (m : Word) (s : State) : AnswersWith s s.tx s.rx (execDefalloc (.fits m) s) := by
  rw [execDefalloc, ifFits_fits]
  split
  · exact raise_answers _ _
  · exact respond_answers _ _

theorem execAllocchk_answers (a : AllocChkOps) (s : State) : AnswersWith s s.tx s.rx (execAllocchk (.fits a) s) := by
  rw [execAllocchk, ifFits_fits]
  split
  · exact respond_answers _ _
  · exact raise_answers _ _

/-- Every command is answered, and what it makes of each unit is a function of that unit alone. Operands that fit no layout change
neither, whether the configured check or the operand check (R111) answers. -/
theorem exec_answers (i : Instr) (s : State) : AnswersWith s (txNext i s.tx) (rxNext i s.rx) (exec i s) :=
  match i with
  | .txcfg (.fits c) => execTxcfg_answers c s
  | .txprops (.fits p) => execTxprops_answers p s
  | .assemble (.fits a) => execAssemble_answers a s
  | .wrsym (.fits u) => execWrsym_answers u s
  | .rxcfg (.fits c) => execRxcfg_answers c s
  | .execute (.fits xs) => execExecute_answers xs s
  | .rxreset (.fits u) => execRxreset_answers u s
  | .rxsetcb (.fits mask) => execRxsetcb_answers mask s
  | .rdcsr (.fits _) => respond_answers _ s
  | .defalloc (.fits m) => execDefalloc_answers m s
  | .allocchk (.fits a) => execAllocchk_answers a s
  | .txcfg (.misfit _) | .rxcfg (.misfit _) | .rxreset (.misfit _) | .rdcsr (.misfit _) | .defalloc (.misfit _)
  | .allocchk (.misfit _) => raise_answers .illegalCommand s
  | .txprops (.misfit _) | .assemble (.misfit _) | .wrsym (.misfit _) => ifTxConfigured_raise_answers .illegalCommand s
  | .execute (.misfit _) | .rxsetcb (.misfit _) => ifRxConfigured_raise_answers .illegalCommand s

theorem exec_next {i : Instr} {s t : State} (h : exec i s = .next t) :
    t.cmd = s.cmd ∧ t.tx = txNext i s.tx ∧ t.rx = rxNext i s.rx := by
  obtain ⟨ws, answer⟩ := exec_answers i s
  cases answer.symm.trans h
  exact ⟨rfl, rfl, rfl⟩

/-- Two commands, one after the other, are both answered. -/
theorem execAll_pair (i j : Instr) (s : State) :
    ∃ t, execAll [i, j] s = .next t ∧ t.tx = txNext j (txNext i s.tx) ∧ t.rx = rxNext j (rxNext i s.rx) := by
  obtain ⟨ws, first⟩ := exec_answers i s
  obtain ⟨ws', second⟩ := exec_answers j
    { cmd := s.cmd, rsp := s.rsp ++ ws, tx := txNext i s.tx, rx := rxNext i s.rx }
  refine ⟨_, by simp only [execAll, first, second]; rfl, ?_, ?_⟩
  · rfl
  · rfl

/-! ### A command leaves the other unit alone (R72 (e)) -/

/-- The opcodes of the commands of the TXU (R92). -/
abbrev txOpcodes : List Byte := [0x01#8, 0x02#8, 0x03#8, 0x04#8]

/-- The opcodes of the commands of the RXU (R92). -/
abbrev rxOpcodes : List Byte := [0x11#8, 0x12#8, 0x13#8, 0x14#8]

theorem txNext_of_opcode {i : Instr} (h : opcodeOf i ∉ txOpcodes) (tx : TxUnit) : txNext i tx = tx := by
  cases i with
  | txcfg o | txprops o | assemble o | wrsym o => exact absurd (by simp [opcodeOf]) h
  | _ => rfl

theorem rxNext_of_opcode {i : Instr} (h : opcodeOf i ∉ rxOpcodes) (rx : RxUnit) : rxNext i rx = rx := by
  cases i with
  | rxcfg o | execute o | rxreset o | rxsetcb o => exact absurd (by simp [opcodeOf]) h
  | _ => rfl

theorem not_rxOpcode_of_txOpcode {op : Byte} (h : op ∈ txOpcodes) : op ∉ rxOpcodes := by
  revert op; decide

theorem not_txOpcode_of_rxOpcode {op : Byte} (h : op ∈ rxOpcodes) : op ∉ txOpcodes :=
  fun k => not_rxOpcode_of_txOpcode k h

theorem not_unitOpcode_of_systemOpcode {op : Byte} (h : op ∈ [0x20#8, 0x21#8, 0x22#8]) : op ∉ txOpcodes ∧ op ∉ rxOpcodes := by
  revert op; decide

/-- Settles O56: a command of one unit is the identity on the other, so two commands of different units commute. -/
theorem unitsShareNothing : Obligations.UnitsShareNothing := by
  refine ⟨fun i s t h => ?frame, fun i j s hi hj => ?commute⟩
  case frame =>
    obtain ⟨cmd, tx, rx⟩ := exec_next h
    rw [tx, rx]
    exact ⟨fun op => rxNext_of_opcode (not_rxOpcode_of_txOpcode op) _, fun op => txNext_of_opcode (not_txOpcode_of_rxOpcode op) _,
      fun op => have ⟨notTx, notRx⟩ := not_unitOpcode_of_systemOpcode op
        ⟨txNext_of_opcode notTx _, rxNext_of_opcode notRx _⟩, cmd⟩
  case commute =>
    obtain ⟨t, runT, tTx, tRx⟩ := execAll_pair i j s
    obtain ⟨u, runU, uTx, uRx⟩ := execAll_pair j i s
    have onTx (tx : TxUnit) : txNext j tx = tx := txNext_of_opcode (not_txOpcode_of_rxOpcode hj) tx
    have onRx (rx : RxUnit) : rxNext i rx = rx := rxNext_of_opcode (not_rxOpcode_of_txOpcode hi) rx
    exact ⟨t, u, runT, runU, by rw [tTx, uTx, onTx, onTx], by rw [tRx, uRx, onRx, onRx]⟩

/-! ### A configured unit keeps its configuration (R75 (b), R126) -/

/-- A second `TXCFG` fails (R191). -/
theorem txConfigure_of_configured {tx : TxUnit} (ready : tx.state ≠ .unconfigured) (c : TxCfgOps) : txConfigure c tx = none :=
  if_pos ready

/-- A second `RXCFG` fails (R221). -/
theorem rxConfigure_of_configured {rx : RxUnit} (ready : rx.state ≠ .unconfigured) (c : RxCfgOps) : rxConfigure c rx = none :=
  if_pos ready

/-- The TXU stays configured, and its configuration registers and derived constants stay (R21, R22), the properties apart. -/
structure KeepsTxConfig (tx tx' : TxUnit) : Prop where
  ready : tx'.state ≠ .unconfigured
  m : tx'.m = tx.m
  cpLen : tx'.cpLen = tx.cpLen
  taperLen : tx'.taperLen = tx.taperLen
  table : tx'.table = tx.table
  hdrMod : tx'.hdrMod = tx.hdrMod
  hUser : tx'.hUser = tx.hUser
  maxPaySyms : tx'.maxPaySyms = tx.maxPaySyms
  derived : tx'.derived = tx.derived

/-- The four properties that `TXPROPS` replaces stay (R192). -/
structure KeepsProps (tx tx' : TxUnit) : Prop where
  check : tx'.check = tx.check
  fec0 : tx'.fec0 = tx.fec0
  fec1 : tx'.fec1 = tx.fec1
  mod : tx'.mod = tx.mod

section

variable {tx : TxUnit}

theorem keepsTxConfig_refl (ready : tx.state ≠ .unconfigured) : KeepsTxConfig tx tx := ⟨ready, rfl, rfl, rfl, rfl, rfl, rfl, rfl, rfl⟩

theorem txSetProps_keepsConfig {p : PropsOps} {tx' : TxUnit} (ready : tx.state ≠ .unconfigured) (h : txSetProps p tx = some tx') :
    KeepsTxConfig tx tx' := by
  unfold txSetProps at h
  split at h
  · cases h; exact ⟨ready, rfl, rfl, rfl, rfl, rfl, rfl, rfl, rfl⟩
  · cases h

theorem txAssemble_keepsConfig (tx : TxUnit) (user payload : List Byte) : KeepsTxConfig tx (txAssemble tx user payload) :=
  ⟨by simp, rfl, rfl, rfl, rfl, rfl, rfl, rfl, rfl⟩

theorem txWriteSymbol_state (tx : TxUnit) : (txWriteSymbol tx).2.state =
    if tx.cursor + 1 = tx.nTot then .idle else stateOf tx.nHdr tx.nPay (tx.cursor + 1) := rfl

theorem txWriteSymbol_keepsConfig (tx : TxUnit) : KeepsTxConfig tx (txWriteSymbol tx).2 := by
  refine ⟨?_, rfl, rfl, rfl, rfl, rfl, rfl, rfl, rfl⟩
  rw [txWriteSymbol_state]
  split
  · simp
  · exact stateOf_ne_unconfigured _ _ _

/-- What a command can make of a configured TXU: nothing, new properties, a new frame, or the frame's next symbol written. -/
theorem txNext_cases (ready : tx.state ≠ .unconfigured) (i : Instr) :
    txNext i tx = tx ∨ (∃ p, i = .txprops (.fits p) ∧ txSetProps p tx = some (txNext i tx)) ∨
      (∃ user payload, txNext i tx = txAssemble tx user payload) ∨ txNext i tx = (txWriteSymbol tx).2 := by
  match i with
  | .txcfg (.fits c) => left; rw [txNext, txConfigure_of_configured ready]; rfl
  | .txprops (.fits p) =>
    rw [txNext, if_neg ready]
    cases done : txSetProps p tx with
    | some tx' => exact .inr (.inl ⟨p, rfl, done⟩)
    | none => exact .inl rfl
  | .assemble (.fits a) =>
    rw [txNext]; split
    · exact .inr (.inr (.inl ⟨_, _, rfl⟩))
    · exact .inl rfl
  | .wrsym (.fits _) =>
    rw [txNext]; split
    · exact .inl rfl
    · exact .inr (.inr (.inr rfl))
  | .txcfg (.misfit _) | .txprops (.misfit _) | .assemble (.misfit _) | .wrsym (.misfit _) | .rxcfg _ | .execute _ | .rxreset _
  | .rxsetcb _ | .rdcsr _ | .defalloc _ | .allocchk _ => exact .inl rfl

theorem txNext_keepsConfig (ready : tx.state ≠ .unconfigured) (i : Instr) : KeepsTxConfig tx (txNext i tx) := by
  rcases txNext_cases ready i with same | ⟨p, -, props⟩ | ⟨user, payload, frame⟩ | symbol
  · rw [same]; exact keepsTxConfig_refl ready
  · exact txSetProps_keepsConfig ready props
  · rw [frame]; exact txAssemble_keepsConfig _ _ _
  · rw [symbol]; exact txWriteSymbol_keepsConfig _

/-- Only `TXPROPS` replaces the properties of a configured TXU. -/
theorem txNext_keepsProps (ready : tx.state ≠ .unconfigured) {i : Instr} (notProps : opcodeOf i ≠ 0x02#8) :
    KeepsProps tx (txNext i tx) := by
  rcases txNext_cases ready i with same | ⟨p, rfl, -⟩ | ⟨user, payload, frame⟩ | symbol
  · rw [same]; exact ⟨rfl, rfl, rfl, rfl⟩
  · exact absurd rfl notProps
  · rw [frame]; exact ⟨rfl, rfl, rfl, rfl⟩
  · rw [symbol]; exact ⟨rfl, rfl, rfl, rfl⟩

end

/-- The RXU stays configured, and its configuration registers and derived constants stay (R25, R26), the event mask apart. -/
structure KeepsRxConfig (rx rx' : RxUnit) : Prop where
  ready : rx'.state ≠ .unconfigured
  config : SameRxConfig rx' rx

section

variable {rx : RxUnit}

theorem keepsRxConfig_refl (ready : rx.state ≠ .unconfigured) : KeepsRxConfig rx rx := ⟨ready, .refl rx⟩

/-- The samples of an `EXECUTE`, whatever the window (R222). -/
theorem rxRun_keepsConfig (ready : rx.state ≠ .unconfigured) (xs : List Cpx) :
    KeepsRxConfig rx (rxRun rx xs) ∧ (rxRun rx xs).evmask = rx.evmask := by
  induction xs generalizing rx with
  | nil => exact ⟨keepsRxConfig_refl ready, rfl⟩
  | cons x xs ih =>
    have sample := rxStep_keeps ready x
    obtain ⟨⟨stays, config⟩, mask⟩ := ih (sample.ready ready)
    exact ⟨⟨stays, config.trans sample.config⟩, mask.trans sample.mask⟩

/-- What a command can make of a configured RXU: nothing, the samples of an `EXECUTE`, the initial state, or a new event mask. -/
theorem rxNext_cases (ready : rx.state ≠ .unconfigured) (i : Instr) :
    rxNext i rx = rx ∨ (∃ xs, rxNext i rx = rxRun rx xs) ∨ rxNext i rx = initialRx rx ∨
      ∃ mask, i = .rxsetcb (.fits mask) ∧ rxNext i rx = { rx with evmask := mask } := by
  match i with
  | .rxcfg (.fits c) => left; rw [rxNext, rxConfigure_of_configured ready]; rfl
  | .execute (.fits xs) => exact .inr (.inl ⟨_, if_neg ready⟩)
  | .rxreset (.fits _) => exact .inr (.inr (.inl (if_neg ready)))
  | .rxsetcb (.fits mask) => exact .inr (.inr (.inr ⟨mask, rfl, if_neg ready⟩))
  | .rxcfg (.misfit _) | .execute (.misfit _) | .rxreset (.misfit _) | .rxsetcb (.misfit _) | .txcfg _ | .txprops _ | .assemble _
  | .wrsym _ | .rdcsr _ | .defalloc _ | .allocchk _ => exact .inl rfl

theorem rxNext_keepsConfig (ready : rx.state ≠ .unconfigured) (i : Instr) : KeepsRxConfig rx (rxNext i rx) := by
  rcases rxNext_cases ready i with same | ⟨xs, run⟩ | initial | ⟨mask, -, masked⟩
  · rw [same]; exact keepsRxConfig_refl ready
  · rw [run]; exact (rxRun_keepsConfig ready xs).1
  · rw [initial]; exact ⟨by simp, .refl rx⟩
  · rw [masked]; exact ⟨ready, .refl rx⟩

/-- Only `RXSETCB` changes the event mask of a configured RXU. -/
theorem rxNext_keepsMask (ready : rx.state ≠ .unconfigured) {i : Instr} (notSetCb : opcodeOf i ≠ 0x14#8) :
    (rxNext i rx).evmask = rx.evmask := by
  rcases rxNext_cases ready i with same | ⟨xs, run⟩ | initial | ⟨mask, rfl, -⟩
  · rw [same]
  · rw [run]; exact (rxRun_keepsConfig ready xs).2
  · rw [initial, initialRx_evmask]
  · exact absurd rfl notSetCb

end

/-- Settles O57, by cases over the commands and, for the samples of an `EXECUTE`, by induction on them. -/
theorem configurationIsImmutable : Obligations.ConfigurationIsImmutable := by
  intro i s t h
  obtain ⟨-, tx, rx⟩ := exec_next h
  rw [tx, rx]
  refine ⟨fun ready => ?tx, fun ready => ?rx⟩
  case tx =>
    have kept := txNext_keepsConfig ready i
    exact ⟨kept.ready, kept.m, kept.cpLen, kept.taperLen, kept.table, kept.hdrMod, kept.hUser, kept.maxPaySyms, kept.derived,
      fun notProps => have props := txNext_keepsProps ready notProps; ⟨props.check, props.fec0, props.fec1, props.mod⟩⟩
  case rx =>
    have kept := rxNext_keepsConfig ready i
    exact ⟨kept.ready, kept.config, rxNext_keepsMask ready⟩

end Sys2Proof.Machine

/-! SUPPORT. Byte strings in words (R62): the lanes of one word, then the words of a string. -/

namespace Sys2Proof.Machine

/-! ### One word -/

/-- Lane `k` of a packed word is byte `k`; a lane that no byte uses is 0. -/
theorem packWord_lane (bs : List Byte) {k : Nat} (h : k < 4) : (packWord bs).extractLsb' (8 * k) 8 = bs.getD k 0#8 := by
  induction bs generalizing k with
  | nil => simp [packWord]
  | cons b bs ih =>
    have step : packWord (b :: bs) = (packWord bs <<< 8) ||| b.setWidth 32 := rfl
    cases k with
    | zero =>
      rw [step, List.getD_cons_zero]
      ext j hj
      have inWord : j < 32 := by omega
      simp [hj, inWord]
    | succ k =>
      rw [List.getD_cons_succ, ← ih (by omega), step]
      ext j hj
      have inWord : 8 * (k + 1) + j < 32 := by omega
      have above : ¬ 8 * (k + 1) + j < 8 := by omega
      have lane : 8 * (k + 1) + j - 8 = 8 * k + j := by omega
      simp [inWord, above, lane, BitVec.getLsbD_of_ge b _ (Nat.le_of_not_lt above), ← BitVec.getLsbD_eq_getElem]

theorem bytesOfWord_length (w : Word) : (bytesOfWord w).length = 4 := by simp [bytesOfWord]

theorem bytesOfWord_getElem? (w : Word) {k : Nat} (h : k < 4) : (bytesOfWord w)[k]? = some (w.extractLsb' (8 * k) 8) := by
  simp [bytesOfWord, List.getElem?_range h]

/-! ### The words of a string -/

/-- Byte `i` of a string travels in lane `i mod 4` of word `i / 4`; behind the string the lanes of its last word are 0. -/
theorem packBytes_lane (bs : List Byte) {i : Nat} (h : i < 4 * ceilDiv bs.length 4) :
    ((packBytes bs).getD (i / 4) 0#32).extractLsb' (8 * (i % 4)) 8 = bs.getD i 0#8 := by
  have word : (packBytes bs).getD (i / 4) 0#32 = packWord ((bs.drop (i / 4 * 4)).take 4) := by
    rw [packBytes, List.getD_eq_getElem?_getD, List.getElem?_map, chunks_getElem? _ _ _ _ (by omega)]
    rfl
  have inWord : i % 4 < 4 := Nat.mod_lt _ (by decide)
  rw [word, packWord_lane _ inWord, List.getD_eq_getElem?_getD, List.getElem?_take_of_lt inWord, List.getElem?_drop,
    Nat.div_add_mod', List.getD_eq_getElem?_getD]

/-- Groups of one width, joined: entry `k` of group `i`. -/
theorem flatMap_getElem? {α β : Type} {f : α → List β} {n : Nat} (width : ∀ a, (f a).length = n) (as : List α) {i k : Nat}
    (h : k < n) : (as.flatMap f)[i * n + k]? = as[i]?.bind fun a => (f a)[k]? := by
  induction as generalizing i with
  | nil => simp
  | cons a as ih =>
    rw [List.flatMap_cons]
    cases i with
    | zero =>
      rw [Nat.zero_mul, Nat.zero_add, List.getElem?_append_left (by rw [width]; exact h)]
      rfl
    | succ i =>
      have skip : (i + 1) * n + k = n + (i * n + k) := by ring
      rw [skip, List.getElem?_append_right (by rw [width]; omega), width, Nat.add_sub_cancel_left, ih, List.getElem?_cons_succ]

/-- Lane `i mod 4` of word `i / 4` is byte `i` of the words; behind the last word both read 0. -/
theorem byteLanes_getD (ws : List Word) (i : Nat) :
    (ws.flatMap bytesOfWord).getD i 0#8 = (ws.getD (i / 4) 0#32).extractLsb' (8 * (i % 4)) 8 := by
  have inWord : i % 4 < 4 := Nat.mod_lt _ (by decide)
  have lane := flatMap_getElem? bytesOfWord_length ws (i := i / 4) inWord
  rw [Nat.div_add_mod'] at lane
  rw [List.getD_eq_getElem?_getD, List.getD_eq_getElem?_getD, lane]
  cases ws[i / 4]? with
  | none => simp
  | some w => simp [bytesOfWord_getElem? w inWord]

theorem unpackBytes_getD {n i : Nat} (ws : List Word) (h : i < n) :
    (unpackBytes n ws).getD i 0#8 = (ws.getD (i / 4) 0#32).extractLsb' (8 * (i % 4)) 8 := by
  rw [← byteLanes_getD, unpackBytes, List.getD_eq_getElem?_getD, List.getElem?_take_of_lt h, List.getD_eq_getElem?_getD]

theorem unpackBytes_length_of_le {n : Nat} {ws : List Word} (h : n ≤ 4 * ws.length) : (unpackBytes n ws).length = n := by
  have lanes : (ws.flatMap bytesOfWord).length = ws.length * 4 := by simp [List.length_flatMap, bytesOfWord_length]
  rw [unpackBytes, List.length_take, lanes]
  omega

/-- R62: a string comes back from its words. -/
theorem unpackBytes_packBytes (bs : List Byte) : unpackBytes bs.length (packBytes bs) = bs := by
  have length : (unpackBytes bs.length (packBytes bs)).length = bs.length := unpackBytes_length (packBytes_length bs)
  refine List.ext_getElem length fun i hi hi' => ?_
  have room : bs.length ≤ ceilDiv bs.length 4 * 4 := le_ceilDiv_mul _ (by decide)
  have same := (unpackBytes_getD (packBytes bs) hi').trans (packBytes_lane bs (by omega))
  rwa [List.getD_eq_getElem _ _ hi, List.getD_eq_getElem _ _ hi'] at same

/-- Settles O6: the lanes of a string's words, and the lanes that reading takes. -/
theorem bytesTravelFourToAWord : Obligations.BytesTravelFourToAWord := by
  refine ⟨fun bs => ?_, fun ws n h => ⟨unpackBytes_length_of_le h, fun i hi => unpackBytes_getD ws hi⟩⟩
  have room : bs.length ≤ ceilDiv bs.length 4 * 4 := le_ceilDiv_mul _ (by decide)
  refine ⟨packBytes_length bs, fun i hi => packBytes_lane bs (by omega), fun i behind inWords => ?unused, unpackBytes_packBytes bs⟩
  case unused => rw [packBytes_lane bs inWords, List.getD_eq_default _ _ behind]

end Sys2Proof.Machine

/-! SUPPORT. Numbers in words (R63): the units of a binary32 word, the fields of a number of units, and the word of a number. -/

namespace Sys2Proof.Machine

/-! ### The fields of a word -/

/-- The fields of a word of R63: sign, exponent, fraction. -/
theorem word_eq_fields (w : Word) : BitVec.ofBool w.msb ++ (w.extractLsb' 23 8 ++ w.extractLsb' 0 23) = w := by
  have sign : BitVec.ofBool w.msb = w.extractLsb' 31 1 := by
    ext j hj
    obtain rfl : j = 0 := by omega
    simp [BitVec.msb_eq_getLsbD_last]
  have low : w.extractLsb' 23 8 ++ w.extractLsb' 0 23 = w.extractLsb' 0 31 := BitVec.extractLsb'_append_extractLsb'_eq_extractLsb' rfl
  have all : w.extractLsb' 31 1 ++ w.extractLsb' 0 31 = w.extractLsb' 0 32 := BitVec.extractLsb'_append_extractLsb'_eq_extractLsb' rfl
  rw [sign, low, all, BitVec.extractLsb'_eq_self]

/-- R63: a subnormal word's magnitude is its fraction. -/
theorem magnitudeUnits_subnormal {w : Word} (h : w.extractLsb' 23 8 = 0#8) : magnitudeUnits w = (w.extractLsb' 0 23).toNat := by
  rw [magnitudeUnits, h]; rfl

/-- R63: a normal word's magnitude has the hidden bit, moved by its exponent. -/
theorem magnitudeUnits_normal {w : Word} (h : w.extractLsb' 23 8 ≠ 0#8) :
    magnitudeUnits w = (2 ^ 23 + (w.extractLsb' 0 23).toNat) * 2 ^ ((w.extractLsb' 23 8).toNat - 1) :=
  if_neg fun zero => h (BitVec.eq_of_toNat_eq zero)

theorem fieldsOfUnits_subnormal {u : Nat} (h : u < 2 ^ 23) : fieldsOfUnits u = some (0#8 ++ BitVec.ofNat 23 u) := by
  rw [fieldsOfUnits, if_pos h]
  congr 1
  have exponent : (0#8).toNat <<< 23 = 0 := rfl
  apply BitVec.eq_of_toNat_eq
  rw [BitVec.toNat_append, exponent, Nat.zero_or, BitVec.toNat_ofNat, BitVec.toNat_ofNat, Nat.mod_eq_of_lt h,
    Nat.mod_eq_of_lt (h.trans (by decide))]

theorem log2_normal {f k : Nat} (hf : f < 2 ^ 23) : Nat.log2 ((2 ^ 23 + f) * 2 ^ k) = 23 + k := by
  rw [Nat.log2_eq_log_two]
  refine Nat.log_eq_of_pow_le_of_lt_pow ?_ ?_
  · rw [pow_add]
    exact Nat.mul_le_mul_right _ (Nat.le_add_right _ _)
  · rw [Nat.add_right_comm, pow_add]
    exact Nat.mul_lt_mul_of_pos_right (by omega) (by positivity)

theorem fieldsOfUnits_normal {f k : Nat} (hf : f < 2 ^ 23) (hk : k + 1 ≤ 254) :
    fieldsOfUnits ((2 ^ 23 + f) * 2 ^ k) = some (BitVec.ofNat 8 (k + 1) ++ BitVec.ofNat 23 f) := by
  have large : ¬ (2 ^ 23 + f) * 2 ^ k < 2 ^ 23 := 
    Nat.not_lt.2 ((Nat.le_add_right _ _).trans (Nat.le_mul_of_pos_right _ (by positivity)))
  have exponent : Nat.log2 ((2 ^ 23 + f) * 2 ^ k) - 23 = k := by rw [log2_normal hf]; omega
  rw [fieldsOfUnits, if_neg large]
  simp only [exponent]
  rw [if_pos ⟨Nat.mul_mod_left _ _, hk⟩, Nat.mul_div_cancel _ (by positivity), Nat.add_sub_cancel_left]

/-- The fields of a finite word are found again from its magnitude. -/
theorem fieldsOfUnits_magnitudeUnits {w : Word} (finite : w.extractLsb' 23 8 ≠ 255#8) :
    fieldsOfUnits (magnitudeUnits w) = some (w.extractLsb' 23 8 ++ w.extractLsb' 0 23) := by
  have fraction : (w.extractLsb' 0 23).toNat < 2 ^ 23 := BitVec.isLt _
  by_cases zero : w.extractLsb' 23 8 = 0#8
  · rw [magnitudeUnits_subnormal zero, fieldsOfUnits_subnormal fraction, BitVec.ofNat_toNat, BitVec.setWidth_eq, zero]
  · have positive : 1 ≤ (w.extractLsb' 23 8).toNat := by bv_omega
    have bounded : (w.extractLsb' 23 8).toNat - 1 + 1 ≤ 254 := by bv_omega
    rw [magnitudeUnits_normal zero, fieldsOfUnits_normal fraction bounded, Nat.sub_add_cancel positive, BitVec.ofNat_toNat,
      BitVec.ofNat_toNat, BitVec.setWidth_eq, BitVec.setWidth_eq]

/-- Of the words whose sign bit is set only the negative zero has no magnitude. -/
theorem magnitudeUnits_pos {w : Word} (negative : w.msb = true) (notZero : w ≠ 0x80000000#32) : 0 < magnitudeUnits w := by
  by_cases zero : w.extractLsb' 23 8 = 0#8
  · rw [magnitudeUnits_subnormal zero, Nat.pos_iff_ne_zero]
    intro none
    have fraction : w.extractLsb' 0 23 = 0#23 := BitVec.eq_of_toNat_eq none
    refine notZero ?_
    rw [← word_eq_fields w, negative, zero, fraction]
    decide
  · rw [magnitudeUnits_normal zero]; positivity

/-! ### The number of a word -/

/-- R63: a whole number of units of `2 ^ -149` has a divisor of `2 ^ 149` as denominator, and the units are found again. -/
theorem units_of_quotient {q : Num} {z : Int} (hq : q = z / 2 ^ 149) :
    2 ^ 149 % q.den = 0 ∧ q.num.natAbs * (2 ^ 149 / q.den) = z.natAbs := by
  have divides : q.den ∣ 2 ^ 149 := by
    have quotient := Rat.den_dvd z (2 ^ 149)
    rw [Rat.divInt_eq_div] at quotient
    rw [hq]
    exact_mod_cast quotient
  obtain ⟨k, hk⟩ := divides
  have scaled : q.num * (k : Int) = z := by
    have power : (2 ^ 149 : Num) = q.den * k := by exact_mod_cast hk
    have lowest : (q.num : Num) = q.den * q := (Rat.den_mul_eq_num q).symm
    have units : (z : Num) = q * 2 ^ 149 := by rw [hq, div_mul_cancel₀ _ (by positivity)]
    have product : (q.num : Num) * k = z := by rw [units, power, lowest]; ring
    exact_mod_cast product
  rw [← scaled, Int.natAbs_mul, Int.natAbs_natCast, hk, Nat.mul_mod_right, Nat.mul_div_cancel_left _ q.den_pos]
  exact ⟨rfl, rfl⟩

/-- The magnitude of a word with its sign, in units of `2 ^ -149`. -/
def signedUnits (w : Word) : Int := if w.msb then -(magnitudeUnits w : Int) else magnitudeUnits w

theorem natAbs_signedUnits (w : Word) : (signedUnits w).natAbs = magnitudeUnits w := by
  unfold signedUnits; split <;> simp

theorem decide_signedUnits_neg {w : Word} (notZero : w ≠ 0x80000000#32) : decide (signedUnits w < 0) = w.msb := by
  cases negative : w.msb with
  | true => simp [signedUnits, negative, magnitudeUnits_pos negative notZero]
  | false => simp [signedUnits, negative]

theorem numOfWord_eq {w : Word} (finite : w.extractLsb' 23 8 ≠ 255#8) : numOfWord w = (signedUnits w : Num) / 2 ^ 149 := by
  rw [numOfWord, if_neg finite, signedUnits]
  simp only
  split <;> push_cast <;> ring

theorem wordOfNum_of_units {z : Int} {f : BitVec 31} (h : fieldsOfUnits z.natAbs = some f) :
    wordOfNum ((z : Num) / 2 ^ 149) = BitVec.ofBool (decide (z < 0)) ++ f := by
  obtain ⟨divides, units⟩ := units_of_quotient (z := z) rfl
  have sign : ((z : Num) / 2 ^ 149 < 0) ↔ z < 0 := by
    rw [div_lt_iff₀ (by positivity)]; simp
  rw [wordOfNum, if_pos divides, units, h]
  simp only [sign]

/-- R63: a finite word but the negative zero comes back from its number. -/
theorem wordOfNum_numOfWord {w : Word} (finite : w.extractLsb' 23 8 ≠ 255#8) (notZero : w ≠ 0x80000000#32) :
    wordOfNum (numOfWord w) = w := by
  have fields : fieldsOfUnits (signedUnits w).natAbs = some (w.extractLsb' 23 8 ++ w.extractLsb' 0 23) := by
    rw [natAbs_signedUnits, fieldsOfUnits_magnitudeUnits finite]
  rw [numOfWord_eq finite, wordOfNum_of_units fields, decide_signedUnits_neg notZero, word_eq_fields]

/-- Settles O7: sign, exponent and fraction are found again from the signed units; both zeros are the number 0 (log 9). -/
theorem numberWordsRoundTrip : Obligations.NumberWordsRoundTrip :=
  ⟨fun _ => wordOfNum_numOfWord, by decide +kernel, wordOfNum_zero⟩

end Sys2Proof.Machine

/-! SUPPORT. The fields of operand words (30_encoding.md R95 to R103): what reading finds of what was written, and that writing what
was read gives the word back. Then the words of an event record (R94). -/

namespace Sys2Proof.Machine

/-! ### Words cut into fields -/

/-- Two fields side by side are one field. -/
theorem append_adjacent {n lo mid hi : Nat} (w : BitVec n) :
    w.extractLsb' (lo + mid) hi ++ w.extractLsb' lo mid = w.extractLsb' lo (hi + mid) :=
  BitVec.extractLsb'_append_extractLsb'_eq_extractLsb' rfl

theorem word_eq_halves (w : Word) : w.extractLsb' 16 16 ++ w.extractLsb' 0 16 = w :=
  (append_adjacent (lo := 0) (mid := 16) w).trans BitVec.extractLsb'_eq_self

theorem word_eq_half_bytes (w : Word) : w.extractLsb' 16 16 ++ w.extractLsb' 8 8 ++ w.extractLsb' 0 8 = w := by
  have upper : w.extractLsb' 16 16 ++ w.extractLsb' 8 8 = w.extractLsb' 8 24 := append_adjacent (lo := 8) (mid := 8) w
  have whole : w.extractLsb' 8 24 ++ w.extractLsb' 0 8 = w.extractLsb' 0 32 := append_adjacent (lo := 0) (mid := 8) w
  rw [upper, whole, BitVec.extractLsb'_eq_self]

theorem word_eq_bytes (w : Word) :
    w.extractLsb' 24 8 ++ w.extractLsb' 16 8 ++ w.extractLsb' 8 8 ++ w.extractLsb' 0 8 = w := by
  have high : w.extractLsb' 24 8 ++ w.extractLsb' 16 8 = w.extractLsb' 16 16 := append_adjacent (lo := 16) (mid := 8) w
  rw [high, word_eq_half_bytes]

theorem zeroHalf_append_bytes {w : Word} (zero : w.extractLsb' 16 16 = 0#16) :
    0#16 ++ w.extractLsb' 8 8 ++ w.extractLsb' 0 8 = w := by
  rw [← zero, word_eq_half_bytes]

/-- A word that is 0 above its `n` lowest bits is those bits. -/
theorem setWidth_extract {w : Word} {n k : Nat} (width : n + k = 32) (zero : w.extractLsb' n k = 0#k) :
    (w.extractLsb' 0 n).setWidth 32 = w := by
  ext j hj
  rcases lt_or_ge j n with low | high
  · simp [low, BitVec.getLsbD_eq_getElem hj]
  · have bit : (w.extractLsb' n k).getLsbD (j - n) = false := by rw [zero, BitVec.getLsbD_zero]
    have inField : j - n < k := by omega
    have place : n + (j - n) = j := by omega
    rw [BitVec.getLsbD_extractLsb', place, BitVec.getLsbD_eq_getElem hj] at bit
    simpa [Nat.not_lt.2 high, inField] using bit.symm

/-! ### The properties word (R97) -/

theorem decodeProps_encodeProps (p : PropsOps) : decodeProps (encodeProps p) = p := by
  simp only [decodeProps, encodeProps, append_field0, append_field1, append_field2, append_above3]

theorem encodeProps_decodeProps (w : Word) : encodeProps (decodeProps w) = w := word_eq_bytes w

/-! ### Tables (R95 (e)) -/

/-- Fields of one width, the first lowest: reading field `k` finds it; a field that nothing was written to is 0. -/
theorem foldr_fields_extract {n : Nat} (fs : List (BitVec n)) {k : Nat} (h : n * (k + 1) ≤ 32) :
    (fs.foldr (fun f (w : Word) => (w <<< n) ||| f.setWidth 32) 0#32).extractLsb' (n * k) n = fs.getD k 0#n := by
  induction fs generalizing k with
  | nil => simp
  | cons f fs ih =>
    rw [Nat.mul_succ] at h
    rw [List.foldr_cons]
    ext j hj
    cases k with
    | zero =>
      have inWord : j < 32 := by omega
      simp [hj, inWord]
    | succ k =>
      rw [Nat.mul_succ] at h
      rw [List.getD_cons_succ, ← ih (k := k) (by rw [Nat.mul_succ]; omega)]
      have inWord : n * (k + 1) + j < 32 := by rw [Nat.mul_succ]; omega
      have above : n ≤ n * (k + 1) + j := by rw [Nat.mul_succ]; omega
      have field : n * (k + 1) + j - n = n * k + j := by rw [Nat.mul_succ]; omega
      simp [inWord, Nat.not_lt.2 above, field, BitVec.getLsbD_of_ge f _ above, ← BitVec.getLsbD_eq_getElem]

theorem packTagWord_field (ts : List TagCode) {k : Nat} (h : k < 16) :
    (packTagWord ts).extractLsb' (2 * k) 2 = ts.getD k 0#2 :=
  foldr_fields_extract ts (by omega)

/-- Entry `k` of a table travels in field `k mod 16` of word `k / 16`. -/
theorem packTable_field (ts : List TagCode) {k : Nat} (h : k < ts.length) :
    ((packTable ts).getD (k / 16) 0#32).extractLsb' (2 * (k % 16)) 2 = ts.getD k 0#2 := by
  have room : ts.length ≤ ceilDiv ts.length 16 * 16 := le_ceilDiv_mul _ (by decide)
  have word : (packTable ts).getD (k / 16) 0#32 = packTagWord ((ts.drop (k / 16 * 16)).take 16) := by
    rw [packTable, List.getD_eq_getElem?_getD, List.getElem?_map, chunks_getElem? _ _ _ _ (by omega)]
    rfl
  have inWord : k % 16 < 16 := Nat.mod_lt _ (by decide)
  rw [word, packTagWord_field _ inWord, List.getD_eq_getElem?_getD, List.getElem?_take_of_lt inWord, List.getElem?_drop,
    Nat.div_add_mod', List.getD_eq_getElem?_getD]

theorem unpackTable_packTable (ts : List TagCode) : unpackTable ts.length (packTable ts) = ts := by
  have length : (unpackTable ts.length (packTable ts)).length = ts.length := unpackTable_length (packTable_length ts)
  refine List.ext_getElem length fun k hk hk' => ?_
  have same := (unpackTable_getD (packTable ts) hk').trans (packTable_field ts hk')
  rwa [List.getD_eq_getElem _ _ hk, List.getD_eq_getElem _ _ hk'] at same

theorem packTable_unpackTable_length {n : Nat} {tab : List Word} (count : tab.length = tableWordCount n) :
    (packTable (unpackTable n tab)).length = tab.length := by
  rw [packTable_length, unpackTable_length count, count, tableWordCount]

/-- A table read from words and written again has the same tag in each of its fields. -/
theorem packTable_unpackTable_field {n k : Nat} {tab : List Word} (count : tab.length = tableWordCount n) (h : k < n) :
    ((packTable (unpackTable n tab)).getD (k / 16) 0#32).extractLsb' (2 * (k % 16)) 2 =
      (tab.getD (k / 16) 0#32).extractLsb' (2 * (k % 16)) 2 := by
  rw [packTable_field _ (by rwa [unpackTable_length count]), unpackTable_getD tab h]

/-- The word `L` before a table that has `L` entries. -/
theorem ofNat_unpackTable_length {w : Word} {tab : List Word} (count : tab.length = tableWordCount w.toNat) :
    BitVec.ofNat 32 (unpackTable w.toNat tab).length = w := by
  rw [unpackTable_length count, BitVec.ofNat_toNat, BitVec.setWidth_eq]

/-- A count whose words a command can carry is the value of its word. -/
theorem toNat_ofNat_of_tableWordCount_lt {n : Nat} (h : tableWordCount n < 2 ^ 24) : (BitVec.ofNat 32 n).toNat = n := by
  have room : n ≤ tableWordCount n * 16 := le_ceilDiv_mul n (by decide)
  rw [BitVec.toNat_ofNat, Nat.mod_eq_of_lt (by omega)]

theorem packTable_length_of_entries {ts : List TagCode} (entries : (BitVec.ofNat 32 ts.length).toNat = ts.length) :
    (packTable ts).length = tableWordCount (BitVec.ofNat 32 ts.length).toNat := by
  rw [packTable_length, entries, tableWordCount]

theorem packTable_length_add (n : Nat) (ts : List TagCode) : (packTable ts).length + n = n + tableWordCount ts.length := by
  rw [packTable_length, tableWordCount, Nat.add_comm]

/-! ### Samples (R95 (c)) and CSR numbers (R35) -/

theorem pairSamples_flatMap (xs : List SampleWords) : pairSamples (xs.flatMap fun x => [x.re, x.im]) = xs := by
  induction xs with
  | nil => rfl
  | cons x xs ih => simp [pairSamples, ih]

theorem flatMap_pairSamples {n : Nat} {ws : List Word} (even : ws.length = 2 * n) :
    (pairSamples ws).flatMap (fun x => [x.re, x.im]) = ws := by
  induction n generalizing ws with
  | zero => rw [List.length_eq_zero_iff.1 even]; rfl
  | succ n ih =>
    match ws, even with
    | re :: im :: ws, even =>
      simp only [List.length_cons] at even
      simp [pairSamples, ih (ws := ws) (by omega)]

theorem csrNumber_of_csrOfNumber {w : Word} {c : Csr} (h : csrOfNumber w = some c) : csrNumber c = w := by
  simpa using List.find?_some h

/-! ### Event records (R94) -/

/-- Settles O51: the first word by the record's code and `valid`, the count from the words of the byte strings. -/
theorem eventRecordLayout : Obligations.EventRecordLayout := by
  refine ⟨fun user => ⟨?header, rfl⟩, fun valid plen user payload => ?frame⟩
  case header =>
    rw [← packBytes_length user]
    rfl
  case frame =>
    have count : (BitVec.ofNat 32 plen :: (packBytes user ++ packBytes payload)).length =
        1 + ceilDiv user.length 4 + ceilDiv payload.length 4 := by
      simp only [List.length_cons, List.length_append, packBytes_length]; omega
    have code : eventWord valid 2#8 = if valid then 0x00000102#32 else 0x00000002#32 := by cases valid <;> rfl
    rw [EventRecord.words, code, count]

end Sys2Proof.Machine

/-! SUPPORT. The opcode map (30_encoding.md R92) and the layouts (R96 to R106), command by command: reading the operand words a
well-formed command encodes to, and writing the operands that were read. -/

namespace Sys2Proof

open Machine

/-! ### The opcode map (R92, R107) -/

/-- The operands of the command are what its layout reads from the operand words. -/
def ReadsOperands (ops : List Word) : Instr → Prop
  | .txcfg o => o = decodeTxCfg ops
  | .txprops o => o = decodeTxProps ops
  | .assemble o => o = decodeAssemble ops
  | .wrsym o => o = decodeNone ops
  | .rxcfg o => o = decodeRxCfg ops
  | .execute o => o = decodeExecute ops
  | .rxreset o => o = decodeNone ops
  | .rxsetcb o => o = decodeRxSetCb ops
  | .rdcsr o => o = decodeRdCsr ops
  | .defalloc o => o = decodeDefAlloc ops
  | .allocchk o => o = decodeAllocChk ops

/-- A header word decodes to the command of its opcode, with the operands its layout reads, and to no other. -/
theorem decode_eq_command_iff (h : Word) (ops : List Word) (i : Instr) :
    decode h ops = .command i ↔ opcodeOf i = headerOpcode h ∧ ReadsOperands ops i := by
  constructor
  · intro decoded
    unfold decode at decoded
    split at decoded
    case h_12 => cases decoded
    all_goals
      rename_i opcode
      cases decoded
      exact ⟨opcode.symm, rfl⟩
  · rintro ⟨opcode, reads⟩
    unfold decode
    rw [← opcode]
    cases i <;> cases reads <;> rfl

theorem decode_eq_rejected_iff (h : Word) (ops : List Word) :
    decode h ops = .rejected (.reservedOpcode (headerOpcode h)) ↔
      headerOpcode h ∉ [0x01#8, 0x02#8, 0x03#8, 0x04#8, 0x11#8, 0x12#8, 0x13#8, 0x14#8, 0x20#8, 0x21#8, 0x22#8] := by
  unfold decode
  split
  case h_12 => simp_all
  all_goals
    rename_i opcode
    simp [opcode]

/-! ### Taking a command off the stream (R91) -/

theorem operandsOf_length : ∀ i : Instr, (operandsOf i).length = operandWords i
  | .txcfg (.fits c) => packTable_length_add 6 c.table
  | .rxcfg (.fits c) => packTable_length_add 9 c.table
  | .allocchk (.fits a) => packTable_length_add 2 a.table
  | .assemble (.fits _) => Nat.add_comm _ 1
  | .execute (.fits xs) => (congrArg (· + 1) (samplesWords_length xs)).trans (Nat.add_comm _ 1)
  | .txprops (.fits _) | .wrsym (.fits _) | .rxreset (.fits _) | .rxsetcb (.fits _) | .rdcsr (.fits _) | .defalloc (.fits _) => rfl
  | .txcfg (.misfit _) | .txprops (.misfit _) | .assemble (.misfit _) | .wrsym (.misfit _) | .rxcfg (.misfit _)
  | .execute (.misfit _) | .rxreset (.misfit _) | .rxsetcb (.misfit _) | .rdcsr (.misfit _) | .defalloc (.misfit _)
  | .allocchk (.misfit _) => rfl

theorem splitWords_append (ws rest : List Word) : splitWords ws.length (ws ++ rest) = some (ws, rest) := by
  induction ws with
  | nil => rfl
  | cons w ws ih => rw [List.length_cons, List.cons_append, splitWords, ih]

theorem takeCommand_append {h : Word} {ops : List Word} (rest : List Word) (count : headerCount h = ops.length) :
    takeCommand (h :: (ops ++ rest)) = some (h, ops, rest) := by
  rw [takeCommand, count, splitWords_append]

theorem takeCommand_encode {i : Instr} (rest : List Word) (fits : operandWords i < 2 ^ 24) :
    takeCommand (encode i ++ rest) = some (headerWord (opcodeOf i) (operandWords i), operandsOf i, rest) :=
  takeCommand_append rest (by rw [headerCount_headerWord _ fits, operandsOf_length])

/-! ### Reading what was written -/

theorem decodeTxCfg_operandsOf {c : TxCfgOps} (entries : (BitVec.ofNat 32 c.table.length).toNat = c.table.length) :
    decodeTxCfg (operandsOf (.txcfg (.fits c))) = .fits c := by
  have zero3 : (0#16 ++ c.hUser ++ c.hdrMod : Word).extractLsb' 16 16 = 0#16 := append_above2 _ _ _
  refine (if_pos ⟨extract_setWidth_above c.m, zero3, packTable_length_of_entries entries⟩).trans ?_
  rw [entries, unpackTable_packTable, decodeProps_encodeProps, extract_setWidth _ (by decide), append_field0, append_field1,
    BitVec.extractLsb'_append_eq_right, BitVec.extractLsb'_append_eq_left]

theorem decodeRxCfg_operandsOf {c : RxCfgOps} (entries : (BitVec.ofNat 32 c.table.length).toNat = c.table.length) :
    decodeRxCfg (operandsOf (.rxcfg (.fits c))) = .fits c := by
  refine (if_pos ⟨extract_setWidth_above c.m, packTable_length_of_entries entries⟩).trans ?_
  rw [entries, unpackTable_packTable, extract_setWidth _ (by decide), append_field0, append_field1, append_field2, append_above3,
    BitVec.extractLsb'_append_eq_right, BitVec.extractLsb'_append_eq_left]

theorem decodeAllocChk_operandsOf {a : AllocChkOps} (entries : (BitVec.ofNat 32 a.table.length).toNat = a.table.length) :
    decodeAllocChk (operandsOf (.allocchk (.fits a))) = .fits a := by
  refine (if_pos (packTable_length_of_entries entries)).trans ?_
  rw [entries, unpackTable_packTable]

theorem decodeTxProps_operandsOf (p : PropsOps) : decodeTxProps (operandsOf (.txprops (.fits p))) = .fits p :=
  congrArg _ (decodeProps_encodeProps p)

theorem decodeExecute_operandsOf {xs : List SampleWords} (fits : 2 * xs.length < 2 ^ 32) :
    decodeExecute (operandsOf (.execute (.fits xs))) = .fits xs := by
  have samples : (xs.flatMap fun x => [x.re, x.im]).length = 2 * (BitVec.ofNat 32 xs.length).toNat := by
    rw [samplesWords_length, BitVec.toNat_ofNat, Nat.mod_eq_of_lt (by omega)]
  refine (if_pos samples).trans ?_
  rw [pairSamples_flatMap]

theorem decodeRxSetCb_operandsOf (mask : BitVec 2) : decodeRxSetCb (operandsOf (.rxsetcb (.fits mask))) = .fits mask := by
  refine (if_pos (extract_setWidth_above mask)).trans ?_
  rw [extract_setWidth _ (by decide)]

theorem decodeRdCsr_operandsOf (c : Csr) : decodeRdCsr (operandsOf (.rdcsr (.fits c))) = .fits c := by cases c <;> rfl

/-- The words a well-formed command encodes to are read as its operands. -/
theorem readsOperands_operandsOf : ∀ {i : Instr}, operandsFit i = true → operandWords i < 2 ^ 24 → ReadsOperands (operandsOf i) i
  | .txcfg (.fits _), _, count =>
    (decodeTxCfg_operandsOf (toNat_ofNat_of_tableWordCount_lt ((Nat.le_add_left _ _).trans_lt count))).symm
  | .txprops (.fits p), _, _ => (decodeTxProps_operandsOf p).symm
  | .assemble (.fits _), _, _ => rfl
  | .wrsym (.fits _), _, _ => rfl
  | .rxcfg (.fits _), _, count =>
    (decodeRxCfg_operandsOf (toNat_ofNat_of_tableWordCount_lt ((Nat.le_add_left _ _).trans_lt count))).symm
  | .execute (.fits _), _, count => (decodeExecute_operandsOf (by simp only [operandWords] at count; omega)).symm
  | .rxreset (.fits _), _, _ => rfl
  | .rxsetcb (.fits mask), _, _ => (decodeRxSetCb_operandsOf mask).symm
  | .rdcsr (.fits c), _, _ => (decodeRdCsr_operandsOf c).symm
  | .defalloc (.fits _), _, _ => rfl
  | .allocchk (.fits _), _, count =>
    (decodeAllocChk_operandsOf (toNat_ofNat_of_tableWordCount_lt ((Nat.le_add_left _ _).trans_lt count))).symm

/-- Settles O1: the header word counts the operand words, so the stream is cut behind them; each layout reads what it wrote. -/
theorem encodeThenDecodeGivesTheCommand : Obligations.EncodeThenDecodeGivesTheCommand := by
  intro i rest wellFormed
  simp only [WellFormed, countFits, Bool.and_eq_true, decide_eq_true_eq] at wellFormed
  obtain ⟨⟨fit, count⟩, -⟩ := wellFormed
  exact ⟨takeCommand_encode rest count,
    (decode_eq_command_iff _ _ _).2 ⟨(headerOpcode_headerWord _ _).symm, readsOperands_operandsOf fit count⟩⟩

/-! ### Writing what was read -/

/-- The opcodes of the commands that carry a table, with the words of each before the table (R96, R100, R106). -/
def tableOpcodes : List (Byte × Nat) := [(0x01#8, 6), (0x11#8, 9), (0x22#8, 2)]

/-- `ops` are `n` words and the words of a table, the last of the `n` being its `L`; `ws` are the same words and that table packed
again. -/
def RepacksTable (n : Nat) (ops ws : List Word) : Prop :=
  ∃ before count tab, ops = before ++ count :: tab ∧ before.length + 1 = n ∧ tab.length = tableWordCount count.toNat ∧
    ws = before ++ count :: packTable (unpackTable count.toNat tab)

theorem RepacksTable.length {n : Nat} {ops ws : List Word} (h : RepacksTable n ops ws) : ws.length = ops.length := by
  obtain ⟨before, count, tab, rfl, -, words, rfl⟩ := h
  simp only [List.length_append, List.length_cons, packTable_unpackTable_length words]

theorem RepacksTable.take {n : Nat} {ops ws : List Word} (h : RepacksTable n ops ws) : ws.take n = ops.take n := by
  obtain ⟨before, count, tab, rfl, rfl, -, rfl⟩ := h
  rw [List.take_length_add_append, List.take_length_add_append]
  rfl

/-- R95 (e): fields beyond `L` are ignored. -/
theorem RepacksTable.field {n k : Nat} {ops ws : List Word} (h : RepacksTable n ops ws) (entry : k < (ops.getD (n - 1) 0#32).toNat) :
    (ws.getD (n + k / 16) 0#32).extractLsb' (2 * (k % 16)) 2 = (ops.getD (n + k / 16) 0#32).extractLsb' (2 * (k % 16)) 2 := by
  obtain ⟨before, count, tab, rfl, rfl, words, rfl⟩ := h
  have inTable (tab : List Word) :
      (before ++ count :: tab).getD (before.length + 1 + k / 16) 0#32 = tab.getD (k / 16) 0#32 := by
    rw [List.getD_append_right _ _ _ _ (by omega), Nat.add_assoc, Nat.add_sub_cancel_left, Nat.add_comm 1, List.getD_cons_succ]
  have entry : k < count.toNat := by simpa [List.getD_append_right] using entry
  rw [inTable, inTable, packTable_unpackTable_field words entry]

/-- Operands are written as the words `ops`, or they are a table's and are written as `ops` with the table packed again. -/
def WritesBack (ops : List Word) (i : Instr) : Prop :=
  operandsOf i = ops ∨ operandsFit i = true ∧ ∃ n, (opcodeOf i, n) ∈ tableOpcodes ∧ RepacksTable n ops (operandsOf i)

theorem writesBack_txcfg (ops : List Word) : WritesBack ops (.txcfg (decodeTxCfg ops)) := by
  unfold decodeTxCfg
  split
  · split
    · rename_i w0 w1 w2 w3 w4 w5 tab shape
      obtain ⟨zero0, zero3, count⟩ := shape
      refine .inr ⟨rfl, 6, by simp [opcodeOf, tableOpcodes], [w0, w1, w2, w3, w4], w5, tab, rfl, rfl, count, ?_⟩
      simp only [operandsOf, encodeOperands, setWidth_extract rfl zero0, word_eq_halves, encodeProps_decodeProps,
        zeroHalf_append_bytes zero3, ofNat_unpackTable_length count, List.cons_append, List.nil_append]
    · exact .inl rfl
  · exact .inl rfl

theorem writesBack_rxcfg (ops : List Word) : WritesBack ops (.rxcfg (decodeRxCfg ops)) := by
  unfold decodeRxCfg
  split
  · split
    · rename_i w0 w1 w2 w3 w4 w5 w6 w7 w8 tab shape
      obtain ⟨zero, count⟩ := shape
      refine .inr ⟨rfl, 9, by simp [opcodeOf, tableOpcodes], [w0, w1, w2, w3, w4, w5, w6, w7], w8, tab, rfl, rfl, count, ?_⟩
      simp only [operandsOf, encodeOperands, setWidth_extract rfl zero, word_eq_halves, word_eq_bytes,
        ofNat_unpackTable_length count, List.cons_append, List.nil_append]
    · exact .inl rfl
  · exact .inl rfl

theorem writesBack_allocchk (ops : List Word) : WritesBack ops (.allocchk (decodeAllocChk ops)) := by
  unfold decodeAllocChk
  split
  · split
    · rename_i w0 w1 tab count
      refine .inr ⟨rfl, 2, by simp [opcodeOf, tableOpcodes], [w0], w1, tab, rfl, rfl, count, ?_⟩
      simp only [operandsOf, encodeOperands, ofNat_unpackTable_length count, List.cons_append, List.nil_append]
    · exact .inl rfl
  · exact .inl rfl

theorem operandsOf_decodeTxProps (ops : List Word) : operandsOf (.txprops (decodeTxProps ops)) = ops := by
  unfold decodeTxProps
  split
  · exact congrArg (fun w => [w]) (encodeProps_decodeProps _)
  · rfl

theorem operandsOf_decodeAssemble (ops : List Word) : operandsOf (.assemble (decodeAssemble ops)) = ops := by
  cases ops <;> rfl

theorem operandsOf_decodeExecute (ops : List Word) : operandsOf (.execute (decodeExecute ops)) = ops := by
  unfold decodeExecute
  split
  · split
    · rename_i w0 ws even
      have pairs := flatMap_pairSamples even
      have samples : 2 * (pairSamples ws).length = 2 * w0.toNat := by rw [← samplesWords_length, pairs, even]
      have count : BitVec.ofNat 32 (pairSamples ws).length = w0 := by
        rw [Nat.eq_of_mul_eq_mul_left (by decide) samples, BitVec.ofNat_toNat, BitVec.setWidth_eq]
      simp only [operandsOf, encodeOperands, pairs, count]
    · rfl
  · rfl

theorem operandsOf_decodeRxSetCb (ops : List Word) : operandsOf (.rxsetcb (decodeRxSetCb ops)) = ops := by
  unfold decodeRxSetCb
  split
  · split
    · exact congrArg (fun w => [w]) (setWidth_extract rfl ‹_›)
    · rfl
  · rfl

theorem operandsOf_decodeRdCsr (ops : List Word) : operandsOf (.rdcsr (decodeRdCsr ops)) = ops := by
  unfold decodeRdCsr
  split
  · split
    · exact congrArg (fun w => [w]) (csrNumber_of_csrOfNumber ‹_›)
    · rfl
  · rfl

theorem operandsOf_decodeDefAlloc (ops : List Word) : operandsOf (.defalloc (decodeDefAlloc ops)) = ops := by
  unfold decodeDefAlloc
  split <;> rfl

/-- The commands without operands, `WRSYM` and `RXRESET`. -/
theorem encodeOperands_decodeNone (ops : List Word) : encodeOperands (fun _ => []) (decodeNone ops) = ops := by
  cases ops <;> rfl

/-! ### Every command -/

theorem writesBack_of_readsOperands {ops : List Word} {i : Instr} (reads : ReadsOperands ops i) : WritesBack ops i := by
  cases i <;> cases reads
  case txcfg => exact writesBack_txcfg ops
  case txprops => exact .inl (operandsOf_decodeTxProps ops)
  case assemble => exact .inl (operandsOf_decodeAssemble ops)
  case wrsym => exact .inl (encodeOperands_decodeNone ops)
  case rxcfg => exact writesBack_rxcfg ops
  case execute => exact .inl (operandsOf_decodeExecute ops)
  case rxreset => exact .inl (encodeOperands_decodeNone ops)
  case rxsetcb => exact .inl (operandsOf_decodeRxSetCb ops)
  case rdcsr => exact .inl (operandsOf_decodeRdCsr ops)
  case defalloc => exact .inl (operandsOf_decodeDefAlloc ops)
  case allocchk => exact writesBack_allocchk ops

theorem tableOpcodes_unique {op : Byte} {n m : Nat} (hn : (op, n) ∈ tableOpcodes) (hm : (op, m) ∈ tableOpcodes) : n = m := by
  have unique : ∀ p ∈ tableOpcodes, ∀ q ∈ tableOpcodes, p.1 = q.1 → p.2 = q.2 := by decide
  exact unique _ hn _ hm rfl

/-- Settles O2: a decoded command's operands are written as the words they were read from, a table's as it is packed. -/
theorem decodingKeepsOpcodeAndWordCount : Obligations.DecodingKeepsOpcodeAndWordCount := by
  refine fun h ops => ⟨fun i decoded => ?_, decode_eq_rejected_iff h ops⟩
  obtain ⟨opcode, reads⟩ := (decode_eq_command_iff h ops i).1 decoded
  rw [← opcode, ← operandsOf_length]
  rcases writesBack_of_readsOperands reads with same | ⟨fit, n, table, repacked⟩
  · rw [same]
    exact ⟨rfl, rfl, fun _ => rfl, fun _ => rfl, fun _ _ _ => ⟨rfl, fun _ _ => rfl⟩⟩
  · refine ⟨rfl, repacked.length, fun misfit => ?_, fun plain => ?_, fun m table' _ => ?_⟩
    · rw [fit] at misfit; cases misfit
    · exact absurd (List.mem_map_of_mem (f := Prod.fst) table) plain
    · cases tableOpcodes_unique table table'
      exact ⟨repacked.take, fun k entry => repacked.field entry⟩

end Sys2Proof

/-! SUPPORT. The allocation table (40_allocation.md): the verdict of `validate`, the signed index and the lists in its order, the
default table bin by bin, and the answers of `DEFALLOC` and `ALLOCCHK`. -/

namespace Sys2Proof.Machine

/-! ### `validate` (R122) -/

theorem validate_cases (p : List TagCode) (m : Nat) : validate p m = .ok ∨ validate p m = .invalidAllocation := by
  unfold validate
  split
  · exact .inl rfl
  · exact .inr rfl

theorem validate_invalidAllocation_iff (p : List TagCode) (m : Nat) :
    validate p m = .invalidAllocation ↔ validate p m ≠ .ok := by
  rcases validate_cases p m with h | h <;> simp [h]

theorem countP_code_eq_zero_iff (c : TagCode) (p : List TagCode) : p.countP (· == c) = 0 ↔ c ∉ p := List.count_eq_zero

/-- Settles O10: the four reasons are the negation of the four conditions of `OK`. -/
theorem validateRejectsFourReasons : Obligations.ValidateRejectsFourReasons := by
  refine fun p m => ⟨?_, validate_cases p m⟩
  rw [validate_invalidAllocation_iff, Ne, validate_ok_iff, countP_code_eq_zero_iff, countP_code_eq_zero_iff]
  simp only [not_and_or, not_not, tagCode]

/-! ### The signed index (R15) -/

theorem sidx_of_lt {m k : Nat} (h : 2 * k < m) : sidx m k = k := if_pos h

theorem sidx_of_le {m k : Nat} (h : m ≤ 2 * k) : sidx m k = k - m := if_neg (Nat.not_lt.2 h)

/-- For an even `M` the signed index runs from `-M/2` to `M/2 - 1`. -/
theorem sidx_bounds {h k : Nat} (bin : k < 2 * h) : -(h : Int) ≤ sidx (2 * h) k ∧ sidx (2 * h) k ≤ h - 1 := by
  rcases Nat.lt_or_ge (2 * k) (2 * h) with low | high
  · rw [sidx_of_lt low]; omega
  · rw [sidx_of_le high]; omega

/-! ### Bins, tags and counts (R121) -/

theorem mem_binsOf (t : Tag) (p : List Tag) (k : Nat) : k ∈ binsOf t p ↔ k < p.length ∧ tagAt p k = t := by
  simp [binsOf]

theorem pairwise_binsOf (t : Tag) (p : List Tag) : (binsOf t p).Pairwise (· < ·) := List.pairwise_lt_range.filter _

theorem map_tagAt_range (p : List Tag) : (List.range p.length).map (tagAt p) = p :=
  List.ext_getElem (by simp) fun k _ hk => by simp [tagAt, hk]

theorem countP_ne_null (p : List Tag) : p.countP (· != .null) = countTag .pilot p + countTag .data p := by
  unfold countTag
  induction p with
  | nil => rfl
  | cons t p ih => cases t <;> simp [ih] <;> omega

theorem countTag_sum (p : List Tag) : countTag .null p + countTag .pilot p + countTag .data p = p.length := by
  have total := List.length_eq_countP_add_countP (l := p) (· == Tag.null)
  rw [Nat.add_assoc, ← countP_ne_null, countTag, total, Nat.add_left_cancel_iff]
  exact List.countP_congr fun t _ => by simp

/-! ### All bins in ascending signed index -/

theorem freqOrder_perm (m : Nat) : (freqOrder m).Perm (List.range m) := by
  have halves := List.filter_append_perm (fun k => decide (m ≤ 2 * k)) (List.range m)
  simpa only [freqOrder, ← decide_not, not_le] using halves

theorem mem_freqOrder (m k : Nat) : k ∈ freqOrder m ↔ k < m := (freqOrder_perm m).mem_iff.trans List.mem_range

/-- Each half ascends with `k`, and the first half is the negative one. -/
theorem pairwise_freqOrder (m : Nat) : (freqOrder m).Pairwise fun a b => sidx m a < sidx m b := by
  have ascending : (List.range m).Pairwise (· < ·) := List.pairwise_lt_range
  refine List.pairwise_append.2 ⟨?negative, ?others, ?across⟩
  case negative =>
    refine (ascending.filter _).imp_of_mem fun ha hb hab => ?_
    rw [sidx_of_le (of_decide_eq_true (List.mem_filter.1 ha).2), sidx_of_le (of_decide_eq_true (List.mem_filter.1 hb).2)]
    omega
  case others =>
    refine (ascending.filter _).imp_of_mem fun ha hb hab => ?_
    rw [sidx_of_lt (of_decide_eq_true (List.mem_filter.1 ha).2), sidx_of_lt (of_decide_eq_true (List.mem_filter.1 hb).2)]
    omega
  case across =>
    intro a ha b hb
    obtain ⟨bin, high⟩ := List.mem_filter.1 ha
    rw [sidx_of_le (of_decide_eq_true high), sidx_of_lt (of_decide_eq_true (List.mem_filter.1 hb).2)]
    have := List.mem_range.1 bin
    omega

theorem mem_nonNullFreq (p : List Tag) (k : Nat) : k ∈ nonNullFreq p ↔ k < p.length ∧ tagAt p k ≠ .null := by
  simp [nonNullFreq, mem_freqOrder]

theorem mem_pilotsFreq (p : List Tag) (k : Nat) : k ∈ pilotsFreq p ↔ k < p.length ∧ tagAt p k = .pilot := by
  simp [pilotsFreq, mem_freqOrder]

theorem nonNullFreq_length (p : List Tag) : (nonNullFreq p).length = countTag .pilot p + countTag .data p := calc
  (nonNullFreq p).length = (List.range p.length).countP ((· != .null) ∘ tagAt p) := by
    rw [nonNullFreq, ← List.countP_eq_length_filter, (freqOrder_perm p.length).countP_eq]; rfl
  _ = p.countP (· != .null) := by rw [← List.countP_map, map_tagAt_range]
  _ = countTag .pilot p + countTag .data p := countP_ne_null p

/-- Settles O11: the derived lists are filters of the bins in ascending `k` or in ascending signed index. -/
theorem derivedListsAreOrdered : Obligations.DerivedListsAreOrdered := by
  refine ⟨fun m k => ⟨sidx_of_lt, sidx_of_le⟩, fun h pos => ⟨?_, ?_, ?_, ?_, fun k bin => sidx_bounds bin⟩, fun p => ?_,
    by decide⟩
  · rw [sidx_of_lt (by omega)]; rfl
  · rw [sidx_of_lt (by omega)]; omega
  · rw [sidx_of_le le_rfl]; omega
  · rw [sidx_of_le (by omega)]; omega
  · exact ⟨countTag_sum p, fun t => ⟨pairwise_binsOf t p, mem_binsOf t p, binsOf_length t p⟩,
      (pairwise_freqOrder _).filter _, mem_nonNullFreq p, (pairwise_freqOrder _).filter _, mem_pilotsFreq p, nonNullFreq_length p⟩

/-! ### The default table (R123) -/

theorem one_le_half_pilotSpacing (m : Nat) : 1 ≤ pilotSpacing m / 2 := by unfold pilotSpacing; split <;> decide

theorem half_pilotSpacing (m : Nat) : pilotSpacing m / 2 = if m > 34 then 4 else 2 := by unfold pilotSpacing; split <;> rfl

/-- From `M = 8` on, at least the bins up to `P / 2` stand below the guard. -/
theorem half_pilotSpacing_inside {m : Nat} (least : 8 ≤ m) : pilotSpacing m / 2 + guardBins m + 1 ≤ m / 2 := by
  rw [half_pilotSpacing, guardBins]; split <;> omega

theorem latticeTag_one (m : Nat) : latticeTag m 1 = .data := by unfold latticeTag pilotSpacing; split <;> rfl

theorem latticeTag_half_pilotSpacing (m : Nat) : latticeTag m (pilotSpacing m / 2) = .pilot := by
  unfold latticeTag pilotSpacing; split <;> rfl

/-- The loop of `default_allocation(M)`, stopped after `i = n`. -/
def latticeLoop (m n : Nat) : List Tag :=
  (List.range' 1 n).foldl (fun p i => (p.set i (latticeTag m i)).set (m - i) (latticeTag m i)) (List.replicate m .null)

theorem defaultAllocation_eq_latticeLoop (m : Nat) : defaultAllocation m = latticeLoop m (m / 2 - guardBins m - 1) := rfl

theorem latticeLoop_zero (m : Nat) : latticeLoop m 0 = List.replicate m .null := rfl

theorem latticeLoop_succ (m n : Nat) :
    latticeLoop m (n + 1) = ((latticeLoop m n).set (n + 1) (latticeTag m (n + 1))).set (m - (n + 1)) (latticeTag m (n + 1)) := by
  rw [latticeLoop, List.range'_1_concat, List.foldl_append, Nat.add_comm 1 n]; rfl

theorem latticeLoop_length (m n : Nat) : (latticeLoop m n).length = m := by
  induction n with
  | zero => rw [latticeLoop_zero, List.length_replicate]
  | succ n ih => rw [latticeLoop_succ, List.length_set, List.length_set, ih]

theorem tagAt_set {p : List Tag} {k : Nat} (bin : k < p.length) (i : Nat) (t : Tag) :
    tagAt (p.set i t) k = if i = k then t else tagAt p k := by
  simp only [tagAt, List.getD_eq_getElem?_getD, List.getElem?_set]
  split
  · rename_i same
    rw [if_pos (same ▸ bin)]; rfl
  · rfl

/-- The `i` of R123 that reaches bin `k`, as `i` or as `M - i`. -/
def mirrorBin (m k : Nat) : Nat := if 2 * k < m then k else m - k

/-- One turn of the loop writes the two bins that `i` reaches. -/
theorem mirrorBin_eq_iff {m k i : Nat} (half : 2 * i < m) (bin : k < m) : mirrorBin m k = i ↔ m - i = k ∨ i = k := by
  unfold mirrorBin; split <;> omega

theorem mirrorBin_sub {m k : Nat} (bin : k < m) (pos : 1 ≤ k) : mirrorBin m (m - k) = mirrorBin m k := by
  unfold mirrorBin; split <;> split <;> omega

theorem tagAt_latticeLoop {m n k : Nat} (half : 2 * n < m) (bin : k < m) :
    tagAt (latticeLoop m n) k =
      if 1 ≤ mirrorBin m k ∧ mirrorBin m k ≤ n then latticeTag m (mirrorBin m k) else .null := by
  induction n with
  | zero => rw [latticeLoop_zero, tagAt, List.getD_replicate _ bin, if_neg (by omega)]
  | succ n ih =>
    rw [latticeLoop_succ, tagAt_set (by rwa [List.length_set, latticeLoop_length]), tagAt_set (by rwa [latticeLoop_length]),
      ← ite_or, ih (by omega)]
    have written := mirrorBin_eq_iff half bin
    by_cases now : mirrorBin m k = n + 1
    · rw [if_pos (written.1 now), if_pos (by omega), now]
    · rw [if_neg (mt written.2 now)]
      exact if_congr (by omega) rfl rfl

/-- R123: what the whole loop leaves, bin by bin. -/
theorem tagAt_defaultAllocation {m k : Nat} (least : 8 ≤ m) (bin : k < m) :
    tagAt (defaultAllocation m) k =
      if 1 ≤ mirrorBin m k ∧ mirrorBin m k + guardBins m + 1 ≤ m / 2 then latticeTag m (mirrorBin m k) else .null := by
  have guard : guardBins m + 1 ≤ m / 2 := by unfold guardBins; omega
  rw [defaultAllocation_eq_latticeLoop, tagAt_latticeLoop (by omega) bin]
  exact if_congr (by omega) rfl rfl

theorem defaultAllocation_length (m : Nat) : (defaultAllocation m).length = m := latticeLoop_length m _

/-- A bin up to the guard below the edge carries the lattice tag of its own number. -/
theorem latticeTag_mem_defaultAllocation {m i : Nat} (least : 8 ≤ m) (pos : 1 ≤ i) (inside : i + guardBins m + 1 ≤ m / 2) :
    latticeTag m i ∈ defaultAllocation m := by
  have own : mirrorBin m i = i := if_pos (by omega)
  have entry := tagAt_defaultAllocation least (k := i) (by omega)
  rw [own, if_pos ⟨pos, inside⟩] at entry
  have bin : i < (defaultAllocation m).length := by rw [defaultAllocation_length]; omega
  rw [← entry, tagAt, List.getD_eq_getElem _ _ bin]
  exact List.getElem_mem bin

/-- R127: bin 1 is `DATA`. -/
theorem data_mem_defaultAllocation {m : Nat} (least : 8 ≤ m) : .data ∈ defaultAllocation m := by
  have inside := half_pilotSpacing_inside least
  have first := one_le_half_pilotSpacing m
  exact latticeTag_one m ▸ latticeTag_mem_defaultAllocation least le_rfl (by omega)

/-- R127: bin `P / 2` is `PILOT`. -/
theorem pilot_mem_defaultAllocation {m : Nat} (least : 8 ≤ m) : .pilot ∈ defaultAllocation m :=
  latticeTag_half_pilotSpacing m ▸
    latticeTag_mem_defaultAllocation least (one_le_half_pilotSpacing m) (half_pilotSpacing_inside least)

theorem reserved_not_mem_map_tagCode (p : List Tag) : 3#2 ∉ p.map tagCode := by
  rw [List.mem_map]
  rintro ⟨t, -, code⟩
  cases t <;> exact absurd code (by decide)

/-- R127: the default table is valid. -/
theorem validate_defaultAllocation {m : Nat} (least : 8 ≤ m) : validate ((defaultAllocation m).map tagCode) m = .ok :=
  (validate_ok_iff _ _).2 ⟨by rw [List.length_map, defaultAllocation_length], reserved_not_mem_map_tagCode _,
    List.mem_map_of_mem (data_mem_defaultAllocation least), List.mem_map_of_mem (pilot_mem_defaultAllocation least)⟩

/-- Settles O12: the loop's invariant gives every bin, and each clause is read off the bins. -/
theorem defaultAllocationBinByBin : Obligations.DefaultAllocationBinByBin := by
  refine fun m least => ⟨defaultAllocation_length m, fun k bin => ?_, validate_defaultAllocation least, ?_, fun k first last => ?_⟩
  · rw [tagAt_defaultAllocation least bin, latticeTag, half_pilotSpacing]; rfl
  · have zero : mirrorBin m 0 = 0 := if_pos (by omega)
    rw [tagAt_defaultAllocation least (by omega), zero, if_neg (by omega)]
  · rw [tagAt_defaultAllocation least (by omega), tagAt_defaultAllocation least (k := k) (by omega),
      mirrorBin_sub (by omega) first]

/-! ### `DEFALLOC` (R124) -/

/-- R270: a step with a complete command on CMD is that command's meaning, in the state without its words. -/
theorem step_of_command {s : State} {h : Word} {ops rest : List Word} {i : Instr} (taken : takeCommand s.cmd = some (h, ops, rest))
    (decoded : decode h ops = .command i) : step s = exec i (s.setCmd rest) := by
  simp only [step, taken, decoded]

theorem exec_defalloc_of_legal {m : Word} (least : 8 ≤ m.toNat) (most : m.toNat ≤ 65535) (s : State) :
    exec (.defalloc (.fits m)) s = respond (packTable ((defaultAllocation m.toNat).map tagCode)) s :=
  if_neg (by omega)

theorem exec_defalloc_of_illegal {m : Word} (outside : m.toNat < 8 ∨ 65535 < m.toNat) (s : State) :
    exec (.defalloc (.fits m)) s = raise .invalidConfiguration s :=
  if_pos outside

theorem packTable_default_length (m : Nat) : (packTable ((defaultAllocation m).map tagCode)).length = ceilDiv m 16 := by
  rw [packTable_length, List.length_map, defaultAllocation_length]

/-- R110 (a): `table=default` has an expansion where `DEFALLOC` answers a table, and it is that table. -/
theorem defaultTableOperand_eq_some_iff (m : Nat) (p : List TagCode) :
    defaultTableOperand m = some p ↔ (8 ≤ m ∧ m ≤ 65535) ∧ (defaultAllocation m).map tagCode = p := by
  rw [defaultTableOperand]
  split
  · constructor
    · rintro ⟨⟩
    · rintro ⟨⟨_, _⟩, _⟩; omega
  · rw [Option.some.injEq]
    exact ⟨fun same => ⟨by omega, same⟩, And.right⟩

theorem decodeDefAlloc_fits_iff (ops : List Word) : (∃ m, decodeDefAlloc ops = .fits m) ↔ ops.length = 1 := by
  constructor
  · rintro ⟨m, fits⟩
    rw [← operandsOf_decodeDefAlloc ops, fits]; rfl
  · intro one
    obtain ⟨m, rfl⟩ := List.length_eq_one_iff.1 one
    exact ⟨m, rfl⟩

/-- Settles O13: `DEFALLOC` looks at its operand alone. -/
theorem defallocAnswersTheDefaultTable : Obligations.DefallocAnswersTheDefaultTable := by
  have answers (s : State) (m : Word) (least : 8 ≤ m.toNat) (most : m.toNat ≤ 65535) :
      exec (.defalloc (.fits m)) s = .next { s with
        rsp := s.rsp ++ statusWord .ok (ceilDiv m.toNat 16) :: packTable ((defaultAllocation m.toNat).map tagCode) } := by
    rw [exec_defalloc_of_legal least most, respond_eq, packTable_default_length]
  refine ⟨answers, fun s m p expands => ?_, fun s m outside => exec_defalloc_of_illegal outside s, fun s ws => rfl,
    fun ops => (decodeDefAlloc_fits_iff ops).symm, fun s cmd => ?_⟩
  · obtain ⟨⟨least, most⟩, rfl⟩ := (defaultTableOperand_eq_some_iff _ _).1 expands
    exact answers s m least most
  · have taken : takeCommand s.cmd = some (0x21000001#32, [8#32], []) := by rw [cmd]; rfl
    have words : statusWord .ok (ceilDiv (8#32).toNat 16) :: packTable ((defaultAllocation (8#32).toNat).map tagCode) =
        [0x00000100#32, 0x00009018#32] := by decide
    rw [step_of_command taken (i := .defalloc (.fits 8#32)) rfl, answers _ _ (by decide) (by decide), words]; rfl

/-! ### `ALLOCCHK` (R125) -/

theorem exec_allocchk_of_valid {a : AllocChkOps} (valid : validate a.table a.m.toNat = .ok) (s : State) :
    exec (.allocchk (.fits a)) s = respond [] s := by
  change execAllocchk _ s = _
  rw [execAllocchk, ifFits_fits, valid]

theorem exec_allocchk_of_invalid {a : AllocChkOps} (invalid : validate a.table a.m.toNat ≠ .ok) (s : State) :
    exec (.allocchk (.fits a)) s = raise .invalidAllocation s := by
  change execAllocchk _ s = _
  rw [execAllocchk, ifFits_fits, (validate_invalidAllocation_iff _ _).2 invalid]

theorem decodeAllocChk_fits_iff (m l : Word) (tab : List Word) :
    (∃ a, decodeAllocChk (m :: l :: tab) = .fits a) ↔ tab.length = tableWordCount l.toNat := by
  rw [decodeAllocChk]
  split
  next fits => exact ⟨fun _ => fits, fun _ => ⟨_, rfl⟩⟩
  next misfit => exact ⟨fun ⟨_, fits⟩ => (nomatch fits), fun fits => absurd fits misfit⟩

theorem validate_nil (m : Nat) : validate [] m = .invalidAllocation := by
  rw [validate_invalidAllocation_iff, Ne, validate_ok_iff]
  exact fun ⟨_, _, data, _⟩ => absurd data List.not_mem_nil

/-- Settles O14: `ALLOCCHK` answers what `validate` says of its operands alone. -/
theorem allocchkAnswersTheVerdict : Obligations.AllocchkAnswersTheVerdict := by
  refine ⟨fun s a valid => exec_allocchk_of_valid valid s, fun s a invalid => exec_allocchk_of_invalid invalid s, fun s ws => rfl,
    fun m l tab => (decodeAllocChk_fits_iff m l tab).symm, validate_nil, by decide, fun s cmd => ?_⟩
  have taken : takeCommand s.cmd = some (0x22000003#32, [8#32, 8#32, 0x00009018#32], []) := by rw [cmd]; rfl
  have valid : validate (unpackTable 8 [0x00009018#32]) 8 = .ok := by decide
  rw [step_of_command taken (i := .allocchk (.fits { m := 8#32, table := unpackTable 8 [0x00009018#32] })) rfl,
    exec_allocchk_of_valid valid]
  rfl

end Sys2Proof.Machine

/-! SUPPORT. Cuts of an assembled block (41_symbol_assembler.md R147, R149) and what `disassemble` makes of them (R150, R151). -/

namespace Sys2Proof

/-! ### Complex pairs -/

@[simp] theorem Cpx.mul_one (a : Cpx) : a.mul ⟨1, 0⟩ = a := by simp [Cpx.mul]

@[simp] theorem Cpx.scale_zero (r : Num) : Cpx.scale r Cpx.zero = Cpx.zero := by simp [Cpx.scale, Cpx.zero]

@[simp] theorem Cpx.zero_add (a : Cpx) : Cpx.zero.add a = a := by simp [Cpx.add, Cpx.zero]

@[simp] theorem Cpx.add_zero (a : Cpx) : a.add Cpx.zero = a := by simp [Cpx.add, Cpx.zero]

@[simp] theorem Cpx.sub_zero (a : Cpx) : a.sub Cpx.zero = a := by simp [Cpx.sub, Cpx.zero]

@[simp] theorem Cpx.zero_mul (a : Cpx) : Cpx.zero.mul a = Cpx.zero := by simp [Cpx.mul, Cpx.zero]

namespace Machine

/-! ### Entries of a list over a range -/

theorem getD_map_range {m i : Nat} (f : Nat → Cpx) (inside : i < m) : ((List.range m).map f).getD i Cpx.zero = f i := by
  simp [List.getD_eq_getElem?_getD, inside]

/-- A list of length `m` is the list of its entries. -/
theorem map_getD_range {m : Nat} {xs : List Cpx} (len : xs.length = m) :
    ((List.range m).map fun k => xs.getD k Cpx.zero) = xs := padTo_of_length len

/-! ### Cuts of a block (R149) -/

/-- R149 (c): the cut that begins after the cyclic extension is the body. -/
theorem asmBlock_cut_cpLen {m cp tl : Nat} (w : List Sys2Proof.Num) {x : List Cpx} (ovl : List Cpx) (prefixed : cp < m)
    (tapered : tl ≤ cp) (len : x.length = m) :
    ((List.range m).map fun n => (asmBlock m cp tl w x ovl).getD (cp + n) Cpx.zero) = x := by
  rw [asmBlock_cut w x ovl tapered le_rfl, Nat.add_sub_cancel' prefixed.le, rotate_self len]

/-- R149 (e) at `s = cp_len`: the forward transform of the body is the vector itself. -/
theorem dftFwd_cut_cpLen {m cp tl : Nat} {v : List Cpx} (w : List Sys2Proof.Num) (ovl : List Cpx) (prefixed : cp < m)
    (tapered : tl ≤ cp) (len : v.length = m) :
    dftFwd m ((List.range m).map fun n => (asmBlock m cp tl w (dftInv m v) ovl).getD (cp + n) Cpx.zero) = v := by
  rw [asmBlock_cut_cpLen w ovl prefixed tapered (dftInv_length m v), dftFwd_dftInv len]

/-! ### `disassemble` (R150) -/

/-- R150: the nearest integer, halves up, clamped to `[-cp_len, 0]`. -/
theorem timingShift_eq (cpLen : Nat) (tau : Sys2Proof.Num) : timingShift cpLen tau =
    if ⌊tau + 1 / 2⌋ < -(cpLen : Int) then -(cpLen : Int) else if 0 < ⌊tau + 1 / 2⌋ then 0 else ⌊tau + 1 / 2⌋ := by
  change min 0 (max (-(cpLen : Int)) ⌊tau + 1 / 2⌋) = _
  split_ifs <;> omega

/-- R150: the cut starts inside the cyclic extension. -/
theorem timingShift_bounds (cpLen : Nat) (tau : Sys2Proof.Num) :
    -(cpLen : Int) ≤ timingShift cpLen tau ∧ timingShift cpLen tau ≤ 0 := by
  unfold timingShift; omega

/-- R150: an integer estimate inside the cyclic extension is its own integer part. -/
theorem timingShift_of_int {cpLen : Nat} {t : Int} (least : -(cpLen : Int) ≤ t) (most : t ≤ 0) : timingShift cpLen t = t := by
  have nearest : ⌊(t : Sys2Proof.Num) + 1 / 2⌋ = t := by
    rw [Int.floor_intCast_add]; norm_num
  rw [timingShift_eq, nearest, if_neg (by omega), if_neg (by omega)]

/-- R150 with its angles in radians, the cut starting at `s = cp_len + ti`. -/
theorem disassemble_eq {rx : RxUnit} {s : Nat} (start : (s : Int) = rx.cpLen + timingShift rx.cpLen rx.tau) :
    disassemble rx = (List.range rx.m).map fun k : Nat =>
      ((dftFwd rx.m ((List.range rx.m).map fun n : Nat =>
        (rx.win.getD (s + n) Cpx.zero).mul (cis (-(rx.phi + rx.nu * ((s : Sys2Proof.Num) + n)))))).getD k Cpx.zero).mul
          (cis (2 * numPi * (sidx rx.m k : Sys2Proof.Num) * (rx.tau - (timingShift rx.cpLen rx.tau : Sys2Proof.Num)) / rx.m)) := by
  have slope (k : Nat) : cis (2 * numPi * (sidx rx.m k : Sys2Proof.Num) * (rx.tau - (timingShift rx.cpLen rx.tau : Sys2Proof.Num)) / rx.m) =
      cisTurn ((sidx rx.m k : Sys2Proof.Num) * (rx.tau - (timingShift rx.cpLen rx.tau : Sys2Proof.Num)) / rx.m) := by
    rw [mul_assoc (2 * numPi), mul_div_assoc, cis_turns]
  simp only [disassemble, ← start, Int.toNat_natCast, slope, Nat.cast_add]

/-- R151: with an integer timing estimate `t` inside the cyclic extension and no carrier estimates, the forward transform of the cut at
`cp_len + t` is all that is left. -/
theorem disassemble_of_int_timing {rx : RxUnit} {t : Int} {s : Nat} (nu : rx.nu = 0) (phi : rx.phi = 0) (tau : rx.tau = t)
    (start : (s : Int) = rx.cpLen + t) (most : t ≤ 0) :
    disassemble rx = dftFwd rx.m ((List.range rx.m).map fun n => rx.win.getD (s + n) Cpx.zero) := by
  have shift : timingShift rx.cpLen rx.tau = t := by rw [tau, timingShift_of_int (by omega) most]
  rw [disassemble_eq (by rw [shift, start]), shift, tau]
  simp only [nu, phi, zero_mul, add_zero, neg_zero, sub_self, mul_zero, zero_div, cis_zero, Cpx.mul_one]
  exact map_getD_range (dftFwd_length _ _)

/-- Settles O21: R150 for every window, and R151 by way of the cuts of an assembled block. -/
theorem disassembleInvertsAssemble : Obligations.DisassembleInvertsAssemble := by
  refine ⟨fun rx => ?_, fun tx rx v prefixed tapered sameM sameCp len nu phi win =>
    ⟨fun tau => ?_, fun t k most tau least late bin => ?_⟩⟩
  · intro nearest ti tf
    have shift : timingShift rx.cpLen rx.tau = ti := timingShift_eq rx.cpLen rx.tau
    obtain ⟨least, most⟩ := timingShift_bounds rx.cpLen rx.tau
    obtain ⟨s, start⟩ := Int.eq_ofNat_of_zero_le (a := rx.cpLen + ti) (by omega)
    refine ⟨s, start.symm, by omega, ?_⟩
    rw [disassemble_eq (s := s) (by rw [shift, start]), shift]
  · rw [disassemble_of_int_timing (t := 0) (s := rx.cpLen) nu phi (by simpa using tau) (by simp) le_rfl, win, sameM, sameCp]
    exact dftFwd_cut_cpLen _ _ prefixed tapered len
  · obtain ⟨s, start⟩ := Int.eq_ofNat_of_zero_le (a := (tx.cpLen : Int) + t) (by omega)
    have turns : ((s : Sys2Proof.Num) - tx.cpLen) = t := by
      rw [sub_eq_iff_eq_add']; exact_mod_cast start.symm
    rw [disassemble_of_int_timing (s := s) nu phi tau (by omega) late, win, sameM, ← turns]
    exact dftFwd_cut _ _ (by omega) prefixed (by omega) (by omega) bin len

end Machine
end Sys2Proof

/-! SUPPORT. The taper window (41_symbol_assembler.md R140): its weights rise from 0 to 1 and add up to 1 with their mirror images. -/

namespace Sys2Proof

/-- R14: a cosine is no greater than 1, the modulus of `cis` being 1. -/
theorem abs_cosTurn_le_one (t : Num) : |cosTurn t| ≤ 1 := by
  have unit := cisTurn_normSq t
  rw [← sq_le_one_iff_abs_le_one, cosTurn]
  rw [Cpx.normSq] at unit
  nlinarith [mul_self_nonneg (cisTurn t).im]

namespace Machine

/-- The angle of weight `i` of a taper of length `n`, in turns (R140). -/
def taperTurn (n i : Nat) : Sys2Proof.Num := ((i : Sys2Proof.Num) + 1 / 2) / (2 * n)

/-- R140: the window weight by weight. -/
theorem taperWindow_eq (n : Nat) : taperWindow n = (List.range n).map fun i => (1 - cosTurn (taperTurn n i)) / 2 := by
  simp [taperWindow, taperTurn, ← List.map_eq_flatMap]

@[simp] theorem taperWindow_length (n : Nat) : (taperWindow n).length = n := by simp [taperWindow_eq]

theorem taperWindow_getD {n i : Nat} (inside : i < n) : (taperWindow n).getD i 0 = (1 - cosTurn (taperTurn n i)) / 2 := by
  simp [taperWindow_eq, List.getD_eq_getElem?_getD, inside]

/-! ### The angles -/

/-- The mirror image of a weight stands at the complement of its angle to half a turn. -/
theorem taperTurn_mirror {n i : Nat} (inside : i < n) : taperTurn n (n - 1 - i) = 1 / 2 - taperTurn n i := by
  have pos : (n : Sys2Proof.Num) ≠ 0 := by exact_mod_cast (by omega : n ≠ 0)
  have index : ((n - 1 - i : Nat) : Sys2Proof.Num) = n - 1 - i := by
    rw [Nat.cast_sub (by omega), Nat.cast_sub (by omega), Nat.cast_one]
  unfold taperTurn
  rw [index]
  field_simp
  ring

theorem taperTurn_nonneg (n i : Nat) : 0 ≤ taperTurn n i := by unfold taperTurn; positivity

theorem taperTurn_le_half {n i : Nat} (inside : i < n) : taperTurn n i ≤ 1 / 2 := by
  linarith [taperTurn_mirror inside, taperTurn_nonneg n (n - 1 - i)]

theorem taperTurn_succ (n i : Nat) : taperTurn n (i + 1) = taperTurn n i + 1 / (2 * n) := by
  unfold taperTurn; push_cast; ring

/-- At a legal length the angles are far enough apart, and from 0, for their cosines to differ (log 2). -/
theorem taperStep_resolved {n : Nat} (pos : 0 < n) (legal : n ≤ 65533) :
    (1 : Sys2Proof.Num) / 2 ^ 79 ≤ 1 / (2 * n) ∧ ∀ i, (1 : Sys2Proof.Num) / 2 ^ 79 ≤ taperTurn n i := by
  have least : (1 : Sys2Proof.Num) ≤ n := by exact_mod_cast pos
  have most : (n : Sys2Proof.Num) ≤ 65533 := by exact_mod_cast legal
  refine ⟨one_div_le_one_div_of_le (by linarith) (by linarith), fun i => ?_⟩
  unfold taperTurn
  rw [div_le_div_iff₀ (by norm_num) (by linarith)]
  nlinarith [show (0 : Sys2Proof.Num) ≤ i from Nat.cast_nonneg i]

/-! ### The weights -/

theorem taperWindow_bounds {n i : Nat} (inside : i < n) : 0 ≤ (taperWindow n).getD i 0 ∧ (taperWindow n).getD i 0 ≤ 1 := by
  have unit := abs_le.1 (abs_cosTurn_le_one (taperTurn n i))
  rw [taperWindow_getD inside]
  constructor <;> linarith

/-- R140: a weight and its mirror image add up to 1. -/
theorem taperWindow_mirror {n i : Nat} (inside : i < n) :
    (taperWindow n).getD i 0 + (taperWindow n).getD (n - 1 - i) 0 = 1 := by
  rw [taperWindow_getD inside, taperWindow_getD (by omega), taperTurn_mirror inside,
    cosTurn_mirror (taperTurn_nonneg n i) (taperTurn_le_half inside)]
  ring

/-- R140, R14: a weight is the raised cosine within the digits that the model's cosine leaves out (log 2). -/
theorem taperWindow_close {n i : Nat} (inside : i < n) :
    |(((taperWindow n).getD i 0 : Sys2Proof.Num) : ℝ) - (1 - Real.cos (Real.pi * ((i : ℝ) + 1 / 2) / n)) / 2| ≤ 1 / 10 ^ 19 := by
  have close := cosTurn_close (taperTurn n i)
  have angle : 2 * Real.pi * ((taperTurn n i : Sys2Proof.Num) : ℝ) = Real.pi * ((i : ℝ) + 1 / 2) / n := by
    unfold taperTurn; push_cast; field_simp
  rw [angle, abs_le] at close
  rw [taperWindow_getD inside, abs_le]
  push_cast
  constructor <;> linarith [close.1, close.2]

theorem taperWindow_pos {n i : Nat} (inside : i < n) (legal : n ≤ 65533) : 0 < (taperWindow n).getD i 0 := by
  have falls := cosTurn_lt le_rfl (by simpa using (taperStep_resolved (by omega) legal).2 i) (taperTurn_le_half inside)
  have top := (abs_le.1 (abs_cosTurn_le_one 0)).2
  rw [taperWindow_getD inside]
  linarith

theorem taperWindow_lt_one {n i : Nat} (inside : i < n) (legal : n ≤ 65533) : (taperWindow n).getD i 0 < 1 := by
  linarith [taperWindow_mirror inside, taperWindow_pos (i := n - 1 - i) (by omega) legal]

theorem taperWindow_lt_succ {n i : Nat} (inside : i + 1 < n) (legal : n ≤ 65533) :
    (taperWindow n).getD i 0 < (taperWindow n).getD (i + 1) 0 := by
  have falls := cosTurn_lt (taperTurn_nonneg n i) (t' := taperTurn n (i + 1))
    (by rw [taperTurn_succ]; linarith [(taperStep_resolved (n := n) (by omega) legal).1]) (taperTurn_le_half inside)
  rw [taperWindow_getD (by omega), taperWindow_getD inside]
  linarith

/-- The only weight of a taper of length 1 is its own mirror image. -/
theorem taperWindow_one : taperWindow 1 = [1 / 2] := by
  obtain ⟨w, only⟩ := List.length_eq_one_iff.1 (taperWindow_length 1)
  have mirror := taperWindow_mirror (n := 1) (i := 0) one_pos
  rw [only] at mirror
  have doubled : w + w = 1 := mirror
  rw [only, show w = 1 / 2 by linarith]

/-- Settles O16. -/
theorem taperWeightsAreComplementary : Obligations.TaperWeightsAreComplementary := by
  refine ⟨rfl, taperWindow_one, fun n => ⟨taperWindow_length n, fun i inside => ?_⟩⟩
  obtain ⟨least, most⟩ := taperWindow_bounds inside
  exact ⟨least, most, taperWindow_mirror inside, taperWindow_close inside, fun legal =>
    ⟨taperWindow_pos inside legal, taperWindow_lt_one inside legal, fun next => taperWindow_lt_succ next legal⟩⟩

end Machine
end Sys2Proof

/-! SUPPORT. The block of `asm_time` sample by sample (41_symbol_assembler.md R147 to R149). -/

namespace Sys2Proof.Machine

/-! ### Samples of a block (R147) -/

section
variable {m cp tl i : Nat} (w : List Sys2Proof.Num) (x ovl : List Cpx)

theorem asmBlock_getD_clean (clean : tl ≤ i) (inside : i < m + cp) :
    (asmBlock m cp tl w x ovl).getD i Cpx.zero = x.getD ((m - cp + i) % m) Cpx.zero := by
  rw [asmBlock, getD_map_range _ inside, if_neg (by omega)]

theorem asmBlock_getD_extension (prefixed : cp < m) (clean : tl ≤ i) (inside : i < cp) :
    (asmBlock m cp tl w x ovl).getD i Cpx.zero = x.getD (m - cp + i) Cpx.zero := by
  rw [asmBlock_getD_clean w x ovl clean (by omega), Nat.mod_eq_of_lt (by omega)]

theorem asmBlock_getD_body (prefixed : cp < m) (tapered : tl ≤ cp) (inside : i < m) :
    (asmBlock m cp tl w x ovl).getD (cp + i) Cpx.zero = x.getD i Cpx.zero := by
  rw [asmBlock_getD_clean w x ovl (by omega) (by omega), show m - cp + (cp + i) = i + m by omega, Nat.add_mod_right,
    Nat.mod_eq_of_lt inside]

theorem asmBlock_getD_tapered (prefixed : cp < m) (tapered : tl ≤ cp) (inside : i < tl) :
    (asmBlock m cp tl w x ovl).getD i Cpx.zero =
      (Cpx.scale (w.getD i 0) (x.getD (m - cp + i) Cpx.zero)).add (ovl.getD i Cpx.zero) := by
  rw [asmBlock, getD_map_range _ (by omega), if_pos inside, Nat.mod_eq_of_lt (by omega)]

/-- R149 (d): without a taper the block is the plain extended symbol. -/
theorem asmBlock_zero_taper : asmBlock m cp 0 w x ovl = (List.range (m + cp)).map fun i => x.getD ((m - cp + i) % m) Cpx.zero := rfl

theorem asmOverlap_getD (inside : i < tl) :
    (asmOverlap tl w x).getD i Cpx.zero = Cpx.scale (w.getD (tl - 1 - i) 0) (x.getD i Cpx.zero) :=
  getD_map_range _ inside

end

/-- R149 (g): at the edge of a repeated symbol the weights of its end and of its beginning add up to 1. -/
theorem asmBlock_getD_repeated {m cp tl i : Nat} (x : List Cpx) (prefixed : cp < m) (tapered : tl ≤ cp) (inside : i < tl) :
    (asmBlock m cp tl (taperWindow tl) x (asmOverlap tl (taperWindow tl) x)).getD i Cpx.zero =
      (Cpx.scale ((taperWindow tl).getD i 0) (x.getD (m - cp + i) Cpx.zero)).add
        (Cpx.scale (1 - (taperWindow tl).getD i 0) (x.getD i Cpx.zero)) := by
  rw [asmBlock_getD_tapered _ _ _ prefixed tapered inside, asmOverlap_getD _ _ inside,
    eq_sub_of_add_eq' (taperWindow_mirror inside)]

/-- Settles O19: R149 (e) with its phases, then the other parts sample by sample. -/
theorem assembledBlockShape : Obligations.AssembledBlockShape := by
  constructor
  · intro m cp tl v ovl s k most prefixed clean late bin len
    refine ⟨dftFwd_cut _ _ (by omega) prefixed clean late bin len, ?_⟩
    rintro rfl
    exact dftFwd_cut_cpLen _ _ prefixed clean len
  · intro m cp tl x ovl prefixed tapered len
    refine ⟨asmBlock_length _ _ _ _ _ _, fun n inside => asmBlock_getD_body _ _ _ prefixed tapered inside,
      fun i clean inside => asmBlock_getD_extension _ _ _ prefixed clean inside, ?_, fun s n clean late inside => ?_,
      fun i inside => asmOverlap_getD _ _ inside, fun i inside => asmBlock_getD_repeated x prefixed tapered inside⟩
    · rintro rfl
      exact ⟨rfl, asmBlock_zero_taper _ _ _⟩
    · rw [asmBlock_getD_clean _ _ _ (by omega) (by omega), show m - cp + (s + n) = n + s + (m - cp) by omega]

/-! ### The tail block (R148) -/

/-- A block whose body is zero is the overlap buffer, padded. -/
theorem asmBlock_zeros {m cp tl : Nat} (w : List Sys2Proof.Num) {ovl : List Cpx} (fits : tl ≤ m + cp) (len : ovl.length = tl) :
    asmBlock m cp tl w (zeros m) ovl = ovl ++ zeros (m + cp - tl) := by
  refine List.ext_getElem (by simp; omega) fun i inside _ => ?_
  rw [← List.getD_eq_getElem (d := Cpx.zero), ← List.getD_eq_getElem (d := Cpx.zero), asmBlock,
    getD_map_range _ (by simpa using inside)]
  split
  next overlapped =>
    simp only [zeros_getD, Cpx.scale_zero, Cpx.zero_add]
    rw [List.getD_append _ _ _ _ (by omega)]
  next clean =>
    rw [zeros_getD, List.getD_append_right _ _ _ _ (by omega), zeros_getD]

theorem asmOverlap_zeros (m tl : Nat) (w : List Sys2Proof.Num) : asmOverlap tl w (zeros m) = zeros tl := by
  simp [asmOverlap, zeros]

/-- Settles O20: the zero vector has the zero body. -/
theorem tailFlushesTheOverlap : Obligations.TailFlushesTheOverlap := by
  intro tx prefixed tapered len
  have body : dftInv tx.m (zeros tx.m) = zeros tx.m := dftInv_zero tx.m
  simp only [asmTime, body]
  exact ⟨asmBlock_zeros _ (by omega) len, by rw [asmOverlap_zeros]⟩

end Sys2Proof.Machine

/-! SUPPORT. The vectors of the frequency domain bin by bin: the preambles (41_symbol_assembler.md R142, R143) and `fill` (R145, R146). -/

namespace Sys2Proof.Machine

@[simp] theorem tagAt_cons_zero (t : Tag) (ts : List Tag) : tagAt (t :: ts) 0 = t := rfl

@[simp] theorem tagAt_cons_succ (t : Tag) (ts : List Tag) (k : Nat) : tagAt (t :: ts) (k + 1) = tagAt ts k := by simp [tagAt]

@[simp] theorem countTag_nil (t : Tag) : countTag t [] = 0 := rfl

theorem countTag_cons_self (t : Tag) (ts : List Tag) : countTag t (t :: ts) = countTag t ts + 1 := by simp [countTag]

theorem countTag_cons_of_ne {t u : Tag} (other : u ≠ t) (ts : List Tag) : countTag t (u :: ts) = countTag t ts := by
  simp [countTag, other]

/-! ### The value drawn from the register (R145) -/

@[simp] theorem lfsrIter_zero (r : BitVec 16) : lfsrIter 0 r = r := rfl

theorem lfsrIter_succ (n : Nat) (r : BitVec 16) : lfsrIter (n + 1) r = lfsrIter n (lfsrStep r).2 := rfl

theorem lfsrSign_zero (r : BitVec 16) : lfsrSign 0 r = Cpx.ofNum (signOf (lfsrStep r).1) := rfl

theorem lfsrSign_succ (n : Nat) (r : BitVec 16) : lfsrSign (n + 1) r = lfsrSign n (lfsrStep r).2 := rfl

/-- R143: `1 - 2b` is `1` or `-1`. -/
theorem lfsrSign_mul_self (n : Nat) (r : BitVec 16) : (lfsrSign n r).mul (lfsrSign n r) = Cpx.ofNum 1 := by
  unfold lfsrSign
  cases (lfsrStep (lfsrIter n r)).1 <;> simp [signOf, Cpx.mul, Cpx.ofNum]

/-! ### `fill` (R146) -/

/-- R146: what stands in bin `k`. -/
def filledBin (p : List Tag) (d : List Cpx) (pl : BitVec 16) (k : Nat) : Cpx :=
  match tagAt p k with
  | .null => Cpx.zero
  | .pilot => lfsrSign (countTag .pilot (p.take k)) pl
  | .data => d.getD (countTag .data (p.take k)) Cpx.zero

section
variable (ts : List Tag) (d : List Cpx) (pl : BitVec 16) (k : Nat)

theorem filledBin_cons_null : filledBin (.null :: ts) d pl (k + 1) = filledBin ts d pl k := by
  simp [filledBin, countTag_cons_of_ne]

theorem filledBin_cons_pilot : filledBin (.pilot :: ts) d pl (k + 1) = filledBin ts d (lfsrStep pl).2 k := by
  simp [filledBin, countTag_cons_of_ne, countTag_cons_self, lfsrSign_succ]

theorem filledBin_cons_data : filledBin (.data :: ts) d pl (k + 1) = filledBin ts d.tail pl k := by
  simp [filledBin, countTag_cons_of_ne, countTag_cons_self, List.getD_eq_getElem?_getD]

end

theorem fill_getD (p : List Tag) (d : List Cpx) (pl : BitVec 16) {k : Nat} (bin : k < p.length) :
    (fill p d pl).1.getD k Cpx.zero = filledBin p d pl k := by
  induction p generalizing d pl k with
  | nil => cases bin
  | cons t ts ih =>
    cases k with
    | zero => cases t <;> cases d <;> rfl
    | succ k =>
      have inside : k < ts.length := by simpa using bin
      cases t with
      | null => rw [filledBin_cons_null, ← ih d pl inside]; rfl
      | pilot => rw [filledBin_cons_pilot, ← ih d _ inside]; rfl
      | data => rw [filledBin_cons_data, ← ih d.tail pl inside]; rfl

/-- R146: the register steps once per pilot bin. -/
theorem fill_register (p : List Tag) (d : List Cpx) (pl : BitVec 16) : (fill p d pl).2 = lfsrIter (countTag .pilot p) pl := by
  induction p generalizing d pl with
  | nil => rfl
  | cons t ts ih =>
    cases t with
    | null => rw [countTag_cons_of_ne (by decide), ← ih d]; rfl
    | pilot => rw [countTag_cons_self, lfsrIter_succ, ← ih d]; rfl
    | data => rw [countTag_cons_of_ne (by decide), ← ih d.tail]; rfl

/-- Settles O18. -/
theorem fillPlacesPilotsAndData : Obligations.FillPlacesPilotsAndData :=
  fun p d pl => ⟨fill_length p d pl, fill_register p d pl, fun _ bin => fill_getD p d pl bin⟩

/-! ### The preamble vectors (R142, R143) -/

/-- The register steps once per bin, kept or not. -/
theorem preambleFrom_getD (keep : Nat → Tag → Bool) (start : Nat) (r : BitVec 16) (p : List Tag) {k : Nat} (bin : k < p.length) :
    (preambleFrom keep start r p).getD k Cpx.zero = if keep (start + k) (tagAt p k) then lfsrSign k r else Cpx.zero := by
  induction p generalizing start r k with
  | nil => cases bin
  | cons t ts ih =>
    cases k with
    | zero => rfl
    | succ k =>
      rw [tagAt_cons_succ, lfsrSign_succ, show start + (k + 1) = start + 1 + k by omega, ← ih _ _ (by simpa using bin)]
      rfl

theorem shortPreamble_getD {p : List Tag} {k : Nat} (bin : k < p.length) :
    (shortPreamble p).getD k Cpx.zero = if tagAt p k ≠ .null ∧ k % 2 = 0 then lfsrSign k 0xACE1#16 else Cpx.zero := by
  rw [shortPreamble, preambleFrom_getD _ _ _ _ bin]
  simp [Config.seedShort]

theorem longPreamble_getD {p : List Tag} {k : Nat} (bin : k < p.length) :
    (longPreamble p).getD k Cpx.zero = if tagAt p k ≠ .null then lfsrSign k 0x3C5A#16 else Cpx.zero := by
  rw [longPreamble, preambleFrom_getD _ _ _ _ bin]
  simp [Config.seedLong]

/-- R142: the short preamble is 0 in every odd bin. -/
theorem shortPreamble_getD_odd (p : List Tag) (j : Nat) : (shortPreamble p).getD (2 * j + 1) Cpx.zero = Cpx.zero := by
  by_cases bin : 2 * j + 1 < p.length
  · rw [shortPreamble_getD bin, if_neg (by omega)]
  · exact List.getD_eq_default _ _ (by simpa using bin)

/-! ### The inverse transform of a vector without odd bins (R17, R142) -/

theorem unzipBins_snd_getD (xs : List Cpx) (j : Nat) : (unzipBins xs).2.getD j Cpx.zero = xs.getD (2 * j + 1) Cpx.zero := by
  induction xs using unzipBins.induct generalizing j with
  | case1 a b xs ih =>
    cases j with
    | zero => rfl
    | succ j => simpa [unzipBins, Nat.mul_add] using ih j
  | case2 xs short =>
    match xs, short with
    | [], _ => rfl
    | [a], _ => rfl
    | a :: b :: xs, short => exact absurd rfl (short a b xs)

theorem halvings_of_even {m : Nat} (pos : 0 < m) (even : m % 2 = 0) : halvings m m = halvings (m - 1) (m / 2) + 1 := by
  obtain ⟨n, rfl⟩ : ∃ n, m = n + 1 := ⟨m - 1, by omega⟩
  rw [halvings, if_pos ⟨by omega, even⟩, Nat.add_sub_cancel]

theorem invLevels_zeros (l m : Nat) (d : 2 ^ l ∣ m) : invLevels l m (zeros m) = zeros m := by
  have undone := invLevels_fwdLevels l m (zeros m) d (zeros_length m)
  rwa [zeros, fwdLevels_zero l m d] at undone

theorem zipWith_getD {f : Cpx → Cpx → Cpx} {xs ys : List Cpx} {i : Nat} (left : i < xs.length) (right : i < ys.length) :
    (List.zipWith f xs ys).getD i Cpx.zero = f (xs.getD i Cpx.zero) (ys.getD i Cpx.zero) :=
  Cpx.toComplex_injective (entry_zipWith left right)

/-- Without odd bins the two halves of the inverse transform, which differ in the sign of what the odd bins add, are equal. -/
theorem dftInv_getD_add_half {m k : Nat} {xs : List Cpx} (even : m % 2 = 0) (len : xs.length = m)
    (odd : ∀ j, xs.getD (2 * j + 1) Cpx.zero = Cpx.zero) (bin : k < m / 2) :
    (dftInv m xs).getD (k + m / 2) Cpx.zero = (dftInv m xs).getD k Cpx.zero := by
  obtain ⟨evens, odds⟩ := unzipBins_length (m / 2) xs (by omega)
  have noOdds : (unzipBins xs).2 = zeros (m / 2) := by
    refine List.ext_getElem (by simpa using odds) fun j inside _ => ?_
    rw [← List.getD_eq_getElem (d := Cpx.zero), ← List.getD_eq_getElem (d := Cpx.zero), unzipBins_snd_getD, odd, zeros_getD]
  have levels := halvings_of_even (by omega) even
  have divides : 2 ^ halvings (m - 1) (m / 2) ∣ m / 2 := (half_of_dvd (levels ▸ pow_halvings_dvd m m)).1
  have turned : List.zipWith (fun z w => z.mul w.conj) (zeros (m / 2)) (twiddles m) = zeros (m / 2) := by
    refine List.ext_getElem (by simp) fun j _ _ => by simp [zeros]
  have evenPart := invLevels_length _ _ _ divides evens
  rw [dftInv, padTo_of_length len, levels, invLevels, noOdds, invLevels_zeros _ _ divides, turned]
  set s := invLevels (halvings (m - 1) (m / 2)) (m / 2) (unzipBins xs).1
  rw [List.getD_append_right _ _ _ _ (by simp [evenPart]), List.getD_append _ _ _ _ (by simp [evenPart, bin])]
  rw [zipWith_getD (by simp [evenPart, bin]) (by simp [evenPart, bin]), zipWith_getD (by omega) (by simpa using bin),
    zeros_getD, zeros_getD, Cpx.add_zero, Cpx.sub_zero]
  simp [evenPart]

/-- Settles O17. -/
theorem preambleVectorsBinByBin : Obligations.PreambleVectorsBinByBin := by
  refine fun p => ⟨shortPreamble_length p, longPreamble_length p, fun k bin =>
    ⟨shortPreamble_getD bin, longPreamble_getD bin, fun carried => ?_, fun even half => ?_⟩⟩
  · rw [longPreamble_getD bin, if_pos carried, lfsrSign_mul_self]
  · exact dftInv_getD_add_half even (shortPreamble_length p) (shortPreamble_getD_odd p) half

end Sys2Proof.Machine

/-! SUPPORT. The shift register (41_symbol_assembler.md R141): one step bit by bit, the step as a linear map over GF(2), and its period.
The orbit of one state has 65535 states: 65535 steps lead it back, and no quotient of 65535 by one of its primes 3, 5, 17, 257 does.
So the orbit holds every non-zero state, and all of them have that period. -/

namespace Sys2Proof.Machine

/-- R141: the register shifts right, the xor of its taps coming in at the top. -/
theorem lfsrStep_getLsbD (s : BitVec 16) {i : Nat} (bit : i < 16) : (lfsrStep s).2.getLsbD i =
    if i = 15 then (s.getLsbD 0 ^^ s.getLsbD 2) ^^ (s.getLsbD 3 ^^ s.getLsbD 5) else s.getLsbD (i + 1) := by
  rw [lfsrStep]
  split
  next top => subst top; simp
  next below =>
    have low : i < 15 := by omega
    simp [low, Nat.add_comm 1 i]

/-! ### Linear maps over GF(2) -/

/-- The xor of the words that the bits of `s`, the lowest first, select. -/
def xorSelected : List (BitVec 16) → BitVec 16 → BitVec 16
  | [], _ => 0#16
  | w :: ws, s => (if s.getLsbD 0 then w else 0#16) ^^^ xorSelected ws (s >>> 1)

@[simp] theorem xorSelected_nil (s : BitVec 16) : xorSelected [] s = 0#16 := rfl

theorem xorSelected_cons_getLsbD (w : BitVec 16) (ws : List (BitVec 16)) (s : BitVec 16) (i : Nat) :
    (xorSelected (w :: ws) s).getLsbD i = ((s.getLsbD 0 && w.getLsbD i) ^^ (xorSelected ws (s >>> 1)).getLsbD i) := by
  rw [xorSelected, BitVec.getLsbD_xor]
  cases s.getLsbD 0 <;> simp

theorem xorSelected_xor (ws : List (BitVec 16)) (a b : BitVec 16) :
    xorSelected ws (a ^^^ b) = xorSelected ws a ^^^ xorSelected ws b := by
  induction ws generalizing a b with
  | nil => simp [xorSelected]
  | cons w ws ih =>
    have selected (c d : Bool) : (if c ^^ d then w else 0#16) = (if c then w else 0#16) ^^^ (if d then w else 0#16) := by
      cases c <;> cases d <;> simp
    rw [xorSelected, xorSelected, xorSelected, BitVec.ushiftRight_xor_distrib, ih, BitVec.getLsbD_xor, selected]
    ac_rfl

@[simp] theorem xorSelected_zero (ws : List (BitVec 16)) : xorSelected ws 0#16 = 0#16 := by
  have doubled := xorSelected_xor ws 0#16 0#16
  rwa [BitVec.xor_self, BitVec.xor_self] at doubled

/-- The words of a composition of two such maps. -/
theorem xorSelected_map (us ws : List (BitVec 16)) (s : BitVec 16) :
    xorSelected (us.map (xorSelected ws)) s = xorSelected ws (xorSelected us s) := by
  induction us generalizing s with
  | nil => simp [xorSelected]
  | cons u us ih =>
    rw [List.map_cons, xorSelected, xorSelected, xorSelected_xor, ih]
    split <;> simp

/-- Many applications of the map with the words `ws`, by repeated squaring. -/
def xorPower : Nat → List (BitVec 16) → Nat → BitVec 16 → BitVec 16
  | 0, _, _, s => s
  | b + 1, ws, n, s => xorPower b (ws.map (xorSelected ws)) (n / 2) (if n % 2 = 1 then xorSelected ws s else s)

theorem xorPower_eq_iterate (b : Nat) (ws : List (BitVec 16)) {n : Nat} (bits : n < 2 ^ b) (s : BitVec 16) :
    xorPower b ws n s = (xorSelected ws)^[n] s := by
  induction b generalizing ws n s with
  | zero => obtain rfl : n = 0 := by omega
            rfl
  | succ b ih =>
    have squared : xorSelected (ws.map (xorSelected ws)) = (xorSelected ws)^[2] := funext fun r => xorSelected_map ws ws r
    rw [xorPower, ih _ (by omega), squared, ← Function.iterate_mul]
    split
    next odd => rw [← Function.iterate_succ_apply, Nat.succ_eq_add_one, show 2 * (n / 2) + 1 = n by omega]
    next even => rw [show 2 * (n / 2) = n by omega]

/-! ### The register as a linear map -/

/-- One step of the register without its output. -/
def lfsrNext (s : BitVec 16) : BitVec 16 := (lfsrStep s).2

theorem lfsrIter_eq_iterate (n : Nat) (s : BitVec 16) : lfsrIter n s = lfsrNext^[n] s := by
  induction n generalizing s with
  | zero => rfl
  | succ n ih => rw [lfsrIter_succ, ih]; rfl

/-- What a step makes of the sixteen states with one bit. -/
def lfsrWords : List (BitVec 16) :=
  [0x8000#16, 0x0001#16, 0x8002#16, 0x8004#16, 0x0008#16, 0x8010#16, 0x0020#16, 0x0040#16,
   0x0080#16, 0x0100#16, 0x0200#16, 0x0400#16, 0x0800#16, 0x1000#16, 0x2000#16, 0x4000#16]

theorem lfsrNext_getLsbD (s : BitVec 16) {i : Nat} (bit : i < 16) : (lfsrNext s).getLsbD i =
    if i = 15 then (s.getLsbD 0 ^^ s.getLsbD 2) ^^ (s.getLsbD 3 ^^ s.getLsbD 5) else s.getLsbD (i + 1) := lfsrStep_getLsbD s bit

theorem lfsrNext_eq : lfsrNext = xorSelected lfsrWords := by
  funext s
  refine BitVec.eq_of_getLsbD_eq fun i bit => ?_
  rw [lfsrNext_getLsbD s bit, lfsrWords]
  simp only [xorSelected_cons_getLsbD, xorSelected_nil]
  interval_cases i <;> simp

/-- The register after `n < 65536` steps, by repeated squaring. -/
theorem lfsrNext_iterate {n : Nat} (small : n < 2 ^ 16) (s : BitVec 16) : lfsrNext^[n] s = xorPower 16 lfsrWords n s := by
  rw [xorPower_eq_iterate 16 lfsrWords small, lfsrNext_eq]

/-! ### The period (R141) -/

open Function

/-- A period that no quotient by a prime divisor shortens is the least one. -/
theorem minimalPeriod_eq_of_prime_quotients {α : Type} {f : α → α} {x : α} {n : Nat} (back : IsPeriodicPt f n x)
    (least : ∀ p, p.Prime → p ∣ n → ¬ IsPeriodicPt f (n / p) x) : minimalPeriod f x = n := by
  obtain ⟨c, hc⟩ := back.minimalPeriod_dvd
  by_contra shorter
  have prime : c.minFac.Prime := Nat.minFac_prime fun one => shorter (by rw [hc, one, mul_one])
  obtain ⟨e, he⟩ := Nat.minFac_dvd c
  have factored : n = c.minFac * (minimalPeriod f x * e) := by
    rw [mul_left_comm, ← he, ← hc]
  refine least c.minFac prime ⟨_, factored⟩ ?_
  rw [isPeriodicPt_iff_minimalPeriod_dvd, Nat.div_eq_of_eq_mul_right prime.pos factored]
  exact ⟨e, rfl⟩

theorem prime_dvd_65535 {p : Nat} (prime : p.Prime) (divides : p ∣ 65535) : p = 3 ∨ p = 5 ∨ p = 17 ∨ p = 257 := by
  rw [show 65535 = 3 * (5 * (17 * 257)) by norm_num, prime.dvd_mul, prime.dvd_mul, prime.dvd_mul] at divides
  simpa [Nat.prime_dvd_prime_iff_eq prime, show Nat.Prime 3 by norm_num, show Nat.Prime 5 by norm_num, show Nat.Prime 17 by norm_num,
    show Nat.Prime 257 by norm_num] using divides

/-- The orbit of the state 1 has 65535 states. -/
theorem minimalPeriod_lfsrNext_one : minimalPeriod lfsrNext 1#16 = 65535 := by
  have steps {n : Nat} (small : n < 2 ^ 16) : IsPeriodicPt lfsrNext n 1#16 ↔ xorPower 16 lfsrWords n 1#16 = 1#16 := by
    rw [← lfsrNext_iterate small]; rfl
  refine minimalPeriod_eq_of_prime_quotients ((steps (by norm_num)).2 (by decide +kernel)) fun p prime divides => ?_
  rw [steps ((Nat.div_le_self 65535 p).trans_lt (by norm_num))]
  obtain rfl | rfl | rfl | rfl := prime_dvd_65535 prime divides
  all_goals decide +kernel

theorem isFixedPt_lfsrNext_zero : IsFixedPt lfsrNext 0#16 := rfl

theorem one_mem_periodicPts_lfsrNext : 1#16 ∈ periodicPts lfsrNext :=
  minimalPeriod_pos_iff_mem_periodicPts.1 (by rw [minimalPeriod_lfsrNext_one]; norm_num)

/-- The zero state, which every step leaves as it is, is not in the orbit. -/
theorem iterate_lfsrNext_one_ne_zero (n : Nat) : lfsrNext^[n] 1#16 ≠ 0#16 := by
  intro zero
  have period := minimalPeriod_apply_iterate one_mem_periodicPts_lfsrNext n
  rw [zero, minimalPeriod_eq_one_iff_isFixedPt.2 isFixedPt_lfsrNext_zero, minimalPeriod_lfsrNext_one] at period
  omega

/-- The state that `n` steps lead to from the state 1, as a number. -/
def orbitNumber (n : Nat) : Nat := (lfsrNext^[n] 1#16).toNat

/-- The orbit of the state 1 holds every non-zero state, there being only 65535 of them. -/
theorem exists_iterate_lfsrNext_one {s : BitVec 16} (nonzero : s ≠ 0#16) : ∃ n, lfsrNext^[n] 1#16 = s := by
  have inside : (Finset.range 65535).image orbitNumber ⊆ Finset.Icc 1 65535 := by
    intro v visited
    obtain ⟨n, -, rfl⟩ := Finset.mem_image.1 visited
    have ne : orbitNumber n ≠ 0 := fun zero => iterate_lfsrNext_one_ne_zero n (BitVec.eq_of_toNat_eq zero)
    have lt : orbitNumber n < 2 ^ 16 := BitVec.isLt _
    exact Finset.mem_Icc.2 ⟨by omega, by omega⟩
  have distinct : Set.InjOn orbitNumber (Finset.range 65535) := by
    intro a ha b hb same
    refine iterate_injOn_Iio_minimalPeriod (f := lfsrNext) (x := 1#16) ?_ ?_ (BitVec.eq_of_toNat_eq same)
    · simpa [minimalPeriod_lfsrNext_one] using ha
    · simpa [minimalPeriod_lfsrNext_one] using hb
  have all : (Finset.range 65535).image orbitNumber = Finset.Icc 1 65535 :=
    Finset.eq_of_subset_of_card_le inside (by rw [Finset.card_image_of_injOn distinct, Nat.card_Icc, Finset.card_range])
  have ne : s.toNat ≠ 0 := fun zero => nonzero (BitVec.eq_of_toNat_eq zero)
  obtain ⟨n, -, visited⟩ := Finset.mem_image.1 (all ▸ Finset.mem_Icc.2 ⟨by omega, by omega⟩ : s.toNat ∈ _)
  exact ⟨n, BitVec.eq_of_toNat_eq visited⟩

/-- R141: the period of every non-zero state. -/
theorem minimalPeriod_lfsrNext {s : BitVec 16} (nonzero : s ≠ 0#16) : minimalPeriod lfsrNext s = 65535 := by
  obtain ⟨n, rfl⟩ := exists_iterate_lfsrNext_one nonzero
  rw [minimalPeriod_apply_iterate one_mem_periodicPts_lfsrNext, minimalPeriod_lfsrNext_one]

/-- R141: from a non-zero state the register never reaches zero. -/
theorem iterate_lfsrNext_ne_zero {s : BitVec 16} (nonzero : s ≠ 0#16) (n : Nat) : lfsrNext^[n] s ≠ 0#16 := by
  obtain ⟨j, rfl⟩ := exists_iterate_lfsrNext_one nonzero
  rw [← iterate_add_apply]
  exact iterate_lfsrNext_one_ne_zero _

/-- Settles O15. -/
theorem lfsrStepAndPeriod : Obligations.LfsrStepAndPeriod := by
  refine ⟨fun s => ⟨rfl, fun i below => ?_, ?_⟩, rfl, rfl, rfl, fun s nonzero => ?_, by decide, by decide⟩
  · rw [lfsrStep_getLsbD s (by omega), if_neg (by omega)]
  · rw [lfsrStep_getLsbD s (by omega), if_pos rfl]
  · simp only [lfsrIter_eq_iterate]
    have period := minimalPeriod_lfsrNext nonzero
    refine ⟨iterate_lfsrNext_ne_zero nonzero, ?_, fun n pos below => ?_⟩
    · rw [← period]; exact iterate_minimalPeriod
    · exact not_isPeriodicPt_of_pos_of_lt_minimalPeriod (by omega) (by omega)

end Sys2Proof.Machine

/-! SUPPORT. The tracker and the equaliser (42_pilot_tracker.md): what the register draws for each pilot bin (R171), the sums of the phase
trend (R172), the interpolated gains (R176), and from these the update (R173 to R176), the worked example (R181) and the noiseless
fixed point (R179). -/

namespace Sys2Proof

/-! ### Complex pairs -/

theorem Cpx.mul_assoc (a b c : Cpx) : (a.mul b).mul c = a.mul (b.mul c) :=
  Cpx.toComplex_injective (by simp only [toComplex_mul]; ring)

theorem Cpx.mul_ofNum (a : Cpx) (r : Num) : a.mul (Cpx.ofNum r) = Cpx.scale r a := by
  simp [Cpx.mul, Cpx.ofNum, Cpx.scale, mul_comm]

@[simp] theorem Cpx.conj_ofNum (r : Num) : (Cpx.ofNum r).conj = Cpx.ofNum r := by simp [Cpx.conj, Cpx.ofNum]

theorem Cpx.ofNum_mul_ofNum (r s : Num) : (Cpx.ofNum r).mul (Cpx.ofNum s) = Cpx.ofNum (r * s) := by simp [Cpx.mul, Cpx.ofNum]

@[simp] theorem Cpx.sub_self (a : Cpx) : a.sub a = Cpx.zero := by simp [Cpx.sub, Cpx.zero]

theorem Cpx.mul_conj_self (a : Cpx) : a.mul a.conj = Cpx.ofNum a.normSq := by
  simp [Cpx.mul, Cpx.conj, Cpx.ofNum, Cpx.normSq, mul_comm]

theorem Cpx.normSq_nonneg (a : Cpx) : 0 ≤ a.normSq := add_nonneg (mul_self_nonneg _) (mul_self_nonneg _)

/-- R177: division by a gain takes back the multiplication by it. -/
theorem Cpx.mul_div_cancel_left {h : Cpx} (ne : h ≠ Cpx.zero) (x : Cpx) : (h.mul x).div h = x :=
  Cpx.toComplex_injective (by
    rw [toComplex_div, toComplex_mul, mul_div_cancel_left₀ _ (mt toComplex_eq_zero.1 ne)])

/-- A sum of real numbers that are not negative has no angle (R14). -/
theorem arg_sum_eq_zero {zs : List Cpx} (real : ∀ z ∈ zs, ∃ r, 0 ≤ r ∧ z = Cpx.ofNum r) : arg (Cpx.sum zs) = 0 := by
  have total : ∃ r, 0 ≤ r ∧ Cpx.sum zs = Cpx.ofNum r := by
    induction zs with
    | nil => exact ⟨0, le_rfl, rfl⟩
    | cons z zs ih =>
      obtain ⟨⟨r, nonneg, rfl⟩, rest⟩ := List.forall_mem_cons.1 real
      obtain ⟨s, nonneg', e⟩ := ih rest
      exact ⟨r + s, add_nonneg nonneg nonneg', by rw [Cpx.sum, List.foldr_cons, ← Cpx.sum, e]; simp [Cpx.add, Cpx.ofNum]⟩
  obtain ⟨r, nonneg, e⟩ := total
  simp [e, arg, Cpx.ofNum, nonneg.not_gt]

namespace Machine

/-! ### Observations of the pilots (R171) -/

/-- R171: the observation of pilot bin `k` of a table: the register has stepped once for each pilot bin below `k`. -/
def pilotObs (z g : List Cpx) (p : List Tag) (pl : BitVec 16) (k : Nat) : PilotObs :=
  let seen := (z.getD k Cpx.zero).mul (lfsrSign (countTag .pilot (p.take k)) pl)
  ⟨k, seen, seen.mul (g.getD k Cpx.zero).conj⟩

section
variable (z g : List Cpx) (p : List Tag) (pl : BitVec 16)

@[simp] theorem pilotObs_bin (k : Nat) : (pilotObs z g p pl k).bin = k := rfl

/-- R171: the register steps once per pilot. -/
theorem observe_register (ks : List Nat) : (observe z g ks pl).2 = lfsrIter ks.length pl := by
  induction ks generalizing pl with
  | nil => rfl
  | cons k ks ih => exact ih _

/-- The last pilot of a list finds the register after one step for each pilot before it. -/
theorem observe_concat (ks : List Nat) (k : Nat) :
    (observe z g (ks ++ [k]) pl).1 = (observe z g ks pl).1 ++
      [⟨k, (z.getD k Cpx.zero).mul (lfsrSign ks.length pl),
        ((z.getD k Cpx.zero).mul (lfsrSign ks.length pl)).mul (g.getD k Cpx.zero).conj⟩] := by
  induction ks generalizing pl with
  | nil => simp [observe, lfsrSign_zero, Cpx.mul_ofNum]
  | cons c ks ih => simp [observe, ih, lfsrSign_succ]

/-- R121: of the bins below `n`, as many have a tag as the table has entries with it there. -/
theorem bins_below_length (t : Tag) {n : Nat} (bound : n ≤ p.length) :
    ((List.range n).filter fun k => tagAt p k == t).length = countTag t (p.take n) := by
  rw [← binsOf_length, binsOf, List.length_take_of_le bound]
  congr 1
  refine List.filter_congr fun k inside => ?_
  simp [tagAt, List.getElem?_take_of_lt (List.mem_range.1 inside)]

/-- R171, bin by bin: the pilots below `n` first, then bin `n`. -/
theorem observe_pilots_below {n : Nat} (bound : n ≤ p.length) :
    (observe z g ((List.range n).filter fun k => tagAt p k == .pilot) pl).1 =
      ((List.range n).filter fun k => tagAt p k == .pilot).map (pilotObs z g p pl) := by
  induction n with
  | zero => rfl
  | succ n ih =>
    rw [List.range_succ, List.filter_append, List.map_append, ← ih (by omega)]
    by_cases pilot : tagAt p n = .pilot
    · rw [show [n].filter (fun k => tagAt p k == .pilot) = [n] by simp [pilot], observe_concat,
        bins_below_length p .pilot (by omega)]
      rfl
    · rw [show [n].filter (fun k => tagAt p k == .pilot) = [] by simp [pilot], List.append_nil]
      exact (List.append_nil _).symm

/-- R171: the observations of a symbol. -/
theorem observe_binsOf : (observe z g (binsOf .pilot p) pl).1 = (binsOf .pilot p).map (pilotObs z g p pl) :=
  observe_pilots_below z g p pl le_rfl

theorem obsAt_pilotObs {ks : List Nat} {k : Nat} (mem : k ∈ ks) : obsAt (ks.map (pilotObs z g p pl)) k = pilotObs z g p pl k := by
  have present : (ks.find? fun c => c == k).isSome := List.find?_isSome.2 ⟨k, mem, beq_self_eq_true k⟩
  obtain ⟨c, found⟩ := Option.isSome_iff_exists.1 present
  obtain rfl : c = k := by simpa using List.find?_some found
  simp [obsAt, List.find?_map, Function.comp_def, found]

end

/-! ### The phase trend (R172) -/

theorem pairsOf_eq {α : Type} (d : α) (l : List α) :
    pairsOf l = (List.range (l.length - 1)).map fun i => (l.getD i d, l.getD (i + 1) d) := by
  induction l with
  | nil => rfl
  | cons a l ih =>
    cases l with
    | nil => rfl
    | cons b l =>
      rw [pairsOf, ih]
      simp [List.range_succ_eq_map, Function.comp_def]

theorem pilotStride_eq (m : Nat) (pils : List Nat) :
    pilotStride m pils = ((sidx m (pils.getD (pils.length - 1) 0) - sidx m (pils.getD 0 0) : Int) : Sys2Proof.Num) /
      ((pils.length - 1 : Nat) : Sys2Proof.Num) := by
  have last : pils.getLastD 0 = pils.getD (pils.length - 1) 0 := by
    rw [List.getLastD_eq_getLast?, List.getLast?_eq_getElem?, List.getD_eq_getElem?_getD]
  have first : pils.headD 0 = pils.getD 0 0 := by cases pils <;> rfl
  rw [pilotStride, last, first]

/-- R172: `theta1` from the errors `u` of the observed bins. -/
theorem phaseSlope_eq (m : Nat) (pils : List Nat) (obs : List PilotObs) (u : Nat → Cpx)
    (err : ∀ k ∈ pils, (obsAt obs k).err = u k) :
    phaseSlope m pils obs = if 2 ≤ pils.length then
      arg (Cpx.sum ((List.range (pils.length - 1)).map fun i =>
        (u (pils.getD (i + 1) 0)).mul (u (pils.getD i 0)).conj)) / pilotStride m pils else 0 := by
  have entry {i : Nat} (inside : i < pils.length) : (obsAt obs (pils.getD i 0)).err = u (pils.getD i 0) :=
    err _ (by rw [List.getD_eq_getElem _ _ inside]; exact List.getElem_mem inside)
  have products : (pairsOf pils).map (fun ab => (obsAt obs ab.2).err.mul (obsAt obs ab.1).err.conj) =
      (List.range (pils.length - 1)).map fun i => (u (pils.getD (i + 1) 0)).mul (u (pils.getD i 0)).conj := by
    rw [pairsOf_eq 0, List.map_map]
    refine List.map_congr_left fun i inside => ?_
    have below : i < pils.length - 1 := List.mem_range.1 inside
    rw [Function.comp_apply, entry (by omega), entry (by omega)]
  rw [phaseSlope, products]

/-! ### Neighbouring pilots and interpolation (R176) -/

theorem sidx_injective {m k q : Nat} (hk : k < m) (hq : q < m) (e : sidx m k = sidx m q) : k = q := by
  unfold sidx at e; split at e <;> split at e <;> omega

section
variable {m : Nat} {pils : List Nat} {f : Int}

/-- R176: a pilot below `f` with none between is the one found. -/
theorem pilotBelow_eq_some (sorted : pils.Pairwise fun a b => sidx m a < sidx m b) {lo : Nat} (mem : lo ∈ pils)
    (below : sidx m lo < f) (next : ∀ q ∈ pils, sidx m q ≤ sidx m lo ∨ f ≤ sidx m q) : pilotBelow m pils f = some lo := by
  obtain ⟨front, back, rfl⟩ := List.append_of_mem mem
  have ascending : ∀ q ∈ back, sidx m lo < sidx m q := (List.pairwise_cons.1 (List.pairwise_append.1 sorted).2.1).1
  have none_after : back.filter (fun k => sidx m k < f) = [] := List.filter_eq_nil_iff.2 fun q hq => by
    have := ascending q hq
    have := next q (by simp [hq])
    rw [decide_eq_true_iff]; omega
  rw [pilotBelow, List.filter_append, List.filter_cons_of_pos (by simpa using below), none_after]
  simp

/-- R176: a pilot above `f` with none between is the one found. -/
theorem pilotAbove_eq_some (sorted : pils.Pairwise fun a b => sidx m a < sidx m b) {hi : Nat} (mem : hi ∈ pils)
    (above : f < sidx m hi) (next : ∀ q ∈ pils, sidx m q ≤ f ∨ sidx m hi ≤ sidx m q) : pilotAbove m pils f = some hi := by
  obtain ⟨front, back, rfl⟩ := List.append_of_mem mem
  have ascending : ∀ q ∈ front, sidx m q < sidx m hi := fun q hq =>
    (List.pairwise_append.1 sorted).2.2 q hq hi List.mem_cons_self
  refine List.find?_eq_some_iff_append.2 ⟨by simpa using above, front, back, rfl, fun q hq => ?_⟩
  have := ascending q hq
  have := next q (by simp [hq])
  rw [Bool.not_eq_true', decide_eq_false_iff_not]; omega

theorem pilotBelow_eq_none_iff : pilotBelow m pils f = none ↔ ∀ q ∈ pils, f ≤ sidx m q := by
  simp [pilotBelow]

theorem pilotAbove_eq_none_iff : pilotAbove m pils f = none ↔ ∀ q ∈ pils, sidx m q ≤ f := by
  simp [pilotAbove]

theorem mem_of_pilotBelow {lo : Nat} (e : pilotBelow m pils f = some lo) : lo ∈ pils :=
  (List.mem_filter.1 (List.mem_of_getLast? e)).1

theorem mem_of_pilotAbove {hi : Nat} (e : pilotAbove m pils f = some hi) : hi ∈ pils := List.mem_of_find?_eq_some e

/-- R176 between two pilots with none between them. -/
theorem dataGain_between (gain : Nat → Cpx) (sorted : pils.Pairwise fun a b => sidx m a < sidx m b) {k lo hi : Nat}
    (memLo : lo ∈ pils) (memHi : hi ∈ pils) (below : sidx m lo < sidx m k) (above : sidx m k < sidx m hi)
    (next : ∀ q ∈ pils, sidx m q ≤ sidx m lo ∨ sidx m hi ≤ sidx m q) :
    dataGain m pils gain k = (gain lo).add
      (Cpx.scale (((sidx m k - sidx m lo : Int) : Sys2Proof.Num) / ((sidx m hi - sidx m lo : Int) : Sys2Proof.Num))
        ((gain hi).sub (gain lo))) := by
  have found : pilotBelow m pils (sidx m k) = some lo :=
    pilotBelow_eq_some sorted memLo below fun q hq => (next q hq).imp_right above.le.trans
  have found' : pilotAbove m pils (sidx m k) = some hi :=
    pilotAbove_eq_some sorted memHi above fun q hq => (next q hq).imp_left (·.trans below.le)
  simp [dataGain, found, found']

/-- R176 below the lowest pilot. -/
theorem dataGain_below_all (gain : Nat → Cpx) (sorted : pils.Pairwise fun a b => sidx m a < sidx m b) {k hi : Nat}
    (mem : hi ∈ pils) (above : sidx m k < sidx m hi) (lowest : ∀ q ∈ pils, sidx m hi ≤ sidx m q) :
    dataGain m pils gain k = gain hi := by
  have none_below : pilotBelow m pils (sidx m k) = none := pilotBelow_eq_none_iff.2 fun q hq => above.le.trans (lowest q hq)
  have found : pilotAbove m pils (sidx m k) = some hi := pilotAbove_eq_some sorted mem above fun q hq => .inr (lowest q hq)
  simp [dataGain, none_below, found]

/-- R176 above the highest pilot. -/
theorem dataGain_above_all (gain : Nat → Cpx) (sorted : pils.Pairwise fun a b => sidx m a < sidx m b) {k lo : Nat}
    (mem : lo ∈ pils) (below : sidx m lo < sidx m k) (highest : ∀ q ∈ pils, sidx m q ≤ sidx m lo) :
    dataGain m pils gain k = gain lo := by
  have found : pilotBelow m pils (sidx m k) = some lo := pilotBelow_eq_some sorted mem below fun q hq => .inl (highest q hq)
  have none_above : pilotAbove m pils (sidx m k) = none := pilotAbove_eq_none_iff.2 fun q hq => (highest q hq).trans below.le
  simp [dataGain, found, none_above]

/-- R176: where all pilots have one gain, so has every bin that is not itself the only pilot. -/
theorem dataGain_of_const {gain : Nat → Cpx} {h : Cpx} (const : ∀ q ∈ pils, gain q = h) {k q : Nat} (mem : q ∈ pils)
    (other : sidx m q ≠ sidx m k) : dataGain m pils gain k = h := by
  simp only [dataGain]
  split
  next none_below none_above =>
    exact absurd (le_antisymm (pilotAbove_eq_none_iff.1 none_above q mem) (pilotBelow_eq_none_iff.1 none_below q mem)) other
  next hi _ found => exact const hi (mem_of_pilotAbove found)
  next lo found _ => exact const lo (mem_of_pilotBelow found)
  next lo hi found found' =>
    rw [const lo (mem_of_pilotBelow found), const hi (mem_of_pilotAbove found')]
    simp

end

/-! ### The gains after the update (R175, R176) -/

theorem lt_length_of_tagAt {p : List Tag} {k : Nat} (carried : tagAt p k ≠ .null) : k < p.length := by
  by_contra outside
  exact carried (List.getD_eq_default _ _ (by omega))

section
variable (rx : RxUnit) (obs : List PilotObs) {k : Nat} (inside : k < rx.m)
include inside

theorem updatedGains_getD_null (null : tagAt rx.table k = .null) :
    (updatedGains rx obs).getD k Cpx.zero = rx.g.getD k Cpx.zero := by
  rw [updatedGains, getD_map_range _ inside, null]

theorem updatedGains_getD_pilot (pilot : tagAt rx.table k = .pilot) :
    (updatedGains rx obs).getD k Cpx.zero = pilotGain rx.alpha rx.g obs k := by
  rw [updatedGains, getD_map_range _ inside, pilot]

theorem updatedGains_getD_data (data : tagAt rx.table k = .data) :
    (updatedGains rx obs).getD k Cpx.zero = dataGain rx.m rx.derived.pils (pilotGain rx.alpha rx.g obs) k := by
  rw [updatedGains, getD_map_range _ inside, data]

end

/-! ### The equaliser (R177) -/

theorem equalise_of_ne {z g : List Cpx} {k : Nat} (ne : g.getD k Cpx.zero ≠ Cpx.zero) :
    equalise z g k = (z.getD k Cpx.zero).div (g.getD k Cpx.zero) := if_neg ne

theorem equalise_of_zero {z g : List Cpx} {k : Nat} (zero : g.getD k Cpx.zero = Cpx.zero) : equalise z g k = Cpx.zero := if_pos zero

/-! ### The update of a configured unit (R171 to R176) -/

section
variable {rx : RxUnit} (z : List Cpx) (table : LegalTable rx.m rx.table) (pil : rx.derived.pil = binsOf .pilot rx.table)
  (pils : rx.derived.pils = pilotsFreq rx.table)

include pil in
/-- R171: the observations that `track` makes. -/
theorem observe_pil : (observe z rx.g rx.derived.pil rx.pl).1 = rx.derived.pil.map (pilotObs z rx.g rx.table rx.pl) := by
  rw [pil, observe_binsOf]

include pil in
theorem track_gains : (track z rx).g = updatedGains rx (rx.derived.pil.map (pilotObs z rx.g rx.table rx.pl)) := by
  rw [← observe_pil z pil]; rfl

include pil pils in
/-- Both lists hold the pilot bins. -/
theorem mem_pils_iff (k : Nat) : k ∈ rx.derived.pils ↔ k ∈ rx.derived.pil := by
  rw [pil, pils, mem_pilotsFreq, mem_binsOf]

include table pils in
theorem pairwise_pils : rx.derived.pils.Pairwise fun a b => sidx rx.m a < sidx rx.m b := by
  rw [pils, ← table.1]; exact (pairwise_freqOrder _).filter _

include pil pils in
/-- R172: `theta1` from the errors of the pilots. -/
theorem phaseSlope_pilotObs :
    phaseSlope rx.m rx.derived.pils (rx.derived.pil.map (pilotObs z rx.g rx.table rx.pl)) =
      if 2 ≤ rx.derived.pils.length then
        arg (Cpx.sum ((List.range (rx.derived.pils.length - 1)).map fun i =>
          (pilotObs z rx.g rx.table rx.pl (rx.derived.pils.getD (i + 1) 0)).err.mul
            (pilotObs z rx.g rx.table rx.pl (rx.derived.pils.getD i 0)).err.conj)) / pilotStride rx.m rx.derived.pils
      else 0 :=
  phaseSlope_eq _ _ _ (fun k => (pilotObs z rx.g rx.table rx.pl k).err) fun k mem => by
    rw [obsAt_pilotObs _ _ _ _ ((mem_pils_iff pil pils k).1 mem)]

include table pil in
/-- R175: a pilot's gain after the update. -/
theorem track_gain_pilot {k : Nat} (mem : k ∈ rx.derived.pil) :
    (track z rx).g.getD k Cpx.zero = (rx.g.getD k Cpx.zero).add
      (Cpx.scale rx.alpha ((pilotObs z rx.g rx.table rx.pl k).gain.sub (rx.g.getD k Cpx.zero))) := by
  obtain ⟨inside, pilot⟩ := (mem_binsOf _ _ _).1 (pil ▸ mem)
  rw [track_gains z pil, updatedGains_getD_pilot _ _ (table.1 ▸ inside) pilot, pilotGain, obsAt_pilotObs _ _ _ _ mem]

include table pil in
/-- R176: a data bin's gain comes from the new gains of the pilots. -/
theorem track_gain_data {k : Nat} (data : tagAt rx.table k = .data) :
    ∃ gain : Nat → Cpx, (∀ q ∈ rx.derived.pil, gain q = (track z rx).g.getD q Cpx.zero) ∧
      (track z rx).g.getD k Cpx.zero = dataGain rx.m rx.derived.pils gain k := by
  have inside : k < rx.table.length := lt_length_of_tagAt (by rw [data]; decide)
  refine ⟨_, fun q mem => ?_, track_gains z pil ▸ updatedGains_getD_data _ _ (table.1 ▸ inside) data⟩
  obtain ⟨bin, pilot⟩ := (mem_binsOf _ _ _).1 (pil ▸ mem)
  rw [track_gains z pil, updatedGains_getD_pilot _ _ (table.1 ▸ bin) pilot]

include table pil pils in
/-- R176: where all pilots have one new gain, so has every bin that carries anything. -/
theorem track_gain_of_const {h : Cpx} (pilots : ∀ k ∈ rx.derived.pil, (track z rx).g.getD k Cpx.zero = h) {k : Nat}
    (carried : tagAt rx.table k ≠ .null) : (track z rx).g.getD k Cpx.zero = h := by
  have inside : k < rx.table.length := lt_length_of_tagAt carried
  cases tag : tagAt rx.table k with
  | null => exact absurd tag carried
  | pilot => exact pilots k (pil ▸ (mem_binsOf _ _ _).2 ⟨inside, tag⟩)
  | data =>
    obtain ⟨gain, agree, value⟩ := track_gain_data z table pil tag
    obtain ⟨q, bin, pilot⟩ := List.mem_iff_getElem.1 table.2.2
    have tagged : tagAt rx.table q = .pilot := by rw [tagAt, List.getD_eq_getElem _ _ bin, pilot]
    have other : sidx rx.m q ≠ sidx rx.m k := fun e => by
      rw [sidx_injective (table.1 ▸ bin) (table.1 ▸ inside) e, tag] at tagged
      cases tagged
    rw [value]
    have const : ∀ c ∈ rx.derived.pils, gain c = h := fun c mem =>
      have mem := (mem_pils_iff pil pils c).1 mem
      (agree c mem).trans (pilots c mem)
    exact dataGain_of_const const (pils ▸ (mem_pilotsFreq _ _).2 ⟨bin, tagged⟩) other

end

end Machine
end Sys2Proof

/-! SUPPORT. The two statements about the tracker: the noiseless fixed point (42_pilot_tracker.md R179), and the update for any symbol
(R171 to R177) with the worked example (R181). -/

namespace Sys2Proof.Machine

/-! ### The noiseless symbol (R179) -/

/-- R179: a pilot bin that carries `H` times what was sent is observed as `H`. -/
theorem pilotObs_noiseless {z g d : List Cpx} {p : List Tag} {pl : BitVec 16} {h : Cpx} {k : Nat} (pilot : tagAt p k = .pilot)
    (gain : g.getD k Cpx.zero = h) (received : z.getD k Cpx.zero = h.mul ((fill p d pl).1.getD k Cpx.zero)) :
    pilotObs z g p pl k = ⟨k, h, Cpx.ofNum h.normSq⟩ := by
  have sent : (fill p d pl).1.getD k Cpx.zero = lfsrSign (countTag .pilot (p.take k)) pl := by
    rw [fill_getD _ _ _ (lt_length_of_tagAt (by rw [pilot]; decide)), filledBin, pilot]
  have seen : (z.getD k Cpx.zero).mul (lfsrSign (countTag .pilot (p.take k)) pl) = h := by
    rw [received, sent, Cpx.mul_assoc, lfsrSign_mul_self]; exact Cpx.mul_one h
  rw [pilotObs, seen, gain, Cpx.mul_conj_self]

/-- Settles O22: every observation is `H` with error `|H|^2`, so no sum has an angle, the pilots stay and the data bins get `H`. -/
theorem trackerNoiselessFixedPoint : Obligations.TrackerNoiselessFixedPoint := by
  intro rx z d h ne table pil pils gain received obs rx'
  have observed : ∀ k ∈ rx.derived.pil, pilotObs z rx.g rx.table rx.pl k = ⟨k, h, Cpx.ofNum h.normSq⟩ := fun k mem => by
    obtain ⟨-, pilot⟩ := (mem_binsOf _ _ _).1 (pil ▸ mem)
    exact pilotObs_noiseless pilot (gain k pilot) (received k (by rw [pilot]; decide))
  have obs_eq : obs = rx.derived.pil.map (pilotObs z rx.g rx.table rx.pl) := observe_pil z pil
  have each : ∀ o ∈ obs, o.gain = h ∧ o.err = Cpx.ofNum h.normSq := fun o mem => by
    obtain ⟨k, pilot, rfl⟩ := List.mem_map.1 (obs_eq ▸ mem)
    rw [observed k pilot]
    exact ⟨rfl, rfl⟩
  have common : commonPhase obs = 0 := arg_sum_eq_zero fun e mem => by
    obtain ⟨o, observation, rfl⟩ := List.mem_map.1 mem
    exact ⟨_, h.normSq_nonneg, (each o observation).2⟩
  have slope : phaseSlope rx.m rx.derived.pils obs = 0 := by
    have err : ∀ k ∈ rx.derived.pils, (obsAt obs k).err = Cpx.ofNum h.normSq := fun k mem => by
      have mem := (mem_pils_iff pil pils k).1 mem
      rw [obs_eq, obsAt_pilotObs _ _ _ _ mem, observed k mem]
    rw [phaseSlope_eq _ _ _ (fun _ => Cpx.ofNum h.normSq) err, arg_sum_eq_zero, zero_div, ite_self]
    intro e mem
    obtain ⟨i, -, rfl⟩ := List.mem_map.1 mem
    exact ⟨_, mul_self_nonneg h.normSq, by rw [Cpx.conj_ofNum, Cpx.ofNum_mul_ofNum]⟩
  have pilots : ∀ k ∈ rx.derived.pil, rx'.g.getD k Cpx.zero = h := fun k mem => by
    obtain ⟨-, pilot⟩ := (mem_binsOf _ _ _).1 (pil ▸ mem)
    rw [track_gain_pilot z table pil mem, observed k mem, gain k pilot]
    simp
  have gains : ∀ k, tagAt rx.table k ≠ .null → rx'.g.getD k Cpx.zero = h := fun k carried =>
    track_gain_of_const z table pil pils pilots carried
  refine ⟨each, common, slope, ?_, ?_, gains, fun k data => ?_⟩
  · change rx.nu + rx.alpha * commonPhase obs / ((rx.m + rx.cpLen : Nat) : Sys2Proof.Num) = rx.nu
    rw [common, mul_zero, zero_div, add_zero]
  · change rx.tau - rx.alpha * phaseSlope rx.m rx.derived.pils obs * rx.m / (2 * numPi) = rx.tau
    rw [slope, mul_zero, zero_mul, zero_div, sub_zero]
  · have carried : tagAt rx.table k ≠ .null := by rw [data]; decide
    have new := gains k carried
    rw [equalise_of_ne (new ▸ ne), new, received k carried, Cpx.mul_div_cancel_left ne]

/-! ### The worked example (R181) -/

/-- R181: the symbol received. -/
def workedSymbol : List Cpx := [⟨0, 0⟩, ⟨-1, 1⟩, ⟨0, -1⟩, ⟨0, 0⟩, ⟨0, 0⟩, ⟨0, 0⟩, ⟨0, -1⟩, ⟨1, -1⟩]

/-- R181: the gains before the update. -/
def workedGains : List Cpx := [⟨0, 0⟩, ⟨1, 0⟩, ⟨1, 0⟩, ⟨0, 0⟩, ⟨0, 0⟩, ⟨0, 0⟩, ⟨1, 0⟩, ⟨1, 0⟩]

/-- R181: what the two pilots show, a quarter turn each. -/
def workedObs : List PilotObs := [⟨2, ⟨0, 1⟩, ⟨0, 1⟩⟩, ⟨6, ⟨0, 1⟩, ⟨0, 1⟩⟩]

/-- R181: the gains after the update with `ALPHA = a`: `1 + a (j - 1)` in the pilot and data bins. -/
def workedNewGains (a : Sys2Proof.Num) : List Cpx :=
  [⟨0, 0⟩, ⟨1 - a, a⟩, ⟨1 - a, a⟩, ⟨0, 0⟩, ⟨0, 0⟩, ⟨0, 0⟩, ⟨1 - a, a⟩, ⟨1 - a, a⟩]

theorem observe_workedSymbol : (observe workedSymbol workedGains [2, 6] 0x7A5B#16).1 = workedObs := by decide +kernel

theorem commonPhase_workedObs : commonPhase workedObs = numPi / 2 := by decide +kernel

theorem pilotStride_worked : pilotStride 8 [6, 2] = 4 := by decide +kernel

theorem phaseSlope_workedObs : phaseSlope 8 [6, 2] workedObs = 0 := by decide +kernel

/-- Both data bins lie between the two pilots, whose new gains are equal. -/
theorem updatedGains_worked {rx : RxUnit} (m : rx.m = 8) (table : rx.table = tagsOf [0#2, 2#2, 1#2, 0#2, 0#2, 0#2, 1#2, 2#2])
    (pils : rx.derived.pils = [6, 2]) (g : rx.g = workedGains) : updatedGains rx workedObs = workedNewGains rx.alpha := by
  have pilot {k : Nat} (mem : k ∈ [6, 2]) : pilotGain rx.alpha workedGains workedObs k = ⟨1 - rx.alpha, rx.alpha⟩ := by
    have old : workedGains.getD k Cpx.zero = ⟨1, 0⟩ := by revert k; decide
    have seen : (obsAt workedObs k).gain = ⟨0, 1⟩ := by revert k; decide
    rw [pilotGain, old, seen]
    simp [Cpx.add, Cpx.scale, Cpx.sub, sub_eq_add_neg]
  have data {k : Nat} (between : sidx 8 6 ≠ sidx 8 k) :
      dataGain 8 [6, 2] (pilotGain rx.alpha workedGains workedObs) k = ⟨1 - rx.alpha, rx.alpha⟩ :=
    dataGain_of_const (fun _ mem => pilot mem) List.mem_cons_self between
  rw [updatedGains, m, table, pils, g]
  generalize pilotGain rx.alpha workedGains workedObs = gain at pilot data ⊢
  simp [List.range_succ, tagsOf, tagOfCode, tagAt, pilot, data, sidx, workedNewGains, workedGains, Cpx.zero]

/-- R181, for every `ALPHA`. -/
theorem track_worked {rx : RxUnit} (m : rx.m = 8) (cp : rx.cpLen = 2)
    (table : rx.table = tagsOf [0#2, 2#2, 1#2, 0#2, 0#2, 0#2, 1#2, 2#2]) (pil : rx.derived.pil = [2, 6])
    (pils : rx.derived.pils = [6, 2]) (nu : rx.nu = 0) (tau : rx.tau = 0) (pl : rx.pl = 0x7A5B#16) (g : rx.g = workedGains) :
    (track workedSymbol rx).nu = rx.alpha * (numPi / 2) / 10 ∧ (track workedSymbol rx).tau = 0 ∧
      (track workedSymbol rx).g = workedNewGains rx.alpha := by
  have obs : (observe workedSymbol rx.g rx.derived.pil rx.pl).1 = workedObs := by rw [g, pil, pl, observe_workedSymbol]
  refine ⟨?_, ?_, ?_⟩
  · rw [track, obs, commonPhase_workedObs, nu, m, cp]; norm_num
  · rw [track, obs, m, pils, phaseSlope_workedObs, tau]; norm_num
  · rw [track, obs]; exact updatedGains_worked m table pils g

/-- R181: with `ALPHA = 1/2` the equalised values lie on a decision boundary. -/
theorem equalise_worked_half :
    equalise workedSymbol (workedNewGains (1 / 2)) 1 = ⟨0, 2⟩ ∧ equalise workedSymbol (workedNewGains (1 / 2)) 7 = ⟨0, -2⟩ := by
  decide +kernel

/-- R181: with `ALPHA = 1` the symbols are those sent. -/
theorem equalise_worked_one :
    equalise workedSymbol (workedNewGains 1) 1 = ⟨1, 1⟩ ∧ equalise workedSymbol (workedNewGains 1) 7 = ⟨-1, -1⟩ := by
  decide +kernel

/-! ### The statement -/

/-- Settles O23: the equaliser by its two cases; the update from the observations of the pilots bin by bin; the worked example from its
numbers. -/
theorem trackerUpdatesTheEstimates : Obligations.TrackerUpdatesTheEstimates := by
  refine ⟨fun z g k => ⟨equalise_of_ne, equalise_of_zero⟩, ?update, ?worked⟩
  case update =>
    intro rx z table pil pils
    have sorted := pairwise_pils table pils
    have member := mem_pils_iff pil pils
    have obs := observe_pil z pil
    refine ⟨?_, updatedGains_length _ _, fun k inside null => updatedGains_getD_null _ _ inside null,
      fun k mem => track_gain_pilot z table pil mem, fun k lo hi data memLo memHi below above next => ?_,
      fun k hi data memHi above lowest => ?_, fun k lo data memLo below highest => ?_⟩
    · have theta1 := phaseSlope_pilotObs z pil pils
      rw [pilotStride_eq] at theta1
      rw [track, obs, theta1, observe_register, commonPhase, List.map_map]
      rfl
    all_goals obtain ⟨gain, agree, value⟩ := track_gain_data z table pil data
    · rw [dataGain_between gain sorted ((member lo).2 memLo) ((member hi).2 memHi) below above
        fun q mem => next q ((member q).1 mem), agree lo memLo, agree hi memHi] at value
      exact value
    · exact value.trans ((dataGain_below_all gain sorted ((member hi).2 memHi) above
        fun q mem => lowest q ((member q).1 mem)).trans (agree hi memHi))
    · exact value.trans ((dataGain_above_all gain sorted ((member lo).2 memLo) below
        fun q mem => highest q ((member q).1 mem)).trans (agree lo memLo))
  case worked =>
    intro rx m cp table pil pils nu tau pl g
    obtain ⟨newNu, newTau, newG⟩ := track_worked m cp table pil pils nu tau pl g
    have obs : (observe workedSymbol rx.g rx.derived.pil rx.pl).1 = workedObs := by rw [g, pil, pl]; exact observe_workedSymbol
    refine ⟨obs, obs ▸ commonPhase_workedObs, pilotStride_worked, obs ▸ phaseSlope_workedObs, fun half => ?_, fun one => ?_⟩
    · rw [half] at newNu newG
      obtain ⟨bin1, bin7⟩ := equalise_worked_half
      refine ⟨newNu.trans (by ring), newTau, newG.trans (by norm_num [workedNewGains]), newG ▸ bin1, newG ▸ bin7, ?_, ?_⟩
      · exact (congrArg (demodulate .qpsk) (newG ▸ bin1)).trans (by decide)
      · exact (congrArg (demodulate .qpsk) (newG ▸ bin7)).trans (by decide)
    · rw [one] at newG
      exact ⟨newG ▸ by decide +kernel, newG ▸ equalise_worked_one.1, newG ▸ equalise_worked_one.2⟩

end Sys2Proof.Machine

/-! SUPPORT. What a message becomes on its way to the symbols and back: the counts (43_frame_generator.md R193), the header as sent
(R194), the bits of a byte string (20_memory.md R64), the groups of bits that the symbols carry (R195), and what `unmap` and the
decoders make of them (44_frame_synchronizer.md R240). -/

namespace Sys2Proof.Machine

/-! ### The counts (R193) -/

theorem ceilDiv_mul_lt (a : Nat) {b : Nat} (h : 0 < b) : ceilDiv a b * b < a + b := by
  have := Nat.div_mul_le_self (a + b - 1) b
  unfold ceilDiv; omega

theorem ceilDiv_eq_zero_iff {a b : Nat} (h : 0 < b) : ceilDiv a b = 0 ↔ a = 0 := by
  rw [ceilDiv, Nat.div_eq_zero_iff]; omega

/-- R193: no FEC makes a byte out of nothing. -/
theorem fecEncLen_eq_zero_iff (f : FecId) (n : Nat) : fecEncLen f n = 0 ↔ n = 0 := by
  refine ⟨fun none => Nat.le_zero.1 (none ▸ le_fecEncLen f n), ?_⟩
  rintro rfl
  cases f <;> simp [fecEncLen, Config.h128Added]

theorem checkLen_eq_zero_iff (c : CheckId) : checkLen c = 0 ↔ c = .none := by cases c <;> decide

section
variable (c : CheckId) (f : FecId) (md : ModId) (n : Nat) {nData : Nat}

theorem counts_bits_le : 8 * (counts c f md n nData).encLen ≤ (counts c f md n nData).nmod * modBps md :=
  le_ceilDiv_mul _ (modBps_pos md)

theorem counts_nmod_le (data : 0 < nData) : (counts c f md n nData).nmod ≤ (counts c f md n nData).nsym * nData :=
  le_ceilDiv_mul _ data

theorem counts_nsym_eq_zero_iff (data : 0 < nData) : (counts c f md n nData).nsym = 0 ↔ (counts c f md n nData).encLen = 0 := by
  have noBits : 8 * (counts c f md n nData).encLen = 0 ↔ (counts c f md n nData).encLen = 0 := by omega
  exact (ceilDiv_eq_zero_iff data).trans ((ceilDiv_eq_zero_iff (modBps_pos md)).trans noBits)

theorem counts_encLen_eq_zero_iff : (counts c f md n nData).encLen = 0 ↔ n = 0 ∧ c = .none := by
  rw [← checkLen_eq_zero_iff, ← Nat.add_eq_zero_iff]
  exact fecEncLen_eq_zero_iff f _

end

/-- Settles O26: two ceiling divisions, one after the other. -/
theorem countsAreTheLeastThatHold : Obligations.CountsAreTheLeastThatHold := fun c f md n _ data =>
  have empty := counts_nsym_eq_zero_iff c f md n data
  ⟨rfl, counts_bits_le c f md n, ceilDiv_mul_lt _ (modBps_pos md), counts_nmod_le c f md n data, ceilDiv_mul_lt _ data,
    empty, empty.trans (counts_encLen_eq_zero_iff c f md n)⟩

/-! ### The header as sent (R194) -/

theorem extract_high_byte (n : Nat) : BitVec.extractLsb' 8 8 (BitVec.ofNat 16 n) = BitVec.ofNat 8 (n / 256) := by
  apply BitVec.eq_of_toNat_eq
  simp only [BitVec.extractLsb'_toNat, BitVec.toNat_ofNat, Nat.shiftRight_eq_div_pow]
  omega

theorem extract_low_byte (n : Nat) : BitVec.extractLsb' 0 8 (BitVec.ofNat 16 n) = BitVec.ofNat 8 n := by
  apply BitVec.eq_of_toNat_eq
  simp only [BitVec.extractLsb'_toNat, BitVec.toNat_ofNat, Nat.shiftRight_eq_div_pow]
  omega

/-- R65: a payload length is read back from its two bytes. -/
theorem lengthBytes_value {n : Nat} (fits : n ≤ 65535) :
    (BitVec.ofNat 8 (n / 256)).toNat * 256 + (BitVec.ofNat 8 n).toNat = n := by
  simp only [BitVec.toNat_ofNat]; omega

theorem fullHeader_length (tx : TxUnit) (user : List Byte) (n : Nat) :
    (fullHeader tx user n).length = user.length + Config.hDesc := List.length_append

/-- Settles O27: the two length bytes are the halves of a 16-bit number. -/
theorem descriptorFollowsTheUserBytes : Obligations.DescriptorFollowsTheUserBytes := by
  intro tx user n fits
  rw [extract_high_byte, extract_low_byte]
  exact ⟨rfl, fullHeader_length tx user n, lengthBytes_value fits⟩

/-! ### The bits of a byte string (R64) -/

theorem bitsOfByte_length (b : Byte) : (bitsOfByte b).length = 8 := by simp [bitsOfByte]

theorem bitsOfByte_getElem? (b : Byte) {k : Nat} (h : k < 8) : (bitsOfByte b)[k]? = some (b.getLsbD (7 - k)) := by
  rw [bitsOfByte, List.getElem?_map, List.getElem?_range h]
  simp [BitVec.getMsbD, h]

@[simp] theorem bitsOfBytes_length (bs : List Byte) : (bitsOfBytes bs).length = 8 * bs.length := by
  simp [bitsOfBytes, List.length_flatMap, bitsOfByte_length, Nat.mul_comm]

/-- Bit `k` of a stream is bit `7 - k mod 8` of byte `k / 8`; behind the last byte both read 0. -/
theorem bitsOfBytes_getD (bs : List Byte) (k : Nat) :
    (bitsOfBytes bs).getD k false = (bs.getD (k / 8) 0#8).getLsbD (7 - k % 8) := by
  have inByte : k % 8 < 8 := Nat.mod_lt _ (by decide)
  have bit := flatMap_getElem? bitsOfByte_length bs (i := k / 8) inByte
  rw [Nat.div_add_mod'] at bit
  rw [bitsOfBytes, List.getD_eq_getElem?_getD, List.getD_eq_getElem?_getD, bit]
  cases bs[k / 8]? with
  | none => simp
  | some b => simp [bitsOfByte_getElem? b inByte]

theorem byteOfBits_bitsOfByte (b : Byte) : byteOfBits (bitsOfByte b) = b := by
  revert b; decide

theorem bytesOfBits_bitsOfByte_append (b : Byte) (bits : List Bool) :
    bytesOfBits (bitsOfByte b ++ bits) = b :: bytesOfBits bits := by
  have groups : (bitsOfByte b ++ bits).length / 8 = bits.length / 8 + 1 := by
    rw [List.length_append, bitsOfByte_length]; omega
  rw [bytesOfBits, groups, chunks, List.take_left' (bitsOfByte_length b), List.drop_left' (bitsOfByte_length b), List.map_cons,
    byteOfBits_bitsOfByte]
  rfl

/-- R64: a byte string comes back from its bits, whatever bits follow. -/
theorem bytesOfBits_bitsOfBytes_append (bs : List Byte) (bits : List Bool) :
    (bytesOfBits (bitsOfBytes bs ++ bits)).take bs.length = bs := by
  induction bs with
  | nil => rfl
  | cons b bs ih =>
    rw [bitsOfBytes, List.flatMap_cons, List.append_assoc, bytesOfBits_bitsOfByte_append, List.length_cons, List.take_succ_cons]
    exact congrArg (b :: ·) ih

/-! ### Groups of bits (R195) -/

@[simp] theorem padBits_length (n : Nat) (bits : List Bool) : (padBits n bits).length = n := by
  rw [padBits, List.length_take, List.length_append, List.length_replicate]; omega

theorem padBits_of_le {n : Nat} {bits : List Bool} (room : bits.length ≤ n) :
    padBits n bits = bits ++ List.replicate (n - bits.length) false :=
  List.take_of_length_le (by rw [List.length_append, List.length_replicate]; omega)

/-- Behind the bits come zero bits. -/
theorem padBits_getElem? {n k : Nat} {bits : List Bool} (room : bits.length ≤ n) (inside : k < n) :
    (padBits n bits)[k]? = some (bits.getD k false) := by
  rw [padBits_of_le room, List.getD_eq_getElem?_getD]
  rcases lt_or_ge k bits.length with given | behind
  · rw [List.getElem?_append_left given, List.getElem?_eq_getElem given, Option.getD_some]
  · rw [List.getElem?_append_right behind, List.getElem?_replicate_of_lt (by omega), List.getElem?_eq_none behind,
      Option.getD_none]

theorem chunks_flatten {α : Type} {n k : Nat} {l : List α} (len : l.length = k * n) : (chunks n k l).flatten = l := by
  induction k generalizing l with
  | zero => simpa [chunks, eq_comm] using len
  | succ k ih =>
    have rest : (l.drop n).length = k * n := by rw [List.length_drop, len, Nat.succ_mul, Nat.add_sub_cancel]
    rw [chunks, List.flatten_cons, ih rest, List.take_append_drop]

theorem length_of_mem_chunks {α : Type} {n k : Nat} {l c : List α} (len : l.length = k * n) (mem : c ∈ chunks n k l) :
    c.length = n := by
  obtain ⟨i, chunk⟩ := List.mem_iff_getElem?.1 mem
  have inside : i < k := by
    have := (List.getElem?_eq_some_iff.1 chunk).1
    rwa [chunks_length] at this
  rw [chunks_getElem? _ _ _ _ inside, Option.some.injEq] at chunk
  have room : i * n + n ≤ k * n := Nat.succ_mul i n ▸ Nat.mul_le_mul_right n inside
  rw [← chunk, List.length_take, List.length_drop]
  omega

@[simp] theorem mapSymbols_length (e : List Byte) (md : ModId) (nsym nData : Nat) :
    (mapSymbols e md nsym nData).length = nsym * nData := by simp [mapSymbols]

/-- The group of bits that symbol `i` carries. -/
theorem padBits_group {n m i : Nat} {bits : List Bool} (room : bits.length ≤ m * n) (inside : i < m) :
    ((padBits (m * n) bits).drop (i * n)).take n = (List.range n).map fun j => bits.getD (i * n + j) false := by
  have whole : i * n + n ≤ m * n := Nat.succ_mul i n ▸ Nat.mul_le_mul_right n inside
  refine List.ext_getElem? fun j => ?_
  rcases lt_or_ge j n with bit | behind
  · rw [List.getElem?_take_of_lt bit, List.getElem?_drop, padBits_getElem? room (by omega), List.getElem?_map,
      List.getElem?_range bit, Option.map_some]
  · rw [List.getElem?_eq_none (by rw [List.length_take]; omega), List.getElem?_eq_none (by simpa using behind)]

/-- Settles O8: symbol `i` modulates group `i` of the padded bits, and each bit of the group is a bit of its byte. -/
theorem mapSymbolsTakesBitsInOrder : Obligations.MapSymbolsTakesBitsInOrder := by
  intro e md nsym nData room
  refine ⟨mapSymbols_length e md nsym nData, fun i inside => ?_⟩
  have fits : (bitsOfBytes e).length ≤ nsym * nData * modBps md := by rwa [bitsOfBytes_length]
  rw [mapSymbols, List.getD_eq_getElem?_getD, List.getElem?_map, chunks_getElem? _ _ _ _ inside, padBits_group fits inside]
  simp only [bitsOfBytes_getD, Option.map_some, Option.getD_some]

/-! ### From the symbols back to the message (R240) -/

/-- R10: demodulating the symbols gives the padded bits. -/
theorem demodulate_mapSymbols (e : List Byte) (md : ModId) (nsym nData : Nat) :
    (mapSymbols e md nsym nData).flatMap (demodulate md) = padBits (nsym * nData * modBps md) (bitsOfBytes e) := by
  have width := padBits_length (nsym * nData * modBps md) (bitsOfBytes e)
  rw [mapSymbols, List.flatMap_map]
  calc _ = (chunks (modBps md) (nsym * nData) (padBits (nsym * nData * modBps md) (bitsOfBytes e))).flatMap id :=
        List.flatMap_congr fun group mem => demodulate_modulate md group (length_of_mem_chunks width mem)
    _ = _ := by rw [List.flatMap_id, chunks_flatten width]

/-- R240: `unmap` cuts the encoded string out of its symbols. -/
theorem unmap_mapSymbols {e : List Byte} {md : ModId} {nmod nsym nData : Nat} (bits : 8 * e.length ≤ nmod * modBps md)
    (symbols : nmod ≤ nsym * nData) :
    unmap ((mapSymbols e md nsym nData).flatMap (demodulate md)) nmod md e.length = e := by
  have room : nmod * modBps md ≤ nsym * nData * modBps md := Nat.mul_le_mul_right _ symbols
  have len := bitsOfBytes_length e
  have whole : (bitsOfBytes e).take (nmod * modBps md) = bitsOfBytes e := List.take_of_length_le (by omega)
  rw [unmap, demodulate_mapSymbols, padBits_of_le (by omega), List.take_append, whole, bytesOfBits_bitsOfBytes_append]

/-! ### Checksum and FEC (R196, R241, R245) -/

theorem take_checkCompute (c : CheckId) (b : List Byte) : (checkCompute c b).take (checkLen c) = checkCompute c b :=
  List.take_of_length_le (checkCompute_length c b).le

theorem protect_length (c : CheckId) (f : FecId) (msg : List Byte) :
    (protect c f msg).length = fecEncLen f (msg.length + checkLen c) := by
  rw [protect, fecEncode_length, List.length_append, checkCompute_length]

theorem fecDecode_protect (c : CheckId) (f : FecId) (msg : List Byte) :
    fecDecode f (msg.length + checkLen c) (protect c f msg) = (msg ++ checkCompute c msg, true) := by
  rw [← checkCompute_length c msg, ← List.length_append, protect, fecDecode_fecEncode]

/-- R193, R240: a unit with the counts of a message cuts its protected bytes out of the bits of its symbols. -/
theorem unmap_protect {c : CheckId} {f : FecId} {md : ModId} {msg : List Byte} {nData encLen nmod nsym : Nat} {bits : List Bool}
    (data : 0 < nData) (counted : (⟨encLen, nmod, nsym⟩ : Counts) = counts c f md msg.length nData)
    (sent : bits = (mapSymbols (protect c f msg) md nsym nData).flatMap (demodulate md)) :
    unmap bits nmod md encLen = protect c f msg := by
  have enough := counts_bits_le c f md msg.length (nData := nData)
  have symbols := counts_nmod_le c f md msg.length data
  rw [← counted] at enough symbols
  have len : encLen = (protect c f msg).length := (congrArg Counts.encLen counted).trans (protect_length c f msg).symm
  subst len
  rw [sent]
  exact unmap_mapSymbols enough symbols

end Sys2Proof.Machine

/-! SUPPORT. Two commands of the TXU: `TXPROPS` (43_frame_generator.md R192), and what `ASSEMBLE` stores vector by vector (R196). -/

namespace Sys2Proof.Machine

/-! ### `TXPROPS` (R192) -/

section
variable {p : PropsOps} {tx tx' : TxUnit}

/-- The properties a `TXPROPS` stores have the ids given, and all else stays. -/
theorem txSetProps_some (done : txSetProps p tx = some tx') :
    checkCode tx'.check = p.check ∧ fecCode tx'.fec0 = p.fec0 ∧ fecCode tx'.fec1 = p.fec1 ∧ modCode tx'.mod = p.mod ∧
      tx' = { tx with check := tx'.check, fec0 := tx'.fec0, fec1 := tx'.fec1, mod := tx'.mod } := by
  unfold txSetProps at done
  split at done
  · rename_i check fec0 fec1 md
    cases done
    exact ⟨checkCode_of_checkOfCode check, fecCode_of_fecOfCode fec0, fecCode_of_fecOfCode fec1, modCode_of_modOfCode md, rfl⟩
  · cases done

theorem txSetProps_isSome_iff : (txSetProps p tx).isSome ↔ PropsSupported p := by
  unfold txSetProps PropsSupported
  cases checkOfCode p.check <;> cases fecOfCode p.fec0 <;> cases fecOfCode p.fec1 <;> cases modOfCode p.mod <;> simp

end

section
variable {s : State} {p : PropsOps}

theorem exec_txprops_of_some {tx : TxUnit} (ready : s.tx.state ≠ .unconfigured) (done : txSetProps p s.tx = some tx) :
    exec (.txprops (.fits p)) s = respond [] (s.setTx tx) := by
  simp only [exec, execTxprops, ifTxConfigured_of_configured ready, ifFits_fits, done]

theorem exec_txprops_of_none (ready : s.tx.state ≠ .unconfigured) (failed : txSetProps p s.tx = none) :
    exec (.txprops (.fits p)) s = raise .invalidConfiguration s := by
  simp only [exec, execTxprops, ifTxConfigured_of_configured ready, ifFits_fits, failed]

theorem exec_txprops_of_supported (ready : s.tx.state ≠ .unconfigured) (supported : PropsSupported p) :
    ∃ tx, txSetProps p s.tx = some tx ∧ exec (.txprops (.fits p)) s = respond [] (s.setTx tx) := by
  obtain ⟨tx, done⟩ := Option.isSome_iff_exists.1 (txSetProps_isSome_iff.2 supported)
  exact ⟨tx, done, exec_txprops_of_some ready done⟩

end

theorem decodeTxProps_fits_iff (ops : List Word) : ops.length = 1 ↔ ∃ p, decodeTxProps ops = .fits p := by
  constructor
  · intro one
    obtain ⟨w, rfl⟩ := List.length_eq_one_iff.1 one
    exact ⟨_, rfl⟩
  · rintro ⟨p, fits⟩
    unfold decodeTxProps at fits
    split at fits
    · rfl
    · cases fits

/-- The properties of the worked command of R192: no checksum, no FEC, `QPSK`. -/
def workedProps : PropsOps := { check := 0#8, fec0 := 0#8, fec1 := 0#8, mod := 1#8 }

/-- Settles O25: the ids decide between success and failure, after the two checks of R111. -/
theorem txpropsReplacesTheProperties : Obligations.TxpropsReplacesTheProperties := by
  refine ⟨fun s p ready supported => ?success, fun s o fresh => ifTxConfigured_of_unconfigured fresh _,
    fun s ws ready => ifTxConfigured_of_configured ready _, fun s p ready unsupported => ?failure, decodeTxProps_fits_iff,
    fun s ready cmd => ?worked⟩
  case success =>
    obtain ⟨tx, done, answer⟩ := exec_txprops_of_supported ready supported
    exact ⟨_, answer, rfl, rfl, rfl, txSetProps_some done⟩
  case failure =>
    have failed : txSetProps p s.tx = none :=
      Option.not_isSome_iff_eq_none.1 fun done => unsupported (txSetProps_isSome_iff.1 done)
    exact exec_txprops_of_none ready failed
  case worked =>
    have taken : takeCommand s.cmd = some (0x02000001#32, [0x01000000#32], []) := by rw [cmd]; rfl
    have decoded : decode 0x02000001#32 [0x01000000#32] = .command (.txprops (.fits workedProps)) := by decide
    have supported : PropsSupported workedProps := by decide
    obtain ⟨tx, done, answer⟩ := exec_txprops_of_supported (s := s.setCmd []) ready supported
    refine ⟨_, (step_of_command taken decoded).trans answer, rfl, ?_⟩
    obtain ⟨check, fec0, fec1, md, -⟩ := txSetProps_some done
    have props : modCode tx.mod ++ fecCode tx.fec1 ++ fecCode tx.fec0 ++ checkCode tx.check = encodeProps workedProps := by
      rw [check, fec0, fec1, md]; rfl
    exact props

/-! ### The vectors of a frame (R196) -/

theorem lfsrIter_add (m n : Nat) (r : BitVec 16) : lfsrIter (m + n) r = lfsrIter n (lfsrIter m r) := by
  simp only [lfsrIter_eq_iterate, Nat.add_comm m n, Function.iterate_add_apply]

/-- R145: symbol `i` of a frame finds the register as the pilots of the symbols before it left it. -/
theorem fillAll_getD (p : List Tag) (ds : List (List Cpx)) (pl : BitVec 16) {i : Nat} (inside : i < ds.length) :
    (fillAll p ds pl).1.getD i [] = (fill p (ds.getD i []) (lfsrIter (i * countTag .pilot p) pl)).1 := by
  induction ds generalizing i pl with
  | nil => cases inside
  | cons d ds ih =>
    cases i with
    | zero => rw [Nat.zero_mul, lfsrIter_zero]; rfl
    | succ i =>
      have register : lfsrIter ((i + 1) * countTag .pilot p) pl = lfsrIter (i * countTag .pilot p) (fill p d pl).2 := by
        rw [fill_register, ← lfsrIter_add, Nat.succ_mul, Nat.add_comm]
      rw [register]
      exact ih _ (Nat.lt_of_succ_lt_succ inside)

theorem chunks_getD (n : Nat) {k i : Nat} (l : List Cpx) (inside : i < k) :
    (chunks n k l).getD i [] = (l.drop (i * n)).take n := by
  rw [List.getD_eq_getElem?_getD, chunks_getElem? _ _ _ _ inside, Option.getD_some]

section
variable (a b : List Cpx) (fs : List (List Cpx)) (z : List Cpx)

/-- Between the two preamble vectors and the tail vector stand the filled symbols. -/
theorem frame_getD_symbol {i : Nat} (inside : i < fs.length) : ([a, b] ++ fs ++ [z]).getD (2 + i) [] = fs.getD i [] := by
  rw [List.append_assoc, List.getD_append_right _ _ _ _ (by simp), List.getD_append _ _ _ _ (by simpa using inside)]
  simp

theorem frame_getD_tail : ([a, b] ++ fs ++ [z]).getD (2 + fs.length) [] = z := by
  have first : ([a, b] ++ fs).length = 2 + fs.length := by simp; omega
  rw [List.getD_append_right _ _ _ _ first.le, first, Nat.sub_self]
  rfl

end

section
variable (tx : TxUnit) (user payload : List Byte)

/-- The modem symbols of the header (R195, R196). -/
def headerSymbols : List Cpx :=
  mapSymbols (protect tx.check tx.fec0 (fullHeader tx user payload.length)) tx.hdrMod (txHdrCounts tx).nsym tx.derived.nData

/-- The modem symbols of the payload (R195, R196). -/
def payloadSymbols : List Cpx :=
  mapSymbols (protect tx.check tx.fec1 payload) tx.mod (txPayCounts tx payload.length).nsym tx.derived.nData

/-- The data of the OFDM symbols of a frame, header before payload. -/
def frameData : List (List Cpx) :=
  chunks tx.derived.nData (txHdrCounts tx).nsym (headerSymbols tx user payload) ++
    chunks tx.derived.nData (txPayCounts tx payload.length).nsym (payloadSymbols tx payload)

theorem frameVectors_eq : frameVectors tx user payload =
    [tx.derived.short, tx.derived.long] ++ (fillAll tx.table (frameData tx user payload) Config.seedPilot).1 ++ [zeros tx.m] := rfl

theorem frameData_length : (frameData tx user payload).length = (txHdrCounts tx).nsym + (txPayCounts tx payload.length).nsym := by
  simp [frameData]

theorem frameVectors_symbol {i : Nat} (inside : i < (txHdrCounts tx).nsym + (txPayCounts tx payload.length).nsym) :
    (frameVectors tx user payload).getD (2 + i) [] =
      (fill tx.table ((frameData tx user payload).getD i []) (lfsrIter (i * countTag .pilot tx.table) Config.seedPilot)).1 := by
  have symbol : i < (frameData tx user payload).length := by rwa [frameData_length]
  rw [frameVectors_eq, frame_getD_symbol _ _ _ _ (by rwa [fillAll_length]), fillAll_getD _ _ _ symbol]

theorem frameVectors_header {i : Nat} (inside : i < (txHdrCounts tx).nsym) :
    (frameVectors tx user payload).getD (2 + i) [] =
      (fill tx.table (((headerSymbols tx user payload).drop (i * tx.derived.nData)).take tx.derived.nData)
        (lfsrIter (i * countTag .pilot tx.table) Config.seedPilot)).1 := by
  rw [frameVectors_symbol _ _ _ (by omega), frameData, List.getD_append _ _ _ _ (by rwa [chunks_length]), chunks_getD _ _ inside]

theorem frameVectors_payload {i : Nat} (inside : i < (txPayCounts tx payload.length).nsym) :
    (frameVectors tx user payload).getD (2 + (txHdrCounts tx).nsym + i) [] =
      (fill tx.table (((payloadSymbols tx payload).drop (i * tx.derived.nData)).take tx.derived.nData)
        (lfsrIter (((txHdrCounts tx).nsym + i) * countTag .pilot tx.table) Config.seedPilot)).1 := by
  rw [Nat.add_assoc, frameVectors_symbol _ _ _ (by omega), frameData, List.getD_append_right _ _ _ _ (by simp), chunks_length,
    Nat.add_sub_cancel_left, chunks_getD _ _ inside]

theorem frameVectors_tail :
    (frameVectors tx user payload).getD (2 + (txHdrCounts tx).nsym + (txPayCounts tx payload.length).nsym) [] = zeros tx.m := by
  have behind : 2 + (txHdrCounts tx).nsym + (txPayCounts tx payload.length).nsym =
      2 + (fillAll tx.table (frameData tx user payload) Config.seedPilot).1.length := by
    rw [fillAll_length, frameData_length, Nat.add_assoc]
  rw [frameVectors_eq, behind, frame_getD_tail]

end

theorem assemblePayload_length {tx : TxUnit} {a : AssembleOps} (shape : AssembleShape tx a) :
    (assemblePayload tx a).length = a.payloadLen.toNat :=
  unpackBytes_length (by rw [List.length_drop, shape, Nat.add_sub_cancel_left])

/-- Settles O28: the frame is read off `frameVectors`, cut into preambles, header, payload and tail. -/
theorem assembleBuildsTheFrame : Obligations.AssembleBuildsTheFrame := by
  intro s a ready shape fits tx n nH nP hdr hs ps slice reg
  have len : (assemblePayload tx a).length = n := assemblePayload_length shape
  have nPay : (txPayCounts tx (assemblePayload tx a).length).nsym = nP := by rw [len]; rfl
  have payloadSyms : payloadSymbols tx (assemblePayload tx a) = ps := by rw [payloadSymbols, nPay]; rfl
  have headerSyms : headerSymbols tx (assembleUser tx a) (assemblePayload tx a) = hs := by rw [headerSymbols, len]; rfl
  refine ⟨_, execAssemble_of_legal ready shape fits, rfl, rfl, rfl, ?unit, ?count, rfl, rfl, fun i inside => ?headerSymbol,
    fun i inside => ?payloadSymbol, ?tail⟩
  case unit =>
    change txAssemble tx _ _ = _
    rw [txAssemble, nPay]
    rfl
  case count => exact nPay ▸ frameVectors_length _ _ _
  case headerSymbol => exact headerSyms ▸ frameVectors_header _ _ _ inside
  case payloadSymbol => exact payloadSyms ▸ frameVectors_payload tx (assembleUser tx a) _ (nPay.symm ▸ inside)
  case tail => exact nPay ▸ frameVectors_tail tx (assembleUser tx a) (assemblePayload tx a)

end Sys2Proof.Machine

/-! SUPPORT. A frame written out: what one `WRSYM` answers (43_frame_generator.md R197, R198), and the run of a whole frame (R199,
30_encoding.md R110 (b)). -/

namespace Sys2Proof.Machine

/-! ### One symbol (R197, R198) -/

/-- The words of the response to a `WRSYM` in a frame: `is_last`, then the samples of the block (R99). -/
def symbolWords (tx : TxUnit) : List Word :=
  isLastWord (tx.cursor + 1 == tx.nTot) :: (txWriteSymbol tx).1.flatMap wordsOfCpx

/-- The state after a `WRSYM` in a frame. -/
def symbolWritten (s : State) : State :=
  (s.setTx (txWriteSymbol s.tx).2).pushRsp (statusWord .ok (symbolWords s.tx).length :: symbolWords s.tx)

@[simp] theorem symbolWritten_tx (s : State) : (symbolWritten s).tx = (txWriteSymbol s.tx).2 := rfl

@[simp] theorem symbolWritten_rsp (s : State) :
    (symbolWritten s).rsp = s.rsp ++ statusWord .ok (symbolWords s.tx).length :: symbolWords s.tx := rfl

theorem exec_wrsym_of_busy {s : State} (ready : s.tx.state ≠ .unconfigured) (busy : s.tx.state ≠ .idle) :
    exec (.wrsym (.fits ())) s = .next (symbolWritten s) := by
  simp only [exec, execWrsym, ifTxConfigured_of_configured ready, ifFits_fits, if_neg busy]
  rfl

theorem exec_wrsym_of_idle {s : State} (idle : s.tx.state = .idle) :
    exec (.wrsym (.fits ())) s = raise .notAssembled s := by
  have ready : s.tx.state ≠ .unconfigured := by rw [idle]; decide
  simp only [exec, execWrsym, ifTxConfigured_of_configured ready, ifFits_fits, if_pos idle]

theorem isLastWord_eq (n total : Nat) : isLastWord (n == total) = if n = total then 1#32 else 0#32 := by
  rw [beq_eq_decide]
  split <;> simp [*, isLastWord]

theorem txWriteSymbol_block_length (tx : TxUnit) : (txWriteSymbol tx).1.length = tx.m + tx.cpLen := asmBlock_length _ _ _ _ _ _

theorem flatMap_wordsOfCpx_length (zs : List Cpx) : (zs.flatMap wordsOfCpx).length = 2 * zs.length := by
  simp [wordsOfCpx, List.length_flatMap, Nat.mul_comm]

theorem symbolWords_length (tx : TxUnit) : (symbolWords tx).length = 1 + 2 * (tx.m + tx.cpLen) := by
  rw [symbolWords, List.length_cons, flatMap_wordsOfCpx_length, txWriteSymbol_block_length, Nat.add_comm]

/-- R198: the state at each cursor of a frame. -/
theorem stateOf_ranges (nHdr nPay : Nat) :
    stateOf nHdr nPay 0 = .assembled ∧ stateOf nHdr nPay 1 = .preamble ∧
    (∀ c, 2 ≤ c → c < 2 + nHdr → stateOf nHdr nPay c = .header) ∧
    (∀ c, 2 + nHdr ≤ c → c < 2 + nHdr + nPay → stateOf nHdr nPay c = .payload) ∧
    stateOf nHdr nPay (2 + nHdr + nPay) = .tail := by
  have behind {c : Nat} (least : 2 ≤ c) : stateOf nHdr nPay c =
      if c < 2 + nHdr then .header else if c < 2 + nHdr + nPay then .payload else .tail := by
    rw [stateOf, if_neg (by omega), if_neg (by omega)]
  refine ⟨rfl, rfl, fun c least most => ?_, fun c least most => ?_, ?_⟩
  · rw [behind least, if_pos most]
  · rw [behind (by omega), if_neg (by omega), if_pos most]
  · rw [behind (by omega), if_neg (by omega), if_neg (by omega)]

/-- Settles O29: the response is `symbolWords`, with `is_last` read off the cursor. -/
theorem wrsymWritesTheNextSymbol : Obligations.WrsymWritesTheNextSymbol := by
  refine ⟨stateOf_ranges, fun s ready busy => ?_⟩
  rw [exec_wrsym_of_busy ready busy, symbolWritten, symbolWords_length, symbolWords, isLastWord_eq]
  simp only [decide_eq_true_eq]
  rfl

/-! ### The symbols of a frame (R199) -/

/-- A unit with `n` symbols of its frame left to write: it is `IDLE` exactly when none is. -/
structure SymbolsLeft (tx : TxUnit) (n : Nat) : Prop where
  ready : tx.state ≠ .unconfigured
  left : tx.cursor + n = tx.nTot
  idle : tx.state = .idle ↔ n = 0

namespace SymbolsLeft

theorem busy {tx : TxUnit} {n : Nat} (h : SymbolsLeft tx (n + 1)) : tx.state ≠ .idle := fun idle => nomatch h.idle.1 idle

/-- R197: a written symbol leaves one less. -/
theorem written {tx : TxUnit} {n : Nat} (h : SymbolsLeft tx (n + 1)) : SymbolsLeft (txWriteSymbol tx).2 n where
  ready := (txWriteSymbol_keepsConfig tx).1
  left := by have := h.left; simp; omega
  idle := by
    have last : tx.cursor + 1 = tx.nTot ↔ n = 0 := by have := h.left; omega
    rw [txWriteSymbol_state, ← last]
    split
    · exact iff_of_true rfl ‹_›
    · exact iff_of_false (stateOf_ne_idle _ _ _) ‹_›

theorem iterate {s : State} {n k : Nat} (h : SymbolsLeft s.tx (n + k)) : SymbolsLeft (symbolWritten^[k] s).tx n := by
  induction k generalizing s with
  | zero => exact h
  | succ k ih => exact ih (s := symbolWritten s) h.written

theorem exec_wrsym {s : State} {n : Nat} (h : SymbolsLeft s.tx (n + 1)) : exec (.wrsym (.fits ())) s = .next (symbolWritten s) :=
  exec_wrsym_of_busy h.ready h.busy

/-- As many `WRSYM` as symbols are left all succeed. -/
theorem execAll_wrsym {s : State} {n k : Nat} (h : SymbolsLeft s.tx (n + k)) :
    execAll (List.replicate k (.wrsym (.fits ()))) s = .next (symbolWritten^[k] s) := by
  induction k generalizing s with
  | zero => rfl
  | succ k ih =>
    rw [List.replicate_succ, execAll, h.exec_wrsym]
    exact ih (s := symbolWritten s) h.written

end SymbolsLeft

/-- Writing symbols keeps the dimensions and the length of the frame. -/
theorem symbolWritten_iterate_keeps (k : Nat) (s : State) : (symbolWritten^[k] s).tx.m = s.tx.m ∧
    (symbolWritten^[k] s).tx.cpLen = s.tx.cpLen ∧ (symbolWritten^[k] s).tx.nTot = s.tx.nTot := by
  induction k generalizing s with
  | zero => exact ⟨rfl, rfl, rfl⟩
  | succ k ih => exact ih (symbolWritten s)

/-! ### Responses as the host reads them (R93, R99) -/

theorem responseOf_append {s t : State} {ws : List Word} (answer : t.rsp = s.rsp ++ ws) : responseOf s t = ws := by
  rw [responseOf, answer, List.drop_left]

theorem isOkResponse_statusWord (st : Status) (n : Nat) (ws : List Word) :
    isOkResponse (statusWord st n :: ws) = decide (st = .ok) := by
  rw [isOkResponse, List.headD_cons, statusWord_low, beq_eq_decide]
  exact decide_eq_decide.2 ⟨statusCode_injective, congrArg statusCode⟩

/-- R99: the response to a `WRSYM` says whether it wrote the last symbol. -/
theorem isLastResponse_symbolWritten {s : State} {n : Nat} (h : SymbolsLeft s.tx (n + 1)) :
    isLastResponse (responseOf s (symbolWritten s)) = decide (n = 0) := by
  have last : (s.tx.cursor + 1 == s.tx.nTot) = decide (n = 0) := by
    rw [beq_eq_decide]
    exact decide_eq_decide.2 (by have := h.left; omega)
  rw [responseOf_append (symbolWritten_rsp s), isLastResponse, isOkResponse_statusWord, symbolWords, last]
  cases decide (n = 0) <;> simp [isLastWord]

/-- R110 (b): `WRSYM` until `is_last` writes all the symbols that are left. -/
theorem pullSymbols_eq {s : State} {n fuel : Nat} (h : SymbolsLeft s.tx (n + 1)) (enough : n < fuel) :
    pullSymbols fuel s = (List.replicate (n + 1) (.wrsym (.fits ())), .next (symbolWritten^[n + 1] s)) := by
  induction n generalizing s fuel with
  | zero =>
    obtain ⟨fuel, rfl⟩ := Nat.exists_eq_add_one.2 enough
    simp only [pullSymbols, h.exec_wrsym, isLastResponse_symbolWritten h]
    rfl
  | succ n ih =>
    obtain ⟨fuel, rfl⟩ := Nat.exists_eq_add_one.2 (Nat.zero_lt_of_lt enough)
    have rest := ih (s := symbolWritten s) (fuel := fuel) h.written (by omega)
    simp only [pullSymbols, h.exec_wrsym, isLastResponse_symbolWritten h, rest]
    rfl

/-! ### `ASSEMBLE` and the frame after it -/

/-- What an `ASSEMBLE` answers: `OK` and a new frame, or a failure (R196). -/
theorem exec_assemble_cases (a : AssembleOps) (s : State) :
    (∃ user payload, exec (.assemble (.fits a)) s = respond [] (s.setTx (txAssemble s.tx user payload))) ∨
      ∃ st, st ≠ .ok ∧ exec (.assemble (.fits a)) s = raise st s := by
  simp only [exec, execAssemble, ifTxConfigured, ifFits_fits]
  split
  · exact .inr ⟨_, by decide, rfl⟩
  · split
    · exact .inr ⟨_, by decide, rfl⟩
    · split
      · exact .inr ⟨_, by decide, rfl⟩
      · split
        · exact .inr ⟨_, by decide, rfl⟩
        · exact .inl ⟨_, _, rfl⟩

/-- R280: the status word of a response without payload tells the status. -/
theorem statusWord_zero_eq_iff (st : Status) : statusWord st 0 = 0x00000000#32 ↔ st = .ok := by
  refine ⟨fun zero => statusCode_injective ?_, fun ok => ok ▸ rfl⟩
  rw [← statusWord_low st 0, zero]
  rfl

section
variable {a : AssembleOps} {s t : State}

/-- R196: a successful `ASSEMBLE` leaves a frame of which no symbol is written. -/
theorem exec_assemble_ok (done : exec (.assemble (.fits a)) s = .next t) (ok : t.rsp = s.rsp ++ [0x00000000#32]) :
    0 < t.tx.nTot ∧ SymbolsLeft t.tx t.tx.nTot := by
  rcases exec_assemble_cases a s with ⟨user, payload, answer⟩ | ⟨st, failure, answer⟩
  · cases answer.symm.trans done
    exact ⟨Nat.succ_pos _, nofun, Nat.zero_add _, iff_of_false nofun nofun⟩
  · obtain ⟨rsp, -⟩ := raise_next (answer.symm.trans done)
    have zero : statusWord st 0 = 0x00000000#32 := List.singleton_inj.1 (List.append_cancel_left (rsp.symm.trans ok))
    exact absurd ((statusWord_zero_eq_iff st).1 zero) failure

theorem exec_assemble_failed (done : exec (.assemble (.fits a)) s = .next t) (failed : t.rsp ≠ s.rsp ++ [0x00000000#32]) :
    isOkResponse (responseOf s t) = false := by
  rcases exec_assemble_cases a s with ⟨user, payload, answer⟩ | ⟨st, failure, answer⟩
  · exact absurd (respond_next (answer.symm.trans done)).1 failed
  · rw [responseOf_append (raise_next (answer.symm.trans done)).1, isOkResponse_statusWord, decide_eq_false failure]

/-- R110 (b): `TXFRAME` is the `ASSEMBLE` and a `WRSYM` for every symbol of its frame. -/
theorem txFrame_ok (done : exec (.assemble (.fits a)) s = .next t) (ok : t.rsp = s.rsp ++ [0x00000000#32]) :
    txFrame a s = (.assemble (.fits a) :: List.replicate t.tx.nTot (.wrsym (.fits ())), .next (symbolWritten^[t.tx.nTot] t)) := by
  obtain ⟨pos, left⟩ := exec_assemble_ok done ok
  obtain ⟨n, total⟩ := Nat.exists_eq_add_one.2 pos
  have accepted : isOkResponse (responseOf s t) = true := by rw [responseOf_append ok]; rfl
  have frame := pullSymbols_eq (total ▸ left) (fuel := t.tx.nTot + 1) (by omega)
  rw [← total] at frame
  simp only [txFrame, done, accepted, frame, if_true]

theorem txFrame_failed (done : exec (.assemble (.fits a)) s = .next t) (failed : t.rsp ≠ s.rsp ++ [0x00000000#32]) :
    txFrame a s = ([.assemble (.fits a)], .next t) := by
  simp only [txFrame, done, exec_assemble_failed done failed]
  rfl

end

/-- Settles O30: the symbols left go down by one with every `WRSYM`, from `N_TOT` to none. -/
theorem frameIsNTotSymbolsLong : Obligations.FrameIsNTotSymbolsLong := by
  refine ⟨fun s t a done ok => ?_, fun s t a => txFrame_failed⟩
  obtain ⟨-, left⟩ := exec_assemble_ok done ok
  have all : SymbolsLeft t.tx (0 + t.tx.nTot) := by rwa [Nat.zero_add]
  refine ⟨fun k below => ?each, _, all.execAll_wrsym, exec_wrsym_of_idle (all.iterate.idle.2 rfl), txFrame_ok done ok⟩
  case each =>
    obtain ⟨n, total⟩ : ∃ n, t.tx.nTot = n + 1 + k := ⟨t.tx.nTot - (k + 1), by omega⟩
    have rest : SymbolsLeft t.tx (n + 1 + k) := total ▸ left
    have next : SymbolsLeft (symbolWritten^[k] t).tx (n + 1) := rest.iterate
    obtain ⟨m, cpLen, nTot⟩ := symbolWritten_iterate_keeps k t
    have last : (symbolWritten^[k] t).tx.cursor + 1 = t.tx.nTot ↔ k + 1 = t.tx.nTot := by
      have := next.left; omega
    refine ⟨_, _, (txWriteSymbol (symbolWritten^[k] t).tx).1, rest.execAll_wrsym, next.exec_wrsym, ?_, ?_⟩
    · rw [txWriteSymbol_block_length, m, cpLen]
    · rw [symbolWritten_rsp, symbolWords_length, symbolWords, isLastWord_eq, m, cpLen, nTot]
      simp only [last]

end Sys2Proof.Machine

/-! SUPPORT. A sent header and a sent payload, received whole (44_frame_synchronizer.md R241 to R245). -/

namespace Sys2Proof.Machine

/-! ### The ids of the descriptor (R12, R194) -/

@[simp] theorem checkOfCode_checkCode (c : CheckId) : checkOfCode (checkCode c) = some c := by cases c <;> rfl

@[simp] theorem fecOfCode_fecCode (f : FecId) : fecOfCode (fecCode f) = some f := by cases f <;> rfl

@[simp] theorem modOfCode_modCode (md : ModId) : modOfCode (modCode md) = some md := by cases md <;> rfl

/-! ### Decoding (R241, R245) -/

/-- R241: the header of a message whose symbols arrived is that message, and valid. -/
theorem decodeHeader_sent {rx : RxUnit} {hdr : List Byte}
    (derived : rx.derived = rxDerive rx.m rx.table rx.hdrCheck rx.hdrFec rx.hdrMod rx.hUser)
    (data : 0 < rx.derived.nData) (len : hdr.length = rx.hUser + Config.hDesc)
    (bits : rx.rxbits =
      (mapSymbols (protect rx.hdrCheck rx.hdrFec hdr) rx.hdrMod rx.derived.nHdr rx.derived.nData).flatMap (demodulate rx.hdrMod)) :
    decodeHeader rx = (hdr, true) := by
  have counted : (⟨rx.derived.hdrEncLen, rx.derived.hdrNmod, rx.derived.nHdr⟩ : Counts) =
      counts rx.hdrCheck rx.hdrFec rx.hdrMod hdr.length rx.derived.nData := by rw [len, derived]; rfl
  rw [decodeHeader, unmap_protect data counted bits, ← len, fecDecode_protect]
  simp [take_checkCompute, checkVerify_checkCompute]

/-- R245: the payload whose symbols arrived is reported valid. -/
theorem finishPayload_sent {rx : RxUnit} {payload : List Byte} (data : 0 < rx.derived.nData) (len : rx.plen = payload.length)
    (counted : (⟨rx.payEncLen, rx.payNmod, rx.nPay⟩ : Counts) = counts rx.pcheck rx.pfec rx.pmod rx.plen rx.derived.nData)
    (bits : rx.rxbits =
      (mapSymbols (protect rx.pcheck rx.pfec payload) rx.pmod rx.nPay rx.derived.nData).flatMap (demodulate rx.pmod)) :
    finishPayload rx = toDetect (emit (.frame true rx.plen rx.hdrUser payload) rx) := by
  rw [finishPayload, unmap_protect data (len ▸ counted) bits, len, fecDecode_protect]
  simp [take_checkCompute, checkVerify_checkCompute]

/-- R242, R243: the fields of a sent header. -/
theorem parseHeader_fullHeader {tx : TxUnit} {user : List Byte} {n hUser : Nat} (len : user.length = hUser) (fits : n ≤ 65535) :
    parseHeader hUser (fullHeader tx user n) =
      some { user := user, plen := n, pcheck := tx.check, pfec := tx.fec1, pmod := tx.mod } := by
  subst len
  have value := lengthBytes_value fits
  simp [parseHeader, fullHeader, descriptor, -BitVec.toNat_ofNat, value]

/-- What follows a valid header with payload symbols (R244). -/
theorem finishHeader_valid {rx : RxUnit} {body : List Byte} {h : HeaderFields} (decoded : decodeHeader rx = (body, true))
    (parsed : parseHeader rx.hUser body = some h) (symbols : 0 < (counts h.pcheck h.pfec h.pmod h.plen rx.derived.nData).nsym) :
    finishHeader rx = enterPayload h (emit (.header true h.user) (storeHeader h rx)) := by
  have entered : finishHeader rx = beginPayload h rx := by simp only [finishHeader, decoded, parsed]
  rw [entered]
  rcases beginPayload_cases h rx with ⟨none, -⟩ | ⟨-, begun⟩
  · have nPay : (enterPayload h (emit (.header true h.user) (storeHeader h rx))).nPay =
        (counts h.pcheck h.pfec h.pmod h.plen rx.derived.nData).nsym := by simp [enterPayload, storeHeader]
    omega
  · exact begun

/-! ### The statements -/

/-- Settles O42: the matched unit has the header's counts, so `unmap`, FEC and checksum give the header back, and its descriptor
names the payload's schemes. -/
theorem headerBitsRoundTrip : Obligations.HeaderBitsRoundTrip := by
  intro tx rx user n table derived paired userLen fits hdr e bits
  obtain ⟨-, -, -, hdrCheck, hdrFec, hdrMod, hUser⟩ := paired
  have data : 0 < rx.derived.nData := by rw [derived]; exact countTag_pos table.2.1
  have len : hdr.length = rx.hUser + Config.hDesc := by rw [fullHeader_length, userLen, hUser]
  have sent : e = protect rx.hdrCheck rx.hdrFec hdr := by rw [hdrCheck, hdrFec]; rfl
  have decoded := decodeHeader_sent derived data len (by rw [bits, sent, hdrMod])
  have parsed := parseHeader_fullHeader (tx := tx) (userLen.trans hUser.symm) fits
  refine ⟨decoded, parsed, fun symbols => ?_⟩
  rw [finishHeader_valid decoded parsed symbols, emit_eq]
  rfl

/-- Settles O43: the record goes into the queue before `toDetect`, which keeps it. -/
theorem payloadBitsRoundTrip : Obligations.PayloadBitsRoundTrip := by
  intro rx payload data len counted bits
  rw [finishPayload_sent data len counted bits, toDetect_emit, emit_evq]
  rfl

end Sys2Proof.Machine

/-! SUPPORT. The commands of the RXU: `RXCFG` (30_encoding.md R100, 44_frame_synchronizer.md R221), `EXECUTE` (R222, R249), `RXRESET`
(R247) and `RXSETCB` (R248), and the initial state they leave (10_state.md R41, R246). -/

namespace Sys2Proof.Machine

/-! ### The initial state (R41, R246) -/

/-- R246: `to_detect()` clears control, estimate, counter, decode and parsed-header state. -/
theorem toDetect_initial (rx : RxUnit) : RxInitial (toDetect rx) where
  state := rfl
  estimates := ⟨rfl, rfl, rfl, rfl⟩
  counters := ⟨rfl, rfl, rfl, rfl, rfl⟩
  best := ⟨rfl, rfl, rfl⟩
  decode := ⟨rfl, rfl, rfl⟩
  parsed := ⟨rfl, rfl, rfl, rfl, rfl⟩
  counts := ⟨rfl, rfl, rfl⟩

/-- R41: nothing of the initial state is in the window. -/
theorem initialRx_initial (rx : RxUnit) : RxInitial (initialRx rx) := by
  obtain ⟨state, estimates, counters, best, decode, parsed, counts⟩ := toDetect_initial rx
  exact ⟨state, estimates, counters, best, decode, parsed, counts⟩

theorem initialRx_idem (rx : RxUnit) : initialRx (initialRx rx) = initialRx rx := rfl

/-! ### `RXCFG` (R100, R221) -/

/-- Operand words that fit the layout of `RXCFG`: the nine words before the table, and the table. -/
theorem decodeRxCfg_fits {ops : List Word} {c : RxCfgOps} (h : decodeRxCfg ops = .fits c) :
    ∃ w0 w1 w2 w3 w4 w5 w6 w7 w8 tab, ops = w0 :: w1 :: w2 :: w3 :: w4 :: w5 :: w6 :: w7 :: w8 :: tab ∧
      w0.extractLsb' 16 16 = 0#16 ∧ tab.length = tableWordCount w8.toNat ∧
      c = { m := w0.extractLsb' 0 16, cpLen := w1.extractLsb' 0 16, taperLen := w1.extractLsb' 16 16,
            hdrCheck := w2.extractLsb' 0 8, hdrFec := w2.extractLsb' 8 8, hdrMod := w2.extractLsb' 16 8,
            hUser := w2.extractLsb' 24 8, maxSyms := w3, detT2 := w4, longT2 := w5, alpha := w6, kappa := w7,
            table := unpackTable w8.toNat tab } := by
  unfold decodeRxCfg at h
  split at h
  · split at h
    · rename_i shape
      exact ⟨_, _, _, _, _, _, _, _, _, _, rfl, shape.1, shape.2, (Operands.fits.inj h).symm⟩
    · cases h
  · cases h

/-- Nine words or more have nine words before the table. -/
theorem exists_nine_words {ops : List Word} (enough : 9 ≤ ops.length) :
    ∃ w0 w1 w2 w3 w4 w5 w6 w7 w8 tab, ops = w0 :: w1 :: w2 :: w3 :: w4 :: w5 :: w6 :: w7 :: w8 :: tab := by
  have word (i : Nat) (below : i < 9) : ops.drop i = ops[i] :: ops.drop (i + 1) := List.drop_eq_getElem_cons (by omega)
  refine ⟨ops[0], ops[1], ops[2], ops[3], ops[4], ops[5], ops[6], ops[7], ops[8], ops.drop 9, ?_⟩
  rw [← word 8 (by omega), ← word 7 (by omega), ← word 6 (by omega), ← word 5 (by omega), ← word 4 (by omega),
    ← word 3 (by omega), ← word 2 (by omega), ← word 1 (by omega), ← word 0 (by omega), List.drop_zero]

theorem decodeRxCfg_fits_iff (ops : List Word) : (∃ c, decodeRxCfg ops = .fits c) ↔
    ops.length = 9 + ceilDiv (ops.getD 8 0#32).toNat 16 ∧ (ops.getD 0 0#32).extractLsb' 16 16 = 0#16 := by
  constructor
  · rintro ⟨c, h⟩
    obtain ⟨w0, w1, w2, w3, w4, w5, w6, w7, w8, tab, rfl, zero, count, -⟩ := decodeRxCfg_fits h
    have words : tab.length + 9 = 9 + tableWordCount w8.toNat := by omega
    exact ⟨words, zero⟩
  · rintro ⟨words, zero⟩
    obtain ⟨w0, w1, w2, w3, w4, w5, w6, w7, w8, tab, rfl⟩ := exists_nine_words (ops := ops) (by omega)
    have words : tab.length + 9 = 9 + tableWordCount w8.toNat := words
    exact ⟨_, if_pos ⟨zero, by omega⟩⟩

/-- R221: a legal `RXCFG` configures an unconfigured unit, with the schemes its ids name. -/
theorem rxConfigure_of_legal {c : RxCfgOps} {rx : RxUnit} (fresh : rx.state = .unconfigured) (legal : RxCfgLegal c) :
    ∃ rx', rxConfigure c rx = some rx' ∧ checkOfCode c.hdrCheck = some rx'.hdrCheck ∧ fecOfCode c.hdrFec = some rx'.hdrFec ∧
      modOfCode c.hdrMod = some rx'.hdrMod := by
  obtain ⟨even, least, most, prefixed, tapered, valid, check, fec, md, syms, det, long, alpha, kappa⟩ := legal
  obtain ⟨check, hcheck⟩ := Option.isSome_iff_exists.1 check
  obtain ⟨fec, hfec⟩ := Option.isSome_iff_exists.1 fec
  obtain ⟨md, hmod⟩ := Option.isSome_iff_exists.1 md
  have dims := (legalDims_iff _ _ _).2 ⟨even, least, most, prefixed, tapered⟩
  have some_syms : ¬ c.maxSyms.toNat < 1 := by omega
  have tuning : legalTuning (numOfWord c.detT2) (numOfWord c.longT2) (numOfWord c.alpha) (numOfWord c.kappa) = true := by
    simp only [legalTuning, det, long, alpha, kappa, and_self, decide_true, Bool.and_self]
  simp [rxConfigure, fresh, dims, valid, hcheck, hfec, hmod, some_syms, tuning]

theorem exec_rxcfg_of_some {s : State} {c : RxCfgOps} {rx : RxUnit} (h : rxConfigure c s.rx = some rx) :
    exec (.rxcfg (.fits c)) s = respond [] (s.setRx rx) := by
  simp only [exec, execRxcfg, ifFits_fits, h]

/-- Settles O31: the effect is read off the unit that `rxConfigure` leaves, the fields off the words before the table. -/
theorem rxcfgConfiguresTheUnit : Obligations.RxcfgConfiguresTheUnit := by
  refine ⟨fun s c fresh legal => ?effect, fun s ws => rfl, decodeRxCfg_fits_iff, fun ops c h => ?fields⟩
  case effect =>
    obtain ⟨rx, done, check, fec, md⟩ := rxConfigure_of_legal fresh legal
    refine ⟨_, exec_rxcfg_of_some done, rfl, rfl, rfl, ?_⟩
    obtain ⟨-, valid, -, -, _, _, _, rfl⟩ := rxConfigure_some done
    obtain ⟨-, noCode3, -, -⟩ := (validate_ok_iff _ _).1 valid
    exact ⟨rfl, rfl, rfl, map_tagCode_tagsOf noCode3, checkCode_of_checkOfCode check, fecCode_of_fecOfCode fec,
      modCode_of_modOfCode md, rfl, rfl, rfl, rfl, rfl, rfl, rfl, initialRx_initial _, rfl, rfl, rfl⟩
  case fields =>
    obtain ⟨w0, w1, w2, w3, w4, w5, w6, w7, w8, tab, rfl, -, count, rfl⟩ := decodeRxCfg_fits h
    have entries : (unpackTable w8.toNat tab).length = w8.toNat := unpackTable_length count
    refine ⟨rfl, rfl, rfl, rfl, rfl, rfl, rfl, rfl, rfl, rfl, rfl, rfl, entries, fun k hk => ?_⟩
    have word : 9 + k / 16 = k / 16 + 9 := Nat.add_comm _ _
    rw [unpackTable_getD tab (entries ▸ hk), word]
    rfl

/-! ### `RXRESET` (R247) -/

theorem exec_rxreset_of_configured {s : State} (ready : s.rx.state ≠ .unconfigured) :
    exec (.rxreset (.fits ())) s = respond [] (s.setRx (initialRx s.rx)) := if_neg ready

theorem decodeNone_fits_iff (ops : List Word) : decodeNone ops = .fits () ↔ ops.length = 0 := by
  cases ops with
  | nil => exact iff_of_true rfl rfl
  | cons w ws => exact iff_of_false nofun nofun

/-- Settles O48: a configured unit is left as `initialRx` leaves it, which a second time changes nothing. -/
theorem rxresetReachesTheInitialState : Obligations.RxresetReachesTheInitialState := by
  refine ⟨fun s ready => ?_, fun s fresh => if_pos fresh, fun s ws => rfl, decodeNone_fits_iff⟩
  refine ⟨_, exec_rxreset_of_configured ready, rfl, rfl, rfl, initialRx_initial _, .refl _, rfl, rfl, rfl,
    _, exec_rxreset_of_configured nofun, initialRx_idem _⟩

/-- Settles O32: all three ways into the initial state are `toDetect`, two of them with the window cleared. -/
theorem initialStateOfTheReceiver : Obligations.InitialStateOfTheReceiver := by
  refine ⟨fun c rx rx' done => ?_, fun s ready => ?_, fun rx => ⟨toDetect_initial rx, .refl rx, rfl, rfl, rfl⟩⟩
  · obtain ⟨-, -, -, -, _, _, _, rfl⟩ := rxConfigure_some done
    exact ⟨initialRx_initial _, rfl, rfl, rfl⟩
  · exact ⟨_, exec_rxreset_of_configured ready, initialRx_initial _, rfl, rfl, rfl⟩

/-! ### `RXSETCB` (R248) -/

/-- R103: a word fits `RXSETCB` when its bits above the mask are 0. -/
theorem decodeRxSetCb_fits_iff (w : Word) :
    (∃ mask, decodeRxSetCb [w] = .fits mask ∧ w = mask.setWidth 32) ↔ w.toNat < 4 := by
  constructor
  · rintro ⟨mask, -, rfl⟩
    have below : mask.toNat < 4 := mask.isLt
    rwa [BitVec.toNat_setWidth_of_le (by decide)]
  · intro below
    obtain ⟨mask, rfl⟩ : ∃ mask : BitVec 2, w = mask.setWidth 32 := ⟨w.setWidth 2, BitVec.eq_of_toNat_eq (by
      rw [BitVec.toNat_setWidth, BitVec.toNat_setWidth, Nat.mod_eq_of_lt (a := w.toNat) below]
      omega)⟩
    exact ⟨mask, decodeRxSetCb_operandsOf mask, rfl⟩

/-- Settles O49: the two checks of R111, then one field. -/
theorem rxsetcbSetsTheMask : Obligations.RxsetcbSetsTheMask :=
  ⟨fun _ _ ready => ifRxConfigured_of_configured ready _, fun _ _ fresh => ifRxConfigured_of_unconfigured fresh _,
    fun _ _ ready => ifRxConfigured_of_configured ready _, decodeRxSetCb_fits_iff⟩

/-! ### `EXECUTE` (R101, R222, R249) -/

theorem exec_execute_of_configured {s : State} (ready : s.rx.state ≠ .unconfigured) (xs : List SampleWords) :
    exec (.execute (.fits xs)) s = respond [] (s.setRx (rxRun s.rx (xs.map cpxOfWords))) :=
  ifRxConfigured_of_configured ready _

theorem decodeExecute_fits_iff (ops : List Word) :
    (∃ xs, decodeExecute ops = .fits xs) ↔ ∃ n, ops.head? = some n ∧ ops.length = 1 + 2 * n.toNat := by
  cases ops with
  | nil => exact iff_of_false (fun ⟨_, h⟩ => nomatch h) (fun ⟨_, h, _⟩ => nomatch h)
  | cons w ws =>
    have count : ws.length = 2 * w.toNat ↔ (w :: ws).length = 1 + 2 * w.toNat := by rw [List.length_cons]; omega
    simp only [List.head?_cons, Option.some.injEq, exists_eq_left', ← count, decodeExecute]
    by_cases fits : ws.length = 2 * w.toNat <;> simp [fits]

/-- Settles O33: the two checks of R111, then the fold of `rxStep`. -/
theorem executeRunsEverySample : Obligations.ExecuteRunsEverySample :=
  ⟨fun _ xs ready => exec_execute_of_configured ready xs, fun _ ready => exec_execute_of_configured ready [],
    fun _ _ fresh => ifRxConfigured_of_unconfigured fresh _, fun _ _ ready => ifRxConfigured_of_configured ready _,
    decodeExecute_fits_iff⟩

@[simp] theorem rxRun_nil (rx : RxUnit) : rxRun rx [] = rx := rfl

theorem rxRun_cons (rx : RxUnit) (x : Cpx) (xs : List Cpx) : rxRun rx (x :: xs) = rxRun (rxStep rx x) xs := rfl

theorem rxRun_append (rx : RxUnit) (xs ys : List Cpx) : rxRun rx (xs ++ ys) = rxRun (rxRun rx xs) ys := List.foldl_append

theorem rxRun_concat (rx : RxUnit) (xs : List Cpx) (x : Cpx) : rxRun rx (xs ++ [x]) = rxStep (rxRun rx xs) x := rxRun_append rx xs [x]

/-- R249: samples in pieces are the samples. -/
theorem foldl_rxRun (rx : RxUnit) (pieces : List (List Cpx)) : pieces.foldl rxRun rx = rxRun rx pieces.flatten :=
  List.foldl_flatten.symm

/-- R249: one `EXECUTE` per piece runs the pieces one after the other. -/
theorem execAll_execute {s : State} (ready : s.rx.state ≠ .unconfigured) (pieces : List (List SampleWords)) :
    ∃ t, execAll (pieces.map fun xs => .execute (.fits xs)) s = .next t ∧
      t.rx = rxRun s.rx (pieces.flatten.map cpxOfWords) ∧ t.tx = s.tx := by
  induction pieces generalizing s with
  | nil => exact ⟨s, rfl, rfl, rfl⟩
  | cons xs pieces ih =>
    obtain ⟨t, run, rx, tx⟩ := ih (s := (s.setRx (rxRun s.rx (xs.map cpxOfWords))).pushRsp [statusWord .ok 0])
      (rxRun_keepsConfig ready _).1.ready
    refine ⟨t, ?_, ?_, tx⟩
    · rw [List.map_cons, execAll, exec_execute_of_configured ready]
      exact run
    · rw [rx, List.flatten_cons, List.map_append, rxRun_append]
      rfl

/-- Settles O35: each split of the samples is a fold over the same samples, `EXECUTE1` the split into single ones. -/
theorem chunkBoundariesAreInvisible : Obligations.ChunkBoundariesAreInvisible := by
  have split (s : State) (pieces : List (List SampleWords)) (ready : s.rx.state ≠ .unconfigured) :
      ∃ t u, execAll (pieces.map fun xs => .execute (.fits xs)) s = .next t ∧
        exec (.execute (.fits pieces.flatten)) s = .next u ∧ t.rx = u.rx ∧ t.tx = u.tx := by
    obtain ⟨t, run, rx, tx⟩ := execAll_execute ready pieces
    exact ⟨t, _, run, exec_execute_of_configured ready _, rx, tx⟩
  refine ⟨split, fun s xs ready => ?_⟩
  have single := split s (xs.map fun x => [x]) ready
  rwa [List.map_map, ← List.flatMap_def, List.flatMap_singleton'] at single

end Sys2Proof.Machine

/-! SUPPORT. Detection (44_frame_synchronizer.md R223 to R226): the metric and its energy bound, the rules of `DETECT` and `SYNC_SHORT` case
by case, and silence. -/

namespace Sys2Proof

/-! ### Sums of real numbers and of products -/

theorem numSum_range (m : Nat) (f : Nat → Num) : numSum ((List.range m).map f) = ∑ n ∈ Finset.range m, f n := rfl

theorem numSum_eq_sum (xs : List Num) : numSum xs = xs.sum := rfl

theorem Cpx.sum_ofNum {α : Type} (as : List α) (f : α → Num) :
    Cpx.sum (as.map fun a => Cpx.ofNum (f a)) = Cpx.ofNum (numSum (as.map f)) := by
  induction as with
  | nil => rfl
  | cons a as ih =>
    change (Cpx.ofNum (f a)).add (Cpx.sum (as.map fun a => Cpx.ofNum (f a))) = Cpx.ofNum (f a + numSum (as.map f))
    rw [ih]
    simp [Cpx.add, Cpx.ofNum]

theorem Cpx.sum_replicate_zero (n : Nat) : Cpx.sum (List.replicate n Cpx.zero) = Cpx.zero := by
  induction n with
  | zero => rfl
  | succ n ih => exact (Cpx.zero_add _).trans ih

theorem Cpx.normSq_ofNum (r : Num) : (Cpx.ofNum r).normSq = r * r := by simp [Cpx.normSq, Cpx.ofNum]

@[simp] theorem Cpx.normSq_zero : Cpx.zero.normSq = 0 := by simp [Cpx.normSq, Cpx.zero]

theorem Cpx.conj_mul_self (a : Cpx) : a.conj.mul a = Cpx.ofNum a.normSq := by
  simp [Cpx.mul, Cpx.conj, Cpx.ofNum, Cpx.normSq, mul_comm]

theorem Cpx.normSq_eq_zero {a : Cpx} : a.normSq = 0 ↔ a = Cpx.zero := by
  constructor
  · intro none
    have re : a.re * a.re = 0 := by have := mul_self_nonneg a.im; have := mul_self_nonneg a.re; simp only [Cpx.normSq] at none; linarith
    have im : a.im * a.im = 0 := by simpa [Cpx.normSq, re] using none
    cases a
    simp_all [Cpx.zero]
  · rintro rfl; exact Cpx.normSq_zero

theorem cast_numSum_normSq (m : Nat) (v : Nat → Cpx) :
    ((numSum ((List.range m).map fun n => (v n).normSq) : Num) : ℝ) = ∑ n ∈ Finset.range m, ‖(v n).toComplex‖ ^ 2 := by
  rw [numSum_range, Rat.cast_sum]
  exact Finset.sum_congr rfl fun n _ => by rw [Cpx.toComplex_normSq, Complex.normSq_eq_norm_sq]

/-- Cauchy-Schwarz. -/
theorem Cpx.normSq_sum_mul_conj_le (m : Nat) (v s : Nat → Cpx) :
    (Cpx.sum ((List.range m).map fun n => (v n).mul (s n).conj)).normSq ≤
      numSum ((List.range m).map fun n => (v n).normSq) * numSum ((List.range m).map fun n => (s n).normSq) := by
  rw [← Rat.cast_le (K := ℝ), Rat.cast_mul, cast_numSum_normSq, cast_numSum_normSq, Cpx.toComplex_normSq, Complex.normSq_eq_norm_sq,
    Machine.toComplex_sum_range]
  have triangle : ‖∑ n ∈ Finset.range m, ((v n).mul (s n).conj).toComplex‖ ≤
      ∑ n ∈ Finset.range m, ‖(v n).toComplex‖ * ‖(s n).toComplex‖ := by
    refine (norm_sum_le _ _).trans_eq (Finset.sum_congr rfl fun n _ => ?_)
    rw [Cpx.toComplex_mul, norm_mul, Cpx.toComplex_conj, RCLike.norm_conj]
  exact (pow_le_pow_left₀ (norm_nonneg _) triangle 2).trans (Finset.sum_mul_sq_le_sq_mul_sq _ _ _)

namespace Machine

/-! ### The metric (R224) -/

/-- Sample `n` of the newest `M` samples of the window. -/
def newest (rx : RxUnit) (n : Nat) : Cpx := rx.win.getD (rx.cpLen + n) Cpx.zero

/-- Entry `n` of the short symbol in time. -/
def shortSample (rx : RxUnit) (n : Nat) : Cpx := rx.derived.shortTime.getD n Cpx.zero

theorem drop_getD (xs : List Cpx) (c n : Nat) : (xs.drop c).getD n Cpx.zero = xs.getD (c + n) Cpx.zero := by
  simp [List.getD_eq_getElem?_getD]

theorem metric_num (rx : RxUnit) :
    (metric rx).num = (Cpx.sum ((List.range rx.m).map fun n => (newest rx n).mul (shortSample rx n).conj)).normSq := by
  simp only [metric, drop_getD]; rfl

theorem metric_den (rx : RxUnit) :
    (metric rx).den = numSum ((List.range rx.m).map fun n => (newest rx n).normSq) * rx.derived.shortEnergy := by
  simp only [metric, drop_getD]; rfl

theorem metric_p (rx : RxUnit) : (metric rx).p =
    Cpx.sum ((List.range (rx.m / 2)).map fun n => (newest rx n).conj.mul (newest rx (n + rx.m / 2))) := by
  simp only [metric, drop_getD]; rfl

theorem metric_congr {a b : RxUnit} (config : SameRxConfig a b) (win : a.win = b.win) : metric a = metric b := by
  obtain ⟨m, cpLen, -, -, -, -, -, -, -, -, -, -, -, derived⟩ := config
  simp only [metric, m, cpLen, win, derived]

/-- R144: the energy of the short symbol, entry by entry. -/
theorem energy_shortTime {rx : RxUnit} (len : rx.derived.shortTime.length = rx.m) :
    energy rx.derived.shortTime = numSum ((List.range rx.m).map fun n => (shortSample rx n).normSq) := by
  conv_lhs => rw [energy, ← map_getD_range len, List.map_map]
  rfl

/-- R224: the correlation never exceeds the product of the energies. -/
theorem metric_bounds {rx : RxUnit} (len : rx.derived.shortTime.length = rx.m)
    (stored : rx.derived.shortEnergy = energy rx.derived.shortTime) :
    0 ≤ (metric rx).num ∧ (metric rx).num ≤ (metric rx).den := by
  rw [metric_num, metric_den, stored, energy_shortTime len]
  exact ⟨Cpx.normSq_nonneg _, Cpx.normSq_sum_mul_conj_le _ _ _⟩

/-- Settles O36: the entries of the window behind the cyclic extension, and Cauchy-Schwarz. -/
theorem correlationNeverExceedsEnergy : Obligations.CorrelationNeverExceedsEnergy := by
  constructor
  · intro rx v s0 r e p
    exact ⟨metric_num rx, metric_den rx, metric_p rx⟩
  · exact fun rx len stored => metric_bounds len stored

/-! ### The rule of each state (R223) -/

theorem shiftWindow_eq (x : Cpx) (rx : RxUnit) : shiftWindow x rx = { rx with win := rx.win.drop 1 ++ [x] } := by
  rw [shiftWindow, List.drop_one]

section
variable {rx : RxUnit} (x : Cpx)

theorem rxStep_detect (state : rx.state = .detect) : rxStep rx x = stepDetect (shiftWindow x rx) := by simp only [rxStep, state]

theorem rxStep_syncShort (state : rx.state = .syncShort) : rxStep rx x = stepSyncShort (shiftWindow x rx) := by
  simp only [rxStep, state]

theorem rxStep_syncLong (state : rx.state = .syncLong) : rxStep rx x = stepSyncLong (shiftWindow x rx) := by simp only [rxStep, state]

theorem rxStep_receive (state : rx.state = .rxHeader ∨ rx.state = .rxPayload) : rxStep rx x = stepReceive (shiftWindow x rx) := by
  rcases state with state | state <;> simp only [rxStep, state]

end

/-! ### `DETECT` (R225) -/

section
variable {rx : RxUnit}

theorem stepDetect_of_gt (fires : (metric rx).num > rx.detT2 * (metric rx).den) :
    stepDetect rx = { takeBest (metric rx) rx with cnt := 0, state := .syncShort } := if_pos fires

theorem stepDetect_of_le (quiet : (metric rx).num ≤ rx.detT2 * (metric rx).den) : stepDetect rx = rx := if_neg quiet.not_gt

end

/-- Settles O38: the two branches of `stepDetect` on the shifted window. -/
theorem detectFiresPastTheThreshold : Obligations.DetectFiresPastTheThreshold := by
  intro rx x state rx1
  rw [rxStep_detect x state, shiftWindow_eq]
  exact ⟨fun fires => stepDetect_of_gt fires, fun quiet => stepDetect_of_le quiet⟩

/-! ### Windows fed sample by sample (R28) -/

@[simp] theorem fedWindow_nil (rx : RxUnit) : fedWindow rx [] = rx := by simp [fedWindow]

theorem fedWindow_singleton {rx : RxUnit} (win : rx.win ≠ []) (x : Cpx) : fedWindow rx [x] = shiftWindow x rx := by
  rw [fedWindow_cons win, fedWindow_nil]

/-- What holds after every further sample of `x :: xs` holds after `x`, and of the shifted unit after every sample of `xs`. -/
theorem forall_fedWindow_cons {rx : RxUnit} {P : RxUnit → Prop} (win : rx.win ≠ []) {x : Cpx} {xs : List Cpx}
    (all : ∀ j, 0 < j → j ≤ (x :: xs).length → P (fedWindow rx ((x :: xs).take j))) :
    P (shiftWindow x rx) ∧ ∀ j, 0 < j → j ≤ xs.length → P (fedWindow (shiftWindow x rx) (xs.take j)) := by
  refine ⟨fedWindow_singleton win x ▸ all 1 (by omega) (by simp), fun j _ inside => ?_⟩
  rw [← fedWindow_cons win, ← List.take_succ_cons]
  exact all (j + 1) (by omega) (by simpa using inside)

/-- The metric of the window does not pass the threshold of `DETECT` (R225). -/
def Quiet (rx : RxUnit) : Prop := (metric rx).num ≤ rx.detT2 * (metric rx).den

/-- Samples that never pass the threshold only move through the window. -/
theorem rxRun_quiet {rx : RxUnit} (state : rx.state = .detect) (win : rx.win ≠ []) {xs : List Cpx}
    (quiet : ∀ j, 0 < j → j ≤ xs.length → Quiet (fedWindow rx (xs.take j))) : rxRun rx xs = fedWindow rx xs := by
  induction xs generalizing rx with
  | nil => rw [fedWindow_nil]; rfl
  | cons x xs ih =>
    obtain ⟨now, later⟩ := forall_fedWindow_cons win quiet
    rw [rxRun_cons, rxStep_detect x state, stepDetect_of_le now, fedWindow_cons win]
    exact ih (rx := shiftWindow x rx) state (by simp) later

/-! ### Silence (R225, R331) -/

theorem fedWindow_zeros {rx : RxUnit} {len : Nat} (win : rx.win = zeros len) (n : Nat) : fedWindow rx (zeros n) = rx := by
  have same : (rx.win ++ zeros n).drop (zeros n).length = rx.win := by
    rw [win, zeros_length, zeros, zeros, List.replicate_append_replicate, List.drop_replicate, Nat.add_sub_cancel]
  rw [fedWindow, same]

theorem quiet_of_zeros {rx : RxUnit} {len : Nat} (win : rx.win = zeros len) : Quiet rx := by
  have zero (n : Nat) : newest rx n = Cpx.zero := by rw [newest, win, zeros_getD]
  simp [Quiet, metric_num, metric_den, zero, Cpx.sum_replicate_zero, numSum_eq_sum]

/-- Zeros leave a searching unit with a zero window as it is. -/
theorem rxRun_zeros {rx : RxUnit} {len : Nat} (state : rx.state = .detect) (pos : 0 < len) (win : rx.win = zeros len) (n : Nat) :
    rxRun rx (zeros n) = rx := by
  have notEmpty : rx.win ≠ [] := List.ne_nil_of_length_pos (by rwa [win, zeros_length])
  rw [rxRun_quiet state notEmpty, fedWindow_zeros win]
  intro j _ inside
  rw [zeros, List.take_replicate, ← zeros, fedWindow_zeros win]
  exact quiet_of_zeros win

/-- Settles O37. -/
theorem silenceNeverTriggers : Obligations.SilenceNeverTriggers := fun _ n initial win pos =>
  rxRun_zeros initial.state (by omega) win n

/-! ### `SYNC_SHORT` (R226) -/

/-- The metric of the window is at least as good as the best one, up to `KAPPA` (R226). -/
def Better (rx : RxUnit) : Prop :=
  0 < (metric rx).den ∧ rx.kappa * rx.bestNum * (metric rx).den ≤ (metric rx).num * rx.bestDen

/-- One more sample in `SYNC_SHORT` (R226). -/
def counted (rx : RxUnit) : RxUnit := { rx with age := rx.age + 1, cnt := rx.cnt + 1 }

section
variable {rx : RxUnit}

theorem stepSyncShort_of_better (better : Better rx) : stepSyncShort rx = shortBudget (takeBest (metric rx) (counted rx)) :=
  if_pos better

theorem stepSyncShort_of_late (worse : ¬ Better rx) (late : rx.m / 2 < rx.age + 1) :
    stepSyncShort rx = beginSyncLong (counted rx) := (if_neg worse).trans (if_pos late)

theorem stepSyncShort_of_early (worse : ¬ Better rx) (early : rx.age + 1 ≤ rx.m / 2) :
    stepSyncShort rx = shortBudget (counted rx) := (if_neg worse).trans (if_neg early.not_gt)

theorem shortBudget_of_lt (below : rx.cnt < rx.maxSyms * (rx.m + rx.cpLen)) : shortBudget rx = rx := if_neg below.not_ge

theorem shortBudget_of_ge (spent : rx.maxSyms * (rx.m + rx.cpLen) ≤ rx.cnt) : shortBudget rx = toDetect rx := if_pos spent

end

/-- Settles O39: the branches of `stepSyncShort`, the budget test behind two of them. -/
theorem syncShortTakesTheLatestBestPeak : Obligations.SyncShortTakesTheLatestBestPeak := by
  intro rx x state rx1 k better inBudget
  rw [rxStep_syncShort x state, shiftWindow_eq]
  change (Better rx1 → _) ∧ (¬ Better rx1 → _) ∧ (¬ Better rx1 → _) ∧ (Better rx1 ∨ _ → _)
  refine ⟨fun good below => ?_, fun worse late => ?_, fun worse early below => ?_, fun stays spent => ?_⟩
  · rw [stepSyncShort_of_better good, shortBudget_of_lt below]; rfl
  · rw [stepSyncShort_of_late worse late]; rfl
  · rw [stepSyncShort_of_early worse early, shortBudget_of_lt below]; rfl
  · have spent : rx.maxSyms * (rx.m + rx.cpLen) ≤ rx.cnt + 1 := Nat.not_lt.1 spent
    by_cases good : Better rx1
    · rw [stepSyncShort_of_better good, shortBudget_of_ge spent]; rfl
    · rw [stepSyncShort_of_early good (stays.resolve_left good), shortBudget_of_ge spent]; rfl

end Machine
end Sys2Proof

/-! SUPPORT. The long preamble (44_frame_synchronizer.md R227, R228) and the received symbol (R229): the rules case by case, and what
they make of a window that holds one assembled block exactly, with no offsets (41_symbol_assembler.md R151, 42_pilot_tracker.md R179). -/

namespace Sys2Proof.Machine

/-! ### The timer (R227, R229) -/

section
variable (k : RxUnit → RxUnit) {rx : RxUnit}

theorem tick_of_gt (left : 1 < rx.timer) : tick k rx = { rx with timer := rx.timer - 1 } := by
  rcases tick_cases k rx with ⟨due, -⟩ | ⟨-, e⟩
  · exact absurd due left.not_ge
  · exact e

theorem tick_of_le (due : rx.timer ≤ 1) : tick k rx = k { rx with timer := 0 } := by
  rcases tick_cases k rx with ⟨-, e⟩ | ⟨left, -⟩
  · exact e
  · exact absurd due left.not_ge

end

/-! ### The coherence test (R227) -/

theorem pairsOf_map {α β : Type} (f : α → β) (l : List α) : pairsOf (l.map f) = (pairsOf l).map fun ab => (f ab.1, f ab.2) := by
  induction l with
  | nil => rfl
  | cons a l ih =>
    cases l with
    | nil => rfl
    | cons b l => exact congrArg _ ih

/-- The gain of the `i`-th non-`NULL` bin in frequency order. -/
def gainAt (rx : RxUnit) (gn : List Cpx) (i : Nat) : Cpx := gn.getD (rx.derived.nn.getD i 0) Cpx.zero

theorem coherent_iff (rx : RxUnit) (gn : List Cpx) : coherent rx gn = true ↔
    rx.longT2 * numSum ((List.range (rx.derived.nn.length - 1)).map fun i => (gainAt rx gn i).normSq) *
        numSum ((List.range (rx.derived.nn.length - 1)).map fun i => (gainAt rx gn (i + 1)).normSq) <
      (Cpx.sum ((List.range (rx.derived.nn.length - 1)).map fun i => (gainAt rx gn (i + 1)).mul (gainAt rx gn i).conj)).normSq := by
  simp only [coherent, pairsOf_map, pairsOf_eq 0, List.map_map, decide_eq_true_eq]
  rfl

theorem testLong_of_coherent {rx : RxUnit} (passed : coherent rx (oneShotGains rx (disassemble rx)) = true) :
    testLong rx = beginHeader { rx with
      g := oneShotGains rx (disassemble rx), phi := rx.phi + rx.nu * ((rx.m + rx.cpLen : Nat) : Sys2Proof.Num) } := if_pos passed

section
variable {rx : RxUnit} (failed : ¬ coherent rx (oneShotGains rx (disassemble rx)) = true)
include failed

theorem testLong_of_spent (spent : rx.maxSyms ≤ rx.nsym + 1) : testLong rx = toDetect { rx with nsym := rx.nsym + 1 } :=
  (if_neg failed).trans (if_pos spent)

theorem testLong_of_retry (below : rx.nsym + 1 < rx.maxSyms) : testLong rx = { rx with
    nsym := rx.nsym + 1, phi := rx.phi + rx.nu * ((rx.m / 2 : Nat) : Sys2Proof.Num), timer := rx.m / 2 } :=
  (if_neg failed).trans (if_neg below.not_ge)

end

/-! ### A clean long preamble (R151, R227) -/

/-- Gain 1 on every bin that carries anything. -/
def unitGains (p : List Tag) : List Cpx := p.map fun t => if t = .null then Cpx.zero else Cpx.ofNum 1

@[simp] theorem unitGains_length (p : List Tag) : (unitGains p).length = p.length := List.length_map _

theorem unitGains_getD (p : List Tag) (k : Nat) :
    (unitGains p).getD k Cpx.zero = if tagAt p k = .null then Cpx.zero else Cpx.ofNum 1 := by
  simp only [unitGains, tagAt, List.getD_eq_getElem?_getD, List.getElem?_map]
  cases p[k]? <;> rfl

/-- A list of `m` gains that agrees with the unit gains bin by bin. -/
theorem eq_unitGains {p : List Tag} {g : List Cpx} (len : g.length = p.length)
    (null : ∀ k, tagAt p k = .null → g.getD k Cpx.zero = Cpx.zero)
    (carried : ∀ k, tagAt p k ≠ .null → g.getD k Cpx.zero = Cpx.ofNum 1) : g = unitGains p := by
  rw [← map_getD_range len, ← map_getD_range (unitGains_length p)]
  refine List.map_congr_left fun k _ => ?_
  rw [unitGains_getD]
  split
  · exact null k ‹_›
  · exact carried k ‹_›

theorem legalTuning_iff (detT2 longT2 alpha kappa : Sys2Proof.Num) : legalTuning detT2 longT2 alpha kappa = true ↔
    (0 ≤ detT2 ∧ detT2 < 1) ∧ (0 ≤ longT2 ∧ longT2 < 1) ∧ (0 < alpha ∧ alpha ≤ 1) ∧ 0 < kappa ∧ kappa ≤ 1 := by
  simp [legalTuning, and_assoc]

namespace RxStored

variable {rx : RxUnit}

theorem prefixed (h : RxStored rx) : rx.cpLen < rx.m := ((legalDims_iff _ _ _).1 h.dims).2.2.2.1

theorem detT2_lt (h : RxStored rx) : rx.detT2 < 1 := ((legalTuning_iff _ _ _ _).1 h.tuning).1.2

theorem longT2_lt (h : RxStored rx) : rx.longT2 < 1 := ((legalTuning_iff _ _ _ _).1 h.tuning).2.1.2

theorem nn_eq (h : RxStored rx) : rx.derived.nn = nonNullFreq rx.table := by rw [h.derived]; rfl

theorem long_eq (h : RxStored rx) : rx.derived.long = longPreamble rx.table := by rw [h.derived]; rfl

/-- R122: a stored table has two neighbouring non-`NULL` bins or more. -/
theorem two_le_nn_length (h : RxStored rx) : 2 ≤ rx.derived.nn.length := by
  have data := countTag_pos h.table.2.1
  have pilot := countTag_pos h.table.2.2
  rw [h.nn_eq, nonNullFreq_length]
  omega

/-- R227: equal gains on all neighbours are coherent. -/
theorem coherent_unitGains (h : RxStored rx) : coherent rx (unitGains rx.table) = true := by
  have one {i : Nat} (inside : i < rx.derived.nn.length) : gainAt rx (unitGains rx.table) i = Cpx.ofNum 1 := by
    have mem : rx.derived.nn.getD i 0 ∈ nonNullFreq rx.table := by
      rw [List.getD_eq_getElem _ _ inside, ← h.nn_eq]; exact List.getElem_mem inside
    rw [gainAt, unitGains_getD, if_neg ((mem_nonNullFreq _ _).1 mem).2]
  have pairs := h.two_le_nn_length
  generalize count : rx.derived.nn.length - 1 = n at *
  have lower : (List.range n).map (fun i => (gainAt rx (unitGains rx.table) i).normSq) = (List.range n).map fun _ => 1 :=
    List.map_congr_left fun i inside => by
      rw [one (by have := List.mem_range.1 inside; omega), Cpx.normSq_ofNum, mul_one]
  have upper : (List.range n).map (fun i => (gainAt rx (unitGains rx.table) (i + 1)).normSq) = (List.range n).map fun _ => 1 :=
    List.map_congr_left fun i inside => by
      rw [one (by have := List.mem_range.1 inside; omega), Cpx.normSq_ofNum, mul_one]
  have products : (List.range n).map (fun i =>
      (gainAt rx (unitGains rx.table) (i + 1)).mul (gainAt rx (unitGains rx.table) i).conj) =
        (List.range n).map fun _ => Cpx.ofNum 1 :=
    List.map_congr_left fun i inside => by
      have := List.mem_range.1 inside
      rw [one (by omega), one (by omega), Cpx.conj_ofNum, Cpx.ofNum_mul_ofNum, mul_one]
  rw [coherent_iff, count, lower, upper, products, Cpx.sum_ofNum, Cpx.normSq_ofNum, numSum_range, Finset.sum_const,
    Finset.card_range, nsmul_one, mul_assoc]
  have pos : 0 < (n : Sys2Proof.Num) := Nat.cast_pos.2 (by omega)
  exact mul_lt_of_lt_one_left (mul_pos pos pos) h.longT2_lt

end RxStored

/-- The window of `rx` holds exactly the block that `tx` assembles from `v`, and `rx` corrects no offset (R151). -/
structure HoldsBlock (tx : TxUnit) (rx : RxUnit) (v : List Cpx) : Prop where
  m : tx.m = rx.m
  cpLen : tx.cpLen = rx.cpLen
  prefixed : tx.cpLen < tx.m
  tapered : tx.taperLen ≤ tx.cpLen
  width : v.length = tx.m
  nu : rx.nu = 0
  phi : rx.phi = 0
  tau : rx.tau = 0
  win : rx.win = (asmTime tx v).1

theorem HoldsBlock.disassemble_eq {tx : TxUnit} {rx : RxUnit} {v : List Cpx} (h : HoldsBlock tx rx v) : disassemble rx = v :=
  (disassembleInvertsAssemble.2 tx rx v h.prefixed h.tapered h.m.symm h.cpLen.symm h.width h.nu h.phi h.win).1 h.tau

/-- R227: a clean long preamble gives the gain `S1^2 = 1` on every bin that carries anything. -/
theorem oneShotGains_longPreamble {rx : RxUnit} (h : RxStored rx) :
    oneShotGains rx (longPreamble rx.table) = unitGains rx.table := by
  refine eq_unitGains ((oneShotGains_length _ _).trans h.table.1.symm) (fun k => oneShotGains_null rx _) fun k carried => ?_
  have bin : k < rx.table.length := lt_length_of_tagAt carried
  rw [oneShotGains, getD_map_range _ (h.table.1 ▸ bin), if_neg carried, h.long_eq, longPreamble_getD bin, if_pos carried,
    lfsrSign_mul_self]

/-- R227: a clean long preamble is accepted. -/
theorem testLong_clean {tx : TxUnit} {rx : RxUnit} (h : RxStored rx) (clean : HoldsBlock tx rx (longPreamble rx.table)) :
    testLong rx = beginHeader { rx with g := unitGains rx.table } := by
  have gains : oneShotGains rx (disassemble rx) = unitGains rx.table := by
    rw [clean.disassemble_eq, oneShotGains_longPreamble h]
  have phase : rx.phi + rx.nu * ((rx.m + rx.cpLen : Nat) : Sys2Proof.Num) = rx.phi := by rw [clean.nu, zero_mul, add_zero]
  rw [testLong_of_coherent (by rw [gains]; exact h.coherent_unitGains), gains, phase]

/-- Settles O40: the timer, then the branches of `testLong`; a clean block disassembles to `S1`. -/
theorem cleanLongPreambleIsAccepted : Obligations.CleanLongPreambleIsAccepted := by
  constructor
  · intro rx x state rx1 z gain q n c ea eb accepted
    have due := tick_of_le testLong (rx := rx1)
    have test : coherent { rx1 with timer := 0 } (oneShotGains { rx1 with timer := 0 } z) = true ↔ accepted := coherent_iff _ _
    rw [rxStep_syncLong x state, shiftWindow_eq, stepSyncLong]
    refine ⟨tick_of_gt testLong (rx := rx1), fun one passed => ?_, fun one failed below => ?_, fun one failed spent => ?_⟩
    · rw [due one.le, testLong_of_coherent (test.2 passed)]; rfl
    · rw [due one.le, testLong_of_retry (fun h => failed (test.1 h)) below]
    · rw [due one.le, testLong_of_spent (fun h => failed (test.1 h)) spent]; rfl
  · intro tx rx x conf state one m cpLen tapered nu phi tau win
    have stored := ((rxActive_iff rx).2 ⟨by rw [state]; decide, conf⟩).stored
    have shifted : RxStored { rx with win := rx.win.drop 1 ++ [x], timer := 0 } :=
      stored.of_config (.refl rx) (by rw [win]; exact (asmBlock_length _ _ _ _ _ _).trans (by rw [m, cpLen])) stored.gainLength
        stored.nullGains stored.hdrUserLength
    have clean : HoldsBlock tx { rx with win := rx.win.drop 1 ++ [x], timer := 0 } (longPreamble rx.table) :=
      ⟨m, cpLen, by rw [m, cpLen]; exact stored.prefixed, tapered, by rw [longPreamble_length, m]; exact stored.table.1, nu, phi, tau,
        win⟩
    rw [rxStep_syncLong x state, shiftWindow_eq, stepSyncLong, tick_of_le testLong (rx := { rx with win := rx.win.drop 1 ++ [x] }) one.le,
      testLong_clean shifted clean, ← win]
    rfl

/-! ### The tests after a symbol (R229) -/

/-- The symbols of the header or payload being received. -/
def symbolsDue (rx : RxUnit) : Nat := if rx.state = .rxHeader then rx.derived.nHdr else rx.nPay

/-- What ends the reception of a header or payload. -/
def finishReception (rx : RxUnit) : RxUnit := if rx.state = .rxHeader then finishHeader rx else finishPayload rx

section
variable {rx : RxUnit}

theorem afterSymbol_of_last (last : rx.symIdx = symbolsDue rx) : afterSymbol rx = finishReception rx := by
  unfold symbolsDue at last
  unfold afterSymbol finishReception
  split
  next header => rw [if_pos header] at last; exact if_pos last
  next payload => rw [if_neg payload] at last; exact if_pos last

theorem afterSymbol_of_more (more : rx.symIdx ≠ symbolsDue rx) :
    afterSymbol rx = if rx.maxSyms ≤ rx.nsym then toDetect rx else rx := by
  unfold symbolsDue at more
  unfold afterSymbol
  split
  next header => rw [if_pos header] at more; exact if_neg more
  next payload => rw [if_neg payload] at more; exact if_neg more

end

/-! ### A clean symbol (R151, R178, R179) -/

/-- R121: a bin's rank among those of its tag counts the table's entries below it. -/
theorem ranks_below (t : Tag) (p : List Tag) {n : Nat} (bound : n ≤ p.length) :
    ((List.range n).filter fun k => tagAt p k == t).map (fun k => countTag t (p.take k)) = List.range (countTag t (p.take n)) := by
  induction n with
  | zero => rfl
  | succ n ih =>
    rw [← bins_below_length p t bound, List.range_succ, List.filter_append, List.map_append, ih (by omega),
      ← bins_below_length p t (by omega)]
    by_cases tagged : tagAt p n = t
    · simp [tagged, List.range_succ, bins_below_length p t (show n ≤ p.length by omega)]
    · simp [tagged]

/-- R146: the data bins of a filled symbol hold the data in order. -/
theorem fill_data (p : List Tag) {d : List Cpx} (pl : BitVec 16) (len : d.length = countTag .data p) :
    (binsOf .data p).map (fun k => (fill p d pl).1.getD k Cpx.zero) = d := by
  have ranks : (binsOf .data p).map (fun k => countTag .data (p.take k)) = List.range (countTag .data p) := by
    have r := ranks_below .data p le_rfl
    rwa [List.take_length] at r
  calc (binsOf .data p).map (fun k => (fill p d pl).1.getD k Cpx.zero)
      = (binsOf .data p).map ((fun i => d.getD i Cpx.zero) ∘ fun k => countTag .data (p.take k)) :=
        List.map_congr_left fun k mem => by
          obtain ⟨bin, tag⟩ := (mem_binsOf _ _ _).1 mem
          rw [fill_getD p d pl bin, filledBin, tag]; rfl
    _ = d := by rw [← List.map_map, ranks, map_getD_range len]

theorem ofNum_one_mul (a : Cpx) : (Cpx.ofNum 1).mul a = a := by simp [Cpx.mul, Cpx.ofNum]

/-- R10: the bits of modulated groups are the groups. -/
theorem flatMap_demodulate {md : ModId} {groups : List (List Bool)} (width : ∀ b ∈ groups, b.length = modBps md) :
    (groups.map (modulate md)).flatMap (demodulate md) = groups.flatten := by
  rw [List.flatMap_map, ← List.flatMap_id]
  exact List.flatMap_congr fun b mem => demodulate_modulate md b (width b mem)

/-- R229 on a clean symbol: its bits are appended, and the pilot register moves as the transmitter's. -/
theorem receiveSymbol_clean {tx : TxUnit} {rx : RxUnit} {groups : List (List Bool)} (table : LegalTable rx.m rx.table)
    (derived : rx.derived = rxDerive rx.m rx.table rx.hdrCheck rx.hdrFec rx.hdrMod rx.hUser) (gains : rx.g = unitGains rx.table)
    (count : groups.length = rx.derived.nData) (width : ∀ b ∈ groups, b.length = modBps rx.curMod)
    (clean : HoldsBlock tx rx (fill rx.table (groups.map (modulate rx.curMod)) rx.pl).1) :
    receiveSymbol rx = { rx with
      rxbits := rx.rxbits ++ groups.flatten, symIdx := rx.symIdx + 1, nsym := rx.nsym + 1, timer := rx.m + rx.cpLen,
      pl := (fill rx.table (groups.map (modulate rx.curMod)) rx.pl).2 } := by
  set d := groups.map (modulate rx.curMod) with hd
  set z := disassemble rx
  have received : z = (fill rx.table d rx.pl).1 := clean.disassemble_eq
  have pil : rx.derived.pil = binsOf .pilot rx.table := by rw [derived]; rfl
  have pils : rx.derived.pils = pilotsFreq rx.table := by rw [derived]; rfl
  have dat : rx.derived.dat = binsOf .data rx.table := by rw [derived]; rfl
  have nData : rx.derived.nData = countTag .data rx.table := by rw [derived]; rfl
  have unit {k : Nat} (carried : tagAt rx.table k ≠ .null) : rx.g.getD k Cpx.zero = Cpx.ofNum 1 := by
    rw [gains, unitGains_getD, if_neg carried]
  obtain ⟨-, -, -, nu, tau, tracked, equalised⟩ :=
    trackerNoiselessFixedPoint rx z d (Cpx.ofNum 1) (by decide) table pil pils (fun k pilot => unit (by rw [pilot]; decide))
      (fun k _ => by rw [received, ofNum_one_mul])
  have gains' : (track z rx).g = rx.g := by
    rw [gains]
    refine eq_unitGains ((updatedGains_length _ _).trans table.1.symm) (fun k null => ?_) tracked
    have kept := updatedGains_null rx (observe z rx.g rx.derived.pil rx.pl).1 (by rw [gains, unitGains_length, table.1]) null
    rw [show (track z rx).g = updatedGains rx (observe z rx.g rx.derived.pil rx.pl).1 from rfl, kept, gains, unitGains_getD,
      if_pos null]
  have register : (track z rx).pl = (fill rx.table d rx.pl).2 := by
    rw [fill_register, ← binsOf_length, ← pil]; exact observe_register _ _ _ _
  have bits : rx.derived.dat.flatMap (fun k => demodulate rx.curMod (equalise z (track z rx).g k)) = groups.flatten := by
    calc _ = (rx.derived.dat.map fun k => (fill rx.table d rx.pl).1.getD k Cpx.zero).flatMap (demodulate rx.curMod) := by
          rw [List.flatMap_map]
          exact List.flatMap_congr fun k mem => by rw [equalised k ((mem_binsOf _ _ _).1 (dat ▸ mem)).2]
      _ = groups.flatten := by
          rw [dat, fill_data _ _ (by rw [hd, List.length_map, count, nData]), flatMap_demodulate width]
  have phase : rx.phi + rx.nu * ((rx.m + rx.cpLen : Nat) : Sys2Proof.Num) = rx.phi := by rw [clean.nu, zero_mul, add_zero]
  calc receiveSymbol rx = { track z rx with
        phi := rx.phi + rx.nu * ((rx.m + rx.cpLen : Nat) : Sys2Proof.Num)
        rxbits := rx.rxbits ++ rx.derived.dat.flatMap fun k => demodulate rx.curMod (equalise z (track z rx).g k)
        symIdx := rx.symIdx + 1, nsym := rx.nsym + 1, timer := rx.m + rx.cpLen } := rfl
    _ = { rx with
        nu := (track z rx).nu, tau := (track z rx).tau, g := (track z rx).g, pl := (track z rx).pl
        phi := rx.phi + rx.nu * ((rx.m + rx.cpLen : Nat) : Sys2Proof.Num)
        rxbits := rx.rxbits ++ rx.derived.dat.flatMap fun k => demodulate rx.curMod (equalise z (track z rx).g k)
        symIdx := rx.symIdx + 1, nsym := rx.nsym + 1, timer := rx.m + rx.cpLen } := rfl
    _ = _ := by rw [nu, tau, bits, gains', register, phase]

/-- Settles O41: the timer, then the tests of `afterSymbol`; a clean block disassembles to the filled symbol, a fixed point of the
tracker. -/
theorem cleanSymbolIsReceived : Obligations.CleanSymbolIsReceived := by
  constructor
  · intro rx x state rx1 z tracked rx2 n
    have due (one : rx.timer = 1) : tick rxSymbol rx1 = afterSymbol rx2 := tick_of_le rxSymbol (rx := rx1) one.le
    rw [rxStep_receive x state, shiftWindow_eq, stepReceive]
    refine ⟨tick_of_gt rxSymbol (rx := rx1), fun one last header => ?_, fun one last payload => ?_, fun one more below => ?_,
      fun one more spent => ?_⟩
    · rw [due one, afterSymbol_of_last (rx := rx2) last]; exact if_pos header
    · rw [due one, afterSymbol_of_last (rx := rx2) last]; exact if_neg (show ¬ rx.state = .rxHeader by rw [payload]; decide)
    · rw [due one, afterSymbol_of_more (rx := rx2) more]; exact if_neg below.not_ge
    · rw [due one, afterSymbol_of_more (rx := rx2) more]; exact if_pos spent
  · intro tx rx groups table derived m cpLen prefixed tapered nu phi tau gains count width win
    exact receiveSymbol_clean table derived gains count width
      ⟨m, cpLen, prefixed, tapered, by rw [fill_length, m, table.1], nu, phi, tau, win⟩

end Sys2Proof.Machine

/-! SUPPORT. What ends a reception (44_frame_synchronizer.md R241 to R245), the event mask (R248, R291) and the budget (R250). -/

namespace Sys2Proof.Machine

/-! ### The end of a header and of a payload (R241 to R245) -/

theorem decodeHeader_eq (rx : RxUnit) :
    let n := rx.hUser + Config.hDesc
    let d := fecDecode rx.hdrFec (n + checkLen rx.hdrCheck) (unmap rx.rxbits rx.derived.hdrNmod rx.hdrMod rx.derived.hdrEncLen)
    decodeHeader rx = (d.1.take n, d.2 && checkVerify rx.hdrCheck (d.1.take n) ((d.1.drop n).take (checkLen rx.hdrCheck))) := by
  simp only [decodeHeader, Nat.add_sub_cancel_left]

/-- R242, R243: a header body is parsed exactly when its three ids name schemes. -/
theorem parseHeader_eq_some_iff (n : Nat) (body : List Byte) (h : HeaderFields) : parseHeader n body = some h ↔
    h.user = body.take n ∧ h.plen = (body.getD n 0#8).toNat * 256 + (body.getD (n + 1) 0#8).toNat ∧
    checkOfCode (body.getD (n + 2) 0#8) = some h.pcheck ∧ fecOfCode (body.getD (n + 3) 0#8) = some h.pfec ∧
    modOfCode (body.getD (n + 4) 0#8) = some h.pmod := by
  have byte (i : Nat) : (body.drop n).getD i 0#8 = body.getD (n + i) 0#8 := by simp [List.getD_eq_getElem?_getD]
  rw [parseHeader, byte, byte, byte, byte, byte]
  constructor
  · intro parsed
    split at parsed
    next check fec md => cases parsed; exact ⟨rfl, rfl, check, fec, md⟩
    next => cases parsed
  · rintro ⟨user, plen, check, fec, md⟩
    rw [check, fec, md, ← user, Nat.add_zero, ← plen]

/-- A header is refused by FEC, checksum or ids, or accepted by all. -/
theorem finishHeader_refused_or_accepted (rx : RxUnit) :
    ((decodeHeader rx).2 = false ∨ parseHeader rx.hUser (decodeHeader rx).1 = none) ∨
      ∃ h, (decodeHeader rx).2 = true ∧ parseHeader rx.hUser (decodeHeader rx).1 = some h := by
  cases decoded : (decodeHeader rx).2 with
  | false => exact .inl (.inl rfl)
  | true =>
    cases parsed : parseHeader rx.hUser (decodeHeader rx).1 with
    | none => exact .inl (.inr rfl)
    | some h => exact .inr ⟨h, rfl, rfl⟩

/-- R243 -/
theorem finishHeader_refused {rx : RxUnit} (refused : (decodeHeader rx).2 = false ∨ parseHeader rx.hUser (decodeHeader rx).1 = none) :
    finishHeader rx = toDetect (emit (.header false []) rx) := by
  rcases finishHeader_cases rx with e | ⟨h, decoded, parsed, -⟩
  · exact e
  · rw [decoded, parsed] at refused
    exact absurd refused (by simp)

/-- R244 -/
theorem finishHeader_accepted {rx : RxUnit} {h : HeaderFields} (decoded : (decodeHeader rx).2 = true)
    (parsed : parseHeader rx.hUser (decodeHeader rx).1 = some h) : finishHeader rx = beginPayload h rx := by
  simp only [finishHeader, decoded, parsed]

/-- The unit as R244 leaves it before any payload symbol: the record written, the fields and counts stored. -/
def payloadBegun (h : HeaderFields) (rx : RxUnit) : RxUnit := { rx with
  evq := rx.evq ++ (if rx.evmask.getLsbD 0 then [EventRecord.header true h.user] else [])
  hdrUser := h.user, plen := h.plen, pcheck := h.pcheck, pfec := h.pfec, pmod := h.pmod
  payEncLen := (counts h.pcheck h.pfec h.pmod h.plen rx.derived.nData).encLen
  payNmod := (counts h.pcheck h.pfec h.pmod h.plen rx.derived.nData).nmod
  nPay := (counts h.pcheck h.pfec h.pmod h.plen rx.derived.nData).nsym
  state := .rxPayload, symIdx := 0, nsym := 0, rxbits := [], curMod := h.pmod }

theorem enterPayload_emit_storeHeader (h : HeaderFields) (rx : RxUnit) :
    enterPayload h (emit (.header true h.user) (storeHeader h rx)) = payloadBegun h rx := by rw [emit_eq]; rfl

/-- R244: a payload of no symbols is finished at once. -/
theorem beginPayload_of_empty {h : HeaderFields} {rx : RxUnit} (none : (payloadBegun h rx).nPay = 0) :
    beginPayload h rx = finishPayload (payloadBegun h rx) := by
  rw [beginPayload, enterPayload_emit_storeHeader]; exact if_pos none

theorem beginPayload_of_symbols {h : HeaderFields} {rx : RxUnit} (some : (payloadBegun h rx).nPay ≠ 0) :
    beginPayload h rx = payloadBegun h rx := by
  rw [beginPayload, enterPayload_emit_storeHeader]; exact if_neg some

/-- Settles O46. -/
theorem finishedReceptionsAreEvents : Obligations.FinishedReceptionsAreEvents := by
  refine ⟨fun rx => ?decoded, parseHeader_eq_some_iff, fun rx h decoded parsed => ?valid, fun rx refused => ?invalid,
    fun rx => ?payload, rfl⟩
  case decoded =>
    have parts := decodeHeader_eq rx
    exact ⟨congrArg Prod.fst parts, (Bool.eq_iff_iff.1 (congrArg Prod.snd parts)).trans (Bool.and_eq_true_iff)⟩
  case valid =>
    rw [finishHeader_accepted decoded parsed]
    exact ⟨fun pos => beginPayload_of_symbols pos.ne', fun none => beginPayload_of_empty none⟩
  case invalid => rw [finishHeader_refused refused, toDetect_emit, emit_evq]; rfl
  case payload =>
    refine ⟨_, ?_, Bool.and_eq_true_iff⟩
    rw [finishPayload, toDetect_emit, emit_evq, Nat.add_sub_cancel_left]
    rfl

/-! ### The event mask (R248, R291) -/

/-- The unit with another event mask, and a queue that never held what that mask disables. -/
def masked (mask : BitVec 2) (rx : RxUnit) : RxUnit := { rx with evmask := mask, evq := rx.evq.filter (eventEnabled mask) }

theorem eventEnabled_open (e : EventRecord) : eventEnabled 3#2 e = true := by cases e <;> rfl

section
variable {rx : RxUnit} (mask : BitVec 2)

/-- R291: a record that the mask disables is lost whether it is never appended or filtered out. -/
theorem emit_masked (unmasked : rx.evmask = 3#2) (e : EventRecord) : emit e (masked mask rx) = masked mask (emit e rx) := by
  have appended : emit e rx = { rx with evq := rx.evq ++ [e] } := if_pos (unmasked ▸ eventEnabled_open e)
  have queue : (rx.evq ++ [e]).filter (eventEnabled mask) =
      rx.evq.filter (eventEnabled mask) ++ if eventEnabled mask e then [e] else [] := by
    rw [List.filter_append, List.filter_singleton, Bool.cond_eq_ite]
  rw [appended, emit_eq]
  exact congrArg (fun q => { rx with evmask := mask, evq := q }) queue.symm

theorem stepDetect_masked : stepDetect (masked mask rx) = masked mask (stepDetect rx) := by
  rcases lt_or_ge (rx.detT2 * (metric rx).den) (metric rx).num with fires | quiet
  · rw [stepDetect_of_gt fires]; exact stepDetect_of_gt (rx := masked mask rx) fires
  · rw [stepDetect_of_le quiet]; exact stepDetect_of_le (rx := masked mask rx) quiet

theorem shortBudget_masked : shortBudget (masked mask rx) = masked mask (shortBudget rx) := by
  rcases lt_or_ge rx.cnt (rx.maxSyms * (rx.m + rx.cpLen)) with below | spent
  · rw [shortBudget_of_lt below]; exact shortBudget_of_lt (rx := masked mask rx) below
  · rw [shortBudget_of_ge spent]; exact shortBudget_of_ge (rx := masked mask rx) spent

theorem stepSyncShort_masked : stepSyncShort (masked mask rx) = masked mask (stepSyncShort rx) := by
  by_cases better : Better rx
  · rw [stepSyncShort_of_better better, ← shortBudget_masked]
    exact stepSyncShort_of_better (rx := masked mask rx) better
  · rcases lt_or_ge (rx.m / 2) (rx.age + 1) with late | early
    · rw [stepSyncShort_of_late better late]; exact stepSyncShort_of_late (rx := masked mask rx) better late
    · rw [stepSyncShort_of_early better early, ← shortBudget_masked]
      exact stepSyncShort_of_early (rx := masked mask rx) better early

theorem testLong_masked : testLong (masked mask rx) = masked mask (testLong rx) := by
  by_cases passed : coherent rx (oneShotGains rx (disassemble rx)) = true
  · rw [testLong_of_coherent passed]; exact testLong_of_coherent (rx := masked mask rx) passed
  · rcases lt_or_ge (rx.nsym + 1) rx.maxSyms with below | spent
    · rw [testLong_of_retry passed below]; exact testLong_of_retry (rx := masked mask rx) passed below
    · rw [testLong_of_spent passed spent]; exact testLong_of_spent (rx := masked mask rx) passed spent

theorem tick_masked {k : RxUnit → RxUnit} (commutes : ∀ {rx : RxUnit}, rx.evmask = 3#2 → k (masked mask rx) = masked mask (k rx))
    (unmasked : rx.evmask = 3#2) : tick k (masked mask rx) = masked mask (tick k rx) := by
  rcases lt_or_ge 1 rx.timer with left | due
  · rw [tick_of_gt k left]; exact tick_of_gt k (rx := masked mask rx) left
  · rw [tick_of_le k due, ← commutes (rx := { rx with timer := 0 }) unmasked]; exact tick_of_le k (rx := masked mask rx) due

theorem finishPayload_masked (unmasked : rx.evmask = 3#2) : finishPayload (masked mask rx) = masked mask (finishPayload rx) :=
  congrArg toDetect (emit_masked mask unmasked _)

theorem beginPayload_masked (unmasked : rx.evmask = 3#2) (h : HeaderFields) :
    beginPayload h (masked mask rx) = masked mask (beginPayload h rx) := by
  have entered : enterPayload h (emit (.header true h.user) (storeHeader h (masked mask rx))) =
      masked mask (enterPayload h (emit (.header true h.user) (storeHeader h rx))) :=
    congrArg (enterPayload h) (emit_masked mask (rx := storeHeader h rx) unmasked _)
  have kept : (enterPayload h (emit (.header true h.user) (storeHeader h rx))).evmask = 3#2 := by
    rw [enterPayload_emit_storeHeader]; exact unmasked
  rw [beginPayload, entered, finishPayload_masked mask kept, beginPayload]
  exact (apply_ite (masked mask) _ _ _).symm

theorem finishHeader_masked (unmasked : rx.evmask = 3#2) : finishHeader (masked mask rx) = masked mask (finishHeader rx) := by
  rcases finishHeader_refused_or_accepted rx with refused | ⟨h, decoded, parsed⟩
  · rw [finishHeader_refused refused, finishHeader_refused (rx := masked mask rx) refused, emit_masked mask unmasked]; rfl
  · rw [finishHeader_accepted decoded parsed, ← beginPayload_masked mask unmasked]
    exact finishHeader_accepted (rx := masked mask rx) decoded parsed

theorem finishReception_masked (unmasked : rx.evmask = 3#2) :
    finishReception (masked mask rx) = masked mask (finishReception rx) := by
  rw [finishReception, finishReception, finishHeader_masked mask unmasked, finishPayload_masked mask unmasked]
  exact (apply_ite (masked mask) _ _ _).symm

theorem afterSymbol_masked (unmasked : rx.evmask = 3#2) : afterSymbol (masked mask rx) = masked mask (afterSymbol rx) := by
  by_cases last : rx.symIdx = symbolsDue rx
  · rw [afterSymbol_of_last last, ← finishReception_masked mask unmasked]
    exact afterSymbol_of_last (rx := masked mask rx) last
  · rw [afterSymbol_of_more last, apply_ite (masked mask)]
    exact afterSymbol_of_more (rx := masked mask rx) last

theorem receiveSymbol_masked : receiveSymbol (masked mask rx) = masked mask (receiveSymbol rx) := rfl

theorem rxSymbol_masked (unmasked : rx.evmask = 3#2) : rxSymbol (masked mask rx) = masked mask (rxSymbol rx) := by
  have kept : (receiveSymbol rx).evmask = 3#2 := unmasked
  rw [rxSymbol, receiveSymbol_masked, afterSymbol_masked mask kept, rxSymbol]

/-- R248: no rule looks at the mask but in `emit`. -/
theorem rxStep_masked (unmasked : rx.evmask = 3#2) (x : Cpx) : rxStep (masked mask rx) x = masked mask (rxStep rx x) := by
  have state' : (masked mask rx).state = rx.state := rfl
  cases state : rx.state with
  | unconfigured => simp only [rxStep, state', state]
  | detect =>
    rw [rxStep_detect x state, rxStep_detect x (state'.trans state)]
    exact stepDetect_masked mask (rx := shiftWindow x rx)
  | syncShort =>
    rw [rxStep_syncShort x state, rxStep_syncShort x (state'.trans state)]
    exact stepSyncShort_masked mask (rx := shiftWindow x rx)
  | syncLong =>
    rw [rxStep_syncLong x state, rxStep_syncLong x (state'.trans state)]
    exact tick_masked mask (fun _ => testLong_masked mask) (rx := shiftWindow x rx) unmasked
  | rxHeader =>
    rw [rxStep_receive x (.inl state), rxStep_receive x (.inl (state'.trans state))]
    exact tick_masked mask (rxSymbol_masked mask) (rx := shiftWindow x rx) unmasked
  | rxPayload =>
    rw [rxStep_receive x (.inr state), rxStep_receive x (.inr (state'.trans state))]
    exact tick_masked mask (rxSymbol_masked mask) (rx := shiftWindow x rx) unmasked

/-- R248: no sample changes the mask. -/
theorem rxStep_evmask (x : Cpx) : (rxStep rx x).evmask = rx.evmask := by
  by_cases ready : rx.state = .unconfigured
  · simp only [rxStep, ready]
  · exact (rxStep_keeps ready x).mask

theorem rxRun_masked (unmasked : rx.evmask = 3#2) (xs : List Cpx) :
    rxRun (masked mask rx) xs = masked mask (rxRun rx xs) ∧ (rxRun rx xs).evmask = 3#2 := by
  induction xs generalizing rx with
  | nil => exact ⟨rfl, unmasked⟩
  | cons x xs ih =>
    rw [rxRun_cons, rxRun_cons, rxStep_masked mask unmasked]
    exact ih ((rxStep_evmask x).trans unmasked)

end

/-- The unit with both events enabled, from the masked one and the full queue. -/
theorem unmask_masked {rx : RxUnit} (unmasked : rx.evmask = 3#2) (mask : BitVec 2) :
    { masked mask rx with evmask := 3#2, evq := rx.evq } = rx := by
  rw [← unmasked]; rfl

/-- Settles O50: the unit with both events enabled and the masked one run in step. -/
theorem maskChangesNoTransition : Obligations.MaskChangesNoTransition := by
  intro rx mask xs
  obtain ⟨inStep, unmasked⟩ := rxRun_masked mask (rx := { rx with evmask := 3#2, evq := [] }) rfl xs
  change rxRun { rx with evmask := mask, evq := [] } xs = _ at inStep
  rw [inStep]
  exact ⟨unmask_masked unmasked mask, rfl⟩

/-! ### The budget (R250, R329) -/

/-- Samples after which the budget has ended the state at the latest. -/
def samplesLeft (rx : RxUnit) : Nat :=
  if rx.state = .syncShort then rx.maxSyms * (rx.m + rx.cpLen) - rx.cnt
  else rx.timer + (rx.maxSyms - (rx.nsym + 1)) * (rx.m + rx.cpLen)

/-- The unit counts samples off its timer: `SYNC_LONG`, `RX_HEADER` or `RX_PAYLOAD`. -/
def Waiting (rx : RxUnit) : Prop := rx.state = .syncLong ∨ rx.state = .rxHeader ∨ rx.state = .rxPayload

section
variable {rx rx' : RxUnit}

theorem samplesLeft_syncShort (state : rx.state = .syncShort) : samplesLeft rx = rx.maxSyms * (rx.m + rx.cpLen) - rx.cnt :=
  if_pos state

theorem Waiting.samplesLeft_eq (waiting : Waiting rx) :
    samplesLeft rx = rx.timer + (rx.maxSyms - (rx.nsym + 1)) * (rx.m + rx.cpLen) :=
  if_neg fun state => by rcases waiting with h | h | h <;> exact nomatch state.symm.trans h

theorem RxActive.waiting (h : RxActive rx) (waiting : Waiting rx) :
    1 ≤ rx.timer ∧ rx.timer ≤ rx.m + rx.cpLen ∧ rx.nsym < rx.maxSyms := by
  rcases waiting with state | state | state
  · obtain ⟨least, most, budget, -⟩ := (rxControl_syncLong state).1 h.control
    exact ⟨least, most, budget⟩
  · have r := (rxControl_header state).1 h.control
    exact ⟨r.timer.1, r.timer.2, r.budget⟩
  · have r := ((rxControl_payload state).1 h.control).1
    exact ⟨r.timer.1, r.timer.2, r.budget⟩

/-- A unit in one of the four states has at least one sample left, and no more than the budget. -/
theorem RxActive.samplesLeft_bounds (h : RxActive rx) (bounded : rx.state = .syncShort ∨ Waiting rx) :
    1 ≤ samplesLeft rx ∧ samplesLeft rx ≤ rx.maxSyms * (rx.m + rx.cpLen) := by
  rcases bounded with state | waiting
  · obtain ⟨-, -, below⟩ := (rxControl_syncShort state).1 h.control
    rw [samplesLeft_syncShort state]
    omega
  · obtain ⟨least, most, budget⟩ := h.waiting waiting
    obtain ⟨n, syms⟩ := Nat.exists_eq_add_of_le' (show rx.nsym + 1 ≤ rx.maxSyms from budget)
    have total : rx.timer + n * (rx.m + rx.cpLen) ≤ rx.maxSyms * (rx.m + rx.cpLen) := by
      calc _ ≤ (rx.m + rx.cpLen) + n * (rx.m + rx.cpLen) := Nat.add_le_add_right most _
        _ = (n + 1) * (rx.m + rx.cpLen) := by ring
        _ ≤ _ := Nat.mul_le_mul_right _ (by omega)
    have spent : rx.maxSyms - (rx.nsym + 1) = n := by omega
    rw [waiting.samplesLeft_eq, spent]
    exact ⟨by omega, total⟩

/-- A restarted timer that counts one more symbol leaves fewer samples. -/
theorem samplesLeft_restart (waiting : Waiting rx) (waiting' : Waiting rx') (config : SameRxConfig rx' rx)
    (counted : rx'.nsym = rx.nsym + 1) (more : rx.nsym + 1 < rx.maxSyms) (least : 1 ≤ rx.timer)
    (most : rx'.timer ≤ rx.m + rx.cpLen) : samplesLeft rx' < samplesLeft rx := by
  obtain ⟨m, cpLen, -, -, -, -, -, -, maxSyms, -⟩ := config
  have symbol : (rx.maxSyms - (rx.nsym + 1)) * (rx.m + rx.cpLen) =
      (rx.maxSyms - (rx.nsym + 1 + 1)) * (rx.m + rx.cpLen) + (rx.m + rx.cpLen) := by
    rw [← Nat.succ_mul]; congr 1; omega
  rw [waiting.samplesLeft_eq, waiting'.samplesLeft_eq, m, cpLen, maxSyms, counted, symbol]
  omega

/-- Counting a sample off leaves one fewer. -/
theorem samplesLeft_counted (waiting : Waiting rx) (left : 1 < rx.timer) :
    samplesLeft { rx with timer := rx.timer - 1 } < samplesLeft rx := by
  rw [waiting.samplesLeft_eq, Waiting.samplesLeft_eq (rx := { rx with timer := rx.timer - 1 }) waiting]
  exact Nat.add_lt_add_right (by simp only; omega) _

/-- The state has been left, or fewer samples are left in it. -/
def Progress (rx rx' : RxUnit) : Prop := rx'.state ≠ rx.state ∨ samplesLeft rx' < samplesLeft rx

theorem finishHeader_leaves (rx : RxUnit) : (finishHeader rx).state ≠ .rxHeader := by
  rcases finishHeader_cases rx with e | ⟨h, -, -, e⟩ <;> rw [e]
  · exact nofun
  · rcases beginPayload_cases h rx with ⟨-, e⟩ | ⟨-, e⟩ <;> rw [e] <;> exact nofun

theorem stepSyncShort_progress (state : rx.state = .syncShort) (below : rx.cnt < rx.maxSyms * (rx.m + rx.cpLen)) :
    Progress rx (stepSyncShort rx) := by
  have budget (rx' : RxUnit) (state' : rx'.state = .syncShort) (config : SameRxConfig rx' rx) (counted : rx'.cnt = rx.cnt + 1) :
      Progress rx (shortBudget rx') := by
    rcases shortBudget_cases rx' with ⟨-, e⟩ | ⟨-, e⟩ <;> rw [e]
    · obtain ⟨m, cpLen, -, -, -, -, -, -, maxSyms, -⟩ := config
      refine .inr ?_
      rw [samplesLeft_syncShort state, samplesLeft_syncShort state', m, cpLen, maxSyms, counted]
      omega
    · exact .inl (by rw [state]; exact nofun)
  rcases stepSyncShort_cases rx with e | ⟨-, e⟩ | ⟨-, e⟩ <;> rw [e]
  · exact budget _ state (.refl rx) rfl
  · exact .inl (by rw [state]; exact nofun)
  · exact budget _ state (.refl rx) rfl

theorem testLong_progress (state : rx.state = .syncLong) (least : 1 ≤ rx.timer) :
    Progress rx (testLong { rx with timer := 0 }) := by
  rcases testLong_cases { rx with timer := 0 } with e | ⟨-, e⟩ | ⟨more, e⟩ <;> rw [e]
  · exact .inl (by rw [state]; exact nofun)
  · exact .inl (by rw [state]; exact nofun)
  · exact .inr (samplesLeft_restart (.inl state) (.inl state) (.refl rx) rfl more least (by simp only; omega))

theorem rxSymbol_progress (state : rx.state = .rxHeader ∨ rx.state = .rxPayload) (least : 1 ≤ rx.timer) :
    Progress rx (rxSymbol { rx with timer := 0 }) := by
  set received := receiveSymbol { rx with timer := 0 } with h
  have kept : received.state = rx.state := rfl
  rw [rxSymbol, ← h]
  rcases afterSymbol_cases received with ⟨header, -, e⟩ | ⟨-, -, e⟩ | ⟨-, e⟩ | ⟨more, -, -, e⟩ <;> rw [e]
  · exact .inl (by rw [← kept, header]; exact finishHeader_leaves _)
  · exact .inl (by rcases state with h | h <;> rw [h] <;> exact nofun)
  · exact .inl (by rcases state with h | h <;> rw [h] <;> exact nofun)
  · exact .inr (samplesLeft_restart (.inr state) (.inr state) (.refl rx) rfl more least le_rfl)

theorem tick_progress {k : RxUnit → RxUnit} (waiting : Waiting rx) (due : Progress rx (k { rx with timer := 0 })) :
    Progress rx (tick k rx) := by
  rcases tick_cases k rx with ⟨-, e⟩ | ⟨left, e⟩ <;> rw [e]
  · exact due
  · exact .inr (samplesLeft_counted waiting left)

/-- R250: no sample of the four states is for nothing. -/
theorem RxActive.rxStep_progress (h : RxActive rx) (bounded : rx.state = .syncShort ∨ Waiting rx) (x : Cpx) :
    Progress rx (rxStep rx x) := by
  rcases bounded with state | state | state
  · obtain ⟨-, -, below⟩ := (rxControl_syncShort state).1 h.control
    rw [rxStep_syncShort x state]
    exact stepSyncShort_progress (rx := shiftWindow x rx) state below
  · rw [rxStep_syncLong x state]
    exact tick_progress (rx := shiftWindow x rx) (.inl state) (testLong_progress state (h.waiting (.inl state)).1)
  · rw [rxStep_receive x state]
    exact tick_progress (rx := shiftWindow x rx) (.inr state) (rxSymbol_progress state (h.waiting (.inr state)).1)

/-- As many samples as are left at the latest suffice to leave the state. -/
theorem RxActive.exists_left (h : RxActive rx) (bounded : rx.state = .syncShort ∨ Waiting rx) {xs : List Cpx}
    (enough : samplesLeft rx ≤ xs.length) : ∃ k ≤ xs.length, (rxRun rx (xs.take k)).state ≠ rx.state := by
  induction xs generalizing rx with
  | nil =>
    have := (h.samplesLeft_bounds bounded).1
    simp only [List.length_nil] at enough
    omega
  | cons x xs ih =>
    by_cases left : (rxStep rx x).state = rx.state
    · have fewer := (h.rxStep_progress bounded x).resolve_left (absurd left)
      rw [List.length_cons] at enough
      obtain ⟨k, inside, away⟩ := ih (rxStep_active h x) (by rwa [Waiting, left]) (by omega)
      exact ⟨k + 1, by simpa using inside, by rwa [List.take_succ_cons, rxRun_cons, ← left]⟩
    · exact ⟨1, by simp, by simpa [rxRun_cons] using left⟩

end

/-- Settles O47: the samples left never exceed the budget, and every sample counts. -/
theorem budgetBoundsEveryState : Obligations.BudgetBoundsEveryState := by
  intro rx xs conf bounded enough
  have active : RxActive rx := (rxActive_iff rx).2 ⟨by rcases bounded with h | h | h | h <;> rw [h] <;> decide, conf⟩
  have least := (active.samplesLeft_bounds bounded).2
  obtain ⟨k, inside, away⟩ := active.exists_left bounded (xs := xs.take (rx.maxSyms * (rx.m + rx.cpLen)))
    (by rwa [List.length_take_of_le enough])
  rw [List.length_take_of_le enough] at inside
  exact ⟨k, inside, by rwa [List.take_take, Nat.min_eq_left inside] at away⟩

end Sys2Proof.Machine

/-! SUPPORT. A frame received from its long preamble on (44_frame_synchronizer.md R227 to R245, R251): the symbols of a matched
transmitter, block by block. -/

namespace Sys2Proof.Machine

/-! ### A block of samples up to the end of the timer -/

theorem fedWindow_block {rx : RxUnit} {xs : List Cpx} (len : rx.win.length = xs.length) : fedWindow rx xs = { rx with win := xs } := by
  rw [fedWindow, List.drop_left' len]

/-- What a waiting unit does when its timer ends (R227, R229). -/
def dueRule (rx : RxUnit) : RxUnit → RxUnit := if rx.state = .syncLong then testLong else rxSymbol

theorem rxStep_waiting {rx : RxUnit} (waiting : Waiting rx) (x : Cpx) : rxStep rx x = tick (dueRule rx) (shiftWindow x rx) := by
  rcases waiting with state | state
  · rw [rxStep_syncLong x state, dueRule, if_pos state]; rfl
  · rw [rxStep_receive x state, dueRule, if_neg (by rcases state with h | h <;> rw [h] <;> decide)]; rfl

/-- As many samples as the timer says, the rule of the state once, behind the last one. -/
theorem rxRun_due {rx : RxUnit} (waiting : Waiting rx) (win : rx.win ≠ []) {xs : List Cpx} (some : xs ≠ [])
    (due : rx.timer = xs.length) : rxRun rx xs = dueRule rx { fedWindow rx xs with timer := 0 } := by
  induction xs generalizing rx with
  | nil => exact absurd rfl some
  | cons x xs ih =>
    rw [rxRun_cons, rxStep_waiting waiting, fedWindow_cons win]
    cases xs with
    | nil => rw [tick_of_le (dueRule rx) (rx := shiftWindow x rx) due.le, fedWindow_nil]; rfl
    | cons y ys =>
      have left : 1 < rx.timer := by rw [due]; simp
      rw [tick_of_gt (dueRule rx) (rx := shiftWindow x rx) left]
      exact ih (rx := { shiftWindow x rx with timer := rx.timer - 1 }) waiting (by simp) (by simp) (by simp [due])

/-! ### The symbols a transmitter writes -/

theorem txBlocks_add (a b : Nat) (tx : TxUnit) :
    txBlocks (a + b) tx = ((txBlocks a tx).1 ++ (txBlocks b (txBlocks a tx).2).1, (txBlocks b (txBlocks a tx).2).2) := by
  induction a generalizing tx with
  | zero => rw [Nat.zero_add]; rfl
  | succ a ih => simp only [Nat.succ_add, txBlocks, ih, List.append_assoc]

theorem txBlocks_length (n : Nat) (tx : TxUnit) : (txBlocks n tx).1.length = n * (tx.m + tx.cpLen) := by
  induction n generalizing tx with
  | zero => simp [txBlocks]
  | succ n ih =>
    simp only [txBlocks, List.length_append, txWriteSymbol_block_length, ih, txWriteSymbol_m, txWriteSymbol_cpLen]
    ring

/-- The symbols of one frame, a block each. -/
structure SameFrame (tx tx' : TxUnit) (n : Nat) : Prop where
  m : tx'.m = tx.m
  cpLen : tx'.cpLen = tx.cpLen
  taperLen : tx'.taperLen = tx.taperLen
  fd : tx'.fd = tx.fd
  cursor : tx'.cursor = tx.cursor + n

theorem txBlocks_sameFrame (n : Nat) (tx : TxUnit) : SameFrame tx (txBlocks n tx).2 n := by
  induction n generalizing tx with
  | zero => exact ⟨rfl, rfl, rfl, rfl, rfl⟩
  | succ n ih =>
    obtain ⟨m, cpLen, taperLen, fd, cursor⟩ := ih (txWriteSymbol tx).2
    exact ⟨m, cpLen, taperLen, fd, cursor.trans (by rw [txWriteSymbol_cursor]; omega)⟩

/-! ### One symbol after another (R229) -/

/-- A configured receiver that corrects no offset, and a transmitter with blocks of the same form. -/
structure Aligned (tx : TxUnit) (rx : RxUnit) : Prop where
  stored : RxStored rx
  m : tx.m = rx.m
  cpLen : tx.cpLen = rx.cpLen
  tapered : tx.taperLen ≤ tx.cpLen
  nu : rx.nu = 0
  phi : rx.phi = 0
  tau : rx.tau = 0

/-- The receiver behind `n` clean symbols that carry `bits`: `w` in the window, `pl` in the pilot register. -/
def received (rx : RxUnit) (w : List Cpx) (bits : List Bool) (n : Nat) (pl : BitVec 16) : RxUnit := { rx with
  win := w, timer := rx.m + rx.cpLen, rxbits := rx.rxbits ++ bits, symIdx := rx.symIdx + n, nsym := rx.nsym + n, pl := pl }

theorem received_received (rx : RxUnit) (v w : List Cpx) (a b : List Bool) (k n : Nat) (p q : BitVec 16) :
    received (received rx v a k p) w b n q = received rx w (a ++ b) (k + n) q := by
  simp only [received, List.append_assoc, Nat.add_assoc]

theorem received_none {rx : RxUnit} (due : rx.timer = rx.m + rx.cpLen) : received rx rx.win [] 0 rx.pl = rx := by
  rw [received, ← due, List.append_nil]; rfl

namespace Aligned

variable {tx tx' : TxUnit} {rx : RxUnit}

theorem win_ne_nil (h : Aligned tx rx) : rx.win ≠ [] := by
  have := h.stored.winLength
  have := h.stored.m_ge
  exact List.ne_nil_of_length_pos (by omega)

theorem block_length (h : Aligned tx rx) (v : List Cpx) : (asmTime tx v).1.length = rx.m + rx.cpLen :=
  (asmBlock_length _ _ _ _ _ _).trans (by rw [h.m, h.cpLen])

theorem block_ne_nil (h : Aligned tx rx) (v : List Cpx) : (asmTime tx v).1 ≠ [] := by
  have := h.stored.m_ge
  exact List.ne_nil_of_length_pos (by rw [h.block_length]; omega)

theorem sameFrame {n : Nat} (h : Aligned tx rx) (s : SameFrame tx tx' n) : Aligned tx' rx :=
  ⟨h.stored, s.m.trans h.m, s.cpLen.trans h.cpLen, by rw [s.taperLen, s.cpLen]; exact h.tapered, h.nu, h.phi, h.tau⟩

theorem written (h : Aligned tx rx) : Aligned (txWriteSymbol tx).2 rx := ⟨h.stored, h.m, h.cpLen, h.tapered, h.nu, h.phi, h.tau⟩

theorem received (h : Aligned tx rx) {w : List Cpx} (len : w.length = rx.m + rx.cpLen) (bits : List Bool) (n : Nat) (pl : BitVec 16) :
    Aligned tx (received rx w bits n pl) where
  stored := h.stored.of_config (.refl rx) len h.stored.gainLength h.stored.nullGains h.stored.hdrUserLength
  m := h.m
  cpLen := h.cpLen
  tapered := h.tapered
  nu := h.nu
  phi := h.phi
  tau := h.tau

theorem headerBegun (h : Aligned tx rx) : Aligned tx (beginHeader rx) :=
  ⟨h.stored.congr (.refl rx) rfl rfl rfl, h.m, h.cpLen, h.tapered, h.nu, h.phi, h.tau⟩

/-- A unit whose window is the block, and nothing else. -/
theorem holdsBlock (h : Aligned tx rx) {v : List Cpx} (width : v.length = tx.m) :
    HoldsBlock tx { rx with win := (asmTime tx v).1, timer := 0 } v where
  m := h.m
  cpLen := h.cpLen
  prefixed := by rw [h.m, h.cpLen]; exact h.stored.prefixed
  tapered := h.tapered
  width := width
  nu := h.nu
  phi := h.phi
  tau := h.tau
  win := rfl

/-- R229: one block is one clean symbol. -/
theorem rxRun_symbol (h : Aligned tx rx) (state : rx.state = .rxHeader ∨ rx.state = .rxPayload) (due : rx.timer = rx.m + rx.cpLen)
    (gains : rx.g = unitGains rx.table) {groups : List (List Bool)} (count : groups.length = rx.derived.nData)
    (width : ∀ b ∈ groups, b.length = modBps rx.curMod)
    (next : tx.fd.getD tx.cursor [] = (fill rx.table (groups.map (modulate rx.curMod)) rx.pl).1) :
    rxRun rx (txWriteSymbol tx).1 = afterSymbol (Machine.received rx (txWriteSymbol tx).1 groups.flatten 1
      (fill rx.table (groups.map (modulate rx.curMod)) rx.pl).2) := by
  set v := (fill rx.table (groups.map (modulate rx.curMod)) rx.pl).1
  have block : (txWriteSymbol tx).1 = (asmTime tx v).1 := by rw [← next]; rfl
  have len := h.block_length v
  have clean := h.holdsBlock (v := v) (by rw [fill_length, h.m]; exact h.stored.table.1)
  have rule : dueRule rx = rxSymbol := if_neg (by rcases state with h | h <;> rw [h] <;> decide)
  rw [block, rxRun_due (.inr state) h.win_ne_nil (h.block_ne_nil v) (by rw [due, len]), rule,
    fedWindow_block (by rw [len]; exact h.stored.winLength), rxSymbol,
    receiveSymbol_clean (rx := { rx with win := (asmTime tx v).1, timer := 0 }) h.stored.table h.stored.derived gains count width clean]
  rfl

/-- R229: the blocks of all symbols still due end the reception. -/
theorem rxRun_symbols (h : Aligned tx rx) (state : rx.state = .rxHeader ∨ rx.state = .rxPayload) (due : rx.timer = rx.m + rx.cpLen)
    (gains : rx.g = unitGains rx.table) {gs : List (List (List Bool))} (some : gs ≠ [])
    (count : ∀ groups ∈ gs, groups.length = rx.derived.nData) (width : ∀ groups ∈ gs, ∀ b ∈ groups, b.length = modBps rx.curMod)
    (next : ∀ i < gs.length,
      tx.fd.getD (tx.cursor + i) [] = (fillAll rx.table (gs.map (List.map (modulate rx.curMod))) rx.pl).1.getD i [])
    (last : rx.symIdx + gs.length = symbolsDue rx) (counted : rx.nsym = rx.symIdx) (budget : symbolsDue rx ≤ rx.maxSyms) :
    ∃ w, w.length = rx.m + rx.cpLen ∧ rxRun rx (txBlocks gs.length tx).1 = finishReception
      (Machine.received rx w gs.flatten.flatten gs.length (fillAll rx.table (gs.map (List.map (modulate rx.curMod))) rx.pl).2) := by
  induction gs generalizing tx rx with
  | nil => exact absurd rfl some
  | cons groups gs ih =>
    obtain ⟨count, counts⟩ := List.forall_mem_cons.1 count
    obtain ⟨width, widths⟩ := List.forall_mem_cons.1 width
    have symbol := h.rxRun_symbol state due gains count width (next 0 (by simp))
    set pl := (fill rx.table (groups.map (modulate rx.curMod)) rx.pl).2
    have len : (txWriteSymbol tx).1.length = rx.m + rx.cpLen := h.block_length _
    have bits : (groups :: gs).flatten.flatten = groups.flatten ++ gs.flatten.flatten := by
      rw [List.flatten_cons, List.flatten_append]
    rw [List.length_cons] at last
    cases gs with
    | nil =>
      refine ⟨_, len, ?_⟩
      have whole : (txBlocks ([groups].length) tx).1 = (txWriteSymbol tx).1 := List.append_nil _
      rw [whole, symbol, afterSymbol_of_last last, bits, List.flatten_nil, List.flatten_nil, List.append_nil]
      rfl
    | cons groups' gs =>
      set rest := groups' :: gs with hrest
      have more : rx.symIdx + 1 ≠ symbolsDue rx := by rw [← last, hrest, List.length_cons]; omega
      have within : rx.nsym + 1 < rx.maxSyms := by rw [hrest, List.length_cons] at last; omega
      have stays : afterSymbol (Machine.received rx (txWriteSymbol tx).1 groups.flatten 1 pl) =
          Machine.received rx (txWriteSymbol tx).1 groups.flatten 1 pl :=
        (afterSymbol_of_more (rx := Machine.received rx _ _ 1 _) more).trans (if_neg within.not_ge)
      obtain ⟨w, len', run⟩ := ih (h.received len groups.flatten 1 pl).written state rfl gains (by simp [hrest]) counts widths
        (fun i inside => by
          have later := next (i + 1) (Nat.succ_lt_succ inside)
          rw [txWriteSymbol_fd, txWriteSymbol_cursor, Nat.add_assoc, Nat.add_comm 1 i]
          exact later)
        (show rx.symIdx + 1 + rest.length = symbolsDue rx by omega) (congrArg (· + 1) counted) budget
      refine ⟨w, len', ?_⟩
      rw [List.length_cons, txBlocks, rxRun_append, symbol, stays, run, received_received, bits, Nat.add_comm 1]
      rfl

end Aligned

/-! ### The bits of a message, symbol by symbol (R195, R196) -/

theorem chunks_map {α β : Type} (f : α → β) (n k : Nat) (l : List α) : chunks n k (l.map f) = (chunks n k l).map (List.map f) := by
  induction k generalizing l with
  | zero => rfl
  | succ k ih => simp only [chunks, List.map_cons, List.map_take, ← ih, List.map_drop]

/-- The groups of bits that each of `n` symbols carries on its data bins. -/
def symbolGroups (e : List Byte) (md : ModId) (n nData : Nat) : List (List (List Bool)) :=
  chunks nData n (chunks (modBps md) (n * nData) (padBits (n * nData * modBps md) (bitsOfBytes e)))

section
variable (e : List Byte) (md : ModId) (n nData : Nat)

@[simp] theorem symbolGroups_length : (symbolGroups e md n nData).length = n := chunks_length _ _ _

theorem length_of_mem_symbolGroups : ∀ groups ∈ symbolGroups e md n nData, groups.length = nData := fun _ mem =>
  length_of_mem_chunks (chunks_length _ _ _) mem

theorem symbolGroups_flatten : (symbolGroups e md n nData).flatten =
    chunks (modBps md) (n * nData) (padBits (n * nData * modBps md) (bitsOfBytes e)) := chunks_flatten (chunks_length _ _ _)

theorem width_of_mem_symbolGroups : ∀ groups ∈ symbolGroups e md n nData, ∀ b ∈ groups, b.length = modBps md := fun _ mem _ bit =>
  length_of_mem_chunks (padBits_length _ _) (symbolGroups_flatten e md n nData ▸ List.mem_flatten_of_mem mem bit)

theorem symbolGroups_modulated : (symbolGroups e md n nData).map (List.map (modulate md)) =
    chunks nData n (mapSymbols e md n nData) := (chunks_map _ _ _ _).symm

theorem symbolGroups_bits : (symbolGroups e md n nData).flatten.flatten = (mapSymbols e md n nData).flatMap (demodulate md) := by
  rw [symbolGroups_flatten, demodulate_mapSymbols, chunks_flatten (padBits_length _ _)]

end

/-! ### The vectors of a frame, header and payload apart (R196) -/

theorem fillAll_append (p : List Tag) (a b : List (List Cpx)) (pl : BitVec 16) : fillAll p (a ++ b) pl =
    ((fillAll p a pl).1 ++ (fillAll p b (fillAll p a pl).2).1, (fillAll p b (fillAll p a pl).2).2) := by
  induction a generalizing pl with
  | nil => rfl
  | cons d a ih => simp only [List.cons_append, fillAll, ih]

section
variable (tx : TxUnit) (user payload : List Byte)

/-- The groups of bits that the symbols of the header carry. -/
def headerGroups : List (List (List Bool)) :=
  symbolGroups (protect tx.check tx.fec0 (fullHeader tx user payload.length)) tx.hdrMod (txHdrCounts tx).nsym tx.derived.nData

/-- The groups of bits that the symbols of the payload carry. -/
def payloadGroups : List (List (List Bool)) :=
  symbolGroups (protect tx.check tx.fec1 payload) tx.mod (txPayCounts tx payload.length).nsym tx.derived.nData

theorem headerGroups_length : (headerGroups tx user payload).length = (txHdrCounts tx).nsym := symbolGroups_length _ _ _ _

theorem payloadGroups_length : (payloadGroups tx payload).length = (txPayCounts tx payload.length).nsym := symbolGroups_length _ _ _ _

theorem frameData_eq : frameData tx user payload =
    (headerGroups tx user payload).map (List.map (modulate tx.hdrMod)) ++
      (payloadGroups tx payload).map (List.map (modulate tx.mod)) := by
  rw [headerGroups, payloadGroups, symbolGroups_modulated, symbolGroups_modulated]; rfl

/-- The filled symbols of the header, and the pilot register behind them. -/
def headerFill : List (List Cpx) × BitVec 16 :=
  fillAll tx.table ((headerGroups tx user payload).map (List.map (modulate tx.hdrMod))) Config.seedPilot

/-- The filled symbols of the payload. -/
def payloadFill : List (List Cpx) :=
  (fillAll tx.table ((payloadGroups tx payload).map (List.map (modulate tx.mod))) (headerFill tx user payload).2).1

theorem headerFill_length : (headerFill tx user payload).1.length = (txHdrCounts tx).nsym := by
  rw [headerFill, fillAll_length, List.length_map, headerGroups_length]

theorem payloadFill_length : (payloadFill tx user payload).length = (txPayCounts tx payload.length).nsym := by
  rw [payloadFill, fillAll_length, List.length_map, payloadGroups_length]

theorem frameVectors_parts : frameVectors tx user payload =
    [tx.derived.short, tx.derived.long] ++ ((headerFill tx user payload).1 ++ payloadFill tx user payload) ++ [zeros tx.m] := by
  rw [frameVectors_eq, frameData_eq, fillAll_append]; rfl

theorem frameVectors_headerFill {i : Nat} (inside : i < (txHdrCounts tx).nsym) :
    (frameVectors tx user payload).getD (2 + i) [] = (headerFill tx user payload).1.getD i [] := by
  have first : i < (headerFill tx user payload).1.length := by rwa [headerFill_length]
  rw [frameVectors_parts, frame_getD_symbol _ _ _ _ (by rw [List.length_append]; omega), List.getD_append _ _ _ _ first]

theorem frameVectors_payloadFill {i : Nat} (inside : i < (txPayCounts tx payload.length).nsym) :
    (frameVectors tx user payload).getD (2 + (txHdrCounts tx).nsym + i) [] = (payloadFill tx user payload).getD i [] := by
  have behind : (headerFill tx user payload).1.length ≤ (txHdrCounts tx).nsym + i := by rw [headerFill_length]; omega
  rw [Nat.add_assoc, frameVectors_parts, frame_getD_symbol _ _ _ _ (by rw [List.length_append, headerFill_length, payloadFill_length]; omega),
    List.getD_append_right _ _ _ _ behind, headerFill_length, Nat.add_sub_cancel_left]

end

/-! ### The counts of a matched pair (R193, R251) -/

theorem TxConfigured.nData_eq {tx : TxUnit} (h : TxConfigured tx) : tx.derived.nData = countTag .data tx.table := by rw [h.derived]; rfl

namespace Matched

variable {tx : TxUnit} {rx : RxUnit}

theorem nData (paired : Matched tx rx) (conf : TxConfigured tx) (stored : RxStored rx) : rx.derived.nData = tx.derived.nData := by
  rw [stored.nData_eq, conf.nData_eq, paired.table]

theorem nHdr (paired : Matched tx rx) (conf : TxConfigured tx) (stored : RxStored rx) : rx.derived.nHdr = (txHdrCounts tx).nsym := by
  rw [stored.nHdr_eq, paired.nData conf stored, paired.hdrCheck, paired.hdrFec, paired.hdrMod, paired.hUser]; rfl

end Matched

/-! ### Header and payload (R228 to R245) -/

/-- The fields that the descriptor of a frame carries. -/
def sentFields (tx : TxUnit) (user payload : List Byte) : HeaderFields :=
  { user := user, plen := payload.length, pcheck := tx.check, pfec := tx.fec1, pmod := tx.mod }

section
variable {tx0 tx : TxUnit} {rx : RxUnit} {user payload : List Byte} (conf : TxConfigured tx0) (paired : Matched tx0 rx)
  (aligned : Aligned tx rx) (gains : rx.g = unitGains rx.table) (userLen : user.length = tx0.hUser)
  (frame : tx.fd = frameVectors tx0 user payload)
include conf paired aligned gains userLen frame

/-- R241 to R244: the blocks of the header begin the payload it announces. -/
theorem rxRun_header (fits : payload.length ≤ 65535) (cursor : tx.cursor = 2) (budget : (txHdrCounts tx0).nsym ≤ rx.maxSyms) :
    ∃ w, w.length = rx.m + rx.cpLen ∧ rxRun (beginHeader rx) (txBlocks (txHdrCounts tx0).nsym tx).1 =
      beginPayload (sentFields tx0 user payload) (received (beginHeader rx) w (headerGroups tx0 user payload).flatten.flatten
        (txHdrCounts tx0).nsym (headerFill tx0 user payload).2) := by
  have nData := paired.nData conf aligned.stored
  have nHdr := paired.nHdr conf aligned.stored
  have begun := aligned.headerBegun
  have due : symbolsDue (beginHeader rx) = (txHdrCounts tx0).nsym := nHdr
  have filled : fillAll (beginHeader rx).table ((headerGroups tx0 user payload).map (List.map (modulate (beginHeader rx).curMod)))
      (beginHeader rx).pl = headerFill tx0 user payload := by
    change fillAll rx.table (List.map (List.map (modulate rx.hdrMod)) _) _ = _
    rw [paired.table, paired.hdrMod]; rfl
  obtain ⟨w, len, run⟩ := begun.rxRun_symbols (gs := headerGroups tx0 user payload) (.inl rfl) rfl gains
    (List.ne_nil_of_length_pos (by rw [headerGroups_length, ← nHdr]; exact aligned.stored.nHdr_pos))
    (fun groups mem => (length_of_mem_symbolGroups _ _ _ _ groups mem).trans nData.symm)
    (fun groups mem => by
      rw [show (beginHeader rx).curMod = tx0.hdrMod from paired.hdrMod]; exact width_of_mem_symbolGroups _ _ _ _ groups mem)
    (fun i inside => by
      rw [filled, frame, cursor]; exact frameVectors_headerFill _ _ _ (by rwa [headerGroups_length] at inside))
    (by rw [due, headerGroups_length]; exact Nat.zero_add _) rfl (by rw [due]; exact budget)
  refine ⟨w, len, ?_⟩
  rw [filled, headerGroups_length] at run
  rw [run]
  set rx' := received (beginHeader rx) w (headerGroups tx0 user payload).flatten.flatten (txHdrCounts tx0).nsym
    (headerFill tx0 user payload).2
  have ended : finishReception rx' = finishHeader rx' := if_pos rfl
  have bits : rx'.rxbits = (mapSymbols (protect rx.hdrCheck rx.hdrFec (fullHeader tx0 user payload.length)) rx.hdrMod
      rx.derived.nHdr rx.derived.nData).flatMap (demodulate rx.hdrMod) := by
    rw [paired.hdrCheck, paired.hdrFec, paired.hdrMod, nHdr, nData, ← symbolGroups_bits]; rfl
  have decoded : decodeHeader rx' = (fullHeader tx0 user payload.length, true) :=
    decodeHeader_sent aligned.stored.derived aligned.stored.nData_pos
      (by rw [fullHeader_length, userLen]; exact congrArg (· + Config.hDesc) paired.hUser.symm) bits
  have parsed : parseHeader rx'.hUser (decodeHeader rx').1 = some (sentFields tx0 user payload) := by
    rw [decoded]; exact parseHeader_fullHeader (userLen.trans paired.hUser.symm) fits
  rw [ended, finishHeader_accepted (by rw [decoded]) parsed]

/-- R245: the blocks of the payload, if any, end it. -/
theorem rxRun_payload (due : rx.timer = rx.m + rx.cpLen) (register : rx.pl = (headerFill tx0 user payload).2)
    (cursor : tx.cursor = 2 + (txHdrCounts tx0).nsym) (budget : (txPayCounts tx0 payload.length).nsym ≤ rx.maxSyms) :
    ∃ w pl, rxRun (beginPayload (sentFields tx0 user payload) rx) (txBlocks (txPayCounts tx0 payload.length).nsym tx).1 =
      finishPayload (received (payloadBegun (sentFields tx0 user payload) rx) w (payloadGroups tx0 payload).flatten.flatten
        (txPayCounts tx0 payload.length).nsym pl) := by
  have nData := paired.nData conf aligned.stored
  set begun := payloadBegun (sentFields tx0 user payload) rx with hbegun
  have started : Aligned tx begun :=
    ⟨aligned.stored.of_config (.refl rx) aligned.stored.winLength aligned.stored.gainLength aligned.stored.nullGains
      (userLen.trans paired.hUser.symm), aligned.m, aligned.cpLen, aligned.tapered, aligned.nu, aligned.phi, aligned.tau⟩
  have nPay : begun.nPay = (txPayCounts tx0 payload.length).nsym := by
    change (counts tx0.check tx0.fec1 tx0.mod payload.length rx.derived.nData).nsym = _
    rw [nData]; rfl
  have groups := payloadGroups_length tx0 payload
  by_cases none : begun.nPay = 0
  · rw [nPay] at none
    rw [none] at groups
    refine ⟨begun.win, begun.pl, ?_⟩
    rw [beginPayload_of_empty (nPay.trans none), none, List.eq_nil_of_length_eq_zero groups]
    exact congrArg finishPayload (received_none (rx := begun) due).symm
  · have filled : (fillAll begun.table ((payloadGroups tx0 payload).map (List.map (modulate begun.curMod))) begun.pl).1 =
        payloadFill tx0 user payload := by
      change (fillAll rx.table (List.map (List.map (modulate tx0.mod)) _) rx.pl).1 = _
      rw [paired.table, register]; rfl
    obtain ⟨w, -, run⟩ := started.rxRun_symbols (gs := payloadGroups tx0 payload) (.inr rfl) due gains
      (List.ne_nil_of_length_pos (by omega))
      (fun groups mem => (length_of_mem_symbolGroups _ _ _ _ groups mem).trans nData.symm)
      (width_of_mem_symbolGroups _ _ _ _)
      (fun i inside => by
        rw [filled, frame, cursor]; exact frameVectors_payloadFill _ _ _ (by rwa [groups] at inside))
      ((Nat.zero_add _).trans (groups.trans nPay.symm)) rfl (nPay.trans_le budget)
    rw [groups] at run
    exact ⟨w, _, by rw [beginPayload_of_symbols none, ← hbegun, run]; rfl⟩

/-- The blocks of header and payload, with both events enabled: `HEADER`, `FRAME`, and back to `DETECT`. -/
theorem rxRun_frame (fits : payload.length ≤ 65535) (cursor : tx.cursor = 2) (unmasked : rx.evmask = 3#2)
    (header : (txHdrCounts tx0).nsym ≤ rx.maxSyms) (symbols : (txPayCounts tx0 payload.length).nsym ≤ rx.maxSyms) :
    let rx' := rxRun (beginHeader rx) (txBlocks ((txHdrCounts tx0).nsym + (txPayCounts tx0 payload.length).nsym) tx).1
    rx'.evq = rx.evq ++ [.header true user, .frame true payload.length user payload] ∧ rx'.state = .detect := by
  intro rx'
  have nData := paired.nData conf aligned.stored
  obtain ⟨w, len, run⟩ := rxRun_header conf paired aligned gains userLen frame fits cursor header
  set rx1 := received (beginHeader rx) w (headerGroups tx0 user payload).flatten.flatten (txHdrCounts tx0).nsym
    (headerFill tx0 user payload).2 with hrx1
  have written := txBlocks_sameFrame (txHdrCounts tx0).nsym tx
  have aligned1 : Aligned (txBlocks (txHdrCounts tx0).nsym tx).2 rx1 := (aligned.headerBegun.received len _ _ _).sameFrame written
  have paired1 : Matched tx0 rx1 :=
    ⟨paired.m, paired.cpLen, paired.table, paired.hdrCheck, paired.hdrFec, paired.hdrMod, paired.hUser⟩
  obtain ⟨v, pl, run1⟩ := rxRun_payload conf paired1 aligned1 gains userLen (written.fd.trans frame) rfl rfl
    (written.cursor.trans (by rw [cursor])) symbols
  set rx2 := received (payloadBegun (sentFields tx0 user payload) rx1) v (payloadGroups tx0 payload).flatten.flatten
    (txPayCounts tx0 payload.length).nsym pl
  have bits : rx2.rxbits = (mapSymbols (protect tx0.check tx0.fec1 payload) tx0.mod (txPayCounts tx0 payload.length).nsym
      rx.derived.nData).flatMap (demodulate tx0.mod) := by
    rw [nData, ← symbolGroups_bits]; rfl
  have nPay : rx2.nPay = (txPayCounts tx0 payload.length).nsym := by
    change (counts tx0.check tx0.fec1 tx0.mod payload.length rx.derived.nData).nsym = _
    rw [nData]; rfl
  have done : rx' = toDetect (emit (.frame true payload.length user payload) rx2) := by
    have sent : finishPayload rx2 = toDetect (emit (.frame true rx2.plen rx2.hdrUser payload) rx2) :=
      finishPayload_sent (rx := rx2) aligned.stored.nData_pos rfl rfl (by rw [bits, nPay]; rfl)
    change rxRun (beginHeader rx) _ = _
    rw [txBlocks_add, rxRun_append, run, run1, sent]
    rfl
  have enabled : rx2.evq = rx.evq ++ [.header true user] := by
    change rx.evq ++ (if rx.evmask.getLsbD 0 then _ else _) = _
    rw [unmasked]; rfl
  have open_ : rx2.evmask = 3#2 := unmasked
  rw [done, toDetect_emit, emit_evq, enabled, open_, eventEnabled_open, if_pos rfl, List.append_assoc]
  exact ⟨rfl, rfl⟩

end

/-! ### From the long preamble on (R227, R251) -/

/-- R227: the samples that complete a clean long block begin the header with unit gains. -/
theorem Aligned.rxRun_long {tx : TxUnit} {rx : RxUnit} (h : Aligned tx rx) (state : rx.state = .syncLong)
    (next : tx.fd.getD tx.cursor [] = longPreamble rx.table) {xs : List Cpx} (some : xs ≠ []) (due : rx.timer = xs.length)
    (win : (rx.win ++ xs).drop xs.length = (txWriteSymbol tx).1) :
    rxRun rx xs = beginHeader { rx with win := (txWriteSymbol tx).1, timer := 0, g := unitGains rx.table } := by
  have block : (txWriteSymbol tx).1 = (asmTime tx (longPreamble rx.table)).1 := by rw [← next]; rfl
  have rule : dueRule rx = testLong := if_pos state
  have clean := h.holdsBlock (v := longPreamble rx.table) (by rw [longPreamble_length, h.m]; exact h.stored.table.1)
  have stored : RxStored { rx with win := (asmTime tx (longPreamble rx.table)).1, timer := 0 } :=
    h.stored.of_config (.refl rx) (h.block_length _) h.stored.gainLength h.stored.nullGains h.stored.hdrUserLength
  rw [rxRun_due (.inl state) h.win_ne_nil some due, rule, fedWindow, win, block]
  exact testLong_clean stored clean

theorem unitGains_null {p : List Tag} {k : Nat} (null : tagAt p k = .null) : (unitGains p).getD k Cpx.zero = Cpx.zero := by
  rw [unitGains_getD, if_pos null]

/-- R251 from the long preamble on: its samples, header and payload. -/
theorem Aligned.rxRun_long_frame {tx0 tx : TxUnit} {rx : RxUnit} {user payload : List Byte} (h : Aligned tx rx) (conf : TxConfigured tx0)
    (paired : Matched tx0 rx) (userLen : user.length = tx0.hUser) (fits : payload.length ≤ 65535) (state : rx.state = .syncLong)
    (frame : tx.fd = frameVectors tx0 user payload) (cursor : tx.cursor = 1) (unmasked : rx.evmask = 3#2)
    (header : (txHdrCounts tx0).nsym ≤ rx.maxSyms) (symbols : (txPayCounts tx0 payload.length).nsym ≤ rx.maxSyms)
    {xs : List Cpx} (some : xs ≠ []) (due : rx.timer = xs.length) (win : (rx.win ++ xs).drop xs.length = (txWriteSymbol tx).1) :
    let rx' := rxRun rx (xs ++
      (txBlocks ((txHdrCounts tx0).nsym + (txPayCounts tx0 payload.length).nsym) (txWriteSymbol tx).2).1)
    rx'.evq = rx.evq ++ [.header true user, .frame true payload.length user payload] ∧ rx'.state = .detect := by
  have long : tx0.derived.long = longPreamble rx.table := by rw [conf.derived, paired.table]; rfl
  have next : tx.fd.getD tx.cursor [] = longPreamble rx.table := by rw [frame, cursor, ← long]; rfl
  have stored : RxStored { rx with win := (txWriteSymbol tx).1, timer := 0, g := unitGains rx.table } :=
    h.stored.of_config (.refl rx) (h.block_length _) ((unitGains_length _).trans h.stored.table.1) (fun _ => unitGains_null)
      h.stored.hdrUserLength
  have aligned : Aligned (txWriteSymbol tx).2 { rx with win := (txWriteSymbol tx).1, timer := 0, g := unitGains rx.table } :=
    ⟨stored, h.m, h.cpLen, h.tapered, h.nu, h.phi, h.tau⟩
  intro rx'
  change (rxRun rx _).evq = _ ∧ (rxRun rx _).state = _
  rw [rxRun_append, h.rxRun_long state next some due win]
  exact rxRun_frame conf
    ⟨paired.m, paired.cpLen, paired.table, paired.hdrCheck, paired.hdrFec, paired.hdrMod, paired.hUser⟩ aligned rfl userLen
    frame fits (congrArg (· + 1) cursor) unmasked header symbols

end Sys2Proof.Machine

/-! SUPPORT. Detection of a clean short preamble (44_frame_synchronizer.md R225, R226), and the round trip of R251. -/

namespace Sys2Proof.Machine

/-! ### Windows fed in two parts, and the metric of a window fed to a running unit -/

theorem fedWindow_append (rx : RxUnit) (xs ys : List Cpx) : fedWindow rx (xs ++ ys) = fedWindow (fedWindow rx xs) ys := by
  have both : (rx.win ++ (xs ++ ys)).drop (xs ++ ys).length = ((rx.win ++ xs).drop xs.length ++ ys).drop ys.length := by
    rw [← List.append_assoc, List.length_append, ← List.drop_drop, List.drop_append_of_le_length (by simp)]
  simp only [fedWindow, both]

/-- Once a whole window of samples has come, the window holds the newest ones, whatever came before. -/
theorem fedWindow_append_block {rx : RxUnit} (xs : List Cpx) {ys : List Cpx} (len : rx.win.length = ys.length) :
    fedWindow rx (xs ++ ys) = { rx with win := ys } := by
  rw [fedWindow_append]
  exact fedWindow_block (by simp [fedWindow, len])

section
variable {rx : RxUnit} (ready : rx.state ≠ .unconfigured) (win : rx.win ≠ []) (xs : List Cpx)
include ready win

theorem rxRun_win : (rxRun rx xs).win = (fedWindow rx xs).win := (rxRun_keeps ready win xs).win

theorem rxRun_config : SameRxConfig (rxRun rx xs) rx := (rxRun_keeps ready win xs).config

/-- No rule changes what the window will hold. -/
theorem fedWindow_rxRun_win (ys : List Cpx) : (fedWindow (rxRun rx xs) ys).win = (fedWindow rx (xs ++ ys)).win := by
  rw [fedWindow_append]
  simp only [fedWindow, rxRun_win ready win xs]

/-- R224: the metric looks at the samples only. -/
theorem metric_rxRun (ys : List Cpx) : metric (fedWindow (rxRun rx xs) ys) = metric (fedWindow rx (xs ++ ys)) :=
  metric_congr (rxRun_config ready win xs) (fedWindow_rxRun_win ready win xs ys)

end

/-! ### The metric of a clean short block (R142, R144, R224) -/

namespace RxStored

variable {rx : RxUnit}

theorem shortTime_eq (h : RxStored rx) : rx.derived.shortTime = dftInv rx.m (shortPreamble rx.table) := by rw [h.derived]; rfl

theorem shortTime_length (h : RxStored rx) : rx.derived.shortTime.length = rx.m := by rw [h.shortTime_eq, dftInv_length]

theorem shortEnergy_eq (h : RxStored rx) : rx.derived.shortEnergy = energy rx.derived.shortTime := by rw [h.derived]; rfl

theorem metric_le (h : RxStored rx) : 0 ≤ (metric rx).num ∧ (metric rx).num ≤ (metric rx).den :=
  metric_bounds h.shortTime_length h.shortEnergy_eq

/-- R142, R144: a table with an even bin that carries anything has a short preamble that is not silent. -/
theorem shortEnergy_pos (h : RxStored rx) {k : Nat} (even : k % 2 = 0) (carried : tagAt rx.table k ≠ .null) :
    0 < rx.derived.shortEnergy := by
  have bin : k < rx.table.length := lt_length_of_tagAt carried
  have sounds : ∃ z ∈ rx.derived.shortTime, z ≠ Cpx.zero := by
    by_contra silent
    have time : dftInv rx.m (shortPreamble rx.table) = dftInv rx.m (zeros rx.m) := by
      rw [zeros, dftInv_zero, ← h.shortTime_eq, List.eq_replicate_iff]
      exact ⟨h.shortTime_length, fun z mem => by_contra fun ne => silent ⟨z, mem, ne⟩⟩
    have bins : shortPreamble rx.table = zeros rx.m := by
      rw [← dftFwd_dftInv ((shortPreamble_length _).trans h.table.1), time, dftFwd_dftInv (zeros_length _)]
    have silence := shortPreamble_getD bin
    rw [bins, zeros_getD, if_pos ⟨carried, even⟩] at silence
    have square := lfsrSign_mul_self k 0xACE1#16
    rw [← silence] at square
    exact absurd (congrArg Cpx.re square) (by simp [Cpx.mul, Cpx.zero, Cpx.ofNum])
  obtain ⟨z, mem, ne⟩ := sounds
  have nonneg : ∀ e ∈ rx.derived.shortTime.map Cpx.normSq, 0 ≤ e := List.forall_mem_map.2 fun z _ => Cpx.normSq_nonneg z
  rw [h.shortEnergy_eq]
  exact ((Cpx.normSq_nonneg z).lt_of_ne fun e => ne (Cpx.normSq_eq_zero.1 e.symm)).trans_le
    (List.single_le_sum nonneg _ (List.mem_map_of_mem mem))

/-- R224: on the short block the correlation is perfect, and its half-symbol product has no angle. -/
theorem metric_shortBlock (h : RxStored rx) {tx : TxUnit} (m : tx.m = rx.m) (cpLen : tx.cpLen = rx.cpLen)
    (tapered : tx.taperLen ≤ tx.cpLen) (win : rx.win = (asmTime tx (shortPreamble rx.table)).1) :
    (metric rx).num = rx.derived.shortEnergy * rx.derived.shortEnergy ∧
      (metric rx).den = rx.derived.shortEnergy * rx.derived.shortEnergy ∧ arg (metric rx).p = 0 := by
  have sample {n : Nat} (inside : n < rx.m) : newest rx n = shortSample rx n := by
    rw [newest, win, shortSample, h.shortTime_eq, asmTime, m, cpLen]
    exact asmBlock_getD_body _ _ _ h.prefixed (cpLen ▸ tapered) inside
  have products : (List.range rx.m).map (fun n => (newest rx n).mul (shortSample rx n).conj) =
      (List.range rx.m).map fun n => Cpx.ofNum (shortSample rx n).normSq :=
    List.map_congr_left fun n inside => by rw [sample (List.mem_range.1 inside), Cpx.mul_conj_self]
  have energies : (List.range rx.m).map (fun n => (newest rx n).normSq) = (List.range rx.m).map fun n => (shortSample rx n).normSq :=
    List.map_congr_left fun n inside => by rw [sample (List.mem_range.1 inside)]
  have total : numSum ((List.range rx.m).map fun n => (shortSample rx n).normSq) = rx.derived.shortEnergy := by
    rw [h.shortEnergy_eq, energy_shortTime h.shortTime_length]
  have even : rx.m % 2 = 0 := ((legalDims_iff _ _ _).1 h.dims).1
  refine ⟨?_, ?_, ?_⟩
  · rw [metric_num, products, Cpx.sum_ofNum, Cpx.normSq_ofNum, total]
  · rw [metric_den, energies, total]
  · rw [metric_p]
    refine arg_sum_eq_zero (List.forall_mem_map.2 fun n inside => ⟨(shortSample rx n).normSq, Cpx.normSq_nonneg _, ?_⟩)
    have first : n < rx.m / 2 := List.mem_range.1 inside
    have half : shortSample rx (n + rx.m / 2) = shortSample rx n := by
      rw [shortSample, shortSample, h.shortTime_eq]
      exact dftInv_getD_add_half even ((shortPreamble_length _).trans h.table.1) (shortPreamble_getD_odd _) first
    rw [sample (by omega), sample (by omega), half, Cpx.conj_mul_self]

end RxStored

/-! ### Up to the last sample of the short block (R225, R226) -/

/-- A unit that began to search `i` samples ago: whatever it locked on since, it is not past one symbol of waiting, and has emitted
nothing. -/
def Approaching (evq : List EventRecord) (i : Nat) (rx : RxUnit) : Prop :=
  rx.evq = evq ∧ (rx.state = .detect ∨ (rx.state = .syncShort ∧ rx.age < i ∧ rx.bestNum ≤ rx.bestDen) ∨
    (rx.state = .syncLong ∧ rx.m + rx.cpLen < rx.timer + i))

section
variable {rx : RxUnit} {evq : List EventRecord} {i : Nat}

theorem approaching_shortBudget (queue : rx.evq = evq) (state : rx.state = .syncShort) (age : rx.age < i)
    (best : rx.bestNum ≤ rx.bestDen) : Approaching evq i (shortBudget rx) := by
  rcases shortBudget_cases rx with ⟨-, e⟩ | ⟨-, e⟩ <;> rw [e]
  · exact ⟨queue, .inr (.inl ⟨state, age, best⟩)⟩
  · exact ⟨queue, .inl rfl⟩

theorem Approaching.rxStep (h : Approaching evq i rx) (active : RxActive rx) (early : i + 1 < rx.m + rx.cpLen) (x : Cpx) :
    Approaching evq (i + 1) (rxStep rx x) := by
  obtain ⟨queue, state | ⟨state, age, best⟩ | ⟨state, timer⟩⟩ := h
  · have bounds := (shiftWindow_active active x).stored.metric_le
    rw [rxStep_detect x state]
    rcases stepDetect_cases (shiftWindow x rx) with e | e <;> rw [e]
    · exact ⟨queue, .inl state⟩
    · exact ⟨queue, .inr (.inl ⟨rfl, Nat.succ_pos i, bounds.2⟩)⟩
  · have bounds := (shiftWindow_active active x).stored.metric_le
    have half := ((rxControl_syncShort state).1 active.control).1
    rw [rxStep_syncShort x state]
    rcases stepSyncShort_cases (shiftWindow x rx) with e | ⟨-, e⟩ | ⟨-, e⟩ <;> rw [e]
    · exact approaching_shortBudget queue state (Nat.succ_pos i) bounds.2
    · refine ⟨queue, .inr (.inr ⟨rfl, ?_⟩)⟩
      change rx.m + rx.cpLen < rx.m + rx.cpLen - (rx.age + 1) + (i + 1)
      have := active.stored.m_ge
      omega
    · exact approaching_shortBudget queue state (Nat.succ_lt_succ age) best
  · rw [rxStep_syncLong x state, stepSyncLong, tick_of_gt testLong (rx := shiftWindow x rx) (show 1 < rx.timer by omega)]
    exact ⟨queue, .inr (.inr ⟨state, show rx.m + rx.cpLen < rx.timer - 1 + (i + 1) by omega⟩)⟩

theorem approaching_rxRun (active : RxActive rx) (state : rx.state = .detect) {xs : List Cpx} (early : xs.length < rx.m + rx.cpLen) :
    Approaching rx.evq xs.length (rxRun rx xs) := by
  induction xs using List.reverseRecOn with
  | nil => exact ⟨rfl, .inl state⟩
  | append_singleton xs x ih =>
    rw [List.length_append, List.length_singleton] at early ⊢
    obtain ⟨m, cpLen, -⟩ := (rxRun_keepsConfig (by rw [state]; decide) xs).1.config
    rw [rxRun_concat]
    exact (ih (by omega)).rxStep (rxRun_active active xs) (by rw [m, cpLen]; exact early) x

end

/-! ### The peak (R225, R226) -/

/-- `SYNC_SHORT` on a perfect peak with no angle, half a symbol before the decision and with the budget for it. -/
structure AtPeak (rx : RxUnit) : Prop where
  state : rx.state = .syncShort
  age : rx.age = 0
  perfect : rx.bestNum = rx.bestDen
  sounds : 0 < rx.bestDen
  straight : arg rx.bestP = 0
  budget : rx.cnt + rx.m / 2 < rx.maxSyms * (rx.m + rx.cpLen)

/-- R225, R226: a searching unit locks on a perfect peak, and a refining one takes it. -/
theorem rxStep_atPeak {rx : RxUnit} {x : Cpx} (stored : RxStored rx) (kappa : rx.kappa = 1)
    (perfect : (metric (shiftWindow x rx)).num = (metric (shiftWindow x rx)).den) (sounds : 0 < (metric (shiftWindow x rx)).den)
    (straight : arg (metric (shiftWindow x rx)).p = 0)
    (searching : rx.state = .detect ∨ (rx.state = .syncShort ∧ rx.bestNum ≤ rx.bestDen ∧
      rx.cnt + rx.m / 2 + 1 < rx.maxSyms * (rx.m + rx.cpLen))) :
    AtPeak (rxStep rx x) ∧ (rxStep rx x).evq = rx.evq := by
  rcases searching with state | ⟨state, best, budget⟩
  · have fires : (metric (shiftWindow x rx)).num > rx.detT2 * (metric (shiftWindow x rx)).den := by
      rw [perfect]; exact mul_lt_of_lt_one_left sounds stored.detT2_lt
    have budget : rx.m / 2 < rx.maxSyms * (rx.m + rx.cpLen) := by
      have := stored.m_ge
      calc rx.m / 2 < 1 * (rx.m + rx.cpLen) := by omega
        _ ≤ _ := Nat.mul_le_mul_right _ stored.budget
    rw [rxStep_detect x state, stepDetect_of_gt fires]
    exact ⟨⟨rfl, rfl, perfect, sounds, straight, by rwa [← Nat.zero_add (rx.m / 2)] at budget⟩, rfl⟩
  · have better : Better (shiftWindow x rx) := by
      refine ⟨sounds, ?_⟩
      change rx.kappa * rx.bestNum * _ ≤ _ * rx.bestDen
      rw [perfect, kappa, one_mul, mul_comm]
      exact mul_le_mul_of_nonneg_left best sounds.le
    have below : rx.cnt + 1 < rx.maxSyms * (rx.m + rx.cpLen) := by omega
    rw [rxStep_syncShort x state, stepSyncShort_of_better better,
      shortBudget_of_lt (rx := takeBest (metric (shiftWindow x rx)) (counted (shiftWindow x rx))) below]
    exact ⟨⟨state, rfl, perfect, sounds, straight, show rx.cnt + 1 + rx.m / 2 < rx.maxSyms * (rx.m + rx.cpLen) by omega⟩, rfl⟩

/-! ### Behind the peak (R226) -/

/-- Samples that are no better leave a refining unit to count them, as long as the decision and the budget are not reached. -/
theorem rxRun_worse {rx : RxUnit} (state : rx.state = .syncShort) (win : rx.win ≠ []) {xs : List Cpx}
    (worse : ∀ j, 0 < j → j ≤ xs.length → ¬ Better (fedWindow rx (xs.take j))) (early : rx.age + xs.length ≤ rx.m / 2)
    (below : rx.cnt + xs.length < rx.maxSyms * (rx.m + rx.cpLen)) :
    rxRun rx xs = { fedWindow rx xs with age := rx.age + xs.length, cnt := rx.cnt + xs.length } := by
  induction xs generalizing rx with
  | nil => rw [fedWindow_nil]; rfl
  | cons x xs ih =>
    obtain ⟨now, later⟩ := forall_fedWindow_cons (P := fun r => ¬ Better r) win worse
    rw [List.length_cons] at early below
    have rest := ih (rx := counted (shiftWindow x rx)) state (by simp [counted]) later
      (show rx.age + 1 + xs.length ≤ rx.m / 2 by omega)
      (show rx.cnt + 1 + xs.length < rx.maxSyms * (rx.m + rx.cpLen) by omega)
    rw [rxRun_cons, rxStep_syncShort x state, stepSyncShort_of_early now (show rx.age + 1 ≤ rx.m / 2 by omega),
      shortBudget_of_lt (rx := counted (shiftWindow x rx)) (show rx.cnt + 1 < rx.maxSyms * (rx.m + rx.cpLen) by omega), rest,
      fedWindow_cons win, List.length_cons, Nat.add_comm xs.length 1, ← Nat.add_assoc, ← Nat.add_assoc]
    rfl

/-- Only a perfect match is as good as a perfect peak. -/
theorem AtPeak.not_better {rx : RxUnit} (h : AtPeak rx) (kappa : rx.kappa = 1) {xs : List Cpx}
    (imperfect : ¬ (0 < (metric (fedWindow rx xs)).den ∧ (metric (fedWindow rx xs)).den ≤ (metric (fedWindow rx xs)).num)) :
    ¬ Better (fedWindow rx xs) := by
  rintro ⟨sounds, better⟩
  change rx.kappa * rx.bestNum * _ ≤ _ * rx.bestDen at better
  rw [kappa, one_mul, h.perfect, mul_comm] at better
  exact imperfect ⟨sounds, le_of_mul_le_mul_right better h.sounds⟩

/-- R226: with no second perfect match, half a symbol and a sample behind the peak the unit waits for the rest of the long block, with
no offset estimated. -/
theorem AtPeak.rxRun_decides {rx : RxUnit} (h : AtPeak rx) (kappa : rx.kappa = 1) (win : rx.win ≠ []) {xs : List Cpx}
    (len : xs.length = rx.m / 2 + 1)
    (after : ∀ j, 0 < j → j ≤ xs.length → ¬ (0 < (metric (fedWindow rx (xs.take j))).den ∧
      (metric (fedWindow rx (xs.take j))).den ≤ (metric (fedWindow rx (xs.take j))).num)) :
    (rxRun rx xs).state = .syncLong ∧ (rxRun rx xs).timer = rx.m + rx.cpLen - xs.length ∧ (rxRun rx xs).nu = 0 ∧
      (rxRun rx xs).phi = 0 ∧ (rxRun rx xs).tau = 0 ∧ (rxRun rx xs).evq = rx.evq := by
  obtain ⟨ys, y, rfl⟩ : ∃ ys y, xs = ys ++ [y] := by
    rcases List.eq_nil_or_concat' xs with rfl | split
    · simp at len
    · exact split
  have half : ys.length = rx.m / 2 := by simpa using len
  have worse : ∀ j, 0 < j → j ≤ ys.length → ¬ Better (fedWindow rx (ys.take j)) := fun j pos inside => by
    have imperfect := after j pos (by rw [List.length_append]; omega)
    rw [List.take_append_of_le_length inside] at imperfect
    exact h.not_better kappa imperfect
  have last : ¬ Better (shiftWindow y (fedWindow rx ys)) := by
    have imperfect := after (ys ++ [y]).length (by simp) le_rfl
    rw [List.take_length] at imperfect
    have shifted : fedWindow rx (ys ++ [y]) = shiftWindow y (fedWindow rx ys) := by
      rw [fedWindow_append, fedWindow_singleton]
      exact List.ne_nil_of_length_pos (by simpa [fedWindow] using List.length_pos_iff.2 win)
    exact shifted ▸ h.not_better kappa imperfect
  have run := rxRun_worse h.state win worse (by rw [h.age, half, Nat.zero_add]) (by rw [half]; exact h.budget)
  set r := { fedWindow rx ys with age := rx.age + ys.length, cnt := rx.cnt + ys.length } with hr
  have age : r.age = rx.m / 2 := by simp only [hr, h.age, half, Nat.zero_add]
  have decided : rxRun rx (ys ++ [y]) = beginSyncLong (counted (shiftWindow y r)) := by
    rw [rxRun_concat, run, rxStep_syncShort (rx := r) y h.state]
    exact stepSyncShort_of_late (rx := shiftWindow y r) last (show rx.m / 2 < r.age + 1 by omega)
  rw [decided]
  refine ⟨rfl, ?_, ?_, rfl, rfl, rfl⟩
  · change rx.m + rx.cpLen - (r.age + 1) = _
    rw [age, len]
  · change arg rx.bestP / _ = 0
    rw [h.straight, zero_div]

/-! ### The round trip (R251) -/

theorem Matched.of_config {tx : TxUnit} {rx rx' : RxUnit} (h : Matched tx rx) (config : SameRxConfig rx' rx) : Matched tx rx' := by
  obtain ⟨m, cpLen, -, table, hdrCheck, hdrFec, hdrMod, hUser, -⟩ := config
  exact ⟨m.trans h.m, cpLen.trans h.cpLen, table.trans h.table, hdrCheck.trans h.hdrCheck, hdrFec.trans h.hdrFec,
    hdrMod.trans h.hdrMod, hUser.trans h.hUser⟩

theorem TxConfigured.tapered {tx : TxUnit} (h : TxConfigured tx) : tx.taperLen ≤ tx.cpLen := ((legalDims_iff _ _ _).1 h.dims).2.2.2.2

/-- What the detector asks of samples that begin with the short block: the first two clauses of `LocksOn`, with no lead. -/
structure LocksOnBlock (rx : RxUnit) (block rest : List Cpx) : Prop where
  before :
    let r := rxRun rx (block.take (rx.m + rx.cpLen - 1))
    r.state = .detect ∨ (r.state = .syncShort ∧ r.cnt + rx.m / 2 + 1 < rx.maxSyms * (rx.m + rx.cpLen))
  after : ∀ j, 0 < j → j ≤ rx.m / 2 + 1 →
    let k := metric (fedWindow rx (block ++ rest.take j))
    ¬ (0 < k.den ∧ k.den ≤ k.num)

section
variable {rx : RxUnit} (active : RxActive rx)
include active

theorem RxActive.ready : rx.state ≠ .unconfigured := ((rxActive_iff rx).1 active).1

theorem RxActive.win_ne_nil : rx.win ≠ [] := by
  have := active.stored.winLength
  have := active.stored.m_ge
  exact List.ne_nil_of_length_pos (by omega)

/-- R225, R226: the last sample of the short block is the peak. -/
theorem rxRun_shortBlock {tx : TxUnit} (state : rx.state = .detect) (kappa : rx.kappa = 1) {k : Nat} (even : k % 2 = 0)
    (carried : tagAt rx.table k ≠ .null) (m : tx.m = rx.m) (cpLen : tx.cpLen = rx.cpLen) (tapered : tx.taperLen ≤ tx.cpLen)
    {block rest : List Cpx} (short : block = (asmTime tx (shortPreamble rx.table)).1) (locks : LocksOnBlock rx block rest) :
    AtPeak (rxRun rx block) ∧ (rxRun rx block).evq = rx.evq := by
  have stored := active.stored
  have len : block.length = rx.m + rx.cpLen := by rw [short, ← m, ← cpLen]; exact asmBlock_length _ _ _ _ _ _
  obtain ⟨ys, y, rfl⟩ : ∃ ys y, block = ys ++ [y] := by
    rcases List.eq_nil_or_concat' block with rfl | split
    · have := stored.m_ge
      rw [List.length_nil] at len
      omega
    · exact split
  have first : rx.m + rx.cpLen - 1 = ys.length := by rw [← len]; simp
  have config := rxRun_config active.ready active.win_ne_nil ys
  obtain ⟨queue, approached⟩ := approaching_rxRun active state (xs := ys) (by rw [← len]; simp)
  have before := locks.before
  rw [first, List.take_left] at before
  set r := rxRun rx ys
  have shifted : metric (shiftWindow y r) = metric { rx with win := ys ++ [y] } := by
    rw [← fedWindow_singleton (rxRun_active active ys).win_ne_nil, metric_rxRun active.ready active.win_ne_nil,
      fedWindow_block (len ▸ stored.winLength)]
  have whole : RxStored { rx with win := ys ++ [y] } :=
    stored.of_config (.refl rx) len stored.gainLength stored.nullGains stored.hdrUserLength
  obtain ⟨num, den, straight⟩ := whole.metric_shortBlock m cpLen tapered short
  have sounds : 0 < rx.derived.shortEnergy := stored.shortEnergy_pos even carried
  have searching : r.state = .detect ∨ (r.state = .syncShort ∧ r.bestNum ≤ r.bestDen ∧
      r.cnt + r.m / 2 + 1 < r.maxSyms * (r.m + r.cpLen)) := by
    obtain ⟨m, cpLen, -, -, -, -, -, -, maxSyms, -⟩ := config
    rw [m, cpLen, maxSyms]
    rcases before with detect | ⟨syncShort, budget⟩
    · exact .inl detect
    · rcases approached with detect | ⟨-, -, best⟩ | ⟨syncLong, -⟩
      · exact .inl detect
      · exact .inr ⟨syncShort, best, budget⟩
      · rw [syncShort] at syncLong; cases syncLong
  have kappa' : r.kappa = 1 := by
    obtain ⟨-, -, -, -, -, -, -, -, -, -, -, -, same, -⟩ := config
    rw [same, kappa]
  rw [rxRun_concat, ← queue]
  exact rxStep_atPeak (rxRun_active active ys).stored kappa' (by rw [shifted, num, den])
    (by rw [shifted, den]; exact mul_pos sounds sounds) (by rw [shifted]; exact straight) searching

/-- R251 up to the last block of the payload. -/
theorem rxRun_blocks {tx0 : TxUnit} {user payload : List Byte} (conf : TxConfigured tx0) (paired : Matched tx0 rx)
    (userLen : user.length = tx0.hUser) (fits : payload.length ≤ 65535) (state : rx.state = .detect) (unmasked : rx.evmask = 3#2)
    (kappa : rx.kappa = 1) {k : Nat} (even : k % 2 = 0) (carried : tagAt rx.table k ≠ .null)
    (header : (txHdrCounts tx0).nsym ≤ rx.maxSyms) (symbols : (txPayCounts tx0 payload.length).nsym ≤ rx.maxSyms)
    (locks : LocksOnBlock rx (txWriteSymbol (txAssemble tx0 user payload)).1
      (txWriteSymbol (txWriteSymbol (txAssemble tx0 user payload)).2).1) :
    let rx' := rxRun rx (txBlocks ((txHdrCounts tx0).nsym + (txPayCounts tx0 payload.length).nsym + 1 + 1)
      (txAssemble tx0 user payload)).1
    rx'.evq = rx.evq ++ [.header true user, .frame true payload.length user payload] ∧ rx'.state = .detect := by
  set tx := txAssemble tx0 user payload
  set tx1 := (txWriteSymbol tx).2
  set short := (txWriteSymbol tx).1 with hshort
  set long := (txWriteSymbol tx1).1 with hlong
  set rest := (txBlocks ((txHdrCounts tx0).nsym + (txPayCounts tx0 payload.length).nsym) (txWriteSymbol tx1).2).1 with hrest
  have blocks : (txBlocks ((txHdrCounts tx0).nsym + (txPayCounts tx0 payload.length).nsym + 1 + 1) tx).1 = short ++ (long ++ rest) := rfl
  have shortLen : short.length = rx.m + rx.cpLen := by rw [paired.m, paired.cpLen]; exact txWriteSymbol_block_length tx
  have longLen : long.length = rx.m + rx.cpLen := by rw [paired.m, paired.cpLen]; exact txWriteSymbol_block_length tx1
  have preamble : tx.fd.getD tx.cursor [] = shortPreamble rx.table := by
    rw [paired.table]; exact congrArg TxDerived.short conf.derived
  obtain ⟨peak, queue⟩ := rxRun_shortBlock active state kappa even carried (tx := tx) paired.m.symm paired.cpLen.symm conf.tapered
    (hshort.trans (by rw [← preamble]; rfl)) locks
  set early := long.take (rx.m / 2 + 1)
  set late := long.drop (rx.m / 2 + 1)
  have parts : early ++ late = long := List.take_append_drop _ _
  have inside : rx.m / 2 + 1 < rx.m + rx.cpLen := by have := active.stored.m_ge; omega
  have earlyLen : early.length = rx.m / 2 + 1 := by rw [List.length_take, longLen]; omega
  have lateLen : late.length = rx.m + rx.cpLen - early.length := by rw [List.length_drop, longLen, earlyLen]
  have active1 := rxRun_active active short
  have config1 := rxRun_config active.ready active.win_ne_nil short
  obtain ⟨m1, cpLen1, -, -, -, -, -, -, -, -, -, -, kappa1, -⟩ := id config1
  obtain ⟨waits, timer, nu, phi, tau, queue1⟩ := peak.rxRun_decides (kappa1.trans kappa) active1.win_ne_nil (xs := early)
    (by rw [m1, earlyLen]) (fun j pos below => by
      rw [metric_rxRun active.ready active.win_ne_nil, List.take_take, Nat.min_eq_left (earlyLen ▸ below)]
      exact locks.after j pos (earlyLen ▸ below))
  rw [← rxRun_append] at waits timer nu phi tau queue1
  set rx2 := rxRun rx (short ++ early) with hrx2
  have config2 := rxRun_config active.ready active.win_ne_nil (short ++ early)
  obtain ⟨m2, cpLen2, -, -, -, -, -, -, maxSyms2, -⟩ := id config2
  have aligned : Aligned tx1 rx2 :=
    ⟨(rxRun_active active _).stored, (m2.trans paired.m).symm, (cpLen2.trans paired.cpLen).symm, conf.tapered, nu, phi, tau⟩
  have window : (rx2.win ++ late).drop late.length = long := by
    change (fedWindow rx2 late).win = long
    rw [hrx2, fedWindow_rxRun_win active.ready active.win_ne_nil, List.append_assoc, parts,
      fedWindow_append_block short (by rw [longLen]; exact active.stored.winLength)]
  have received := aligned.rxRun_long_frame conf (paired.of_config config2) userLen fits waits rfl rfl
    ((rxRun_keeps active.ready active.win_ne_nil _).mask.trans unmasked) (by rw [maxSyms2]; exact header)
    (by rw [maxSyms2]; exact symbols) (xs := late) (List.ne_nil_of_length_pos (by omega))
    (by rw [timer, m1, cpLen1, lateLen]) window
  have run : rxRun rx (short ++ (long ++ rest)) = rxRun rx2 (late ++ rest) := by
    rw [hrx2, ← rxRun_append, List.append_assoc, ← List.append_assoc early, parts]
  rw [blocks, run, ← queue, ← queue1]
  exact received

/-- R225: what follows in `DETECT` without passing the threshold emits nothing. -/
theorem rxRun_tail {xs tail : List Cpx} (state : (rxRun rx xs).state = .detect)
    (quiet : ∀ j, 0 < j → j ≤ tail.length → Quiet (fedWindow rx (xs ++ tail.take j))) :
    (rxRun rx (xs ++ tail)).evq = (rxRun rx xs).evq ∧ (rxRun rx (xs ++ tail)).state = .detect := by
  obtain ⟨-, -, -, -, -, -, -, -, -, detT2, -⟩ := rxRun_config active.ready active.win_ne_nil xs
  have run : rxRun (rxRun rx xs) tail = fedWindow (rxRun rx xs) tail := by
    refine rxRun_quiet state (rxRun_active active xs).win_ne_nil fun j pos inside => ?_
    rw [Quiet, metric_rxRun active.ready active.win_ne_nil]
    exact detT2 ▸ quiet j pos inside
  rw [rxRun_append, run]
  exact ⟨rfl, state⟩

end

section
variable {rx : RxUnit} {blocks : Nat}

/-- Zeros before the frame change nothing of what `LocksOn` asks. -/
theorem LocksOn.without_lead {lead len : Nat} {xs : List Cpx} (locks : LocksOn rx (zeros lead ++ xs) lead blocks)
    (state : rx.state = .detect) (win : rx.win = zeros len) (pos : 0 < len) (size : len = rx.m + rx.cpLen) :
    LocksOn rx xs 0 blocks := by
  have skip (i : Nat) : (zeros lead ++ xs).take (lead + i) = zeros lead ++ xs.take i := by
    have taken := List.take_length_add_append (l₁ := zeros lead) (l₂ := xs) i
    rwa [zeros_length] at taken
  have fed (ys : List Cpx) : fedWindow rx (zeros lead ++ ys) = fedWindow rx ys := by rw [fedWindow_append, fedWindow_zeros win]
  constructor
  case before =>
    have before := locks.before
    rw [Nat.add_sub_assoc (by omega), skip, rxRun_append, rxRun_zeros state pos win] at before
    rwa [Nat.zero_add]
  case after =>
    intro j least most
    have after := locks.after (lead + j) (by omega) (by omega)
    rwa [skip, fed] at after
  case tail =>
    intro j least most
    have tail := locks.tail (lead + j) (by omega) (by omega)
    rwa [skip, fed] at tail

theorem LocksOn.onBlock {short long rest : List Cpx} (locks : LocksOn rx (short ++ (long ++ rest)) 0 blocks)
    (shortLen : short.length = rx.m + rx.cpLen) (longLen : long.length = rx.m + rx.cpLen) (pos : 1 < rx.m) :
    LocksOnBlock rx short long where
  before := by
    have before := locks.before
    rwa [Nat.zero_add, List.take_append_of_le_length (by omega)] at before
  after j least most := by
    have after := locks.after (rx.m + rx.cpLen + j) (by omega) (by omega)
    rwa [← shortLen, List.take_length_add_append, List.take_append_of_le_length (by omega)] at after

theorem LocksOn.quietTail {xs tail : List Cpx} (locks : LocksOn rx (xs ++ tail) 0 (blocks + 1))
    (before : xs.length = blocks * (rx.m + rx.cpLen)) (last : tail.length = rx.m + rx.cpLen) :
    ∀ j, 0 < j → j ≤ tail.length → Quiet (fedWindow rx (xs ++ tail.take j)) := by
  intro j pos inside
  have quiet := locks.tail (xs.length + j) (by rw [Nat.add_sub_cancel, before]; omega)
    (by rw [before, Nat.succ_mul, ← last]; omega)
  rwa [List.take_length_add_append] at quiet

end

/-- R251 for the zeros and the frame in one piece. -/
theorem rxRun_roundTrip {tx0 : TxUnit} {rx : RxUnit} {user payload : List Byte} {lead k : Nat} (active : RxActive rx)
    (conf : TxConfigured tx0) (paired : Matched tx0 rx) (userLen : user.length = tx0.hUser) (fits : payload.length ≤ 65535)
    (state : rx.state = .detect) (win : rx.win = zeros (rx.m + rx.cpLen)) (unmasked : rx.evmask = 3#2) (kappa : rx.kappa = 1)
    (even : k % 2 = 0) (carried : tagAt rx.table k ≠ .null) (header : (txHdrCounts tx0).nsym ≤ rx.maxSyms)
    (symbols : (txPayCounts tx0 payload.length).nsym ≤ rx.maxSyms)
    (locks : LocksOn rx (zeros lead ++ (txBlocks (txAssemble tx0 user payload).nTot (txAssemble tx0 user payload)).1) lead
      (txAssemble tx0 user payload).nTot) :
    let rx' := rxRun rx (zeros lead ++ (txBlocks (txAssemble tx0 user payload).nTot (txAssemble tx0 user payload)).1)
    rx'.evq = rx.evq ++ [.header true user, .frame true payload.length user payload] ∧ rx'.state = .detect := by
  have least := active.stored.m_ge
  set tx := txAssemble tx0 user payload
  set n := (txHdrCounts tx0).nsym + (txPayCounts tx0 payload.length).nsym + 1 + 1 with hn
  have total : tx.nTot = n + 1 := by
    change 2 + (txHdrCounts tx0).nsym + (txPayCounts tx0 payload.length).nsym + 1 = n + 1
    omega
  have size : tx.m + tx.cpLen = rx.m + rx.cpLen := by rw [paired.m, paired.cpLen]; rfl
  have split : (txBlocks tx.nTot tx).1 = (txBlocks n tx).1 ++ (txWriteSymbol (txBlocks n tx).2).1 := by
    rw [total, txBlocks_add]; exact congrArg _ (List.append_nil _)
  have same := txBlocks_sameFrame n tx
  set before := (txBlocks n tx).1 with hbefore
  set tail := (txWriteSymbol (txBlocks n tx).2).1
  have tailLen : tail.length = rx.m + rx.cpLen := by rw [txWriteSymbol_block_length, same.m, same.cpLen, size]
  rw [split, total] at locks
  rw [split]
  have locks0 := locks.without_lead state win (by omega) rfl
  have quiet := locks0.quietTail (by rw [hbefore, txBlocks_length, size]) tailLen
  have onBlock : LocksOnBlock rx (txWriteSymbol tx).1 (txWriteSymbol (txWriteSymbol tx).2).1 := by
    refine LocksOn.onBlock (blocks := n + 1) (rest := (txBlocks ((txHdrCounts tx0).nsym + (txPayCounts tx0 payload.length).nsym)
      (txWriteSymbol (txWriteSymbol tx).2).2).1 ++ tail) ?_ ((txWriteSymbol_block_length _).trans size)
      ((txWriteSymbol_block_length _).trans size) (by omega)
    rw [← List.append_assoc, ← List.append_assoc, List.append_assoc (txWriteSymbol tx).1]
    exact locks0
  obtain ⟨queue, detect⟩ :=
    rxRun_blocks active conf paired userLen fits state unmasked kappa even carried header symbols onBlock
  obtain ⟨queue', detect'⟩ := rxRun_tail active detect quiet
  rw [rxRun_append, rxRun_zeros state (by omega) win]
  exact ⟨queue'.trans queue, detect'⟩

/-- Settles O44: in one piece from the zeros on, or from the long preamble on; any pieces are one piece. -/
theorem identityChannelRoundTrip : Obligations.IdentityChannelRoundTrip := by
  constructor
  · intro tx0 rx user payload lead pieces _ conf rxConf paired userLen fits initial win unmasked kappa bin tx header symbols samples
      locks whole
    obtain ⟨k, even, carried⟩ := bin
    have active := (rxActive_iff rx).2 ⟨by rw [initial.state]; decide, rxConf⟩
    rw [foldl_rxRun, whole]
    exact rxRun_roundTrip active conf paired userLen fits initial.state win unmasked kappa even carried header symbols locks
  · intro tx0 rx user payload _ conf rxConf paired userLen fits state timer nu phi tau unmasked tx header symbols
    have stored := ((rxActive_iff rx).2 ⟨by rw [state]; decide, rxConf⟩).stored
    have aligned : Aligned tx rx := ⟨stored, paired.m.symm, paired.cpLen.symm, conf.tapered, nu, phi, tau⟩
    have len : (txWriteSymbol tx).1.length = rx.m + rx.cpLen := by
      rw [paired.m, paired.cpLen]; exact txWriteSymbol_block_length tx
    have count : 1 + tx.nHdr + tx.nPay = tx.nHdr + tx.nPay + 1 := by omega
    rw [count]
    exact aligned.rxRun_long_frame conf paired userLen fits state rfl rfl unmasked header symbols (xs := (txWriteSymbol tx).1)
      (aligned.block_ne_nil _) (by rw [timer, len]) (by rw [len, ← stored.winLength, List.drop_left])

end Sys2Proof.Machine

/-! SUPPORT. The system's rules (45_system.md): the status read (R271) by the numbers of R35's table, and the illegal command (R272),
which is answered and skipped. -/

namespace Sys2Proof.Machine

/-! ### `RDCSR` (R104, R271) -/

theorem exec_rdcsr (c : Csr) (s : State) :
    exec (.rdcsr (.fits c)) s = .next { s with rsp := s.rsp ++ [0x00000100#32, csrValue s c] } := by
  have header : statusWord .ok 1 = 0x00000100#32 := by decide
  rw [← header]; rfl

/-- R104: the one operand word is the number of the CSR. -/
theorem decodeRdCsr_eq_fits_iff (ops : List Word) (c : Csr) : decodeRdCsr ops = .fits c ↔ ops = [csrNumber c] := by
  constructor
  · intro fits
    rw [← operandsOf_decodeRdCsr ops, fits]; rfl
  · rintro rfl
    exact decodeRdCsr_operandsOf c

theorem mem_allCsrs (c : Csr) : c ∈ allCsrs := by cases c <;> decide

/-- R35: the numbers of the table without a gap, the TXU's from 0 and the RXU's from 0x10. -/
theorem allCsrs_numbers : (allCsrs.map fun c => (csrNumber c).toNat) = List.range 11 ++ List.range' 16 20 := by decide

/-- R35: the numbers that are a CSR's. -/
theorem exists_csrNumber_iff (w : Word) :
    (∃ c, csrNumber c = w) ↔ w.toNat ≤ 0x0A ∨ (0x10 ≤ w.toNat ∧ w.toNat ≤ 0x23) := by
  have listed : (∃ c, csrNumber c = w) ↔ w.toNat ∈ allCsrs.map fun c => (csrNumber c).toNat := by
    simp only [List.mem_map, mem_allCsrs, true_and, BitVec.toNat_inj]
  rw [listed, allCsrs_numbers, List.mem_append, List.mem_range, List.mem_range'_1]
  omega

/-- Settles O52: the operand word is the number of the CSR read, and the answer its value. -/
theorem rdcsrAnswersTheValue : Obligations.RdcsrAnswersTheValue := by
  refine ⟨fun s c => exec_rdcsr c s, fun s ws => rfl, fun ops => ?numbers, fun w c => ?number, ?table,
    fun s => ⟨rfl, rfl, rfl, rfl, rfl, rfl, rfl, rfl⟩, ?worked⟩
  case numbers =>
    simp only [decodeRdCsr_eq_fits_iff, ← exists_csrNumber_iff]
    constructor
    · rintro ⟨c, rfl⟩
      exact ⟨_, rfl, c, rfl⟩
    · rintro ⟨_, rfl, c, rfl⟩
      exact ⟨c, rfl⟩
  case number =>
    rw [decodeRdCsr_eq_fits_iff, List.singleton_inj]
    exact eq_comm
  case table =>
    have named : ∀ nc ∈ allCsrs.map fun c => (csrNumber c, c), decodeRdCsr [nc.1] = .fits nc.2 :=
      List.forall_mem_map.2 fun c _ => decodeRdCsr_operandsOf c
    exact named
  case worked =>
    exact (step_of_command (h := 0x20000001#32) (ops := [0x19#32]) (rest := []) rfl
      (i := .rdcsr (.fits .rxEvmask)) rfl).trans (exec_rdcsr _ _)

/-! ### An illegal command (R107, R272) -/

theorem splitWords_rest {n : Nat} {ws ops rest : List Word} (h : splitWords n ws = some (ops, rest)) : rest = ws.drop n := by
  induction n generalizing ws ops with
  | zero => cases h; rfl
  | succ n ih =>
    cases ws with
    | nil => cases h
    | cons w ws =>
      rw [splitWords] at h
      split at h
      next taken => cases h; exact ih taken
      next => cases h

/-- R108: the stream goes on behind the operand words the header counts, whatever the opcode. -/
theorem takeCommand_rest {ws ops rest : List Word} {h : Word} (taken : takeCommand ws = some (h, ops, rest)) :
    rest = ws.drop (1 + headerCount h) := by
  cases ws with
  | nil => cases taken
  | cons w ws =>
    rw [takeCommand] at taken
    split at taken
    next cut => cases taken; rw [splitWords_rest cut, Nat.add_comm, List.drop_succ_cons]
    next => cases taken

/-- R272: a reserved opcode is answered, in the state without the command's words. -/
theorem step_of_rejected {s : State} {h : Word} {ops rest : List Word} {r : Reject}
    (taken : takeCommand s.cmd = some (h, ops, rest)) (reserved : decode h ops = .rejected r) :
    step s = raise .illegalCommand (s.setCmd rest) := by
  simp only [step, taken, reserved]

/-- R111: the check of the layout comes right behind the check that the unit is configured. -/
theorem exec_of_misfit {s : State} : ∀ {i : Instr}, UnitReady i s → operandsFit i = false → exec i s = raise .illegalCommand s
  | .txcfg (.misfit _), _, _ | .rxcfg (.misfit _), _, _ | .rxreset (.misfit _), _, _ | .rdcsr (.misfit _), _, _
  | .defalloc (.misfit _), _, _ | .allocchk (.misfit _), _, _ => rfl
  | .txprops (.misfit _), ⟨tx, _⟩, _ | .assemble (.misfit _), ⟨tx, _⟩, _ | .wrsym (.misfit _), ⟨tx, _⟩, _ =>
    ifTxConfigured_of_configured (tx rfl) _
  | .execute (.misfit _), ⟨_, rx⟩, _ | .rxsetcb (.misfit _), ⟨_, rx⟩, _ => ifRxConfigured_of_configured (rx rfl) _

theorem exec_assemble_of_not_shape {s : State} {a : AssembleOps} (ready : s.tx.state ≠ .unconfigured)
    (shape : ¬ AssembleShape s.tx a) : exec (.assemble (.fits a)) s = raise .illegalCommand s :=
  (ifTxConfigured_of_configured ready _).trans (if_pos shape)

/-- R107: both ways for a command to be illegal are answered alike. -/
theorem exec_of_illegal {i : Instr} {s : State} (illegal : Raises i s .illegalCommand) : exec i s = raise .illegalCommand s := by
  obtain ⟨ready, misfit | ⟨a, rfl, shape⟩⟩ := illegal
  · exact exec_of_misfit ready misfit
  · exact exec_assemble_of_not_shape (ready.1 rfl) shape

/-- Settles O5: the words are taken before anything is decoded, and no illegal command gets past the checks of R111. -/
theorem illegalCommandIsAnsweredAndSkipped : Obligations.IllegalCommandIsAnsweredAndSkipped := by
  intro s h ops rest taken illegal
  refine ⟨?answered, takeCommand_rest taken⟩
  rcases illegal with ⟨r, reserved⟩ | ⟨i, decoded, ready, cause⟩
  · exact step_of_rejected taken reserved
  · exact (step_of_command taken decoded).trans (exec_of_illegal (s := s.setCmd rest) ⟨ready, cause⟩)

end Sys2Proof.Machine

/-! SUPPORT. What one sample appends to the event queue (60_exceptions.md R291, R293): only the end of a header or of a payload writes
records. -/

namespace Sys2Proof.Machine

/-! ### The records of one sample (R293) -/

/-- R293 (b): the records that one sample in a state may append. -/
def SampleRecords (state : RxState) (new : List EventRecord) : Prop :=
  new = [] ∨ (∃ v u, new = [.header v u] ∧ state = .rxHeader) ∨
    (∃ v n u p, new = [.frame v n u p] ∧ (state = .rxHeader ∨ state = .rxPayload)) ∨
    (∃ u v n p, new = [.header true u, .frame v n u p] ∧ state = .rxHeader)

/-- From `rx` to `rx'` the queue grows by what one sample in the state of `rx` may append. -/
def AppendsRecords (rx rx' : RxUnit) : Prop := ∃ new, rx'.evq = rx.evq ++ new ∧ SampleRecords rx.state new

section
variable {rx rx' : RxUnit}

theorem appendsRecords_of_evq (same : rx'.evq = rx.evq) : AppendsRecords rx rx' :=
  ⟨[], by rw [same, List.append_nil], .inl rfl⟩

/-- R291: the mask writes a `HEADER` or loses it. -/
theorem sampleRecords_header (state : rx.state = .rxHeader) (enabled valid : Bool) (user : List Byte) :
    SampleRecords rx.state (if enabled then [.header valid user] else []) := by
  cases enabled
  · exact .inl rfl
  · exact .inr (.inl ⟨_, _, rfl, state⟩)

/-- R291: the mask writes a `FRAME` or loses it. -/
theorem sampleRecords_frame (state : rx.state = .rxHeader ∨ rx.state = .rxPayload) (enabled valid : Bool) (plen : Nat)
    (user payload : List Byte) : SampleRecords rx.state (if enabled then [.frame valid plen user payload] else []) := by
  cases enabled
  · exact .inl rfl
  · exact .inr (.inr (.inl ⟨_, _, _, _, rfl, state⟩))

/-- R291: of a valid `HEADER` and the `FRAME` behind it the mask writes each or loses it. -/
theorem sampleRecords_header_frame (state : rx.state = .rxHeader) (headers frames valid : Bool) (plen : Nat)
    (user payload : List Byte) : SampleRecords rx.state
      ((if headers then [.header true user] else []) ++ (if frames then [.frame valid plen user payload] else [])) := by
  cases headers
  · exact sampleRecords_frame (.inl state) frames _ _ _ _
  · cases frames
    · exact sampleRecords_header state true _ _
    · exact .inr (.inr (.inr ⟨_, _, _, _, rfl, state⟩))

end

/-! ### The rules that write nothing (R225 to R228) -/

theorem stepDetect_evq (rx : RxUnit) : (stepDetect rx).evq = rx.evq := by
  rcases stepDetect_cases rx with e | e <;> rw [e]
  rfl

theorem shortBudget_evq (rx : RxUnit) : (shortBudget rx).evq = rx.evq := by
  rcases shortBudget_cases rx with ⟨-, e⟩ | ⟨-, e⟩ <;> rw [e]
  rfl

theorem stepSyncShort_evq (rx : RxUnit) : (stepSyncShort rx).evq = rx.evq := by
  rcases stepSyncShort_cases rx with e | ⟨-, e⟩ | ⟨-, e⟩ <;> rw [e]
  · exact shortBudget_evq _
  · rfl
  · exact shortBudget_evq _

theorem testLong_evq (rx : RxUnit) : (testLong rx).evq = rx.evq := by
  rcases testLong_cases rx with e | ⟨-, e⟩ | ⟨-, e⟩ <;> rw [e] <;> rfl

/-- Nothing is written before the timer has run out. -/
theorem tick_appends {k : RxUnit → RxUnit} {rx : RxUnit} (due : AppendsRecords rx (k { rx with timer := 0 })) :
    AppendsRecords rx (tick k rx) := by
  rcases tick_cases k rx with ⟨-, e⟩ | ⟨-, e⟩ <;> rw [e]
  · exact due
  · exact appendsRecords_of_evq rfl

/-! ### The rules that write (R229, R241 to R245) -/

/-- R245: the end of a payload writes one `FRAME`, if that event is enabled. -/
theorem finishPayload_evq (rx : RxUnit) : ∃ valid payload, (finishPayload rx).evq =
    rx.evq ++ if frameEnabled rx.evmask then [.frame valid rx.plen rx.hdrUser payload] else [] :=
  ⟨_, _, emit_evq _ rx⟩

section
variable {rx : RxUnit}

theorem finishPayload_appends (state : rx.state = .rxHeader ∨ rx.state = .rxPayload) : AppendsRecords rx (finishPayload rx) := by
  obtain ⟨valid, payload, written⟩ := finishPayload_evq rx
  exact ⟨_, written, sampleRecords_frame state _ _ _ _ _⟩

/-- R243, R244: an invalid header writes a `HEADER`; a valid one too, and behind it, when its payload takes no symbol, a `FRAME`. -/
theorem finishHeader_appends (state : rx.state = .rxHeader) : AppendsRecords rx (finishHeader rx) := by
  rcases finishHeader_refused_or_accepted rx with refused | ⟨h, decoded, parsed⟩
  · rw [finishHeader_refused refused]
    exact ⟨_, emit_evq _ rx, sampleRecords_header state _ _ _⟩
  · rw [finishHeader_accepted decoded parsed]
    by_cases empty : (payloadBegun h rx).nPay = 0
    · rw [beginPayload_of_empty empty]
      obtain ⟨valid, payload, written⟩ := finishPayload_evq (payloadBegun h rx)
      exact ⟨_, written.trans (List.append_assoc _ _ _), sampleRecords_header_frame state _ _ _ _ _ _⟩
    · rw [beginPayload_of_symbols empty]
      exact ⟨_, rfl, sampleRecords_header state _ _ _⟩

theorem afterSymbol_appends (state : rx.state = .rxHeader ∨ rx.state = .rxPayload) : AppendsRecords rx (afterSymbol rx) := by
  rcases afterSymbol_cases rx with ⟨header, -, e⟩ | ⟨-, -, e⟩ | ⟨-, e⟩ | ⟨-, -, -, e⟩ <;> rw [e]
  · exact finishHeader_appends header
  · exact finishPayload_appends state
  · exact appendsRecords_of_evq rfl
  · exact appendsRecords_of_evq rfl

theorem stepReceive_appends (state : rx.state = .rxHeader ∨ rx.state = .rxPayload) : AppendsRecords rx (stepReceive rx) :=
  tick_appends (afterSymbol_appends (rx := receiveSymbol { rx with timer := 0 }) state)

end

/-- R223: the shift of the window writes nothing, so what a sample writes is what the rule of the state writes. -/
theorem rxStep_appends (rx : RxUnit) (x : Cpx) : AppendsRecords rx (rxStep rx x) := by
  cases state : rx.state with
  | unconfigured => simp only [rxStep, state]; exact appendsRecords_of_evq rfl
  | detect => rw [rxStep_detect x state]; exact appendsRecords_of_evq (stepDetect_evq _)
  | syncShort => rw [rxStep_syncShort x state]; exact appendsRecords_of_evq (stepSyncShort_evq _)
  | syncLong => rw [rxStep_syncLong x state]; exact tick_appends (appendsRecords_of_evq (testLong_evq _))
  | rxHeader => rw [rxStep_receive x (.inl state)]; exact stepReceive_appends (rx := shiftWindow x rx) (.inl state)
  | rxPayload => rw [rxStep_receive x (.inr state)]; exact stepReceive_appends (rx := shiftWindow x rx) (.inr state)

/-- Settles O45, by cases over the states: only the end of a header or of a payload writes records. -/
theorem oneSampleEmitsAtMostTwoRecords : Obligations.OneSampleEmitsAtMostTwoRecords := rxStep_appends

end Sys2Proof.Machine

/-! SUPPORT. How a command ends (60_exceptions.md R281 to R286): every failure status is answered where its cause holds, every command
without a cause succeeds, and a response tells its status. -/

namespace Sys2Proof.Machine

/-! ### Responses tell apart (R93, R280) -/

/-- The answer `r` to a command in `s` has status `OK` and its payload words, whatever the units become. -/
def Succeeds (s : State) (r : Result) : Prop := ∃ ws tx rx, r = respond ws { s with tx := tx, rx := rx }

theorem respond_succeeds (ws : List Word) (s : State) : Succeeds s (respond ws s) := ⟨ws, s.tx, s.rx, rfl⟩

theorem respond_setTx_succeeds (ws : List Word) (s : State) (tx : TxUnit) : Succeeds s (respond ws (s.setTx tx)) :=
  ⟨ws, tx, s.rx, rfl⟩

theorem respond_setRx_succeeds (ws : List Word) (s : State) (rx : RxUnit) : Succeeds s (respond ws (s.setRx rx)) :=
  ⟨ws, s.tx, rx, rfl⟩

theorem statusWord_status {a b : Status} {m n : Nat} (same : statusWord a m = statusWord b n) : a = b :=
  statusCode_injective (by rw [← statusWord_low a m, same, statusWord_low])

theorem raise_status {a b : Status} {s : State} (same : raise a s = raise b s) : a = b := by
  have rsp : s.rsp ++ [statusWord a 0] = s.rsp ++ [statusWord b 0] := (raise_next same).1.symm
  exact statusWord_status (List.singleton_inj.1 (List.append_cancel_left rsp))

theorem Succeeds.status {s : State} {st : Status} (h : Succeeds s (raise st s)) : st = .ok := by
  obtain ⟨ws, tx, rx, same⟩ := h
  have rsp : s.rsp ++ [statusWord st 0] = s.rsp ++ statusWord .ok ws.length :: ws := (respond_next same.symm).1
  exact statusWord_status (List.cons.inj (List.append_cancel_left rsp)).1

/-! ### The checks of the configure commands, both ways (R191, R221) -/

/-- R191: `TXCFG` succeeds on an unconfigured unit with legal operands, and only then. -/
theorem txConfigure_isSome_iff (c : TxCfgOps) (tx : TxUnit) :
    (txConfigure c tx).isSome ↔ tx.state = .unconfigured ∧ TxCfgLegal c := by
  constructor
  · intro done
    obtain ⟨tx', configured⟩ := Option.isSome_iff_exists.1 done
    obtain ⟨dims, valid, -⟩ := txConfigure_some configured
    have fresh : tx.state = .unconfigured := by
      by_contra ready
      exact nomatch (txConfigure_of_configured ready c).symm.trans configured
    obtain ⟨even, least, most, prefixed, tapered⟩ := (legalDims_iff _ _ _).1 dims
    simp only [txConfigure, fresh, dims, valid, ne_eq, not_true_eq_false, if_false, Bool.not_true, Bool.false_eq_true] at done
    split at done
    next check fec0 fec1 md hdrMod =>
      exact ⟨fresh, even, least, most, prefixed, tapered, valid, check ▸ rfl, fec0 ▸ rfl, fec1 ▸ rfl, md ▸ rfl, hdrMod ▸ rfl⟩
    next => cases done
  · rintro ⟨fresh, legal⟩
    obtain ⟨tx', done, -⟩ := txConfigure_of_legal fresh legal
    exact done ▸ rfl

/-- R221: `RXCFG` succeeds on an unconfigured unit with legal operands, and only then. -/
theorem rxConfigure_isSome_iff (c : RxCfgOps) (rx : RxUnit) :
    (rxConfigure c rx).isSome ↔ rx.state = .unconfigured ∧ RxCfgLegal c := by
  constructor
  · intro done
    obtain ⟨rx', configured⟩ := Option.isSome_iff_exists.1 done
    obtain ⟨dims, valid, syms, tuning, -⟩ := rxConfigure_some configured
    have fresh : rx.state = .unconfigured := by
      by_contra ready
      exact nomatch (rxConfigure_of_configured ready c).symm.trans configured
    obtain ⟨even, least, most, prefixed, tapered⟩ := (legalDims_iff _ _ _).1 dims
    obtain ⟨det, long, alpha, kappa⟩ := (legalTuning_iff _ _ _ _).1 tuning
    simp only [rxConfigure, fresh, dims, valid, ne_eq, not_true_eq_false, if_false, Bool.not_true, Bool.false_eq_true] at done
    split at done
    next check fec md =>
      exact ⟨fresh, even, least, most, prefixed, tapered, valid, check ▸ rfl, fec ▸ rfl, md ▸ rfl, syms, det, long, alpha, kappa⟩
    next => cases done
  · rintro ⟨fresh, legal⟩
    obtain ⟨rx', done, -⟩ := rxConfigure_of_legal fresh legal
    exact done ▸ rfl

theorem exec_txcfg_of_illegal {s : State} {c : TxCfgOps} (illegal : ¬ (s.tx.state = .unconfigured ∧ TxCfgLegal c)) :
    exec (.txcfg (.fits c)) s = raise .invalidConfiguration s := by
  have failed : txConfigure c s.tx = none := by rwa [← Option.not_isSome_iff_eq_none, txConfigure_isSome_iff]
  simp only [exec, execTxcfg, ifFits_fits, failed]

theorem exec_rxcfg_of_illegal {s : State} {c : RxCfgOps} (illegal : ¬ (s.rx.state = .unconfigured ∧ RxCfgLegal c)) :
    exec (.rxcfg (.fits c)) s = raise .invalidConfiguration s := by
  have failed : rxConfigure c s.rx = none := by rwa [← Option.not_isSome_iff_eq_none, rxConfigure_isSome_iff]
  simp only [exec, execRxcfg, ifFits_fits, failed]

theorem exec_txprops_of_unsupported {s : State} {p : PropsOps} (ready : s.tx.state ≠ .unconfigured)
    (unsupported : ¬ PropsSupported p) : exec (.txprops (.fits p)) s = raise .invalidConfiguration s :=
  exec_txprops_of_none ready (Option.not_isSome_iff_eq_none.1 fun done => unsupported (txSetProps_isSome_iff.1 done))

/-! ### Each failure where its cause holds (R281 to R285) -/

section
variable {s : State}

theorem unitReady_or (i : Instr) : UnitReady i s ∨
    (needsTx i = true ∧ s.tx.state = .unconfigured) ∨ (needsRx i = true ∧ s.rx.state = .unconfigured) := by
  unfold UnitReady
  tauto

theorem exec_of_txUnconfigured (fresh : s.tx.state = .unconfigured) : ∀ {i : Instr}, needsTx i = true →
    exec i s = raise .notConfigured s
  | .txprops _, _ | .assemble _, _ | .wrsym _, _ => ifTxConfigured_of_unconfigured fresh _

theorem exec_of_rxUnconfigured (fresh : s.rx.state = .unconfigured) : ∀ {i : Instr}, needsRx i = true →
    exec i s = raise .notConfigured s
  | .execute _, _ | .rxsetcb _, _ => ifRxConfigured_of_unconfigured fresh _

/-- R285: the check of R111 that comes first. -/
theorem exec_of_not_unitReady {i : Instr} (unready : ¬ UnitReady i s) : exec i s = raise .notConfigured s := by
  rcases unitReady_or i (s := s) with ready | ⟨needs, fresh⟩ | ⟨needs, fresh⟩
  · exact absurd ready unready
  · exact exec_of_txUnconfigured fresh needs
  · exact exec_of_rxUnconfigured fresh needs

/-- R283: a payload too long, or of too many symbols. -/
theorem exec_assemble_of_tooLarge {a : AssembleOps} (ready : s.tx.state ≠ .unconfigured) (shape : AssembleShape s.tx a)
    (large : ¬ PayloadFits s.tx a) : exec (.assemble (.fits a)) s = raise .payloadTooLarge s := by
  refine (ifTxConfigured_of_configured ready _).trans ((if_neg (not_not.2 shape)).trans ?_)
  split_ifs with len syms
  · rfl
  · rfl
  · exact absurd ⟨Nat.not_lt.1 len, Nat.not_lt.1 syms⟩ large

/-- R281 to R285: where the cause of a failure holds, that failure is answered; so no two causes ever hold together. -/
theorem exec_of_raises {i : Instr} : ∀ {st : Status}, Raises i s st → exec i s = raise st s
  | .notConfigured, unready => exec_of_not_unitReady unready
  | .illegalCommand, illegal => exec_of_illegal illegal
  | .notAssembled, ⟨wrsym, idle⟩ => wrsym ▸ exec_wrsym_of_idle idle
  | .invalidAllocation, ⟨_, allocchk, invalid⟩ =>
    allocchk ▸ exec_allocchk_of_invalid ((validate_invalidAllocation_iff _ _).1 invalid) s
  | .payloadTooLarge, ⟨_, assemble, ready, shape, large⟩ => assemble ▸ exec_assemble_of_tooLarge ready shape large
  | .invalidConfiguration, .inl ⟨_, txcfg, illegal⟩ => txcfg ▸ exec_txcfg_of_illegal illegal
  | .invalidConfiguration, .inr (.inl ⟨_, txprops, ready, unsupported⟩) => txprops ▸ exec_txprops_of_unsupported ready unsupported
  | .invalidConfiguration, .inr (.inr (.inl ⟨_, rxcfg, illegal⟩)) => rxcfg ▸ exec_rxcfg_of_illegal illegal
  | .invalidConfiguration, .inr (.inr (.inr ⟨_, defalloc, outside⟩)) => defalloc ▸ exec_defalloc_of_illegal outside s

end

/-! ### A command without a cause of failure succeeds -/

/-- Every command with operands that fit, on the unit it needs, either succeeds or has a cause of failure. -/
theorem succeeds_or_raises_of_fits {s : State} : ∀ {i : Instr}, UnitReady i s → operandsFit i = true →
    Succeeds s (exec i s) ∨ ∃ st, Raises i s st
  | .txcfg (.fits c), _, _ => by
    by_cases legal : s.tx.state = .unconfigured ∧ TxCfgLegal c
    · obtain ⟨tx, done⟩ := Option.isSome_iff_exists.1 ((txConfigure_isSome_iff _ _).2 legal)
      exact .inl (exec_txcfg_of_some done ▸ respond_setTx_succeeds _ s tx)
    · exact .inr ⟨.invalidConfiguration, .inl ⟨c, rfl, legal⟩⟩
  | .txprops (.fits p), ready, _ => by
    by_cases supported : PropsSupported p
    · obtain ⟨tx, -, done⟩ := exec_txprops_of_supported (ready.1 rfl) supported
      exact .inl (done ▸ respond_setTx_succeeds _ s tx)
    · exact .inr ⟨.invalidConfiguration, .inr (.inl ⟨p, rfl, ready.1 rfl, supported⟩)⟩
  | .assemble (.fits a), ready, _ => by
    by_cases shape : AssembleShape s.tx a
    · by_cases small : PayloadFits s.tx a
      · have done : exec (.assemble (.fits a)) s = _ := execAssemble_of_legal (ready.1 rfl) shape small
        exact .inl (done ▸ respond_setTx_succeeds _ s _)
      · exact .inr ⟨.payloadTooLarge, a, rfl, ready.1 rfl, shape, small⟩
    · exact .inr ⟨.illegalCommand, ready, .inr ⟨a, rfl, shape⟩⟩
  | .wrsym (.fits ()), ready, _ => by
    by_cases idle : s.tx.state = .idle
    · exact .inr ⟨.notAssembled, rfl, idle⟩
    · have done : exec (.wrsym (.fits ())) s = _ := (ifTxConfigured_of_configured (ready.1 rfl) _).trans (if_neg idle)
      exact .inl (done ▸ respond_setTx_succeeds _ s _)
  | .rxcfg (.fits c), _, _ => by
    by_cases legal : s.rx.state = .unconfigured ∧ RxCfgLegal c
    · obtain ⟨rx, done⟩ := Option.isSome_iff_exists.1 ((rxConfigure_isSome_iff _ _).2 legal)
      exact .inl (exec_rxcfg_of_some done ▸ respond_setRx_succeeds _ s rx)
    · exact .inr ⟨.invalidConfiguration, .inr (.inr (.inl ⟨c, rfl, legal⟩))⟩
  | .execute (.fits xs), ready, _ => .inl (exec_execute_of_configured (ready.2 rfl) xs ▸ respond_setRx_succeeds _ s _)
  | .rxreset (.fits ()), _, _ => by
    by_cases fresh : s.rx.state = .unconfigured
    · have done : exec (.rxreset (.fits ())) s = _ := if_pos fresh
      exact .inl (done ▸ respond_succeeds _ s)
    · exact .inl (exec_rxreset_of_configured fresh ▸ respond_setRx_succeeds _ s _)
  | .rxsetcb (.fits mask), ready, _ => by
    have done : exec (.rxsetcb (.fits mask)) s = _ := ifRxConfigured_of_configured (ready.2 rfl) _
    exact .inl (done ▸ respond_setRx_succeeds _ s _)
  | .rdcsr (.fits c), _, _ => .inl (respond_succeeds [csrValue s c] s)
  | .defalloc (.fits m), _, _ => by
    by_cases outside : m.toNat < 8 ∨ 65535 < m.toNat
    · exact .inr ⟨.invalidConfiguration, .inr (.inr (.inr ⟨m, rfl, outside⟩))⟩
    · exact .inl (exec_defalloc_of_legal (m := m) (by omega) (by omega) s ▸ respond_succeeds _ s)
  | .allocchk (.fits a), _, _ => by
    rcases validate_cases a.table a.m.toNat with valid | invalid
    · exact .inl (exec_allocchk_of_valid valid s ▸ respond_succeeds _ s)
    · exact .inr ⟨.invalidAllocation, a, rfl, invalid⟩

/-- How a command ends: with `OK`, or with a failure whose cause holds (R286). -/
theorem exec_succeeds_or_raises (i : Instr) (s : State) :
    Succeeds s (exec i s) ∨ ∃ st, Raises i s st ∧ exec i s = raise st s := by
  have outcome : Succeeds s (exec i s) ∨ ∃ st, Raises i s st := by
    by_cases ready : UnitReady i s
    · cases fits : operandsFit i with
      | true => exact succeeds_or_raises_of_fits ready fits
      | false => exact .inr ⟨.illegalCommand, ready, .inl fits⟩
    · exact .inr ⟨.notConfigured, ready⟩
  exact outcome.imp_right fun ⟨st, cause⟩ => ⟨st, cause, exec_of_raises cause⟩

/-! ### The statements (R281 to R286) -/

/-- Settles O54: a failure is a `raise`, which touches nothing but RSP, and `OK` is never the status of one. -/
theorem everyCommandIsAnsweredAllOrNothing : Obligations.EveryCommandIsAnsweredAllOrNothing := by
  intro i s
  rcases exec_succeeds_or_raises i s with ⟨ws, tx, rx, answer⟩ | ⟨st, cause, answer⟩
  · exact ⟨_, answer, .inl ⟨ws, rfl⟩⟩
  · refine ⟨_, answer, .inr ⟨st, ?_, rfl⟩⟩
    rintro rfl
    exact cause

/-- Settles O55: a response tells its status, so a command that ends with a failure has that failure's cause and no other. -/
theorem failureCausesAreExact : Obligations.FailureCausesAreExact := by
  intro i s st failure
  refine ⟨fun (failed : exec i s = raise st s) => ?_, fun cause => exec_of_raises cause⟩
  rcases exec_succeeds_or_raises i s with done | ⟨st', cause, answer⟩
  · exact absurd (failed ▸ done).status failure
  · exact raise_status (failed.symm.trans answer) ▸ cause

end Sys2Proof.Machine

/-! SUPPORT. One step of the block (45_system.md R270): how the front of CMD is cut into a command, and what the step makes of it. Then
the command words the test vectors write out (95_test_vectors.md). -/

namespace Sys2Proof.Machine

/-! ### Cutting CMD (R91, R108) -/

theorem splitWords_eq_some_iff (n : Nat) (ws ops rest : List Word) :
    splitWords n ws = some (ops, rest) ↔ ws = ops ++ rest ∧ ops.length = n := by
  constructor
  · intro cut
    induction n generalizing ws ops with
    | zero => cases cut; exact ⟨rfl, rfl⟩
    | succ n ih =>
      cases ws with
      | nil => cases cut
      | cons w ws =>
        rw [splitWords] at cut
        split at cut
        next operands _ taken =>
          cases cut
          obtain ⟨rfl, count⟩ := ih ws operands taken
          exact ⟨rfl, congrArg (· + 1) count⟩
        next => cases cut
  · rintro ⟨rfl, rfl⟩
    exact splitWords_append ops rest

/-- R91: the command taken is the header word with as many words behind it as the header counts. -/
theorem takeCommand_eq_some_iff (ws : List Word) (h : Word) (ops rest : List Word) :
    takeCommand ws = some (h, ops, rest) ↔ ws = h :: (ops ++ rest) ∧ ops.length = headerCount h := by
  constructor
  · intro taken
    cases ws with
    | nil => cases taken
    | cons w ws =>
      rw [takeCommand] at taken
      split at taken
      next cut =>
        cases taken
        obtain ⟨rfl, count⟩ := (splitWords_eq_some_iff _ _ _ _).1 cut
        exact ⟨rfl, count⟩
      next => cases taken
  · rintro ⟨rfl, count⟩
    exact takeCommand_append rest count.symm

/-! ### A step (R270) -/

/-- The block waits while CMD holds no complete command (log 13). -/
theorem step_of_incomplete {s : State} (incomplete : takeCommand s.cmd = none) : step s = .next s := by
  simp only [step, incomplete]

/-- Settles O3: the step by what `takeCommand` and `decode` find; a reserved opcode's `raise` is the one status word. -/
theorem stepRunsTheDecodedCommand : Obligations.StepRunsTheDecodedCommand := by
  refine fun s => ⟨step_of_incomplete, fun h ops rest taken => ?_⟩
  obtain ⟨stream, count⟩ := (takeCommand_eq_some_iff _ _ _ _).1 taken
  have reservedStatus : statusWord .illegalCommand 0 = 0x000000FF#32 := by decide
  refine ⟨stream, count, fun i decoded => step_of_command taken decoded, fun r reserved => ?_⟩
  rw [step_of_rejected taken reserved, raise_eq, reservedStatus]
  rfl

/-! ### The words of the test vectors (95_test_vectors.md 2) -/

/-- R91, R92: words that are the encoding of a well-formed command decode to it. -/
theorem decode_of_encode {h : Word} {ops : List Word} {i : Instr} (wellFormed : WellFormed i = true) (words : encode i = h :: ops) :
    decode h ops = .command i := by
  obtain ⟨rfl, rfl⟩ := List.cons.inj words
  exact (encodeThenDecodeGivesTheCommand i [] wellFormed).2

/-- Settles O4: words of operands that fit are their command's encoding, except where a table word has bits beyond its `L` entries
(V12); those and operands that do not fit are read by the layout of their opcode; the opcode 0x05 is not in R92's map. -/
theorem sampleWordsDecode : Obligations.SampleWordsDecode := by
  refine ⟨?txcfg, ?txprops, ?assemble, ?wrsym, ?execute, ?rxcfg, ?rxreset, ?rxresetMisfit, ?rxsetcb, ?rxsetcbMisfit, ?rdcsr,
    ?rdcsrMisfit, ?defalloc, ?allocchk, ?allocchkBeyondEntries, ?reserved⟩
  case rxresetMisfit | rxsetcbMisfit | rdcsrMisfit | allocchkBeyondEntries =>
    exact (decode_eq_command_iff _ _ _).2 ⟨by decide, rfl⟩
  case reserved => exact (decode_eq_rejected_iff 0x05000000#32 []).2 (by decide)
  all_goals exact decode_of_encode (by decide) (by decide)

end Sys2Proof.Machine
